-- ==== Sys2Proof/Word.lean ====
section
/-!
DEFINITION. The word types of the AS432 and the numberings of 00_scope.md section 7 (links, watches, event
lines, outputs, levels).
-/

namespace Sys2Proof

/-- A byte of a frame, or a value that wraps after 255 (generation, session number, notice number). -/
abbrev Byte := BitVec 8

/-- The check register of a frame (R147), a set of event lines, or the sixteen event pins. -/
abbrev Half := BitVec 16

/-- The uptime in milliseconds, which wraps after 4 294 967 295 (R20). -/
abbrev Uptime := BitVec 32

/-- A link L0 to L3. -/
abbrev Link := Fin 4

/-- The index of a watch W0 to W31. -/
abbrev WatchIx := Fin 32

/-- The index of an event line EV0 to EV15. -/
abbrev LineIx := Fin 16

/-- The number of an output: 0 to 3 are CRST0 to CRST3, 4 is SAFE (Table 7-1). -/
abbrev OutputIx := Fin 5

/-- A notice level, 3 being highest. -/
abbrev Level := Fin 4

/-- The two rate straps RATE1 (bit 1) and RATE0 (bit 0). -/
abbrev Straps := BitVec 2

end Sys2Proof
end

