-- ==== Sys2Proof/Config.lean ====
section
/-!
DEFINITION. What the AS432 fixes (sizes and times the rules give as numbers) and the one free value of the model.
-/

namespace Sys2Proof.Config

/-- The notice pool holds up to sixty-four records (R63). -/
def poolCapacity : Nat := 64

/-- Records of levels 0 to 2 are created only while fewer than fifty-six records are in the pool (R71). -/
def lowLevelCapacity : Nat := 56

/-- The reply queue has four places (R152). -/
def replyPlaces : Nat := 4

/-- The offer timer is loaded with 3000 ms (R137). -/
def offerTime : Nat := 3000

/-- The gap timer is loaded with 6 by each byte of a frame (R148). -/
def gapTime : Nat := 6

/-- The largest LEN of a frame (Table 9-2, R148). -/
def maxPayload : Nat := 58

/-- The START byte of a frame (Table 9-2). -/
def startByte : Byte := 0xC3

/-- The device revision of the parts the manual describes (R154, R165). -/
def deviceRevision : Byte := 1

/-- A record is sent at most three times on one link (R98). -/
def maxAttempts : Nat := 3

/-- FREE VALUE (log 5). When an OPEN ends a session in its own event (R155), the notice unit's share and the
authority unit's share of that end "need no order between them" (R159, R140). Which of the two comes first is read
here, from a counter State holds. It has no body: nothing can be proved of its value. -/
opaque authorityShareFirst : Nat → Bool

end Sys2Proof.Config
end

