-- ==== Sys2Proof/Syntax.lean ====
section
/-!
DEFINITION. The commands of the AS432: one constructor of `Instr` for each row of spec/opcode_table.json, with the
operands the rules give it.
-/

namespace Sys2Proof

/-- The four tick bases (R21). -/
inductive Base where
  | ms1 | ms10 | ms100 | s1
  deriving DecidableEq, Repr

/-- The blocks a tick reaches (R21), each of which takes it on its own: the watch table, the event line filters, the
output pulse timers, the acknowledgement timers, the inactivity timers, the offer timer, and the gap timers of the
receivers (R148). -/
inductive TickBlock where
  | watchTable | lines | outputs | ackTimers | inactivityTimers | offerTimer | gapTimers
  deriving DecidableEq, Repr

/-- How much of a tick one TICK command delivers: to every block that counts in its base, or to one of them. -/
inductive TickReach where
  | allBlocks
  | only (b : TickBlock)
  deriving DecidableEq, Repr

/-- A claimant of an output: a watch index, or the authority holder acting by hand (Table 7-2). -/
inductive Claimant where
  | watch (i : WatchIx)
  | manual
  deriving DecidableEq, Repr

/-- Where a notice creation comes from (R74). Creations of one channel keep their order; creations of different
channels may be taken in either order (log 1). -/
inductive Channel where
  | watch (i : WatchIx)
  | line (l : LineIx)
  | link (n : Link)
  | authority
  | outputUnit
  deriving DecidableEq, Repr

/-- How much of a broadcast is taken at once: a creation from another block may be taken between two copies (R74). -/
inductive Extent where
  | whole
  | oneCopy
  deriving DecidableEq, Repr

/-- The commands. A request command is a VALID frame of its kind, received on `n` (R149): `tag` is its TAG byte and
`payload` its PAYLOAD bytes. -/
inductive Instr where
  /-- OPEN (R154, R155). -/
  | openReq (n : Link) (tag : Byte) (payload : List Byte)
  /-- CLOSE (R156). -/
  | closeReq (n : Link) (tag : Byte) (payload : List Byte)
  /-- PING (R157). -/
  | ping (n : Link) (tag : Byte) (payload : List Byte)
  /-- STATUS (R157). -/
  | status (n : Link) (tag : Byte) (payload : List Byte)
  /-- FLOOR (R89). -/
  | floor (n : Link) (tag : Byte) (payload : List Byte)
  /-- ACK (R95, R96): `tag` is the notice number acknowledged. -/
  | ack (n : Link) (tag : Byte) (payload : List Byte)
  /-- A valid frame of a KIND that names no request (R162). -/
  | unknownRequest (n : Link) (kind tag : Byte) (payload : List Byte)
  /-- DEFINE (R7 to R12). -/
  | define (n : Link) (tag : Byte) (payload : List Byte)
  /-- DELETE (R13). -/
  | delete (n : Link) (tag : Byte) (payload : List Byte)
  /-- START (R25). -/
  | start (n : Link) (tag : Byte) (payload : List Byte)
  /-- STOP (R26). -/
  | stop (n : Link) (tag : Byte) (payload : List Byte)
  /-- FEED (R29 to R32). -/
  | feed (n : Link) (tag : Byte) (payload : List Byte)
  /-- COMPLETE (R34). -/
  | complete (n : Link) (tag : Byte) (payload : List Byte)
  /-- PAUSE (R27). -/
  | pause (n : Link) (tag : Byte) (payload : List Byte)
  /-- RESUME (R28). -/
  | resume (n : Link) (tag : Byte) (payload : List Byte)
  /-- FREEZE (R16). -/
  | freeze (n : Link) (tag : Byte) (payload : List Byte)
  /-- CLEAR (R55). -/
  | clear (n : Link) (tag : Byte) (payload : List Byte)
  /-- QUERY (R15). -/
  | query (n : Link) (tag : Byte) (payload : List Byte)
  /-- LINESET (R114). -/
  | lineSet (n : Link) (tag : Byte) (payload : List Byte)
  /-- LINEQUERY (R116). -/
  | lineQuery (n : Link) (tag : Byte) (payload : List Byte)
  /-- PULSE (R123). -/
  | pulse (n : Link) (tag : Byte) (payload : List Byte)
  /-- HOLD (R124). -/
  | hold (n : Link) (tag : Byte) (payload : List Byte)
  /-- UNHOLD (R125). -/
  | unhold (n : Link) (tag : Byte) (payload : List Byte)
  /-- CLAIM (R134, R135). -/
  | claim (n : Link) (tag : Byte) (payload : List Byte)
  /-- YIELD (R136). -/
  | yieldReq (n : Link) (tag : Byte) (payload : List Byte)
  /-- ACCEPT (R138). -/
  | acceptReq (n : Link) (tag : Byte) (payload : List Byte)
  /-- DECLINE (R139). -/
  | decline (n : Link) (tag : Byte) (payload : List Byte)
  /-- RESTART (R144). -/
  | restart (n : Link) (tag : Byte) (payload : List Byte)
  /-- A received frame whose CHECK (`check`, as the two bytes received give it) disagrees with the value computed
  over its LEN, KIND, TAG and PAYLOAD (R149). -/
  | checkError (n : Link) (kind tag : Byte) (payload : List Byte) (check : Half)
  /-- The byte taken as LEN is above 58 (R148). -/
  | frameStartAbandoned (n : Link) (len : Byte)
  /-- The gap timer of the receiver reaches 0 (R148). -/
  | gapTimerExpiry (n : Link)
  /-- A tick of one base (R21), delivered to `reach`, the event pins standing at `pins`. -/
  | tick (base : Base) (reach : TickReach) (pins : Half)
  /-- The tick due at a RUNNING watch is taken: its count reaches 0 (R23). -/
  | watchExpiry (i : WatchIx)
  /-- The tick due at an OVERDUE watch is taken: its grace runs out (R46). -/
  | graceRunsOut (i : WatchIx)
  /-- The sample due at a line is taken: its level becomes the accepted level (R105, R107). -/
  | acceptedChange (l : LineIx)
  /-- The line unit takes the report that the line's notice left the pool (R111, R112). -/
  | lineNoticeLeftPool (l : LineIx)
  /-- The notice unit takes the oldest creation handed over on a channel (R64, R66 to R76). -/
  | noticeCreation (c : Channel) (e : Extent)
  /-- The notice unit takes the end of link n's session (R78). -/
  | noticeUnitSessionEnd (n : Link) (e : Extent)
  /-- The authority unit takes the end of link n's session (R140). -/
  | authoritySessionEnd (n : Link)
  /-- The tick due at the offer timer is taken: the timer reaches 0 (R139). -/
  | offerTimerRunsOut
  /-- The tick due at a link's inactivity timer is taken: the timer reaches 0 (R158). -/
  | inactivityTimeout (n : Link)
  /-- The tick due at the ack timer of the record in flight with this number is taken (R97, R98). -/
  | ackTimerRunsOut (n : Link) (number : Byte)
  /-- The idle transmitter of a link takes the next frame (R99). -/
  | transmitterTakesFrame (n : Link)
  /-- The transmitter of a link has sent the last byte of its frame, the event pins standing at `pins` (R94, R144,
  R156; the pins are sampled if this performs a command restart, R117). -/
  | lastByteSent (n : Link) (pins : Half)
  /-- The output unit takes the oldest claim handed over by a claimant (R120). -/
  | takingAClaim (c : Claimant)
  /-- The tick due at a timed claim is taken: the claim is removed (R121). -/
  | claimExpiry (o : OutputIx) (c : Claimant)
  /-- The output unit takes the order to remove every claim of a watch index (R126). -/
  | clearClaimsRemoval (i : WatchIx)
  /-- The link unit takes the assertion of CRSTn (R127). -/
  | crstAsserted (n : Link)
  /-- The link unit takes the release of CRSTn (R127). -/
  | crstReleased (n : Link)
  /-- Application of power, up to the end of power-on reset: the pins and straps are sampled then (R18, R106, R146). -/
  | powerOnReset (pins : Half) (straps : Straps)
  /-- The RESET input is held (R160). -/
  | resetHeld
  /-- The RESET input is released: the pins and straps are sampled (R106, R146). -/
  | resetReleased (pins : Half) (straps : Straps)
  /-- The receiver of a link takes one byte from RXDn (R148). -/
  | receiverTakesByte (n : Link) (b : Byte)
  deriving DecidableEq, Repr

end Sys2Proof
end

