-- ==== Sys2Proof/Decode.lean ====
section
/-!
DEFINITION. The decoder asked of a block: the command a word spells by the bits of spec/opcode_table.json. The table
gives no row any bits (98_reader.md: n_rows_with_fixed 0, n_rows_with_fields 0), so no word spells a command. The
decoding of the part's own wire format (frames, kind codes, payloads) is in Machine/Receive.lean and
Machine/Operands.lean.
-/

namespace Sys2Proof

/-- The command spelled by the `nbits` bits of `w`: none, since no row of the table is given bits. -/
def decodeTableWord (_nbits _w : Nat) : Option Instr := none

end Sys2Proof
end

