-- ==== Sys2Proof/Machine/State.lean ====
section
/-!
DEFINITION. The state of the AS432, block by block, the state after reset, and the reasons a step can stop.
-/

namespace Sys2Proof.Machine

/-! ### The watch table (Table 1-1, Table 1-2) -/

/-- The seven states of a watch entry (R1). -/
inductive WatchState where
  | free | stopped | running | paused | quiet | overdue | latched
  deriving DecidableEq, Repr

/-- The three kinds of watch (R2). -/
inductive WatchKind where
  | heartbeat | deadline | activity
  deriving DecidableEq, Repr

/-- The four stage actions (Table 1-2, R45). -/
inductive Action where
  | notify | pulse | hold | safe
  deriving DecidableEq, Repr

/-- A stage record (Table 1-2, R4). -/
structure StageRec where
  grace    : Nat
  action   : Action
  target   : Link
  duration : Nat
  level    : Level
  deriving DecidableEq, Repr

/-- A watch entry (Table 1-1). -/
structure Watch where
  state         : WatchState
  generation    : Byte
  kind          : WatchKind
  owner         : Link
  base          : Base
  reload        : Nat
  count         : Nat
  seqcheck      : Bool
  lastSeq       : Option Byte
  strikeLimit   : Nat
  strikes       : Nat
  lineSet       : Half
  primary       : Link
  fallback      : Option Link
  activityLevel : Level
  ladder        : List StageRec
  stage         : Nat
  frozen        : Bool
  deriving DecidableEq, Repr

/-- A FREE entry: every field but the generation at its reset value (Table 1-1, R1, R3). -/
def Watch.free (generation : Byte) : Watch where
  state := .free
  generation := generation
  kind := .heartbeat
  owner := 0
  base := .ms1
  reload := 0
  count := 0
  seqcheck := false
  lastSeq := none
  strikeLimit := 0
  strikes := 0
  lineSet := 0
  primary := 0
  fallback := none
  activityLevel := 0
  ladder := []
  stage := 0
  frozen := false

/-! ### The event line unit (Table 6-1) -/

/-- The six line modes (Table 6-3). -/
inductive LineMode where
  | off | high | low | rising | falling | both
  deriving DecidableEq, Repr

/-- A line record (Table 6-1), with the level of its most recent sample (R116) and the sample of the present tick
that would be accepted and is not yet taken (log 3). -/
structure LineRec where
  mode         : LineMode
  filter       : Nat
  notify       : Bool
  level        : Level
  primary      : Link
  fallback     : Option Link
  accepted     : Bool
  disagreement : Nat
  pending      : Bool
  overrun      : Nat
  pinLevel     : Bool
  dueSample    : Option Bool
  deriving DecidableEq, Repr

/-- A line record at its reset values, the pin sampled at `pin` at the end of the reset (Table 6-1, R106). -/
def LineRec.atReset (pin : Bool) : LineRec where
  mode := .off
  filter := 0
  notify := false
  level := 0
  primary := 0
  fallback := none
  accepted := pin
  disagreement := 0
  pending := false
  overrun := 0
  pinLevel := pin
  dueSample := none

/-! ### The notice unit (Table 4-1) -/

/-- Source class and source index of a notice (Table 4-1). -/
inductive Source where
  | watch (i : WatchIx)
  | line (l : LineIx)
  | link (n : Link)
  | authority
  | output (o : OutputIx)
  deriving DecidableEq, Repr

/-- The event codes (Table 4-2). -/
inductive Event where
  | overdue | seqfault | recovered | late | latched | quiet | active
  | line | repeated | linklost | authchange | authwanted | authoffer | output
  deriving DecidableEq, Repr

/-- The match key of a notice: two notices report the same event exactly when these fields agree (R65). -/
structure Key where
  source     : Source
  generation : Option Byte
  event      : Event
  stage      : Option Nat
  deriving DecidableEq, Repr

/-- A notice record but for its link (the queue or in-flight set it stands in) and its send fields (`InFlight`).
`origin` is some link exactly when the redirected flag is set. `created`, `latest` and `joined` are marks of the
order in which the record was created, last took a notice, and joined its queue (R72, R82; log 4). -/
structure Notice where
  key       : Key
  level     : Level
  detail    : List Byte
  onward    : Option Link
  repeats   : Nat
  timestamp : Uptime
  origin    : Option Link
  created   : Nat
  latest    : Nat
  joined    : Nat
  deriving DecidableEq, Repr

/-- The route a creation is handed over with (R66 to R68). `pairAfter` is a pair handed over by a watch after its own
claims had put the links of `reset` in HELD, each named with the number of its last session (R44). `copies` is a broadcast some of whose copies are still to be made
(R74). -/
inductive Route where
  | pair (primary : Link) (fallback : Option Link)
  | pairAfter (primary : Link) (fallback : Option Link) (reset : List (Link × Byte))
  | target (n : Link)
  | broadcast (except : Option Link)
  | copies (links : List Link)
  deriving DecidableEq, Repr

/-- A notice creation handed to the notice unit: the first block of Table 4-1 and the route (R64). -/
structure Creation where
  key    : Key
  level  : Level
  detail : List Byte
  route  : Route
  deriving DecidableEq, Repr

/-! ### Delivery units (Table 5-1) -/

/-- A record in flight: sent at least once and not yet acknowledged. `timer` is none while its ack timer is stopped;
`timerDue` says that a tick which brings the timer to 0 has reached it and is not yet taken (log 3). -/
structure InFlight where
  notice   : Notice
  attempt  : Nat
  number   : Byte
  loss     : Nat
  timer    : Option Nat
  timerDue : Bool
  deriving DecidableEq, Repr

/-- One delivery unit (Table 5-1). The resend list holds notice numbers, which are distinct in one set (R91). -/
structure Delivery where
  floor      : Level
  window     : Nat
  ackTimeout : Nat
  nextNumber : Byte
  inFlight   : List InFlight
  resend     : List Byte
  strayAcks  : Nat
  deriving DecidableEq, Repr

/-- A delivery unit at its reset values (R87). -/
def Delivery.atReset : Delivery where
  floor := 0
  window := 1
  ackTimeout := 1
  nextNumber := 0
  inFlight := []
  resend := []
  strayAcks := 0

/-! ### The output unit (Table 7-2) -/

/-- A claim in the slot of one claimant (Table 7-2). -/
inductive Claim where
  | timed (remaining : Nat)
  | held
  deriving DecidableEq, Repr

/-- A claim set: one slot for each of W0 to W31 and, last, one for MANUAL (R118, Figure 7-1). -/
abbrev ClaimSet := Vector (Option Claim) 33

/-- A word on its way to the output unit: a claim (timed with a duration, or held when there is none; a watch's with the
generation of the watch that made it, which R44 asks for), or the order to remove every claim of an index (R45, R55, R123,
R124). -/
inductive OutputWord where
  | claim (c : Claimant) (o : OutputIx) (duration : Option Nat) (generation : Option Byte)
  | removeAll (i : WatchIx)
  deriving DecidableEq, Repr

/-- Whose claim asserted an output: a watch's, by index and generation, or no watch's but MANUAL's (R44; log 1). -/
abbrev Resetter := Option (WatchIx × Byte)

/-- What the output unit tells a link unit of CRSTn (R119, R127). -/
inductive CrstChange where
  | asserted (resetter : Resetter)
  | released
  deriving DecidableEq, Repr

/-! ### The authority unit (Table 8-1) -/

/-- The authority state with the items present in it (R132). -/
inductive AuthorityMode where
  | free
  | held (holder : Link)
  | offering (offered : Link) (timer : Nat)
  deriving DecidableEq, Repr

/-- The authority record. `offerDue` says that a tick which brings the offer timer to 0 has reached it and is not yet
taken (log 3). -/
structure Authority where
  mode      : AuthorityMode
  claimList : List Link
  offerDue  : Bool
  deriving DecidableEq, Repr

/-! ### Link units (Table 9-3) -/

/-- The three link states (R151). -/
inductive LinkState where
  | silent | up | held
  deriving DecidableEq, Repr

/-- The pending end of a session (Table 9-3), and the end that a reply's last byte completes (R144, R156). -/
inductive Closing where
  | nothing | close | restart
  deriving DecidableEq, Repr

/-- The reasons for which a session ends (Table 9-5), less RESTARTED, which no block but the link units sees (R161). -/
inductive EndReason where
  | closed | silence | noAck | resetIssued | reopened
  deriving DecidableEq, Repr

/-- The result codes (Table 10-2). -/
inductive Result where
  | ok | unknown | malformed | notOpen | badValue | noEntry | notOwner | notAuthority | frozen | badState
  deriving DecidableEq, Repr

/-- A reply on a reply queue: its tag, result and items, held without the discarded-requests count (R164). -/
structure Reply where
  tag     : Byte
  result  : Result
  items   : List Byte
  closing : Closing
  deriving DecidableEq, Repr

/-- The link record (Table 9-3). `inactivity` is none while the timer is stopped; `inactivityDue` as `timerDue`
above. -/
structure LinkRec where
  state             : LinkState
  session           : Byte
  client            : Byte
  inactivityTimeout : Nat
  inactivity        : Option Nat
  inactivityDue     : Bool
  closing           : Closing
  replies           : List Reply
  discarded         : Nat
  framingErrors     : Nat
  checkErrors       : Nat
  deriving DecidableEq, Repr

/-- A link record at its power-on values (Table 9-3, R160). -/
def LinkRec.atReset : LinkRec where
  state := .silent
  session := 0
  client := 0
  inactivityTimeout := 0
  inactivity := none
  inactivityDue := false
  closing := .nothing
  replies := []
  discarded := 0
  framingErrors := 0
  checkErrors := 0

/-- A receiver (R148): hunting (`none`), or receiving with the bytes taken after START, and its gap timer. -/
structure Receiver where
  collected : Option (List Byte)
  gap       : Nat
  gapDue    : Bool
  deriving DecidableEq, Repr

/-- A receiver in hunting. -/
def Receiver.hunting : Receiver where
  collected := none
  gap := 0
  gapDue := false

/-- What the frame being sent carries: a reply, with the end its last byte completes, or the notice in flight under a
number. -/
inductive Carried where
  | reply (c : Closing)
  | notice (number : Byte)
  deriving DecidableEq, Repr

/-- A frame being sent: its bytes on the wire and what it carries. -/
structure TxFrame where
  bytes   : List Byte
  carried : Carried
  deriving DecidableEq, Repr

/-! ### Words in transit between blocks (log 1) -/

/-- How a LINE or REPEAT record left the pool (R63, R111, R112). -/
inductive Departure where
  | acknowledged | evicted | discarded
  deriving DecidableEq, Repr

/-- A session end on its way to the notice unit, with the in-flight records the delivery unit has handed back
(R78, R102). `resetters` are the watches whose claims have put the link in HELD at that end or since (R44; log 1). -/
structure NoticeEnd where
  link      : Link
  reason    : EndReason
  client    : Byte
  handed    : List Notice
  resetters : List (WatchIx × Byte)
  deriving DecidableEq, Repr

/-- Everything one block has handed to another and the other has not yet taken, oldest first. -/
structure Transit where
  creations     : List Creation
  outputWords   : List OutputWord
  crstWords     : List (Link × CrstChange)
  lineReports   : List (LineIx × Departure)
  noticeEnds    : List NoticeEnd
  authorityEnds : List Link
  deriving DecidableEq, Repr

/-- Nothing in transit. -/
def Transit.empty : Transit where
  creations := []
  outputWords := []
  crstWords := []
  lineReports := []
  noticeEnds := []
  authorityEnds := []

/-! ### Ticks, rates and resets -/

/-- A block and base for which a tick of the present uptime may still be owed (R21; log 3). -/
inductive TickPort where
  | watches (b : Base)
  | lines | outputs | ackTimers | inactivityTimers | offerTimer | gapTimers
  deriving DecidableEq, Repr

/-- The serial rates (Table 9-1). -/
inductive Rate where
  | baud57600 | baud115200 | baud460800 | baud921600
  deriving DecidableEq, Repr

/-- The reset cause (R154, R160, R161). -/
inductive ResetCause where
  | power | pin | restart
  deriving DecidableEq, Repr

/-- The state of the part. `pending` is the queue of commands that wait, first in first out. `claimTickDue` says that a
tick which brings some claim's time to 0 has reached the output unit and is not yet taken (log 3). -/
structure State where
  pending         : List Instr
  resetIsHeld     : Bool
  resetCause      : ResetCause
  rate            : Rate
  evPins          : Half
  uptime          : Uptime
  owedTicks       : List TickPort
  watches         : Vector Watch 32
  watchTicksDue   : Vector (Option Base) 32
  lines           : Vector LineRec 16
  claims          : Vector ClaimSet 5
  claimTickDue    : Bool
  authority       : Authority
  links           : Vector LinkRec 4
  receivers       : Vector Receiver 4
  transmitters    : Vector (Option TxFrame) 4
  deliveries      : Vector Delivery 4
  queues          : Vector (List Notice) 4
  losses          : Vector Nat 4
  transit         : Transit
  stamp           : Nat
  choices         : Nat
  deriving DecidableEq, Repr

/-- The part right after a power-on reset (R18, R20, R86, R87, R106, R131, R132, R160). The levels the pins and straps
stand at are outside the part: all 0 here (DESIGN CHOICE, log 2). -/
def State.reset : State where
  pending := []
  resetIsHeld := false
  resetCause := .power
  rate := .baud57600
  evPins := 0
  uptime := 0
  owedTicks := []
  watches := Vector.replicate 32 (Watch.free 0)
  watchTicksDue := Vector.replicate 32 none
  lines := Vector.replicate 16 (LineRec.atReset false)
  claims := Vector.replicate 5 (Vector.replicate 33 none)
  claimTickDue := false
  authority := ⟨.free, [], false⟩
  links := Vector.replicate 4 LinkRec.atReset
  receivers := Vector.replicate 4 Receiver.hunting
  transmitters := Vector.replicate 4 none
  deliveries := Vector.replicate 4 Delivery.atReset
  queues := Vector.replicate 4 []
  losses := Vector.replicate 4 0
  transit := Transit.empty
  stamp := 0
  choices := 0

/-! ### Reasons to stop -/

/-- The part stops for no command: the spec gives every command an effect, or a result code and no effect, so no step
faults and there is no reason to name. -/
inductive Fault where
  deriving DecidableEq, Repr

/-- Why a command has no meaning in the model. -/
inductive Refusal where
  /-- Raised by `exec` for a row that has no meaning yet. Safe: the model stops where the part goes on. No arm of
  `exec` raises it now. -/
  | notModelled (mnemonic : String)
  deriving DecidableEq, Repr

end Sys2Proof.Machine
end

