-- ==== Sys2Proof/Machine/Ops.lean ====
section
/-!
DEFINITION. The named operations over the state: tables, saturating counters, one accessor and one setter for each
table of State, the words blocks hand to each other, and what a valid frame does to its link before it is dispatched.
-/

namespace Sys2Proof.Machine

/-! ### Tables and counters -/

/-- A table with entry `i` replaced. -/
def put {α : Type} {k : Nat} (v : Vector α k) (i : Fin k) (x : α) : Vector α k := v.set i x

/-- A table with every entry replaced by a function of its index and itself. -/
def remap {α : Type} {k : Nat} (v : Vector α k) (f : Fin k → α → α) : Vector α k :=
  Vector.ofFn fun i => f i v[i]

/-- A counter that stops at its largest value instead of rolling over (00_scope.md section 7). -/
def satAdd (top n k : Nat) : Nat := min top (n + k)

/-- Whether event line `l` is in a set of lines (Table 10-6: weight 2 to the power n). -/
def inLines (set : Half) (l : LineIx) : Bool := set.getLsbD l

/-- The level of pin EVn among the sixteen. -/
def pinOf (pins : Half) (l : LineIx) : Bool := pins.getLsbD l

/-! ### One accessor and one setter for each table -/

/-- Watch entry `i`. -/
def State.watch (s : State) (i : WatchIx) : Watch := s.watches[i]

/-- The state with watch entry `i` replaced. -/
def State.setWatch (s : State) (i : WatchIx) (w : Watch) : State := { s with watches := put s.watches i w }

/-- Line record `l`. -/
def State.line (s : State) (l : LineIx) : LineRec := s.lines[l]

/-- The state with line record `l` replaced. -/
def State.setLine (s : State) (l : LineIx) (r : LineRec) : State := { s with lines := put s.lines l r }

/-- Link record `n`. -/
def State.link (s : State) (n : Link) : LinkRec := s.links[n]

/-- The state with link record `n` replaced. -/
def State.setLink (s : State) (n : Link) (r : LinkRec) : State := { s with links := put s.links n r }

/-- The receiver of link `n`. -/
def State.receiver (s : State) (n : Link) : Receiver := s.receivers[n]

/-- The state with the receiver of link `n` replaced. -/
def State.setReceiver (s : State) (n : Link) (r : Receiver) : State :=
  { s with receivers := put s.receivers n r }

/-- What the transmitter of link `n` is sending, if anything. -/
def State.transmitter (s : State) (n : Link) : Option TxFrame := s.transmitters[n]

/-- The state with the transmitter of link `n` sending `f`, or idle. -/
def State.setTransmitter (s : State) (n : Link) (f : Option TxFrame) : State :=
  { s with transmitters := put s.transmitters n f }

/-- The delivery unit of link `n`. -/
def State.delivery (s : State) (n : Link) : Delivery := s.deliveries[n]

/-- The state with the delivery unit of link `n` replaced. -/
def State.setDelivery (s : State) (n : Link) (d : Delivery) : State :=
  { s with deliveries := put s.deliveries n d }

/-- The queue of unsent records of link `n`. -/
def State.queue (s : State) (n : Link) : List Notice := s.queues[n]

/-- The state with the queue of link `n` replaced. -/
def State.setQueue (s : State) (n : Link) (q : List Notice) : State := { s with queues := put s.queues n q }

/-- The loss count of link `n` (R77). -/
def State.loss (s : State) (n : Link) : Nat := s.losses[n]

/-- The state with the loss count of link `n` set. -/
def State.setLoss (s : State) (n : Link) (k : Nat) : State := { s with losses := put s.losses n k }

/-- One more notice lost for link `n`; the count stays at 255 (R77). -/
def State.countLoss (s : State) (n : Link) : State := s.setLoss n (satAdd 255 (s.loss n) 1)

/-- The claim set of output `o`. -/
def State.claimSet (s : State) (o : OutputIx) : ClaimSet := s.claims[o]

/-- The state with the claim set of output `o` replaced. -/
def State.setClaimSet (s : State) (o : OutputIx) (c : ClaimSet) : State := { s with claims := put s.claims o c }

/-- The tick due at watch entry `i`, if any. -/
def State.watchTickDue (s : State) (i : WatchIx) : Option Base := s.watchTicksDue[i]

/-- The state with the tick due at watch entry `i` set. -/
def State.setWatchTickDue (s : State) (i : WatchIx) (b : Option Base) : State :=
  { s with watchTicksDue := put s.watchTicksDue i b }

/-- The state with the tick due at the output unit noted, or no longer due. -/
def State.setClaimTickDue (s : State) (due : Bool) : State := { s with claimTickDue := due }

/-! ### Who is up, who holds the authority -/

/-- Link `n` has a session (R151). -/
def State.isUp (s : State) (n : Link) : Bool := (s.link n).state = .up

/-- Link `n` counts as UP at the notice unit: it has a session, or one whose end the notice unit has yet to take (R69,
R80; log 1). -/
def State.upAtNotices (s : State) (n : Link) : Bool :=
  s.isUp n || s.transit.noticeEnds.any fun e => e.link = n

/-- Link `n` is the authority holder in state HELD (R143). -/
def State.isHolder (s : State) (n : Link) : Bool := s.authority.mode = .held n

/-! ### Words in transit -/

/-- The channel a creation travels on. -/
def Source.channel (src : Source) : Channel :=
  match src with
  | .watch i => .watch i
  | .line l => .line l
  | .link n => .link n
  | .authority => .authority
  | .output _ => .outputUnit

/-- The channel a creation travels on. -/
def Creation.channel (c : Creation) : Channel := c.key.source.channel

/-- The state with the event pins standing at `pins`. -/
def State.setPins (s : State) (pins : Half) : State := { s with evPins := pins }

/-- The state with the ticks of the present uptime that are still owed replaced. -/
def State.setOwedTicks (s : State) (ports : List TickPort) : State := { s with owedTicks := ports }

/-- The state with the words in transit replaced. -/
def State.setTransit (s : State) (t : Transit) : State := { s with transit := t }

/-- The links that claims of watch `i`, generation `g`, have put in HELD while the notice unit has yet to take their last
session's end, each with the number of that session (R44; log 1). -/
def State.resetBy (s : State) (i : WatchIx) (g : Byte) : List (Link × Byte) :=
  (s.transit.noticeEnds.filter fun e => e.resetters.contains (i, g)).map fun e => (e.link, (s.link e.link).session)

/-- A creation as it is handed over: a watch's notice notes the links its own claims have put in HELD (R44). -/
def Creation.handed (s : State) (c : Creation) : Creation :=
  match c.key.source, c.key.generation, c.route with
  | .watch i, some g, .pair p f => if s.resetBy i g = [] then c else { c with route := .pairAfter p f (s.resetBy i g) }
  | _, _, _ => c

/-- A block hands creations to the notice unit, in order (R64, R44). -/
def State.post (s : State) (cs : List Creation) : State :=
  s.setTransit { s.transit with creations := s.transit.creations ++ cs.map (Creation.handed s) }

/-- A block hands words to the output unit, in order (R45, R55, R123, R124). -/
def State.sendOutput (s : State) (ws : List OutputWord) : State :=
  s.setTransit { s.transit with outputWords := s.transit.outputWords ++ ws }

/-- The notice unit tells the line unit that a record has left the pool, if it is a LINE or REPEAT record (R63). -/
def State.reportDeparture (s : State) (r : Notice) (how : Departure) : State :=
  match r.key.source with
  | .line l => s.setTransit { s.transit with lineReports := s.transit.lineReports ++ [(l, how)] }
  | _ => s

/-- The first element that satisfies a test, and the list without it. -/
def takeFirst {α : Type} (p : α → Bool) : List α → Option (α × List α)
  | [] => none
  | a :: as => if p a then some (a, as) else (takeFirst p as).map fun r => (r.1, a :: r.2)

/-! ### The arrival of a valid frame (R149, R150, R158) -/

/-- The inactivity timer loaded with the timeout times 100 ms; with a timeout of 0 it never runs (R158). -/
def LinkRec.loadInactivity (l : LinkRec) : LinkRec :=
  { l with inactivity := if l.inactivityTimeout = 0 then none else some (l.inactivityTimeout * 100) }

/-- The receiver of link `n` discards everything it takes: the link is HELD, or a CLOSE or RESTART is pending (R150). -/
def State.deaf (s : State) (n : Link) : Bool := (s.link n).state = .held || (s.link n).closing ≠ .nothing

/-- A valid frame has arrived on link `n`: the receiver is hunting again, and on an UP link the inactivity timer is
reloaded (R149). -/
def State.frameArrived (s : State) (n : Link) : State :=
  let t := s.setReceiver n .hunting
  if s.isUp n then t.setLink n (t.link n).loadInactivity else t

/-- A reply joins the tail of link `n`'s reply queue (R152). -/
def State.queueReply (s : State) (n : Link) (r : Reply) : State :=
  s.setLink n { s.link n with replies := (s.link n).replies ++ [r] }

/-- What the block that owns a request answers: result, reply items, and the pending end its reply completes. -/
structure Answer where
  result  : Result
  items   : List Byte
  closing : Closing
  deriving DecidableEq, Repr

/-- A check of R163 has failed: the reply carries the result alone and nothing changes. -/
def refuse (r : Result) (s : State) : Answer × State := (⟨r, [], .nothing⟩, s)

/-- The request is accepted: OK with its items. -/
def accept (items : List Byte) (s : State) : Answer × State := (⟨.ok, items, .nothing⟩, s)

/-- The first three checks of R163 for a request whose payload has the right shape or not: MALFORMED, then NOT-OPEN on
a SILENT link. -/
def checkShapeAndOpen (shape : Bool) (n : Link) (s : State) (rest : Answer × State) : Answer × State :=
  if !shape then refuse .malformed s
  else if !s.isUp n then refuse .notOpen s
  else rest

end Sys2Proof.Machine
end

