-- ==== Sys2Proof/Machine/Operands.lean ====
section
/-!
DEFINITION. The operand forms of the requests: reading bytes of a payload as the items of Table 10-4 and Table 10-6,
and the codes of Tables 10-2, 10-5 and 10-9 in which the part writes items.
-/

namespace Sys2Proof.Machine

/-! ### Reading -/

/-- The byte at an offset of a payload; 0 beyond its end (read only after the payload's shape is checked). -/
def byteAt (p : List Byte) (k : Nat) : Byte := p.getD k 0

/-- A two-byte integer, least significant byte first (00_scope.md section 7). -/
def halfAt (p : List Byte) (k : Nat) : Nat := (byteAt p k).toNat + 256 * (byteAt p (k + 1)).toNat

/-- A link number 0 to 3. -/
def readLink (b : Byte) : Option Link := if h : b.toNat < 4 then some ⟨b.toNat, h⟩ else none

/-- A level 0 to 3. -/
def readLevel (b : Byte) : Option Level := if h : b.toNat < 4 then some ⟨b.toNat, h⟩ else none

/-- A watch index 0 to 31. -/
def readWatchIx (b : Byte) : Option WatchIx := if h : b.toNat < 32 then some ⟨b.toNat, h⟩ else none

/-- A line number 0 to 15. -/
def readLineIx (b : Byte) : Option LineIx := if h : b.toNat < 16 then some ⟨b.toNat, h⟩ else none

/-- An output number 0 to 4. -/
def readOutput (b : Byte) : Option OutputIx := if h : b.toNat < 5 then some ⟨b.toNat, h⟩ else none

/-- A fallback: a link, or the NONE code 0xFF (Table 10-5). -/
def readFallback (b : Byte) : Option (Option Link) := if b = 0xFF then some none else (readLink b).map some

/-- A DEFINE primary: a link, or the OWNER code 0xFE, which stands for the requesting link (R11, R166). -/
def readPrimary (n : Link) (b : Byte) : Option Link := if b = 0xFE then some n else readLink b

/-- A flag: off when 0, on for any other value (R165). -/
def readFlag (b : Byte) : Bool := b ≠ 0

/-- A watch kind (Table 10-5). -/
def readKind (b : Byte) : Option WatchKind :=
  if b = 0 then some .heartbeat else if b = 1 then some .deadline else if b = 2 then some .activity else none

/-- A base (Table 10-5). -/
def readBase (b : Byte) : Option Base :=
  if b = 0 then some .ms1 else if b = 1 then some .ms10 else if b = 2 then some .ms100
  else if b = 3 then some .s1 else none

/-- A stage action (Table 10-5). -/
def readAction (b : Byte) : Option Action :=
  if b = 0 then some .notify else if b = 1 then some .pulse else if b = 2 then some .hold
  else if b = 3 then some .safe else none

/-- A line mode (Table 10-5). -/
def readMode (b : Byte) : Option LineMode :=
  if b = 0 then some .off else if b = 1 then some .high else if b = 2 then some .low
  else if b = 3 then some .rising else if b = 4 then some .falling else if b = 5 then some .both else none

/-- HOLD and SAFE are the latching actions (R4). -/
def Action.latching (a : Action) : Bool :=
  match a with
  | .notify => false
  | .pulse => false
  | .hold => true
  | .safe => true

/-- A stage record read from its seven bytes at offset `k` (Table 10-6), with the range checks of R8; the fields R8
leaves unexamined are stored as R4 lays down. -/
def readStage (p : List Byte) (k : Nat) : Option StageRec :=
  match readAction (byteAt p k), readLevel (byteAt p (k + 6)) with
  | some .notify, some lv =>
    if halfAt p (k + 4) = 0 then none else some ⟨halfAt p (k + 4), .notify, 0, 0, lv⟩
  | some .pulse, some lv =>
    match readLink (byteAt p (k + 1)) with
    | some t =>
      if halfAt p (k + 4) = 0 then none
      else if halfAt p (k + 2) = 0 then none
      else some ⟨halfAt p (k + 4), .pulse, t, halfAt p (k + 2), lv⟩
    | none => none
  | some .hold, some lv =>
    match readLink (byteAt p (k + 1)) with
    | some t => some ⟨0, .hold, t, 0, lv⟩
    | none => none
  | some .safe, some lv => some ⟨0, .safe, 0, 0, lv⟩
  | _, _ => none

/-- The first `c` stage records of a DEFINE payload from offset `k` on, if every one is in range. -/
def readStages (p : List Byte) : (c k : Nat) → Option (List StageRec)
  | 0, _ => some []
  | c + 1, k =>
    match readStage p k, readStages p c (k + 7) with
    | some r, some rs => some (r :: rs)
    | _, _ => none

/-- The items of a DEFINE whose values are in range, OWNER already replaced by the requesting link (Table 1-4). -/
structure DefineItems where
  index         : Byte
  kind          : WatchKind
  base          : Base
  reload        : Nat
  seqcheck      : Bool
  strikeLimit   : Nat
  lineSet       : Half
  primary       : Link
  fallback      : Option Link
  activityLevel : Level
  ladder        : List StageRec
  deriving DecidableEq, Repr

/-- The shape of a DEFINE payload (R7): 13 bytes plus 7 for each of 0 to 4 declared stages. -/
def defineShape (p : List Byte) : Bool :=
  13 ≤ p.length && (byteAt p 12).toNat ≤ 4 && p.length = 13 + 7 * (byteAt p 12).toNat

/-- The range checks of R8. -/
def readDefineItems (n : Link) (p : List Byte) : Option DefineItems :=
  if 31 < (byteAt p 0).toNat ∧ byteAt p 0 ≠ 255 then none
  else if halfAt p 3 = 0 then none
  else if 15 < (byteAt p 6).toNat then none
  else
    match readKind (byteAt p 1), readBase (byteAt p 2), readPrimary n (byteAt p 9), readFallback (byteAt p 10),
      readLevel (byteAt p 11), readStages p (byteAt p 12).toNat 13 with
    | some kind, some base, some primary, some fallback, some level, some ladder =>
      some { index := byteAt p 0, kind, base, reload := halfAt p 3, seqcheck := readFlag (byteAt p 5)
             strikeLimit := (byteAt p 6).toNat, lineSet := byteAt p 8 ++ byteAt p 7, primary, fallback
             activityLevel := level, ladder }
    | _, _, _, _, _, _ => none

/-- The consistency checks of R9. -/
def DefineItems.consistent (d : DefineItems) : Bool :=
  !(d.kind ≠ .activity && d.ladder.isEmpty)
  && !(d.kind = .activity && !d.ladder.isEmpty)
  && !(d.seqcheck && d.kind ≠ .heartbeat)
  && !(d.kind = .activity && d.strikeLimit ≠ 0)
  && !(d.kind ≠ .activity && d.activityLevel ≠ 0)
  && !(d.ladder.dropLast.any fun r => r.action.latching)
  && !(d.fallback = some d.primary)

/-- The BAD-VALUE step of a DEFINE: R8 and R9 together (R163). -/
def readDefine (n : Link) (p : List Byte) : Option DefineItems := (readDefineItems n p).filter (·.consistent)

/-- The items of a LINESET whose values are in range (R114). -/
structure LineItems where
  line     : LineIx
  mode     : LineMode
  filter   : Nat
  notify   : Bool
  level    : Level
  primary  : Link
  fallback : Option Link
  deriving DecidableEq, Repr

/-- The BAD-VALUE step of a LINESET (R114). -/
def readLineSet (p : List Byte) : Option LineItems :=
  match readLineIx (byteAt p 0), readMode (byteAt p 1), readLevel (byteAt p 4), readLink (byteAt p 5),
    readFallback (byteAt p 6) with
  | some line, some mode, some level, some primary, some fallback =>
    if fallback = some primary then none
    else some { line, mode, filter := (byteAt p 2).toNat, notify := readFlag (byteAt p 3), level, primary, fallback }
  | _, _, _, _, _ => none

/-- The items of an OPEN whose values are in range (Table 9-4). -/
structure OpenItems where
  client     : Byte
  window     : Nat
  ackTimeout : Nat
  inactivity : Nat
  floor      : Level
  deriving DecidableEq, Repr

/-- The BAD-VALUE step of an OPEN (R154). -/
def readOpen (p : List Byte) : Option OpenItems :=
  match readLevel (byteAt p 5) with
  | some floor =>
    if (byteAt p 1).toNat = 0 ∨ 4 < (byteAt p 1).toNat then none
    else if (byteAt p 2).toNat = 0 then none
    else if 600 < halfAt p 3 then none
    else some ⟨byteAt p 0, (byteAt p 1).toNat, (byteAt p 2).toNat, halfAt p 3, floor⟩
  | none => none

/-! ### Writing -/

/-- A number as one byte. -/
def byteOf (k : Nat) : Byte := BitVec.ofNat 8 k

/-- A two-byte integer, least significant byte first. -/
def halfBytes (k : Nat) : List Byte := [byteOf k, byteOf (k / 256)]

/-- A four-byte integer, least significant byte first. -/
def uptimeBytes (u : Uptime) : List Byte :=
  [u.setWidth 8, (u >>> 8).setWidth 8, (u >>> 16).setWidth 8, (u >>> 24).setWidth 8]

/-- A set of lines as two bytes (Table 10-5). -/
def lineSetBytes (m : Half) : List Byte := [m.setWidth 8, (m >>> 8).setWidth 8]

/-- A flag the part sends is 0 or 1 (R165). -/
def flagByte (b : Bool) : Byte := if b then 1 else 0

/-- A link number, or 0xFF for NONE (R164). -/
def linkOrNone (n : Option Link) : Byte :=
  match n with
  | some n => byteOf n
  | none => 0xFF

/-- Result codes (Table 10-2). -/
def Result.code (r : Result) : Byte :=
  match r with
  | .ok => 0x00
  | .unknown => 0x01
  | .malformed => 0x02
  | .notOpen => 0x03
  | .badValue => 0x04
  | .noEntry => 0x05
  | .notOwner => 0x06
  | .notAuthority => 0x07
  | .frozen => 0x08
  | .badState => 0x09

/-- Watch state codes (Table 10-5). -/
def WatchState.code (x : WatchState) : Byte :=
  match x with
  | .free => 0
  | .stopped => 1
  | .running => 2
  | .paused => 3
  | .quiet => 4
  | .overdue => 5
  | .latched => 6

/-- Watch kind codes (Table 10-5). -/
def WatchKind.code (x : WatchKind) : Byte :=
  match x with
  | .heartbeat => 0
  | .deadline => 1
  | .activity => 2

/-- Base codes (Table 10-5). -/
def baseCode (x : Base) : Byte :=
  match x with
  | .ms1 => 0
  | .ms10 => 1
  | .ms100 => 2
  | .s1 => 3

/-- Stage action codes (Table 10-5). -/
def Action.code (x : Action) : Byte :=
  match x with
  | .notify => 0
  | .pulse => 1
  | .hold => 2
  | .safe => 3

/-- Line mode codes (Table 10-5). -/
def LineMode.code (x : LineMode) : Byte :=
  match x with
  | .off => 0
  | .high => 1
  | .low => 2
  | .rising => 3
  | .falling => 4
  | .both => 5

/-- Link state codes (Table 10-5). -/
def LinkState.code (x : LinkState) : Byte :=
  match x with
  | .silent => 0
  | .up => 1
  | .held => 2

/-- Authority state codes (Table 10-5). -/
def AuthorityMode.code (x : AuthorityMode) : Byte :=
  match x with
  | .free => 0
  | .held _ => 1
  | .offering _ _ => 2

/-- Reset cause codes (Table 10-5). -/
def ResetCause.code (x : ResetCause) : Byte :=
  match x with
  | .power => 0
  | .pin => 1
  | .restart => 2

/-- Session end reason codes (Table 10-5). -/
def EndReason.code (x : EndReason) : Byte :=
  match x with
  | .closed => 0
  | .silence => 1
  | .noAck => 2
  | .resetIssued => 3
  | .reopened => 4

/-- MANUAL claim kind codes (Table 10-5). -/
def Claim.kindCode (x : Claim) : Byte :=
  match x with
  | .timed _ => 1
  | .held => 2

/-- Source class codes (Table 10-9). -/
def Source.classCode (x : Source) : Byte :=
  match x with
  | .watch _ => 0
  | .line _ => 1
  | .link _ => 2
  | .authority => 3
  | .output _ => 4

/-- Source indexes (Table 4-1): 0 for AUTHORITY. -/
def Source.index (x : Source) : Byte :=
  match x with
  | .watch i => byteOf i
  | .line l => byteOf l
  | .link n => byteOf n
  | .authority => 0
  | .output o => byteOf o

/-- Event codes (Table 10-9). -/
def Event.code (x : Event) : Byte :=
  match x with
  | .overdue => 0x01
  | .seqfault => 0x02
  | .recovered => 0x03
  | .late => 0x04
  | .latched => 0x05
  | .quiet => 0x06
  | .active => 0x07
  | .line => 0x10
  | .repeated => 0x11
  | .linklost => 0x20
  | .authchange => 0x30
  | .authwanted => 0x31
  | .authoffer => 0x32
  | .output => 0x40

/-- A stage record as it is sent in the QUERY reply (Tables 10-6, 10-7). -/
def stageBytes (r : StageRec) : List Byte :=
  [r.action.code, byteOf r.target] ++ halfBytes r.duration ++ halfBytes r.grace ++ [byteOf r.level]

/-- The QUERY reply items (Table 10-7, R167). -/
def queryItems (w : Watch) : List Byte :=
  [w.state.code, w.generation, w.kind.code, byteOf w.owner, baseCode w.base]
  ++ halfBytes w.reload ++ halfBytes w.count
  ++ [flagByte w.seqcheck, flagByte w.lastSeq.isSome, w.lastSeq.getD 0, byteOf w.strikeLimit, byteOf w.strikes]
  ++ lineSetBytes w.lineSet
  ++ [byteOf w.primary, linkOrNone w.fallback, byteOf w.activityLevel, byteOf w.stage, flagByte w.frozen,
      byteOf w.ladder.length]
  ++ w.ladder.flatMap stageBytes

end Sys2Proof.Machine
end

