-- ==== Sys2Proof/Machine/Flags.lean ====
section
/-!
DEFINITION. The flags and pins computed from the state: the outputs CRST0 to CRST3 and SAFE (R118), the attention
outputs (R101), the active indication of a line (Table 6-3), the flags byte of a NOTICE (Table 10-9), and which accepted
changes are triggers (R107).
-/

namespace Sys2Proof.Machine

/-- The slot of a claimant: W0 to W31, then MANUAL (Figure 7-1). -/
def slotOf (c : Claimant) : Fin 33 :=
  match c with
  | .watch i => ⟨i, by omega⟩
  | .manual => 32

/-- The claim a claimant has in a claim set. -/
def claimOf (set : ClaimSet) (c : Claimant) : Option Claim := set[slotOf c]

/-- A claim set holds at least one claim. -/
def ClaimSet.nonEmpty (set : ClaimSet) : Bool := set.toList.any Option.isSome

/-- An output is asserted exactly while its claim set holds a claim (R118). -/
def State.asserted (s : State) (o : OutputIx) : Bool := ClaimSet.nonEmpty (s.claimSet o)

/-- The number of CRSTn. -/
def crstOf (n : Link) : OutputIx := ⟨n, by omega⟩

/-- The link a client reset output is aimed at; none for SAFE (Table 7-1). -/
def linkOfOutput (o : OutputIx) : Option Link := if h : o.val < 4 then some ⟨o.val, h⟩ else none

/-- A record is eligible when its level is at or above the floor (R88). -/
def eligible (floor : Level) (r : Notice) : Bool := floor ≤ r.level

/-- ATTNn is asserted while link n is UP and it has a record in flight or an eligible unsent one (R101). -/
def State.attention (s : State) (n : Link) : Bool :=
  s.isUp n && (!(s.delivery n).inFlight.isEmpty || (s.queue n).any (eligible (s.delivery n).floor))

/-- The active indication of a line (Table 6-3). -/
def LineRec.active (l : LineRec) : Bool :=
  match l.mode with
  | .high => l.accepted
  | .low => !l.accepted
  | .off => false
  | .rising => false
  | .falling => false
  | .both => false

/-- The mode names an accepted change to `level` as a trigger (Table 6-3). -/
def LineMode.triggers (m : LineMode) (level : Bool) : Bool :=
  match m with
  | .off => false
  | .high => level
  | .low => !level
  | .rising => level
  | .falling => !level
  | .both => true

/-- The flags byte of a NOTICE: weight 1 generation present, 2 stage present, 4 redirected, 8 RESENT (Table 10-9,
R168). The bits of weight 16 to 128, which the table does not name, are sent as 0 (DESIGN CHOICE, log 18). -/
def noticeFlags (f : InFlight) : Byte :=
  (if f.notice.key.generation.isSome then 1 else 0) ||| (if f.notice.key.stage.isSome then 2 else 0)
    ||| (if f.notice.origin.isSome then 4 else 0) ||| (if 1 < f.attempt then 8 else 0)

/-- The outputs byte of the STATUS reply: output n asserted when the bit of weight 2 to the power n is 1 (Table
10-8). Bits 5 to 7, which the table does not name, are sent as 0 (DESIGN CHOICE, log 18). -/
def outputsByte (s : State) : Byte :=
  (if s.asserted 0 then 1 else 0) ||| (if s.asserted 1 then 2 else 0) ||| (if s.asserted 2 then 4 else 0)
    ||| (if s.asserted 3 then 8 else 0) ||| (if s.asserted 4 then 16 else 0)

end Sys2Proof.Machine
end

