-- ==== Sys2Proof/Machine/Frame.lean ====
section
/-!
DEFINITION. The frame and its CHECK (R147, Table 9-2), and the payloads of REPLY and NOTICE frames (Tables 10-3, 10-9).
-/

namespace Sys2Proof.Machine

/-- One shift of the check register (R147). -/
def crcShift (r : Half) : Half := if r.msb then (r <<< 1) ^^^ 0x1021#16 else r <<< 1

/-- `k` shifts of the check register. -/
def crcShifts : Nat → Half → Half
  | 0, r => r
  | k + 1, r => crcShifts k (crcShift r)

/-- One byte taken into the check register: placed in the upper eight bits, combined, then eight shifts (R147). -/
def crcByte (r : Half) (b : Byte) : Half := crcShifts 8 (r ^^^ (b ++ 0#8))

/-- The cyclic redundancy check of a list of bytes (R147). -/
def crc (bytes : List Byte) : Half := bytes.foldl crcByte 0xFFFF

/-- LEN, KIND, TAG and PAYLOAD: what the CHECK covers (R147). -/
def frameBody (kind tag : Byte) (payload : List Byte) : List Byte := byteOf payload.length :: kind :: tag :: payload

/-- A frame on the wire (Table 9-2), its CHECK low byte first. -/
def frameBytes (kind tag : Byte) (payload : List Byte) : List Byte :=
  let body := frameBody kind tag payload
  Config.startByte :: body ++ [(crc body).setWidth 8, (crc body >>> 8).setWidth 8]

/-- A REPLY frame: the header with the discarded-requests count, then the items (R164, Table 10-3). -/
def replyFrame (discarded : Nat) (r : Reply) : List Byte :=
  frameBytes 0x80 r.tag (r.result.code :: byteOf discarded :: r.items)

/-- The NOTICE payload of a record in flight (Table 10-9, R168). -/
def noticePayload (f : InFlight) : List Byte :=
  let r := f.notice
  [r.key.source.classCode, r.key.source.index, r.key.event.code, byteOf r.level, noticeFlags f,
   r.key.generation.getD 0, byteOf (r.key.stage.getD 0), (r.origin.map fun n => byteOf n.val).getD 0, byteOf r.repeats]
  ++ uptimeBytes r.timestamp ++ [byteOf f.loss, byteOf r.detail.length] ++ r.detail

/-- A NOTICE frame: its TAG is the notice number (R93). -/
def noticeFrame (f : InFlight) : List Byte := frameBytes 0x81 f.number (noticePayload f)

end Sys2Proof.Machine
end

