-- ==== Sys2Proof/Machine/Notices.lean ====
section
/-!
DEFINITION. The notice unit (chapter 4): the pool, its queues, routing, coalescing, eviction, loss counts, and what
becomes of a link's records when its session ends.
-/

namespace Sys2Proof.Machine

/-! ### The pool in use -/

/-- How many records a family of lists holds. -/
def countAll (ls : List (List Notice)) : Nat := (ls.map List.length).sum

/-- Every record in the pool: unsent, in flight, and handed back by a session end not yet taken (R63, R78). -/
def State.poolRecords (s : State) : List Notice :=
  s.queues.toList.flatten ++ s.deliveries.toList.flatMap (fun d => d.inFlight.map (·.notice))
    ++ s.transit.noticeEnds.flatMap (·.handed)

/-- The number of records in the pool (R63). -/
def State.poolInUse (s : State) : Nat := s.poolRecords.length

/-- The limits of R71: levels 0 to 2 while fewer than 56 records are in the pool, level 3 while fewer than 64. -/
def admits (level : Level) (inUse : Nat) : Bool :=
  if level = 3 then inUse < Config.poolCapacity else inUse < Config.lowLevelCapacity

/-! ### Queues -/

/-- A record joins a queue at the tail of its own level (R75). -/
def enqueue (r : Notice) : List Notice → List Notice
  | [] => [r]
  | q :: qs => if q.level < r.level then r :: q :: qs else q :: enqueue r qs

/-- The first record of a key replaced in its place. -/
def substitute (k : Key) (r : Notice) : List Notice → List Notice
  | [] => []
  | q :: qs => if q.key = k then r :: qs else q :: substitute k r qs

/-- The first record of a key taken out. -/
def removeKey (k : Key) : List Notice → List Notice
  | [] => []
  | q :: qs => if q.key = k then qs else q :: removeKey k qs

/-- A record of a queue changed by a coalescing or a merge: when its level is raised it stands at the tail of its new
level, otherwise it keeps its place (R76, R82). -/
def revise (old new : Notice) (q : List Notice) : List Notice :=
  if old.level < new.level then enqueue new (removeKey old.key q) else substitute old.key new q

/-- The unsent record of a queue with a match key (R65). -/
def findKey (k : Key) (q : List Notice) : Option Notice := q.find? fun r => r.key = k

/-- The next mark of order; marks rise (log 4). -/
def State.nextStamp (s : State) : State := { s with stamp := s.stamp + 1 }

/-- A waiting record takes a new notice of the same key (R76). -/
def Notice.absorb (w : Notice) (c : Creation) (mark : Nat) : Notice :=
  { w with repeats := satAdd 255 w.repeats 1, detail := c.detail, level := max w.level c.level, latest := mark }

/-- The record a creation leads to (R64). -/
def Creation.record (c : Creation) (onward : Option Link) (now : Uptime) (mark : Nat) : Notice where
  key := c.key
  level := c.level
  detail := c.detail
  onward := onward
  repeats := 1
  timestamp := now
  origin := none
  created := mark
  latest := mark
  joined := mark

/-! ### Eviction (R72) -/

/-- The unsent records of lower level than `level`, each with its link. -/
def State.candidates (s : State) (level : Level) : List (Link × Notice) :=
  (List.finRange 4).flatMap fun n => ((s.queue n).filter fun r => r.level < level).map fun r => (n, r)

/-- Of two candidates, the one of lower level, and of one level the one that joined its queue more recently. -/
def pickVictim (a b : Link × Notice) : Link × Notice :=
  if b.2.level < a.2.level then b
  else if a.2.level < b.2.level then a
  else if a.2.joined < b.2.joined then b else a

/-- The record to evict for a notice of a level, if there is one (R72). -/
def State.victim (s : State) (level : Level) : Option (Link × Notice) :=
  match s.candidates level with
  | [] => none
  | a :: as => some (as.foldl pickVictim a)

/-- A record is evicted: it leaves the pool, its link counts a loss, and the line unit is told of a line's record
(R72). -/
def State.evict (s : State) (n : Link) (r : Notice) : State :=
  ((s.setQueue n ((s.queue n).erase r)).countLoss n).reportDeparture r .evicted

/-! ### Creation (R64, R66 to R76) -/

/-- What became of a creation (R70). -/
inductive NoticeOutcome where
  | created | coalesced | unroutable | dropped
  deriving DecidableEq, Repr

/-- A new record joins link `n`'s queue (R64, R75). -/
def State.createRecord (s : State) (n : Link) (onward : Option Link) (c : Creation) : State :=
  (s.setQueue n (enqueue (c.record onward s.uptime s.stamp) (s.queue n))).nextStamp

/-- A routed creation: it coalesces (R76), or is created within the limits (R71), or by eviction (R72), or is dropped
(R73). -/
def place (n : Link) (onward : Option Link) (c : Creation) (s : State) : NoticeOutcome × State :=
  match findKey c.key (s.queue n) with
  | some w => (.coalesced, (s.setQueue n (revise w (w.absorb c s.stamp) (s.queue n))).nextStamp)
  | none =>
    if admits c.level s.poolInUse then (.created, s.createRecord n onward c)
    else
      match s.victim c.level with
      | some v => (.created, (s.evict v.1 v.2).createRecord n onward c)
      | none => (.dropped, s.countLoss n)

/-- The line unit learns that its LINE or REPEAT notice was created: its pending flag is set (R109, R111). -/
def noteOutcome (c : Creation) (o : NoticeOutcome) (s : State) : State :=
  match c.key.source with
  | .line l => if o = .created then s.setLine l { s.line l with pending := true } else s
  | _ => s

/-- The copies of a broadcast that are made: those for links still UP (R68, R69), in order. -/
def placeCopies (c : Creation) : List Link → State → State
  | [], s => s
  | n :: ns, s => placeCopies c ns (if s.upAtNotices n then (place n none c s).2 else s)

/-- Link `n` counts as UP for a creation handed over after the links of `reset` had gone to HELD: until such a link opens
again, the session it had counts no more, whether or not its end has been taken (R44, R69). -/
def State.upFor (s : State) (reset : List (Link × Byte)) (n : Link) : Bool :=
  if reset.contains (n, (s.link n).session) then s.isUp n else s.upAtNotices n

/-- A creation by a primary and a fallback link (R66). -/
def placePair (p : Link) (f : Option Link) (reset : List (Link × Byte)) (c : Creation) (s : State) : NoticeOutcome × State :=
  if s.upFor reset p then place p f c s
  else
    match f with
    | some g => if s.upFor reset g then place g none c s else (.unroutable, s.countLoss p)
    | none => (.unroutable, s.countLoss p)

/-- The notice unit takes a creation by a primary and a fallback link, and its line learns the outcome (R66, R70). -/
def takePair (p : Link) (f : Option Link) (reset : List (Link × Byte)) (c : Creation) (s : State) : State :=
  noteOutcome c (placePair p f reset c s).1 (placePair p f reset c s).2

/-- The links a broadcast is made for: those UP at the moment it is taken, in ascending order, less the excepted one
(R68). -/
def State.broadcastLinks (s : State) (except : Option Link) : List Link :=
  (List.finRange 4).filter fun n => s.upAtNotices n && decide (except ≠ some n)

/-- Copies of a broadcast taken: all of them, or only the first that can be made, the rest staying in transit ahead of
whatever else their channel holds (R74). As each copy is taken, the links of the list that are not UP then are struck from
it for good; one that has ended and opened again with no copy taken in between keeps its place (DESIGN CHOICE, log 17). -/
def takeCopies (c : Creation) (links : List Link) (e : Extent) (s : State) : State :=
  match e with
  | .whole => placeCopies c links s
  | .oneCopy =>
    match links.filter s.upAtNotices with
    | [] => s
    | n :: ns =>
      let t := placeCopies c [n] s
      if ns.isEmpty then t
      else
        t.setTransit { t.transit with creations := { c with route := .copies ns } :: t.transit.creations }

/-- The notice unit takes a creation (R64). -/
def takeCreation (c : Creation) (e : Extent) (s : State) : State :=
  match c.route with
  | .pair p f => takePair p f [] c s
  | .pairAfter p f reset => takePair p f reset c s
  | .target n => if s.upAtNotices n then (place n none c s).2 else s.countLoss n
  | .broadcast except => takeCopies c (s.broadcastLinks except) e s
  | .copies links => takeCopies c links e s

/-- The oldest creation on a channel, if there is one, is taken. -/
def takeChannel (ch : Channel) (e : Extent) (s : State) : State :=
  match takeFirst (fun c => c.channel = ch) s.transit.creations with
  | none => s
  | some (c, rest) => takeCreation c e (s.setTransit { s.transit with creations := rest })

/-- Every creation on a channel is taken, oldest first. -/
def drainChannel (ch : Channel) (s : State) : State :=
  let rest := s.transit.creations.filter fun c => c.channel ≠ ch
  (s.transit.creations.filter fun c => c.channel = ch).foldl (fun t c => takeCreation c .whole t)
    (s.setTransit { s.transit with creations := rest })

/-! ### Session end (R78 to R83) -/

/-- A record of link `n` moves to its onward link's queue, marked as redirected (R81). -/
def redirect (n m : Link) (r : Notice) (s : State) : State :=
  let moved := { r with onward := none, origin := some n, joined := s.stamp }
  (s.setQueue m (enqueue moved (s.queue m))).nextStamp

/-- Two records of one key become one (R82). -/
def Notice.merge (w r : Notice) (n : Link) : Notice :=
  { w with
    repeats := satAdd 255 w.repeats r.repeats
    timestamp := if r.created < w.created then r.timestamp else w.timestamp
    detail := if w.latest < r.latest then r.detail else w.detail
    level := max w.level r.level
    origin := some n
    created := min w.created r.created
    latest := max w.latest r.latest }

/-- A record that can go nowhere leaves the pool and is counted as a loss of its link (R83). -/
def discardRecord (n : Link) (r : Notice) (s : State) : State := (s.countLoss n).reportDeparture r .discarded

/-- What becomes of one record of link `n` at the end of its session: redirected, merged or discarded (R78). An onward
link whose own end is still on its way is UP here, and its end then takes the record among its own (R80). -/
def dealWith (n : Link) (s : State) (r : Notice) : State :=
  match r.onward with
  | some m =>
    if m ≠ n ∧ s.upAtNotices m then
      match findKey r.key (s.queue m) with
      | some w => s.setQueue m (revise w (w.merge r n) (s.queue m))
      | none => redirect n m r s
    else discardRecord n r s
  | none => discardRecord n r s

/-- The LINKLOST broadcast about a lost link (R78, R159, Table 10-9). -/
def linkLost (e : NoticeEnd) : Creation where
  key := ⟨.link e.link, none, .linklost, none⟩
  level := 2
  detail := [byteOf e.link, e.client, e.reason.code]
  route := .broadcast (some e.link)

/-- The notice unit takes a session end: the in-flight records in the order of their first sends, then the unsent ones
head to tail, and then, unless the reason is CLOSED, the LINKLOST broadcast (R78). It is taken even while copies of an
earlier LINKLOST about the same link still wait, which its own copies may then overtake (DESIGN CHOICE, log 16). -/
def takeNoticeEnd (e : NoticeEnd) (x : Extent) (s : State) : State :=
  let records := e.handed ++ s.queue e.link
  let t := records.foldl (dealWith e.link) (s.setQueue e.link [])
  if e.reason = .closed then t else takeCreation (linkLost e) x t

/-- The notice unit's share of the end of link `n`'s session, if one is on its way to it. -/
def noticeShare (n : Link) (x : Extent) (s : State) : State :=
  match takeFirst (fun e => e.link = n) s.transit.noticeEnds with
  | none => s
  | some (e, rest) => takeNoticeEnd e x (s.setTransit { s.transit with noticeEnds := rest })

end Sys2Proof.Machine
end

