-- ==== Sys2Proof/Machine/Authority.lean ====
section
/-!
DEFINITION. The authority unit (chapter 8): its notices, passing on, and its share of a session end.
-/

namespace Sys2Proof.Machine

/-- The authority record replaced. -/
def State.setAuthority (s : State) (a : Authority) : State := { s with authority := a }

/-- The AUTHCHANGE broadcast naming the new holder or NONE (R142); the link whose session end caused it receives no
copy (R140). -/
def authChange (holder : Option Link) (except : Option Link) : Creation where
  key := ⟨.authority, none, .authchange, none⟩
  level := 1
  detail := [linkOrNone holder]
  route := .broadcast except

/-- The AUTHWANTED notice naming a claimant, to the holder (R142). -/
def authWanted (claimant holder : Link) : Creation where
  key := ⟨.authority, none, .authwanted, none⟩
  level := 1
  detail := [byteOf claimant]
  route := .target holder

/-- The AUTHOFFER notice to the offered link (R142). -/
def authOffer (offered : Link) : Creation where
  key := ⟨.authority, none, .authoffer, none⟩
  level := 2
  detail := []
  route := .target offered

/-- Link `n` becomes the holder; the links waiting keep their order (R134, R138). -/
def becomeHolder (n : Link) (s : State) : State :=
  (s.setAuthority { s.authority with mode := .held n }).post [authChange (some n) none]

/-- The authority leaves its holder or offered link: it is offered to the head of the claim list, the timer loaded with
3000 ms, or becomes FREE when the list is empty (R136, R137). `ended` is the link whose session end caused it. -/
def passOn (ended : Option Link) (s : State) : State :=
  match s.authority.claimList with
  | [] => (s.setAuthority { s.authority with mode := .free }).post [authChange none ended]
  | m :: ms =>
    (s.setAuthority { s.authority with mode := .offering m Config.offerTime, claimList := ms }).post [authOffer m]

/-- The authority unit takes the end of link `n`'s session (R140, Table 8-2). -/
def takeAuthorityEnd (n : Link) (s : State) : State :=
  match s.authority.mode with
  | .held h => if h = n then passOn (some n) s
    else s.setAuthority { s.authority with claimList := s.authority.claimList.filter (· ≠ n) }
  | .offering o _ => if o = n then passOn (some n) s
    else s.setAuthority { s.authority with claimList := s.authority.claimList.filter (· ≠ n) }
  | .free => s

/-- The authority unit's share of the end of link `n`'s session, if one is on its way to it. -/
def authorityShare (n : Link) (s : State) : State :=
  match takeFirst (fun m => m = n) s.transit.authorityEnds with
  | none => s
  | some (m, rest) => takeAuthorityEnd m (s.setTransit { s.transit with authorityEnds := rest })

/-- Every session end waiting at the authority unit is taken, oldest first: the end of a session changes the authority
at once, so no other command is taken before it (R132, R133, R140; log 1). -/
def settleAuthority (s : State) : State :=
  s.transit.authorityEnds.foldl (fun t n => takeAuthorityEnd n t)
    (s.setTransit { s.transit with authorityEnds := [] })

end Sys2Proof.Machine
end

