-- ==== Sys2Proof/Machine/Sessions.lean ====
section
/-!
DEFINITION. Session ends and client resets at the link units (chapter 9, R127), with the delivery unit's share (R102).
-/

namespace Sys2Proof.Machine

/-- The reply a CLOSE or RESTART waits for no longer completes anything (R144, R156). -/
def Carried.plain (c : Carried) : Carried :=
  match c with
  | .reply _ => .reply .nothing
  | .notice k => .notice k

/-- A pending CLOSE or RESTART of link `n` is withdrawn; its reply, queued or being sent, is then a reply like any other
(R144, R156, R159). -/
def withdrawClosing (n : Link) (s : State) : State :=
  let l := s.link n
  let t := s.setLink n { l with closing := .nothing, replies := l.replies.map fun r => { r with closing := .nothing } }
  t.setTransmitter n ((t.transmitter n).map fun f => { f with carried := f.carried.plain })

/-- The delivery unit's share of a session end: ack timers stopped, resend list emptied, in-flight records handed back
(R102). -/
def deliveryShare (n : Link) (s : State) : State :=
  s.setDelivery n { s.delivery n with inFlight := [], resend := [] }

/-- The end of link `n`'s session (R159): the link is not UP, its inactivity timer is stopped, a pending CLOSE or RESTART
is withdrawn, the delivery unit takes the end, and it is handed to the notice unit and the authority unit. A link that
is not UP has no session to end. -/
def endSession (n : Link) (reason : EndReason) (s : State) : State :=
  if !s.isUp n then s
  else
    let handed := (s.delivery n).inFlight.map (·.notice)
    let word : NoticeEnd := ⟨n, reason, (s.link n).client, handed, []⟩
    let t := withdrawClosing n s
    let t := t.setLink n { t.link n with state := .silent, inactivity := none }
    let t := deliveryShare n t
    t.setTransit
      { t.transit with
        noticeEnds := t.transit.noticeEnds ++ [word]
        authorityEnds := t.transit.authorityEnds ++ [n] }

/-- Before a new session of link `n` opens, every consequence of the end of the last one comes about: the notice unit's
and the authority unit's shares, in the order the free value gives (R140, R154, R155, R159; log 5). -/
def settleEnds (n : Link) (s : State) : State :=
  if s.transit.noticeEnds.any (fun e => e.link = n) || s.transit.authorityEnds.any (fun m => m = n) then
    let t := { s with choices := s.choices + 1 }
    if Config.authorityShareFirst s.choices then
      noticeShare n .whole (drainChannel .authority (authorityShare n t))
    else authorityShare n (noticeShare n .whole t)
  else s

/-- Link `n` enters HELD: its reply queue is emptied and what its receiver was taking is abandoned (R150, R153). -/
def enterHeld (n : Link) (s : State) : State :=
  (s.setLink n { s.link n with state := .held, replies := [] }).setReceiver n .hunting

/-- The watch whose claim puts link `n` in HELD is noted at the end of the link's last session, while the notice unit has
yet to take that end (R44). -/
def noteResetter (n : Link) (resetter : Resetter) (s : State) : State :=
  s.setTransit { s.transit with
    noticeEnds := s.transit.noticeEnds.map fun e =>
      if e.link = n then { e with resetters := e.resetters ++ resetter.toList } else e }

/-- The link unit takes the assertion of CRSTn by a claim of `resetter` (R127, R44). -/
def takeAssertion (n : Link) (resetter : Resetter) (s : State) : State :=
  enterHeld n (noteResetter n resetter (endSession n .resetIssued s))

/-- The link unit takes the release of CRSTn: HELD becomes SILENT, the receiver starts in hunting (R127, R150). -/
def takeRelease (n : Link) (s : State) : State :=
  if (s.link n).state = .held then
    (s.setLink n { s.link n with state := .silent }).setReceiver n .hunting
  else s

/-- The oldest word about CRSTn for link `n`'s link unit, and the state without it. -/
def firstCrstWord (n : Link) (s : State) : Option (CrstChange × State) :=
  (takeFirst (fun w => w.1 = n) s.transit.crstWords).map fun r =>
    (r.1.2, s.setTransit { s.transit with crstWords := r.2 })

/-- The link unit of link `n` takes the oldest word about CRSTn if it is an assertion (R127). -/
def takeAssertedWord (n : Link) (s : State) : State :=
  match firstCrstWord n s with
  | some (.asserted resetter, t) => takeAssertion n resetter t
  | _ => s

/-- The link unit of link `n` takes the oldest word about CRSTn if it is a release (R127). -/
def takeReleasedWord (n : Link) (s : State) : State :=
  match firstCrstWord n s with
  | some (.released, t) => takeRelease n t
  | _ => s

/-! ### What every command takes first -/

/-- Events do not reach a part whose RESET input is held (R18, R20, R86, R106, R131, R132, R160). Any other event finds
the authority unit with no session end waiting (R132, R133). -/
def unlessReset (f : State → State) (s : State) : State := if s.resetIsHeld then s else f (settleAuthority s)

/-- A request taken from a valid frame on link `n` (R149, R152): discarded while RESET is held or the link takes
nothing; counted and discarded while the reply queue is full; otherwise checked and acted on by `body`, whose answer is
queued at the same moment. -/
def takeRequest (n : Link) (tag : Byte) (body : State → Answer × State) (s : State) : State :=
  unlessReset (fun s =>
    if s.deaf n then s
    else
      let s := s.frameArrived n
      if Config.replyPlaces ≤ (s.link n).replies.length then
        s.setLink n { s.link n with discarded := satAdd 255 (s.link n).discarded 1 }
      else
        let r := body s
        r.2.queueReply n ⟨tag, r.1.result, r.1.items, r.1.closing⟩) s

end Sys2Proof.Machine
end

