-- ==== Sys2Proof/Machine/Outputs.lean ====
section
/-!
DEFINITION. The output unit (chapter 7): claims, changes, expiry and removal.
-/

namespace Sys2Proof.Machine

/-- The OUTPUT broadcast of a change (R129). -/
def outputNotice (o : OutputIx) (asserted : Bool) : Creation where
  key := ⟨.output o, none, .output, none⟩
  level := if o = 4 then 3 else 2
  detail := [flagByte asserted]
  route := .broadcast none

/-- The state a change leads to. -/
def CrstChange.level (change : CrstChange) : Bool :=
  match change with
  | .asserted _ => true
  | .released => false

/-- An output has changed: an OUTPUT notice is handed to the notice unit and, for CRSTn, the change to link n's link unit
(R119). -/
def announce (o : OutputIx) (change : CrstChange) (s : State) : State :=
  let t := s.post [outputNotice o change.level]
  match linkOfOutput o with
  | some n => t.setTransit { t.transit with crstWords := t.transit.crstWords ++ [(n, change)] }
  | none => t

/-- A claim set is replaced, and the change of the output, if it is one, is announced; `resetter` is whose claim asserts
it (R119). -/
def changeClaims (o : OutputIx) (set : ClaimSet) (resetter : Resetter) (s : State) : State :=
  let t := s.setClaimSet o set
  if ClaimSet.nonEmpty set = s.asserted o then t
  else announce o (if ClaimSet.nonEmpty set then .asserted resetter else .released) t

/-- The claim that stands after a new claim is taken against the claimant's existing one (Table 7-3). -/
def replaceClaim (existing : Option Claim) (duration : Option Nat) : Claim :=
  match existing, duration with
  | some .held, _ => .held
  | _, some d => .timed d
  | _, none => .held

/-- The claim set after a claim is taken (R120). -/
def claimInto (c : Claimant) (duration : Option Nat) (set : ClaimSet) : ClaimSet :=
  put set (slotOf c) (some (replaceClaim (claimOf set c) duration))

/-- Whose claim a word hands over, for R44: a watch, by index and generation. -/
def resetterOf (c : Claimant) (generation : Option Byte) : Resetter :=
  match c with
  | .watch i => generation.map fun g => (i, g)
  | .manual => none

/-- The output unit takes a claim (R120). -/
def takeClaim (c : Claimant) (o : OutputIx) (duration : Option Nat) (generation : Option Byte) (s : State) : State :=
  changeClaims o (claimInto c duration (s.claimSet o)) (resetterOf c generation) s

/-- A claimant's claim on an output is removed (R121, R125, R126). -/
def dropClaim (c : Claimant) (o : OutputIx) (s : State) : State :=
  changeClaims o (put (s.claimSet o) (slotOf c) none) none s

/-- Every claim of a watch index is removed, in ascending order of output number (R126). -/
def dropAllClaims (i : WatchIx) (s : State) : State :=
  (List.finRange 5).foldl (fun t o => dropClaim (.watch i) o t) s

/-- The claimant a word to the output unit is about. -/
def OutputWord.claimant (w : OutputWord) : Claimant :=
  match w with
  | .claim c _ _ _ => c
  | .removeAll i => .watch i

/-- The oldest word of a claimant, and the words without it. -/
def firstWord (c : Claimant) (s : State) : Option (OutputWord × List OutputWord) :=
  takeFirst (fun w => w.claimant = c) s.transit.outputWords

/-- The state whose words to the output unit are `ws`. -/
def State.withOutputWords (s : State) (ws : List OutputWord) : State :=
  s.setTransit { s.transit with outputWords := ws }

/-- The next 1 ms tick brings the remaining time of the claim to 0 (R121). -/
def Claim.atLastTick (c : Claim) : Bool :=
  match c with
  | .timed r => r ≤ 1
  | .held => false

/-- What a 1 ms tick leaves of a claim: a millisecond less, or at 0 no claim; a held claim is not affected (R121). -/
def Claim.counted (c : Claim) : Option Claim :=
  if c.atLastTick then none
  else
    match c with
    | .timed r => some (.timed (r - 1))
    | .held => some .held

/-- A claim set after a 1 ms tick (R121). -/
def ClaimSet.counted (set : ClaimSet) : ClaimSet := remap set fun _ c => c.bind Claim.counted

/-- A 1 ms tick is taken at the output unit, as one event: every timed claim on every output loses a millisecond, those that
reach 0 are removed, and the outputs whose sets become empty are released, in ascending order (R121; log 3). -/
def countClaims (s : State) : State :=
  (List.finRange 5).foldl (fun t o => changeClaims o (ClaimSet.counted (t.claimSet o)) none t) s

/-- The tick due at the output unit, if there is one, is taken (R121, R122). -/
def takeClaimTick (s : State) : State := if s.claimTickDue then countClaims (s.setClaimTickDue false) else s

/-- The tick due at the output unit is taken if it removes the claim of `c` on output `o` (R121). -/
def takeClaimExpiry (o : OutputIx) (c : Claimant) (s : State) : State :=
  if (claimOf (s.claimSet o) c).any Claim.atLastTick then takeClaimTick s else s

/-- The next 1 ms tick removes a claim (R121). -/
def State.claimRunsOut (s : State) : Bool := s.claims.toList.any fun set => set.toList.any fun c => c.any Claim.atLastTick

/-- A 1 ms tick reaches the output unit: where it would remove a claim it is due, as a whole, and is otherwise taken
(R121; log 3). -/
def tickClaims (s : State) : State := if s.claimRunsOut then s.setClaimTickDue true else countClaims s

/-- Whether a word is a claim of MANUAL on output `o`. -/
def OutputWord.isManual (o : OutputIx) (w : OutputWord) : Bool :=
  match w with
  | .claim .manual p _ _ => p = o
  | .claim (.watch _) _ _ _ => false
  | .removeAll _ => false

/-- The duration of a claim word, none for a held claim. -/
def OutputWord.duration (w : OutputWord) : Option Nat :=
  match w with
  | .claim _ _ d _ => d
  | .removeAll _ => none

/-- The claims of MANUAL on output `o` that have been handed over and not yet taken, oldest first. -/
def State.manualWords (s : State) (o : OutputIx) : List OutputWord :=
  s.transit.outputWords.filter (OutputWord.isManual o)

/-- The claim set of output `o` once every claim of MANUAL handed over for it has been taken: what a request of the
holder finds, since its requests are taken in order (R123 to R125; log 6). -/
def State.claimSetForManual (s : State) (o : OutputIx) : ClaimSet :=
  (s.manualWords o).foldl (fun set w => claimInto .manual w.duration set) (s.claimSet o)

/-- The claims of MANUAL on output `o` in transit are taken, oldest first (log 6). -/
def settleManual (o : OutputIx) (s : State) : State :=
  (s.manualWords o).foldl (fun t w => takeClaim .manual o w.duration none t)
    (s.withOutputWords (s.transit.outputWords.filter fun w => !w.isManual o))

end Sys2Proof.Machine
end

