-- ==== Sys2Proof/Machine/Watches.lean ====
section
/-!
DEFINITION. The watch table (chapters 1 to 3) as functions of one entry: expiry, ladder, sequence check, feeding,
completion, and how what an entry hands on reaches the rest of the state.
-/

namespace Sys2Proof.Machine

/-- What an event does at one watch entry: the entry after it, and the words and creations it hands on, in order. -/
structure WatchStep where
  watch   : Watch
  words   : List OutputWord
  notices : List Creation
  deriving DecidableEq, Repr

/-- An event that hands nothing on. -/
def WatchStep.quiet (w : Watch) : WatchStep := ⟨w, [], []⟩

/-- The stage record `k` of a ladder, counted from 1. A defined HEARTBEAT or DEADLINE watch has one for every stage it
can reach (R4, R42); beyond the ladder the record is one that only notifies. -/
def Watch.stageRec (w : Watch) (k : Nat) : StageRec := w.ladder.getD (k - 1) ⟨1, .notify, 0, 0, 0⟩

/-- A notice about watch `i`, routed by its primary and fallback, with its generation (R3, R66). -/
def watchNotice (i : WatchIx) (w : Watch) (e : Event) (level : Level) (stage : Option Nat) (detail : List Byte) :
    Creation where
  key := ⟨.watch i, some w.generation, e, stage⟩
  level := level
  detail := detail
  route := .pair w.primary w.fallback

/-- The claim of a stage action of watch `i` (R45, Table 3-1). -/
def stageClaim (i : WatchIx) (generation : Byte) (r : StageRec) : List OutputWord :=
  match r.action with
  | .notify => []
  | .pulse => [.claim (.watch i) (crstOf r.target) (some r.duration) (some generation)]
  | .hold => [.claim (.watch i) (crstOf r.target) none (some generation)]
  | .safe => [.claim (.watch i) 4 none (some generation)]

/-- The highest level of any stage record of a ladder (R58). -/
def Watch.topLevel (w : Watch) : Level := w.ladder.foldl (fun m r => max m r.level) 0

/-- The causes of a LATCHED notice (Table 10-9). -/
inductive LatchCause where
  | ladderEnd | latchingAction | strikeLimit
  deriving DecidableEq, Repr

/-- LATCHED causes as detail bytes (Table 10-9). -/
def latchCode (c : LatchCause) : Byte :=
  match c with
  | .ladderEnd => 0
  | .latchingAction => 1
  | .strikeLimit => 2

/-- The LATCHED notice of a watch latched on stage `k` (R58). -/
def latchedNotice (i : WatchIx) (w : Watch) (k : Nat) (c : LatchCause) : Creation :=
  watchNotice i w .latched w.topLevel (some k) [latchCode c]

/-- The notice of entering stage `k`: OVERDUE, or SEQFAULT with the expected and received values when a sequence fault
caused it (R43, R56). -/
def stageNotice (i : WatchIx) (w : Watch) (k : Nat) (fault : Option (Byte × Byte)) : Creation :=
  match fault with
  | none => watchNotice i w .overdue (w.stageRec k).level (some k) []
  | some (expected, received) => watchNotice i w .seqfault (w.stageRec k).level (some k) [expected, received]

/-- The watch latched on stage `k`: it stops counting and keeps the stage (R47, R48, R50). -/
def Watch.latchOn (w : Watch) (k : Nat) : Watch := { w with state := .latched, stage := k, count := 0 }

/-- A HEARTBEAT or DEADLINE watch enters stage `k` (R43), and latches at once on a latching action (R48). -/
def enterStage (i : WatchIx) (w : Watch) (k : Nat) (fault : Option (Byte × Byte)) : WatchStep :=
  let r := w.stageRec k
  if r.action.latching then
    ⟨w.latchOn k, stageClaim i w.generation r, [stageNotice i w k fault, latchedNotice i w k .latchingAction]⟩
  else
    ⟨{ w with state := .overdue, stage := k, count := r.grace }, stageClaim i w.generation r, [stageNotice i w k fault]⟩

/-- The watch goes straight to its last stage at the strike limit (R50). -/
def strikeOut (i : WatchIx) (w : Watch) : WatchStep :=
  let k := w.ladder.length
  ⟨w.latchOn k, stageClaim i w.generation (w.stageRec k), [latchedNotice i w k .strikeLimit]⟩

/-- One more strike; the strikes stay at 255 (R35). -/
def Watch.strike (w : Watch) : Watch := { w with strikes := satAdd 255 w.strikes 1 }

/-- A lapse from RUNNING, by expiry or sequence fault: the strikes are increased, then the strike limit is compared
(R23, R32, R35, R50, R51). -/
def lapse (i : WatchIx) (w : Watch) (fault : Option (Byte × Byte)) : WatchStep :=
  let v := w.strike
  if v.strikeLimit ≠ 0 ∧ v.strikeLimit ≤ v.strikes then strikeOut i v else enterStage i v 1 fault

/-- A watch expires: an ACTIVITY watch falls QUIET (R33), another lapses (R23). -/
def expire (i : WatchIx) (w : Watch) : WatchStep :=
  match w.kind with
  | .activity =>
    let v := { w.strike with state := .quiet, count := 0, stage := 0 }
    ⟨v, [], [watchNotice i v .quiet v.activityLevel none []]⟩
  | .heartbeat => lapse i w none
  | .deadline => lapse i w none

/-- The grace of the current stage runs out: the next stage, or the ladder's end (R46, R47). -/
def endGrace (i : WatchIx) (w : Watch) : WatchStep :=
  if w.stage < w.ladder.length then enterStage i w (w.stage + 1) none
  else ⟨w.latchOn w.stage, [], [latchedNotice i w w.stage .ladderEnd]⟩

/-- A sequence fault in OVERDUE: the next stage with a SEQFAULT notice, or, at the last stage, SEQFAULT and the ladder's
end (R52). -/
def faultInOverdue (i : WatchIx) (w : Watch) (expected received : Byte) : WatchStep :=
  if w.stage < w.ladder.length then enterStage i w (w.stage + 1) (some (expected, received))
  else
    ⟨w.latchOn w.stage, [],
     [stageNotice i w w.stage (some (expected, received)), latchedNotice i w w.stage .ladderEnd]⟩

/-- A tick of the entry's own base is taken at the entry (R22, R46). -/
def countDown (i : WatchIx) (w : Watch) : WatchStep :=
  match w.state with
  | .running => if w.count ≤ 1 then expire i { w with count := 0 } else .quiet { w with count := w.count - 1 }
  | .overdue => if w.count ≤ 1 then endGrace i { w with count := 0 } else .quiet { w with count := w.count - 1 }
  | .free => .quiet w
  | .stopped => .quiet w
  | .paused => .quiet w
  | .quiet => .quiet w
  | .latched => .quiet w

/-- A watch refreshed or recovered: RUNNING at stage 0 with the count loaded with the reload (R29, R33, R53). -/
def Watch.refresh (w : Watch) : Watch := { w with state := .running, stage := 0, count := w.reload }

/-- A feed whose sequence is in order or is not examined, in the state the watch has (R29, R33, R36, R53). Where a FEED
would be refused it changes nothing. -/
def feedStep (i : WatchIx) (w : Watch) : WatchStep :=
  match w.kind, w.state with
  | .heartbeat, .running => .quiet w.refresh
  | .heartbeat, .overdue => ⟨w.refresh, [], [watchNotice i w .recovered (w.stageRec 1).level none []]⟩
  | .activity, .running => .quiet w.refresh
  | .activity, .quiet => ⟨w.refresh, [], [watchNotice i w .active w.activityLevel none []]⟩
  | _, _ => .quiet w

/-- A FEED is accepted by the kind and state of the watch (R29, Table 2-4). -/
def Watch.takesFeed (w : Watch) : Bool :=
  match w.kind, w.state with
  | .heartbeat, .running => true
  | .heartbeat, .overdue => true
  | .activity, .running => true
  | .activity, .quiet => true
  | _, _ => false

/-- The sequence value of a FEED is examined: a HEARTBEAT watch with seqcheck on (R31). -/
def Watch.examines (w : Watch) : Bool := w.kind = .heartbeat && w.seqcheck

/-- The expected value, if the value received is a sequence fault (R31). -/
def Watch.sequenceFault (w : Watch) (value : Byte) : Option Byte :=
  match w.lastSeq with
  | some last => if value = last + 1 then none else some (last + 1)
  | none => none

/-- An accepted FEED: whether it found a sequence fault, and what it does (R29, R31, R32, R51 to R53). -/
def feedRequest (i : WatchIx) (w : Watch) (value : Byte) : Bool × WatchStep :=
  if w.examines then
    let v := { w with lastSeq := some value }
    match w.sequenceFault value with
    | none => (false, feedStep i v)
    | some expected =>
      if w.state = .running then (true, lapse i v (some (expected, value)))
      else (true, faultInOverdue i v expected value)
  else (false, feedStep i w)

/-- A watch returned to STOPPED with count and stage 0; strikes and last sequence are kept (R26, R34, R54). -/
def Watch.halt (w : Watch) : Watch := { w with state := .stopped, count := 0, stage := 0 }

/-- A completion of a DEADLINE watch, by request or by line, in the state the watch has (R34, R37, R54). Where a COMPLETE
would be refused it changes nothing. -/
def completeStep (i : WatchIx) (w : Watch) : WatchStep :=
  match w.state with
  | .running => .quiet w.halt
  | .overdue => ⟨w.halt, [], [watchNotice i w .late (w.stageRec 1).level none []]⟩
  | .free => .quiet w
  | .stopped => .quiet w
  | .paused => .quiet w
  | .quiet => .quiet w
  | .latched => .quiet w

/-- A trigger of a listed line at a watch: a line feed, or at a DEADLINE watch a line completion (R36, R37). -/
def triggerStep (i : WatchIx) (w : Watch) : WatchStep :=
  match w.kind with
  | .deadline => completeStep i w
  | .heartbeat => feedStep i w
  | .activity => feedStep i w

/-! ### What an entry hands on -/

/-- The effect of an event at watch `i` on the whole state: the entry, the claims to the output unit, the notices to the
notice unit. -/
def applyStep (i : WatchIx) (r : WatchStep) (s : State) : State :=
  ((s.setWatch i r.watch).sendOutput r.words).post r.notices

/-- A trigger of line `l` reaches every watch that lists it, each on its own (R36, R108). -/
def triggerWatches (l : LineIx) (s : State) : State :=
  (List.finRange 32).foldl
    (fun t i => if inLines (t.watch i).lineSet l then applyStep i (triggerStep i (t.watch i)) t else t) s

/-- The tick due at watch `i` is taken, if it is of the entry's base (R22, R23, R46). -/
def takeWatchTick (i : WatchIx) (s : State) : State :=
  match s.watchTickDue i with
  | none => s
  | some b =>
    let t := s.setWatchTickDue i none
    if (t.watch i).base = b then applyStep i (countDown i (t.watch i)) t else t

/-- A tick would bring the count of this watch to 0 (R23, R46). -/
def Watch.atLastTick (w : Watch) : Bool := (w.state = .running || w.state = .overdue) && w.count ≤ 1

/-- A tick of base `b` at one entry: it is counted, unless it would bring the count to 0 (R22; log 3). -/
def Watch.tick (b : Base) (w : Watch) : Watch :=
  if w.base = b ∧ (w.state = .running ∨ w.state = .overdue) ∧ 1 < w.count then { w with count := w.count - 1 } else w

/-- A tick of base `b` reaches the watch table: it is due at every entry whose count it would bring to 0 and counted at
the others (R22; log 3). -/
def tickWatches (b : Base) (s : State) : State :=
  { s with
    watches := remap s.watches fun _ w => w.tick b
    watchTicksDue := remap s.watchTicksDue fun i due =>
      if (s.watch i).base = b && (s.watch i).atLastTick then some b else due }

end Sys2Proof.Machine
end

