-- ==== Sys2Proof/Machine/Lines.lean ====
section
/-!
DEFINITION. The event line unit (chapter 6): sampling, filtering, triggers, and the reports of its notices.
-/

namespace Sys2Proof.Machine

/-- The LINE notice of a trigger that arrived at `level` (R110). -/
def lineNotice (l : LineIx) (r : LineRec) (level : Bool) : Creation where
  key := ⟨.line l, none, .line, none⟩
  level := r.level
  detail := [flagByte level]
  route := .pair r.primary r.fallback

/-- The REPEAT notice reporting an overrun count (R110, R111). -/
def repeatNotice (l : LineIx) (r : LineRec) : Creation where
  key := ⟨.line l, none, .repeated, none⟩
  level := r.level
  detail := [byteOf r.overrun]
  route := .pair r.primary r.fallback

/-- A sample would be accepted: it shows the other level and completes the filter (R105). -/
def LineRec.wouldAccept (r : LineRec) (sample : Bool) : Bool :=
  sample ≠ r.accepted && r.disagreement + 1 = r.filter + 1

/-- A sample taken at a line (R105); it is the line's most recent sample (R116). -/
def LineRec.sampled (r : LineRec) (sample : Bool) : LineRec :=
  if sample = r.accepted then { r with disagreement := 0, pinLevel := sample }
  else if r.disagreement + 1 = r.filter + 1 then
    { r with accepted := sample, disagreement := 0, pinLevel := sample }
  else { r with disagreement := r.disagreement + 1, pinLevel := sample }

/-- The notices of a trigger (R109). The outcome of an earlier notice of the line that is still in transit is part of the
trigger that handed it over, so it is taken first (log 1). -/
def notifyTrigger (l : LineIx) (level : Bool) (s : State) : State :=
  if (s.line l).notify then
    let t := drainChannel (.line l) s
    if (t.line l).pending then t.setLine l { t.line l with overrun := satAdd 255 (t.line l).overrun 1 }
    else t.post [lineNotice l (t.line l) level]
  else s

/-- A trigger of a line, arriving at `level`: handed to the watches that list it, and to the line's notices (R107 to
R109). -/
def trigger (l : LineIx) (level : Bool) (s : State) : State := notifyTrigger l level (triggerWatches l s)

/-- The sample due at line `l` is taken against the state the line has now (R105, R107, R115). -/
def takeSample (l : LineIx) (s : State) : State :=
  match (s.line l).dueSample with
  | none => s
  | some sample =>
    let r := s.line l
    let t := s.setLine l { r.sampled sample with dueSample := none }
    if r.wouldAccept sample && r.mode.triggers sample then trigger l sample t else t

/-- A sample at one line: it is taken, unless it would be accepted (R105; log 3). -/
def LineRec.tick (r : LineRec) (sample : Bool) : LineRec :=
  if r.wouldAccept sample then { r with dueSample := some sample } else r.sampled sample

/-- A 1 ms tick at the line unit: each pin is sampled (R105). -/
def tickLines (s : State) : State :=
  { s with lines := remap s.lines fun l r => r.tick (pinOf s.evPins l) }

/-- The line unit takes a report that a LINE or REPEAT notice of line `l` left the pool (R111, R112). -/
def takeDeparture (l : LineIx) (how : Departure) (s : State) : State :=
  let r := s.line l
  let t := s.setLine l { r with pending := false, overrun := 0 }
  match how with
  | .acknowledged => if r.overrun = 0 then t else t.post [repeatNotice l r]
  | .evicted => t
  | .discarded => t

/-- The oldest report about line `l` is taken. -/
def takeLineReport (l : LineIx) (s : State) : State :=
  match takeFirst (fun w => w.1 = l) s.transit.lineReports with
  | none => s
  | some (w, rest) => takeDeparture l w.2 (s.setTransit { s.transit with lineReports := rest })

/-- A line at the end of a reset or at a command restart: the pin sampled becomes the accepted level, and nothing is
pending (R106, R117). -/
def LineRec.restarted (r : LineRec) (pin : Bool) : LineRec :=
  { r with accepted := pin, pinLevel := pin, disagreement := 0, pending := false, overrun := 0, dueSample := none }

end Sys2Proof.Machine
end

