-- ==== Sys2Proof/Machine/Delivery.lean ====
section
/-!
DEFINITION. The delivery units and transmitters (chapter 5): notice numbers, first sends, resends, acknowledgement, ack
timers, and the choice of the next frame.
-/

namespace Sys2Proof.Machine

/-- The record of an in-flight set that carries a number (R91: at most one does). -/
def flightOf (set : List InFlight) (k : Byte) : Option InFlight := set.find? fun f => f.number = k

/-- The records of an in-flight set that carry a number replaced by a function of themselves. -/
def reviseFlight (set : List InFlight) (k : Byte) (g : InFlight → InFlight) : List InFlight :=
  set.map fun f => if f.number = k then g f else f

/-- The number a first send takes: the next notice number, skipping those carried in the set; at most three can be
skipped (R91). -/
def pickNumber (set : List InFlight) (next : Byte) : Byte :=
  ([next, next + 1, next + 2, next + 3].find? fun k => (flightOf set k).isNone).getD next

/-- The head-most eligible record of a queue is its head, when the head is eligible (R88). -/
def eligibleHead (floor : Level) (q : List Notice) : Option (Notice × List Notice) :=
  match q with
  | [] => none
  | r :: rest => if eligible floor r then some (r, rest) else none

/-- A first send on link `n` (R92). -/
def firstSend (n : Link) (r : Notice) (rest : List Notice) (s : State) : State :=
  let d := s.delivery n
  let k := pickNumber d.inFlight d.nextNumber
  let f : InFlight := ⟨r, 1, k, s.loss n, none, false⟩
  let t := (s.setQueue n rest).setLoss n 0
  let t := t.setDelivery n { d with inFlight := d.inFlight ++ [f], nextNumber := k + 1 }
  t.setTransmitter n (some ⟨noticeFrame f, .notice k⟩)

/-- The first record on link `n`'s resend list is sent again (R97). -/
def resendFirst (n : Link) (k : Byte) (rest : List Byte) (s : State) : State :=
  let d := s.delivery n
  let t := s.setDelivery n
    { d with inFlight := reviseFlight d.inFlight k fun f => { f with attempt := f.attempt + 1 }, resend := rest }
  match flightOf (t.delivery n).inFlight k with
  | some f => t.setTransmitter n (some ⟨noticeFrame f, .notice k⟩)
  | none => t

/-- The transmitter takes the oldest reply, with the discarded-requests count, which becomes 0 (R153, R164). -/
def sendReply (n : Link) (r : Reply) (rest : List Reply) (s : State) : State :=
  let t := s.setLink n { s.link n with replies := rest, discarded := 0 }
  t.setTransmitter n (some ⟨replyFrame (s.link n).discarded r, .reply r.closing⟩)

/-- An idle transmitter takes the next frame: the oldest reply, else on an UP link the first resend, else a first send
within the window (R99). -/
def takeFrame (n : Link) (s : State) : State :=
  match s.transmitter n with
  | some _ => s
  | none =>
    match (s.link n).replies with
    | r :: rest => sendReply n r rest s
    | [] =>
      if !s.isUp n then s
      else
        match (s.delivery n).resend with
        | k :: rest => resendFirst n k rest s
        | [] =>
          if (s.delivery n).inFlight.length < (s.delivery n).window then
            match eligibleHead (s.delivery n).floor (s.queue n) with
            | some (r, rest) => firstSend n r rest s
            | none => s
          else s

/-- The last byte of a NOTICE frame has been sent: the record's ack timer is started, if the record is still in flight
(R94, R102, R103). -/
def startAckTimer (n : Link) (k : Byte) (s : State) : State :=
  let d := s.delivery n
  s.setDelivery n
    { d with inFlight :=
        reviseFlight d.inFlight k fun f => { f with timer := some (d.ackTimeout * 10), timerDue := false } }

/-- An acknowledgement of number `k` is taken by link `n`'s delivery unit (R95, R96). -/
def takeAck (n : Link) (k : Byte) (s : State) : State :=
  let d := s.delivery n
  match flightOf d.inFlight k with
  | some f =>
    (s.setDelivery n
      { d with inFlight := d.inFlight.filter (·.number ≠ k), resend := d.resend.filter (· ≠ k) }).reportDeparture
        f.notice .acknowledged
  | none => s.setDelivery n { d with strayAcks := satAdd 65535 d.strayAcks 1 }

/-- The tick due at the ack timer of the record with number `k` is taken: the timer falls by one, and at 0 the record goes
on the resend list, or at attempt 3 the session ends (R94, R97, R98). -/
def takeAckTick (n : Link) (k : Byte) (s : State) : State :=
  let d := s.delivery n
  match flightOf d.inFlight k with
  | some f =>
    match f.timer, f.timerDue with
    | some t, true =>
      if 1 < t then
        s.setDelivery n
          { d with inFlight := reviseFlight d.inFlight k fun f => { f with timer := some (t - 1), timerDue := false } }
      else
        let stopped := reviseFlight d.inFlight k fun f => { f with timer := none, timerDue := false }
        if f.attempt < Config.maxAttempts then
          s.setDelivery n { d with inFlight := stopped, resend := d.resend ++ [k] }
        else endSession n .noAck (s.setDelivery n { d with inFlight := stopped })
    | _, _ => s
  | none => s

/-- A 1 ms tick at one ack timer (R94; log 3). -/
def InFlight.tick (f : InFlight) : InFlight :=
  match f.timer with
  | some t => if t ≤ 1 then { f with timerDue := true } else { f with timer := some (t - 1) }
  | none => f

/-- A 1 ms tick at the delivery units (R94). -/
def tickAckTimers (s : State) : State :=
  { s with deliveries := remap s.deliveries fun _ d => { d with inFlight := d.inFlight.map InFlight.tick } }

end Sys2Proof.Machine
end

