-- ==== Sys2Proof/Machine/Timers.lean ====
section
/-!
DEFINITION. The timers of the link units and of the authority unit, and the receiver's gap timer: what a 1 ms tick does
to them and what the tick due at one of them does (R148, R158, R137, R139).
-/

namespace Sys2Proof.Machine

/-- The tick due at link `n`'s inactivity timer is taken: the timer falls by one, and at 0 the session ends with reason
SILENCE (R158). -/
def takeInactivityTick (n : Link) (s : State) : State :=
  let l := s.link n
  if l.inactivityDue then
    let t := s.setLink n { l with inactivityDue := false }
    match l.inactivity with
    | some k =>
      if k ≤ 1 then endSession n .silence t
      else t.setLink n { l with inactivity := some (k - 1), inactivityDue := false }
    | none => t
  else s

/-- A 1 ms tick at one inactivity timer (R158; log 3). -/
def LinkRec.tick (l : LinkRec) : LinkRec :=
  match l.inactivity with
  | some k => if k ≤ 1 then { l with inactivityDue := true } else { l with inactivity := some (k - 1) }
  | none => l

/-- A 1 ms tick at the inactivity timers (R158). -/
def tickInactivity (s : State) : State := { s with links := remap s.links fun _ l => l.tick }

/-- The tick due at the offer timer is taken: it falls by one while the state is OFFERING, and at 0 the offer ends
without acceptance (R137, R139). -/
def takeOfferTick (s : State) : State :=
  if s.authority.offerDue then
    let t := s.setAuthority { s.authority with offerDue := false }
    match s.authority.mode with
    | .offering o k =>
      if k ≤ 1 then passOn none t else t.setAuthority { t.authority with mode := .offering o (k - 1) }
    | .free => t
    | .held _ => t
  else s

/-- A 1 ms tick at the offer timer (R137; log 3). -/
def tickOffer (s : State) : State :=
  match s.authority.mode with
  | .offering o k =>
    if k ≤ 1 then s.setAuthority { s.authority with offerDue := true }
    else s.setAuthority { s.authority with mode := .offering o (k - 1) }
  | .free => s
  | .held _ => s

/-- The tick due at link `n`'s gap timer is taken: it falls by one, and at 0 the bytes collected are discarded and a
framing error is counted (R148). -/
def takeGapTick (n : Link) (s : State) : State :=
  let r := s.receiver n
  if r.gapDue then
    match r.collected with
    | some _ =>
      if r.gap ≤ 1 then
        (s.setReceiver n .hunting).setLink n
          { s.link n with framingErrors := satAdd 65535 (s.link n).framingErrors 1 }
      else s.setReceiver n { r with gap := r.gap - 1, gapDue := false }
    | none => s.setReceiver n { r with gapDue := false }
  else s

/-- A 1 ms tick at one gap timer: it runs while a frame is being received (R148; log 3). -/
def Receiver.tick (r : Receiver) : Receiver :=
  match r.collected with
  | some _ => if r.gap ≤ 1 then { r with gapDue := true } else { r with gap := r.gap - 1 }
  | none => r

/-- A 1 ms tick at the gap timers (R148). -/
def tickGaps (s : State) : State := { s with receivers := remap s.receivers fun _ r => r.tick }

end Sys2Proof.Machine
end

