-- ==== Sys2Proof/Machine/TimeBase.lean ====
section
/-!
DEFINITION. The time base (R20 to R24): the uptime, the ticks of the four bases, and the delivery of a tick to the blocks
that count in its base (log 3).
-/

namespace Sys2Proof.Machine

/-- The period of a base in milliseconds (R21). -/
def period (b : Base) : Nat :=
  match b with
  | .ms1 => 1
  | .ms10 => 10
  | .ms100 => 100
  | .s1 => 1000

/-- A tick of base `b` falls at uptime `u`: `u` is a multiple of the period; the uptime 0 reached by wrapping counts for
all four (R21). -/
def fallsAt (b : Base) (u : Uptime) : Bool := u.toNat % period b = 0

/-- Where a tick of base `b` goes at a block: only the watch table counts in bases other than 1 ms (R21). -/
def portOf (b : Base) (k : TickBlock) : List TickPort :=
  match b, k with
  | b, .watchTable => [.watches b]
  | .ms1, .lines => [.lines]
  | .ms1, .outputs => [.outputs]
  | .ms1, .ackTimers => [.ackTimers]
  | .ms1, .inactivityTimers => [.inactivityTimers]
  | .ms1, .offerTimer => [.offerTimer]
  | .ms1, .gapTimers => [.gapTimers]
  | _, _ => []

/-- The blocks a tick reaches. -/
def tickBlocks : List TickBlock :=
  [.watchTable, .lines, .outputs, .ackTimers, .inactivityTimers, .offerTimer, .gapTimers]

/-- Where one TICK command delivers its tick. -/
def portsOf (b : Base) (r : TickReach) : List TickPort :=
  match r with
  | .allBlocks => tickBlocks.flatMap (portOf b)
  | .only k => portOf b k

/-- Everything the ticks of uptime `u` reach (R21). -/
def portsAt (u : Uptime) : List TickPort :=
  ([Base.ms1, .ms10, .ms100, .s1].filter fun b => fallsAt b u).flatMap fun b => portsOf b .allBlocks

/-- A tick reaches one block (R21). -/
def deliverTick (s : State) (p : TickPort) : State :=
  match p with
  | .watches b => tickWatches b s
  | .lines => tickLines s
  | .outputs => tickClaims s
  | .ackTimers => tickAckTimers s
  | .inactivityTimers => tickInactivity s
  | .offerTimer => tickOffer s
  | .gapTimers => tickGaps s

/-- The ticks owed at `ports` are delivered and no longer owed. -/
def deliverTicks (ports : List TickPort) (s : State) : State :=
  (s.owedTicks.filter ports.contains).foldl deliverTick
    (s.setOwedTicks (s.owedTicks.filter fun p => !ports.contains p))

/-- An event that takes a due tick, as its own command takes it: with no session end waiting at the authority unit
(R132, R133). -/
def taking (f : State → State) (s : State) : State := f (settleAuthority s)

/-- Every tick that is due and not yet taken is taken, each as its own command takes it (log 3). -/
def takeDueTicks (s : State) : State :=
  let s := (List.finRange 32).foldl (fun t i => taking (takeWatchTick i) t) s
  let s := (List.finRange 16).foldl (fun t l => taking (takeSample l) t) s
  let s := taking takeClaimTick s
  let s := (List.finRange 4).foldl
    (fun t n => ((t.delivery n).inFlight.map (·.number)).foldl (fun t k => taking (takeAckTick n k) t) t) s
  let s := (List.finRange 4).foldl (fun t n => taking (takeInactivityTick n) t) s
  let s := taking takeOfferTick s
  (List.finRange 4).foldl (fun t n => taking (takeGapTick n) t) s

/-- The ticks of the present uptime are over: those still owed are delivered and those due are taken, before the uptime
increases (log 3). -/
def finishMillisecond (s : State) : State := takeDueTicks (deliverTicks s.owedTicks s)

/-- The uptime increases by one, wrapping after 4 294 967 295, and owes the ticks that fall at its new value (R20,
R21). -/
def advanceUptime (s : State) : State :=
  { s with uptime := s.uptime + 1, owedTicks := portsAt (s.uptime + 1) }

/-- A TICK command: the tick of base `b`, if it is owed at the present uptime, reaches the blocks of `r`; if none is owed
there and one falls at the next uptime, the uptime increases first; otherwise no tick of that base falls here (R20,
R21; log 3). -/
def timeTick (b : Base) (r : TickReach) (pins : Half) (s : State) : State :=
  if (s.owedTicks.any (portsOf b r).contains) then deliverTicks (portsOf b r) (s.setPins pins)
  else if fallsAt b (s.uptime + 1) && !(portsOf b r).isEmpty then
    deliverTicks (portsOf b r) ((advanceUptime (finishMillisecond s)).setPins pins)
  else s

end Sys2Proof.Machine
end

