-- ==== Sys2Proof/Machine/Resets.lean ====
section
/-!
DEFINITION. The three kinds of reset: power-on and pin reset (R18, R20, R86, R87, R106, R131, R132, R146, R160) and the
command restart (R19, R85, R103, R117, R130, R145, R161).
-/

namespace Sys2Proof.Machine

/-- The rate the straps choose (Table 9-1). -/
def rateOf (straps : Straps) : Rate :=
  match straps.getLsbD 1, straps.getLsbD 0 with
  | false, false => .baud57600
  | false, true => .baud115200
  | true, false => .baud460800
  | true, true => .baud921600

/-- Every block at its reset values; the command queue, the RESET input, the pins, the rate and the model's counter of
choices are not the blocks' and stay. -/
def reinitialise (cause : ResetCause) (s : State) : State :=
  { State.reset with
    pending := s.pending
    resetIsHeld := s.resetIsHeld
    resetCause := cause
    rate := s.rate
    evPins := s.evPins
    choices := s.choices }

/-- The end of a reset: each pin is sampled once as its line's accepted level (R106) and the straps are read (R146). -/
def endReset (pins : Half) (straps : Straps) (s : State) : State :=
  { s with
    evPins := pins
    rate := rateOf straps
    lines := remap s.lines fun l r => r.restarted (pinOf pins l) }

/-- The watches after a command restart: the frozen ones are unchanged, the others FREE with their generations (R19). -/
def Watch.restarted (w : Watch) : Watch := if w.frozen then w else Watch.free w.generation

/-- A claim set after a command restart: the claims of frozen watches are kept (R130). -/
def restartedClaims (s : State) (set : ClaimSet) : ClaimSet :=
  remap set fun k c => if h : k.val < 32 then (if (s.watch ⟨k.val, h⟩).frozen then c else none) else none

/-- A word to the output unit outlives a command restart when its claimant is a frozen watch (R130). -/
def OutputWord.survives (s : State) (w : OutputWord) : Bool :=
  match w.claimant with
  | .watch i => (s.watch i).frozen
  | .manual => false

/-- A link record after a command restart, its CRST output asserted or not (Table 9-3, R161). -/
def LinkRec.restarted (l : LinkRec) (crst : Bool) : LinkRec :=
  { l with
    state := if crst then .held else .silent
    inactivity := none
    inactivityDue := false
    closing := .nothing
    replies := []
    discarded := 0
    framingErrors := 0
    checkErrors := 0 }

/-- The command restart, taken by every block at the same moment (R145). -/
def commandRestart (s : State) : State :=
  let claims := remap s.claims fun _ set => restartedClaims s set
  { s with
    resetCause := .restart
    watches := remap s.watches fun _ w => w.restarted
    lines := remap s.lines fun l r => r.restarted (pinOf s.evPins l)
    claims := claims
    authority := ⟨.free, [], false⟩
    links := remap s.links fun n l => l.restarted (ClaimSet.nonEmpty claims[crstOf n])
    receivers := Vector.replicate 4 .hunting
    transmitters := remap s.transmitters fun _ f => f.map fun f => { f with carried := f.carried.plain }
    deliveries := Vector.replicate 4 .atReset
    queues := Vector.replicate 4 []
    losses := Vector.replicate 4 0
    transit := { Transit.empty with outputWords := s.transit.outputWords.filter (OutputWord.survives s) } }

/-- The transmitter of link `n` has sent the last byte of its frame: an ack timer starts (R94), or a pending CLOSE ends
the session (R156), or a pending RESTART is performed (R144). -/
def finishFrame (n : Link) (s : State) : State :=
  match s.transmitter n with
  | none => s
  | some f =>
    let t := s.setTransmitter n none
    match f.carried with
    | .notice k => startAckTimer n k t
    | .reply .nothing => t
    | .reply .close => if (t.link n).closing = .close then endSession n .closed t else t
    | .reply .restart => if (t.link n).closing = .restart then commandRestart t else t

end Sys2Proof.Machine
end

