-- ==== Sys2Proof/Machine/SessionRequests.lean ====
section
/-!
DEFINITION. The requests of a session (chapters 5 and 9): OPEN, CLOSE, PING, STATUS, FLOOR, ACK, RESTART, and a frame of
unknown kind.
-/

namespace Sys2Proof.Machine

/-- A session opens on link `n` (R154): the session number increases, client id and timeouts are stored, the link is UP,
and the delivery unit takes its settings (R87). -/
def openSession (n : Link) (o : OpenItems) (s : State) : State :=
  let l := s.link n
  let t := s.setLink n
    { l with state := .up, session := l.session + 1, client := o.client, inactivityTimeout := o.inactivity }.loadInactivity
  t.setDelivery n
    { t.delivery n with window := o.window, ackTimeout := o.ackTimeout, floor := o.floor, nextNumber := 0 }

/-- The OPEN reply items (Table 10-4). -/
def openReplyItems (n : Link) (s : State) : List Byte :=
  [(s.link n).session, s.resetCause.code, Config.deviceRevision, 64, 32, 16] ++ uptimeBytes s.uptime

/-- OPEN (R154, R155): on an UP link the current session first ends with reason REOPENED and every consequence of it. -/
def openBody (n : Link) (p : List Byte) (s : State) : Answer × State :=
  if p.length ≠ 6 then refuse .malformed s
  else
    match readOpen p with
    | none => refuse .badValue s
    | some o =>
      let t := openSession n o (settleEnds n (endSession n .reopened s))
      accept (openReplyItems n t) t

/-- A CLOSE or RESTART becomes pending on link `n`: the inactivity timer is stopped and a frame being received is
abandoned (R144, R150, R156, R158). -/
def pendClosing (n : Link) (c : Closing) (s : State) : Answer × State :=
  (⟨.ok, [], c⟩,
    (s.setLink n { s.link n with closing := c, inactivity := none }).setReceiver n .hunting)

/-- CLOSE (R156). -/
def closeBody (n : Link) (p : List Byte) (s : State) : Answer × State :=
  checkShapeAndOpen p.isEmpty n s (pendClosing n .close s)

/-- PING (R157). -/
def pingBody (n : Link) (p : List Byte) (s : State) : Answer × State :=
  checkShapeAndOpen p.isEmpty n s (accept (uptimeBytes s.uptime) s)

/-- The items of one link in the STATUS reply (Table 10-8). -/
def linkStatusItems (s : State) (n : Link) : List Byte :=
  [(s.link n).state.code, (s.link n).session, byteOf (s.loss n)]
  ++ halfBytes (s.link n).framingErrors ++ halfBytes (s.link n).checkErrors ++ halfBytes (s.delivery n).strayAcks

/-- Holder in HELD, offered link in OFFERING, NONE in FREE (Table 10-8). -/
def AuthorityMode.linkByte (m : AuthorityMode) : Byte :=
  match m with
  | .free => 0xFF
  | .held h => byteOf h
  | .offering o _ => byteOf o

/-- The claim list as three bytes, head first, 0xFF in each unused place (Table 10-8). -/
def claimListBytes (ls : List Link) : List Byte :=
  [linkOrNone (ls[0]?), linkOrNone (ls[1]?), linkOrNone (ls[2]?)]

/-- The STATUS reply items (Table 10-8). -/
def statusItems (s : State) : List Byte :=
  uptimeBytes s.uptime ++ [byteOf s.poolInUse]
  ++ linkStatusItems s 0 ++ linkStatusItems s 1 ++ linkStatusItems s 2 ++ linkStatusItems s 3
  ++ [s.authority.mode.code, s.authority.mode.linkByte] ++ claimListBytes s.authority.claimList
  ++ [outputsByte s, s.resetCause.code]

/-- STATUS (R157). -/
def statusBody (n : Link) (p : List Byte) (s : State) : Answer × State :=
  checkShapeAndOpen p.isEmpty n s (accept (statusItems s) s)

/-- FLOOR (R89). -/
def floorBody (n : Link) (p : List Byte) (s : State) : Answer × State :=
  checkShapeAndOpen (p.length = 1) n s
    (match readLevel (byteAt p 0) with
     | some f => accept [] (s.setDelivery n { s.delivery n with floor := f })
     | none => refuse .badValue s)

/-- RESTART (R144). -/
def restartBody (n : Link) (p : List Byte) (s : State) : Answer × State :=
  checkShapeAndOpen p.isEmpty n s
    (if s.isHolder n then pendClosing n .restart s else refuse .notAuthority s)

/-- A frame of a kind that names no request (R162, R163). -/
def unknownBody (s : State) : Answer × State := refuse .unknown s

/-- A valid ACK frame (R95, R96, R149, R152): taken by the delivery unit on an UP link, ignored on a SILENT one, whatever
its payload. -/
def ackFrame (n : Link) (k : Byte) (s : State) : State :=
  unlessReset (fun s =>
    if s.deaf n then s
    else
      let t := s.frameArrived n
      if s.isUp n then takeAck n k t else t) s

/-! ### Meanings -/

/-- OPEN. -/
def execOpenReq (n : Link) (tag : Byte) (p : List Byte) (s : State) : Host.Outcome State Fault Refusal :=
  .next (takeRequest n tag (openBody n p) s)

/-- CLOSE. -/
def execCloseReq (n : Link) (tag : Byte) (p : List Byte) (s : State) : Host.Outcome State Fault Refusal :=
  .next (takeRequest n tag (closeBody n p) s)

/-- PING. -/
def execPing (n : Link) (tag : Byte) (p : List Byte) (s : State) : Host.Outcome State Fault Refusal :=
  .next (takeRequest n tag (pingBody n p) s)

/-- STATUS. -/
def execStatus (n : Link) (tag : Byte) (p : List Byte) (s : State) : Host.Outcome State Fault Refusal :=
  .next (takeRequest n tag (statusBody n p) s)

/-- FLOOR. -/
def execFloor (n : Link) (tag : Byte) (p : List Byte) (s : State) : Host.Outcome State Fault Refusal :=
  .next (takeRequest n tag (floorBody n p) s)

/-- RESTART. -/
def execRestart (n : Link) (tag : Byte) (p : List Byte) (s : State) : Host.Outcome State Fault Refusal :=
  .next (takeRequest n tag (restartBody n p) s)

/-- ACK; its payload is disregarded (R95, R162). -/
def execAck (n : Link) (tag : Byte) (_p : List Byte) (s : State) : Host.Outcome State Fault Refusal :=
  .next (ackFrame n tag s)

end Sys2Proof.Machine
end

