-- ==== Sys2Proof/Machine/WatchRequests.lean ====
section
/-!
DEFINITION. The requests that act on a watch (chapters 1 to 3), with the checks of R6 and R163.
-/

namespace Sys2Proof.Machine

/-! ### Shared checks -/

/-- BAD-VALUE and NO-ENTRY for a request that needs a watch (R6). -/
def withWatch (b : Byte) (s : State) (rest : WatchIx → Watch → Answer × State) : Answer × State :=
  match readWatchIx b with
  | none => refuse .badValue s
  | some i => if (s.watch i).state = .free then refuse .noEntry s else rest i (s.watch i)

/-- The request comes from the owner, or from the authority holder in state HELD (R6). -/
def ownerOrHolder (n : Link) (w : Watch) (s : State) : Bool := w.owner = n || s.isHolder n

/-- The checks of an owner-type request whose payload is `len` bytes, the watch index first (R6, R163). -/
def ownerRequest (len : Nat) (n : Link) (p : List Byte) (s : State) (rest : WatchIx → Watch → Answer × State) :
    Answer × State :=
  checkShapeAndOpen (p.length = len) n s
    (withWatch (byteAt p 0) s fun i w => if ownerOrHolder n w s then rest i w else refuse .notAuthority s)

/-! ### DEFINE -/

/-- The entry a DEFINE makes on link `n`: every field as R11 sets it, the generation advanced (R3, R11, R12). -/
def DefineItems.entry (d : DefineItems) (n : Link) (generation : Byte) : Watch where
  state := .stopped
  generation := generation
  kind := d.kind
  owner := n
  base := d.base
  reload := d.reload
  count := 0
  seqcheck := d.seqcheck
  lastSeq := none
  strikeLimit := d.strikeLimit
  strikes := 0
  lineSet := d.lineSet
  primary := d.primary
  fallback := d.fallback
  activityLevel := d.activityLevel
  ladder := d.ladder
  stage := 0
  frozen := false

/-- The entry a DEFINE chooses: the one named, or for index 255 the lowest that is FREE (R10). -/
def chooseEntry (b : Byte) (s : State) : Option WatchIx :=
  if b = 255 then (List.finRange 32).find? fun i => (s.watch i).state = .free else readWatchIx b

/-- A DEFINE that has passed its checks (R11, R12). -/
def defineEntry (n : Link) (d : DefineItems) (i : WatchIx) (s : State) : Answer × State :=
  let g := (s.watch i).generation + 1
  accept [byteOf i, g] (s.setWatch i (d.entry n g))

/-- DEFINE (R7 to R12, R166). -/
def defineBody (n : Link) (p : List Byte) (s : State) : Answer × State :=
  checkShapeAndOpen (defineShape p) n s
    (match readDefine n p with
     | none => refuse .badValue s
     | some d =>
       match chooseEntry d.index s with
       | none => refuse .noEntry s
       | some i =>
         let w := s.watch i
         if w.state = .free then defineEntry n d i s
         else if !ownerOrHolder n w s then refuse .notAuthority s
         else if w.frozen then refuse .frozen s
         else if w.state ≠ .stopped then refuse .badState s
         else defineEntry n d i s)

/-! ### The other requests -/

/-- DELETE (R13). -/
def deleteBody (n : Link) (p : List Byte) (s : State) : Answer × State :=
  ownerRequest 1 n p s fun i w =>
    if w.frozen then refuse .frozen s
    else if w.state = .latched then refuse .badState s
    else accept [] (s.setWatch i (Watch.free w.generation))

/-- START (R25). -/
def startBody (n : Link) (p : List Byte) (s : State) : Answer × State :=
  ownerRequest 1 n p s fun i w =>
    if w.state ≠ .stopped then refuse .badState s
    else accept [] (s.setWatch i { w with state := .running, count := w.reload, stage := 0, lastSeq := none })

/-- STOP (R26). -/
def stopBody (n : Link) (p : List Byte) (s : State) : Answer × State :=
  ownerRequest 1 n p s fun i w =>
    if w.frozen then refuse .frozen s
    else if w.state = .stopped ∨ w.state = .latched then refuse .badState s
    else accept [] (s.setWatch i w.halt)

/-- PAUSE (R27). -/
def pauseBody (n : Link) (p : List Byte) (s : State) : Answer × State :=
  ownerRequest 1 n p s fun i w =>
    if w.frozen then refuse .frozen s
    else if w.state ≠ .running then refuse .badState s
    else accept [] (s.setWatch i { w with state := .paused })

/-- RESUME (R28). -/
def resumeBody (n : Link) (p : List Byte) (s : State) : Answer × State :=
  ownerRequest 1 n p s fun i w =>
    if w.state ≠ .paused then refuse .badState s
    else accept [] (s.setWatch i { w with state := .running })

/-- FEED (R29 to R32): the reply tells the sequence fault, the state and the stage (R30). -/
def feedBody (n : Link) (p : List Byte) (s : State) : Answer × State :=
  ownerRequest 2 n p s fun i w =>
    if !w.takesFeed then refuse .badState s
    else
      let r := feedRequest i w (byteAt p 1)
      accept [flagByte r.1, r.2.watch.state.code, byteOf r.2.watch.stage] (applyStep i r.2 s)

/-- COMPLETE (R34, R54). -/
def completeBody (n : Link) (p : List Byte) (s : State) : Answer × State :=
  ownerRequest 1 n p s fun i w =>
    if w.kind ≠ .deadline then refuse .badState s
    else if w.state = .running ∨ w.state = .overdue then accept [] (applyStep i (completeStep i w) s)
    else refuse .badState s

/-- FREEZE (R16): the owner only; the reply carries the generation. -/
def freezeBody (n : Link) (p : List Byte) (s : State) : Answer × State :=
  checkShapeAndOpen (p.length = 1) n s
    (withWatch (byteAt p 0) s fun i w =>
      if w.owner ≠ n then refuse .notOwner s
      else accept [w.generation] (s.setWatch i { w with frozen := true }))

/-- CLEAR (R55): the holder only. -/
def clearBody (n : Link) (p : List Byte) (s : State) : Answer × State :=
  checkShapeAndOpen (p.length = 1) n s
    (withWatch (byteAt p 0) s fun i w =>
      if !s.isHolder n then refuse .notAuthority s
      else if w.state = .overdue ∨ w.state = .latched then
        accept [] ((s.setWatch i { w.halt with strikes := 0 }).sendOutput [.removeAll i])
      else refuse .badState s)

/-- QUERY (R15, R167). -/
def queryBody (n : Link) (p : List Byte) (s : State) : Answer × State :=
  checkShapeAndOpen (p.length = 1) n s
    (match readWatchIx (byteAt p 0) with
     | none => refuse .badValue s
     | some i => accept (queryItems (s.watch i)) s)

/-! ### Meanings -/

/-- DEFINE. -/
def execDefine (n : Link) (tag : Byte) (p : List Byte) (s : State) : Host.Outcome State Fault Refusal :=
  .next (takeRequest n tag (defineBody n p) s)

/-- DELETE. -/
def execDelete (n : Link) (tag : Byte) (p : List Byte) (s : State) : Host.Outcome State Fault Refusal :=
  .next (takeRequest n tag (deleteBody n p) s)

/-- START. -/
def execStart (n : Link) (tag : Byte) (p : List Byte) (s : State) : Host.Outcome State Fault Refusal :=
  .next (takeRequest n tag (startBody n p) s)

/-- STOP. -/
def execStop (n : Link) (tag : Byte) (p : List Byte) (s : State) : Host.Outcome State Fault Refusal :=
  .next (takeRequest n tag (stopBody n p) s)

/-- FEED. -/
def execFeed (n : Link) (tag : Byte) (p : List Byte) (s : State) : Host.Outcome State Fault Refusal :=
  .next (takeRequest n tag (feedBody n p) s)

/-- COMPLETE. -/
def execComplete (n : Link) (tag : Byte) (p : List Byte) (s : State) : Host.Outcome State Fault Refusal :=
  .next (takeRequest n tag (completeBody n p) s)

/-- PAUSE. -/
def execPause (n : Link) (tag : Byte) (p : List Byte) (s : State) : Host.Outcome State Fault Refusal :=
  .next (takeRequest n tag (pauseBody n p) s)

/-- RESUME. -/
def execResume (n : Link) (tag : Byte) (p : List Byte) (s : State) : Host.Outcome State Fault Refusal :=
  .next (takeRequest n tag (resumeBody n p) s)

/-- FREEZE. -/
def execFreeze (n : Link) (tag : Byte) (p : List Byte) (s : State) : Host.Outcome State Fault Refusal :=
  .next (takeRequest n tag (freezeBody n p) s)

/-- CLEAR. -/
def execClear (n : Link) (tag : Byte) (p : List Byte) (s : State) : Host.Outcome State Fault Refusal :=
  .next (takeRequest n tag (clearBody n p) s)

/-- QUERY. -/
def execQuery (n : Link) (tag : Byte) (p : List Byte) (s : State) : Host.Outcome State Fault Refusal :=
  .next (takeRequest n tag (queryBody n p) s)

end Sys2Proof.Machine
end

