-- ==== Sys2Proof/Machine/BoardRequests.lean ====
section
/-!
DEFINITION. The requests about event lines (R114, R116), outputs (R123 to R125) and the control authority (R134 to
R139).
-/

namespace Sys2Proof.Machine

/-- The holder check of a privileged request (R143). -/
def privileged (n : Link) (s : State) (rest : Answer × State) : Answer × State :=
  if s.isHolder n then rest else refuse .notAuthority s

/-! ### Event lines -/

/-- The configuration of a line replaced and its disagreement count set to 0 (R114). -/
def LineItems.apply (d : LineItems) (r : LineRec) : LineRec :=
  { r with
    mode := d.mode
    filter := d.filter
    notify := d.notify
    level := d.level
    primary := d.primary
    fallback := d.fallback
    disagreement := 0 }

/-- LINESET (R114). -/
def lineSetBody (n : Link) (p : List Byte) (s : State) : Answer × State :=
  checkShapeAndOpen (p.length = 7) n s
    (match readLineSet p with
     | none => refuse .badValue s
     | some d => privileged n s (accept [] (s.setLine d.line (d.apply (s.line d.line)))))

/-- The LINEQUERY reply items (Table 10-4, R116). -/
def lineItems (r : LineRec) : List Byte :=
  [r.mode.code, byteOf r.filter, flagByte r.notify, byteOf r.level, byteOf r.primary, linkOrNone r.fallback,
   flagByte r.accepted] ++ halfBytes r.disagreement
  ++ [flagByte r.pending, byteOf r.overrun, flagByte r.pinLevel, flagByte r.active]

/-- LINEQUERY (R116). The outcome of a notice of the line still in transit is part of the trigger or report that handed
it over (R109, R111), so it is taken first (log 1). -/
def lineQueryBody (n : Link) (p : List Byte) (s : State) : Answer × State :=
  checkShapeAndOpen (p.length = 1) n s
    (match readLineIx (byteAt p 0) with
     | none => refuse .badValue s
     | some l => accept (lineItems ((drainChannel (.line l) s).line l)) (drainChannel (.line l) s))

/-! ### Outputs -/

/-- The output state and MANUAL claim kind once a claim of MANUAL has been taken after those handed over before it
(R123, R124; log 6). -/
def manualReply (o : OutputIx) (duration : Option Nat) (s : State) : List Byte :=
  let set := claimInto .manual duration (s.claimSetForManual o)
  [flagByte (ClaimSet.nonEmpty set), ((claimOf set .manual).map Claim.kindCode).getD 0]

/-- A claim of MANUAL is handed to the output unit (R123, R124). -/
def manualClaim (o : OutputIx) (duration : Option Nat) (s : State) : Answer × State :=
  accept (manualReply o duration s) (s.sendOutput [.claim .manual o duration none])

/-- PULSE (R123). -/
def pulseBody (n : Link) (p : List Byte) (s : State) : Answer × State :=
  checkShapeAndOpen (p.length = 3) n s
    (match readOutput (byteAt p 0) with
     | none => refuse .badValue s
     | some o =>
       if halfAt p 1 = 0 then refuse .badValue s
       else privileged n s (manualClaim o (some (halfAt p 1)) s))

/-- HOLD (R124). -/
def holdBody (n : Link) (p : List Byte) (s : State) : Answer × State :=
  checkShapeAndOpen (p.length = 1) n s
    (match readOutput (byteAt p 0) with
     | none => refuse .badValue s
     | some o => privileged n s (manualClaim o none s))

/-- UNHOLD (R125). The claims of MANUAL on the output that were handed over before it are taken first (log 6). -/
def unholdBody (n : Link) (p : List Byte) (s : State) : Answer × State :=
  checkShapeAndOpen (p.length = 1) n s
    (match readOutput (byteAt p 0) with
     | none => refuse .badValue s
     | some o =>
       privileged n s
         (if (claimOf (s.claimSetForManual o) .manual).isNone then refuse .badState s
          else
            let t := dropClaim .manual o (settleManual o s)
            accept [flagByte (t.asserted o)] t))

/-! ### The control authority -/

/-- The place of a link in the claim list, counted from 1 at the head (R133). -/
def positionIn (ls : List Link) (n : Link) : Nat := ls.idxOf n + 1

/-- The CLAIM reply: outcome, and position when queued (Table 10-4, Table 10-5). -/
def queuedItems (ls : List Link) (n : Link) : List Byte := [1, byteOf (positionIn ls n)]

/-- A link joins the tail of the claim list (R133). -/
def joinClaimList (n : Link) (s : State) : State :=
  s.setAuthority { s.authority with claimList := s.authority.claimList ++ [n] }

/-- A CLAIM taken by the authority unit (R134, R135). -/
def takeClaimRequest (n : Link) (s : State) : Answer × State :=
  let ls := s.authority.claimList
  match s.authority.mode with
  | .free => accept [0, 0] (becomeHolder n s)
  | .held h =>
    if h = n then accept [2, 0] s
    else if ls.contains n then accept (queuedItems ls n) s
    else accept (queuedItems (ls ++ [n]) n) ((joinClaimList n s).post [authWanted n h])
  | .offering o _ =>
    if o = n then accept [0, 0] (becomeHolder n s)
    else if ls.contains n then accept (queuedItems ls n) s
    else accept (queuedItems (ls ++ [n]) n) (joinClaimList n s)

/-- CLAIM (R134, R135). -/
def claimBody (n : Link) (p : List Byte) (s : State) : Answer × State :=
  checkShapeAndOpen p.isEmpty n s (takeClaimRequest n s)

/-- YIELD (R136). -/
def yieldBody (n : Link) (p : List Byte) (s : State) : Answer × State :=
  checkShapeAndOpen p.isEmpty n s (privileged n s (accept [] (passOn none s)))

/-- Link `n` is the offered link in state OFFERING (R138, R139). -/
def State.isOffered (s : State) (n : Link) : Bool :=
  match s.authority.mode with
  | .offering o _ => o = n
  | .free => false
  | .held _ => false

/-- ACCEPT (R138). -/
def acceptBody (n : Link) (p : List Byte) (s : State) : Answer × State :=
  checkShapeAndOpen p.isEmpty n s
    (if s.isOffered n then accept [] (becomeHolder n s) else refuse .badState s)

/-- DECLINE (R139). -/
def declineBody (n : Link) (p : List Byte) (s : State) : Answer × State :=
  checkShapeAndOpen p.isEmpty n s
    (if s.isOffered n then accept [] (passOn none s) else refuse .badState s)

/-! ### Meanings -/

/-- LINESET. -/
def execLineSet (n : Link) (tag : Byte) (p : List Byte) (s : State) : Host.Outcome State Fault Refusal :=
  .next (takeRequest n tag (lineSetBody n p) s)

/-- LINEQUERY. -/
def execLineQuery (n : Link) (tag : Byte) (p : List Byte) (s : State) : Host.Outcome State Fault Refusal :=
  .next (takeRequest n tag (lineQueryBody n p) s)

/-- PULSE. -/
def execPulse (n : Link) (tag : Byte) (p : List Byte) (s : State) : Host.Outcome State Fault Refusal :=
  .next (takeRequest n tag (pulseBody n p) s)

/-- HOLD. -/
def execHold (n : Link) (tag : Byte) (p : List Byte) (s : State) : Host.Outcome State Fault Refusal :=
  .next (takeRequest n tag (holdBody n p) s)

/-- UNHOLD. -/
def execUnhold (n : Link) (tag : Byte) (p : List Byte) (s : State) : Host.Outcome State Fault Refusal :=
  .next (takeRequest n tag (unholdBody n p) s)

/-- CLAIM. -/
def execClaim (n : Link) (tag : Byte) (p : List Byte) (s : State) : Host.Outcome State Fault Refusal :=
  .next (takeRequest n tag (claimBody n p) s)

/-- YIELD. -/
def execYieldReq (n : Link) (tag : Byte) (p : List Byte) (s : State) : Host.Outcome State Fault Refusal :=
  .next (takeRequest n tag (yieldBody n p) s)

/-- ACCEPT. -/
def execAcceptReq (n : Link) (tag : Byte) (p : List Byte) (s : State) : Host.Outcome State Fault Refusal :=
  .next (takeRequest n tag (acceptBody n p) s)

/-- DECLINE. -/
def execDecline (n : Link) (tag : Byte) (p : List Byte) (s : State) : Host.Outcome State Fault Refusal :=
  .next (takeRequest n tag (declineBody n p) s)

end Sys2Proof.Machine
end

