-- ==== Sys2Proof/Machine/Receive.lean ====
section
/-!
DEFINITION. The receiver (R148 to R150): bytes into frames, the CHECK of a frame, and its dispatch by KIND (Table 10-1,
R152, R162).
-/

namespace Sys2Proof.Machine

/-- What the block that owns a request does with it, by the KIND code of its frame (Table 10-1). None for a kind that
names no request. -/
def requestBody (kind : Byte) (n : Link) (p : List Byte) : Option (State → Answer × State) :=
  if kind = 0x01 then some (openBody n p)
  else if kind = 0x02 then some (closeBody n p)
  else if kind = 0x03 then some (pingBody n p)
  else if kind = 0x04 then some (statusBody n p)
  else if kind = 0x05 then some (floorBody n p)
  else if kind = 0x10 then some (defineBody n p)
  else if kind = 0x11 then some (deleteBody n p)
  else if kind = 0x12 then some (startBody n p)
  else if kind = 0x13 then some (stopBody n p)
  else if kind = 0x14 then some (feedBody n p)
  else if kind = 0x15 then some (completeBody n p)
  else if kind = 0x16 then some (pauseBody n p)
  else if kind = 0x17 then some (resumeBody n p)
  else if kind = 0x18 then some (freezeBody n p)
  else if kind = 0x19 then some (clearBody n p)
  else if kind = 0x1A then some (queryBody n p)
  else if kind = 0x20 then some (lineSetBody n p)
  else if kind = 0x21 then some (lineQueryBody n p)
  else if kind = 0x28 then some (pulseBody n p)
  else if kind = 0x29 then some (holdBody n p)
  else if kind = 0x2A then some (unholdBody n p)
  else if kind = 0x30 then some (claimBody n p)
  else if kind = 0x31 then some (yieldBody n p)
  else if kind = 0x32 then some (acceptBody n p)
  else if kind = 0x33 then some (declineBody n p)
  else if kind = 0x3F then some (restartBody n p)
  else none

/-- A valid frame is taken by the link unit (R149, R152): an ACK by the delivery unit, a request by its block, any other
kind answered with UNKNOWN (R162). -/
def dispatchFrame (n : Link) (kind tag : Byte) (p : List Byte) (s : State) : State :=
  if kind = 0x06 then ackFrame n tag s
  else
    match requestBody kind n p with
    | some body => takeRequest n tag body s
    | none => takeRequest n tag unknownBody s

/-- A frame whose CHECK disagrees is discarded and counted; the receiver returns to hunting (R149). -/
def countCheckError (n : Link) (s : State) : State :=
  (s.setReceiver n .hunting).setLink n { s.link n with checkErrors := satAdd 65535 (s.link n).checkErrors 1 }

/-- A byte examined by a hunting receiver: START moves it to receiving (R148). -/
def huntByte (n : Link) (b : Byte) (s : State) : State :=
  if b = Config.startByte then s.setReceiver n ⟨some [], Config.gapTime, (s.receiver n).gapDue⟩
  else s.setReceiver n .hunting

/-- A LEN above 58: the start is abandoned and counted, and the byte is the first of a new hunt (R148). -/
def abandonStart (n : Link) (b : Byte) (s : State) : State :=
  huntByte n b (s.setLink n { s.link n with framingErrors := satAdd 65535 (s.link n).framingErrors 1 })

/-- The frame a receiver has collected, LEN first, CHECK last: KIND, TAG and PAYLOAD (Table 9-2). -/
def frameFields (got : List Byte) : Byte × Byte × List Byte :=
  (byteAt got 1, byteAt got 2, (got.drop 3).take (byteAt got 0).toNat)

/-- The CHECK a collected frame carries, low byte first (R147). -/
def carriedCheck (got : List Byte) : Half := byteAt got (got.length - 1) ++ byteAt got (got.length - 2)

/-- A frame is complete: its CHECK is compared and a valid frame is taken (R148, R149). -/
def completeFrame (n : Link) (got : List Byte) (s : State) : State :=
  let f := frameFields got
  if carriedCheck got = crc (frameBody f.1 f.2.1 f.2.2) then dispatchFrame n f.1 f.2.1 f.2.2 s
  else countCheckError n s

/-- The receiver of link `n` takes a byte (R148, R150). -/
def takeByte (n : Link) (b : Byte) (s : State) : State :=
  if s.deaf n then s
  else
    match (s.receiver n).collected with
    | none => huntByte n b s
    | some [] =>
      if Config.maxPayload < b.toNat then abandonStart n b s
      else s.setReceiver n ⟨some [b], Config.gapTime, (s.receiver n).gapDue⟩
    | some (len :: rest) =>
      let got := len :: rest ++ [b]
      if len.toNat + 5 ≤ got.length then completeFrame n got s
      else s.setReceiver n ⟨some got, Config.gapTime, (s.receiver n).gapDue⟩

/-! ### Meanings -/

/-- UNKNOWN_REQUEST. A kind that does name a request is not this event: nothing happens (log 9). -/
def execUnknownRequest (n : Link) (kind tag : Byte) (p : List Byte) (s : State) : Host.Outcome State Fault Refusal :=
  .next (unlessReset
    (fun s => if kind = 0x06 ∨ (requestBody kind n p).isSome then s else takeRequest n tag unknownBody s) s)

/-- CHECK_ERROR. A CHECK that agrees is not this event: nothing happens (log 9). -/
def execCheckError (n : Link) (kind tag : Byte) (p : List Byte) (check : Half) (s : State) :
    Host.Outcome State Fault Refusal :=
  .next (unlessReset
    (fun s => if s.deaf n ∨ check = crc (frameBody kind tag p) then s else countCheckError n s) s)

/-- FRAME_START_ABANDONED: the receiver has taken a START and this byte as LEN. Otherwise nothing happens (log 9). -/
def execFrameStartAbandoned (n : Link) (len : Byte) (s : State) : Host.Outcome State Fault Refusal :=
  .next (unlessReset
    (fun s =>
      if s.deaf n ∨ (s.receiver n).collected ≠ some [] ∨ len.toNat ≤ Config.maxPayload then s
      else abandonStart n len s) s)

/-- RECEIVER_TAKES_BYTE. -/
def execReceiverTakesByte (n : Link) (b : Byte) (s : State) : Host.Outcome State Fault Refusal :=
  .next (unlessReset (takeByte n b) s)

end Sys2Proof.Machine
end

