-- ==== Sys2Proof/Machine/Events.lean ====
section
/-!
DEFINITION. The meanings of the part's own events: ticks and what runs out at them, words taken from one block by
another, transmitters, and resets. An event whose condition does not hold does not occur: the state is unchanged, but for
the session ends that every command but a reset takes at the authority unit first (log 1, log 9).
-/

namespace Sys2Proof.Machine

/-! ### Time -/

/-- TICK (R21). -/
def execTick (b : Base) (r : TickReach) (pins : Half) (s : State) : Host.Outcome State Fault Refusal :=
  .next (unlessReset (timeTick b r pins) s)

/-- WATCH_EXPIRY (R23): the tick due at a RUNNING watch is taken. -/
def execWatchExpiry (i : WatchIx) (s : State) : Host.Outcome State Fault Refusal :=
  .next (unlessReset (fun s => if (s.watch i).state = .running then takeWatchTick i s else s) s)

/-- GRACE_RUNS_OUT (R46): the tick due at an OVERDUE watch is taken. -/
def execGraceRunsOut (i : WatchIx) (s : State) : Host.Outcome State Fault Refusal :=
  .next (unlessReset (fun s => if (s.watch i).state = .overdue then takeWatchTick i s else s) s)

/-- ACCEPTED_CHANGE (R105, R107). -/
def execAcceptedChange (l : LineIx) (s : State) : Host.Outcome State Fault Refusal :=
  .next (unlessReset (takeSample l) s)

/-- CLAIM_EXPIRY (R121): the tick due at the output unit is taken, which removes the claim of `c` on output `o`. -/
def execClaimExpiry (o : OutputIx) (c : Claimant) (s : State) : Host.Outcome State Fault Refusal :=
  .next (unlessReset (takeClaimExpiry o c) s)

/-- ACK_TIMER_RUNS_OUT (R97, R98). -/
def execAckTimerRunsOut (n : Link) (k : Byte) (s : State) : Host.Outcome State Fault Refusal :=
  .next (unlessReset (takeAckTick n k) s)

/-- INACTIVITY_TIMEOUT (R158). -/
def execInactivityTimeout (n : Link) (s : State) : Host.Outcome State Fault Refusal :=
  .next (unlessReset (takeInactivityTick n) s)

/-- OFFER_TIMER_RUNS_OUT (R139). -/
def execOfferTimerRunsOut (s : State) : Host.Outcome State Fault Refusal :=
  .next (unlessReset takeOfferTick s)

/-- GAP_TIMER_EXPIRY (R148). -/
def execGapTimerExpiry (n : Link) (s : State) : Host.Outcome State Fault Refusal :=
  .next (unlessReset (takeGapTick n) s)

/-! ### Words taken -/

/-- NOTICE_CREATION (R64). -/
def execNoticeCreation (c : Channel) (e : Extent) (s : State) : Host.Outcome State Fault Refusal :=
  .next (unlessReset (takeChannel c e) s)

/-- NOTICE_UNIT_SESSION_END (R78). -/
def execNoticeUnitSessionEnd (n : Link) (e : Extent) (s : State) : Host.Outcome State Fault Refusal :=
  .next (unlessReset (noticeShare n e) s)

/-- AUTHORITY_SESSION_END (R140): the one command that takes a waiting end by itself. -/
def execAuthoritySessionEnd (n : Link) (s : State) : Host.Outcome State Fault Refusal :=
  .next (if s.resetIsHeld then s else authorityShare n s)

/-- LINE_NOTICE_LEFT_POOL (R111, R112). -/
def execLineNoticeLeftPool (l : LineIx) (s : State) : Host.Outcome State Fault Refusal :=
  .next (unlessReset (takeLineReport l) s)

/-- The oldest word of a claimant is taken if it is a claim (R120). -/
def takeClaimWord (c : Claimant) (s : State) : State :=
  match firstWord c s with
  | some (.claim c o d g, rest) => takeClaim c o d g (s.withOutputWords rest)
  | _ => s

/-- The oldest word of a watch index is taken if it orders the removal of its claims (R126). -/
def takeRemovalWord (i : WatchIx) (s : State) : State :=
  match firstWord (.watch i) s with
  | some (.removeAll i, rest) => dropAllClaims i (s.withOutputWords rest)
  | _ => s

/-- TAKING_A_CLAIM (R120). -/
def execTakingAClaim (c : Claimant) (s : State) : Host.Outcome State Fault Refusal :=
  .next (unlessReset (takeClaimWord c) s)

/-- CLEAR_CLAIMS_REMOVAL (R126). -/
def execClearClaimsRemoval (i : WatchIx) (s : State) : Host.Outcome State Fault Refusal :=
  .next (unlessReset (takeRemovalWord i) s)

/-- CRST_ASSERTED (R127). -/
def execCrstAsserted (n : Link) (s : State) : Host.Outcome State Fault Refusal :=
  .next (unlessReset (takeAssertedWord n) s)

/-- CRST_RELEASED (R127). -/
def execCrstReleased (n : Link) (s : State) : Host.Outcome State Fault Refusal :=
  .next (unlessReset (takeReleasedWord n) s)

/-! ### Transmitters -/

/-- TRANSMITTER_TAKES_FRAME (R99). -/
def execTransmitterTakesFrame (n : Link) (s : State) : Host.Outcome State Fault Refusal :=
  .next (unlessReset (takeFrame n) s)

/-- LAST_BYTE_SENT (R94, R144, R156). -/
def execLastByteSent (n : Link) (pins : Half) (s : State) : Host.Outcome State Fault Refusal :=
  .next (unlessReset (fun s => finishFrame n (s.setPins pins)) s)

/-! ### Resets -/

/-- POWER_ON_RESET (R18, R160), up to its end (R106, R146). A RESET input that is held stays held (log 8). -/
def execPowerOnReset (pins : Half) (straps : Straps) (s : State) : Host.Outcome State Fault Refusal :=
  .next (endReset pins straps (reinitialise .power s))

/-- RESET_HELD (R160). -/
def execResetHeld (s : State) : Host.Outcome State Fault Refusal :=
  .next { reinitialise .pin s with resetIsHeld := true }

/-- RESET_RELEASED (R106, R146, R160). -/
def execResetReleased (pins : Half) (straps : Straps) (s : State) : Host.Outcome State Fault Refusal :=
  .next (if s.resetIsHeld then
      { endReset pins straps s with resetIsHeld := false, resetCause := .pin }
    else settleAuthority s)

end Sys2Proof.Machine
end

