-- ==== Sys2Proof/Machine/Dispatch.lean ====
section
/-!
DEFINITION. One arm per command.
-/

namespace Sys2Proof.Machine

def exec (i : Instr) (s : State) : Host.Outcome State Fault Refusal :=
  match i with
  | .openReq n tag p => Sys2Proof.Machine.execOpenReq n tag p s
  | .closeReq n tag p => Sys2Proof.Machine.execCloseReq n tag p s
  | .ping n tag p => Sys2Proof.Machine.execPing n tag p s
  | .status n tag p => Sys2Proof.Machine.execStatus n tag p s
  | .floor n tag p => Sys2Proof.Machine.execFloor n tag p s
  | .ack n tag p => Sys2Proof.Machine.execAck n tag p s
  | .unknownRequest n k tag p => Sys2Proof.Machine.execUnknownRequest n k tag p s
  | .define n tag p => Sys2Proof.Machine.execDefine n tag p s
  | .delete n tag p => Sys2Proof.Machine.execDelete n tag p s
  | .start n tag p => Sys2Proof.Machine.execStart n tag p s
  | .stop n tag p => Sys2Proof.Machine.execStop n tag p s
  | .feed n tag p => Sys2Proof.Machine.execFeed n tag p s
  | .complete n tag p => Sys2Proof.Machine.execComplete n tag p s
  | .pause n tag p => Sys2Proof.Machine.execPause n tag p s
  | .resume n tag p => Sys2Proof.Machine.execResume n tag p s
  | .freeze n tag p => Sys2Proof.Machine.execFreeze n tag p s
  | .clear n tag p => Sys2Proof.Machine.execClear n tag p s
  | .query n tag p => Sys2Proof.Machine.execQuery n tag p s
  | .lineSet n tag p => Sys2Proof.Machine.execLineSet n tag p s
  | .lineQuery n tag p => Sys2Proof.Machine.execLineQuery n tag p s
  | .pulse n tag p => Sys2Proof.Machine.execPulse n tag p s
  | .hold n tag p => Sys2Proof.Machine.execHold n tag p s
  | .unhold n tag p => Sys2Proof.Machine.execUnhold n tag p s
  | .claim n tag p => Sys2Proof.Machine.execClaim n tag p s
  | .yieldReq n tag p => Sys2Proof.Machine.execYieldReq n tag p s
  | .acceptReq n tag p => Sys2Proof.Machine.execAcceptReq n tag p s
  | .decline n tag p => Sys2Proof.Machine.execDecline n tag p s
  | .restart n tag p => Sys2Proof.Machine.execRestart n tag p s
  | .checkError n k tag p c => Sys2Proof.Machine.execCheckError n k tag p c s
  | .frameStartAbandoned n len => Sys2Proof.Machine.execFrameStartAbandoned n len s
  | .gapTimerExpiry n => Sys2Proof.Machine.execGapTimerExpiry n s
  | .tick b r pins => Sys2Proof.Machine.execTick b r pins s
  | .watchExpiry w => Sys2Proof.Machine.execWatchExpiry w s
  | .graceRunsOut w => Sys2Proof.Machine.execGraceRunsOut w s
  | .acceptedChange l => Sys2Proof.Machine.execAcceptedChange l s
  | .lineNoticeLeftPool l => Sys2Proof.Machine.execLineNoticeLeftPool l s
  | .noticeCreation c e => Sys2Proof.Machine.execNoticeCreation c e s
  | .noticeUnitSessionEnd n e => Sys2Proof.Machine.execNoticeUnitSessionEnd n e s
  | .authoritySessionEnd n => Sys2Proof.Machine.execAuthoritySessionEnd n s
  | .offerTimerRunsOut => Sys2Proof.Machine.execOfferTimerRunsOut s
  | .inactivityTimeout n => Sys2Proof.Machine.execInactivityTimeout n s
  | .ackTimerRunsOut n k => Sys2Proof.Machine.execAckTimerRunsOut n k s
  | .transmitterTakesFrame n => Sys2Proof.Machine.execTransmitterTakesFrame n s
  | .lastByteSent n pins => Sys2Proof.Machine.execLastByteSent n pins s
  | .takingAClaim c => Sys2Proof.Machine.execTakingAClaim c s
  | .claimExpiry o c => Sys2Proof.Machine.execClaimExpiry o c s
  | .clearClaimsRemoval w => Sys2Proof.Machine.execClearClaimsRemoval w s
  | .crstAsserted n => Sys2Proof.Machine.execCrstAsserted n s
  | .crstReleased n => Sys2Proof.Machine.execCrstReleased n s
  | .powerOnReset pins straps => Sys2Proof.Machine.execPowerOnReset pins straps s
  | .resetHeld => Sys2Proof.Machine.execResetHeld s
  | .resetReleased pins straps => Sys2Proof.Machine.execResetReleased pins straps s
  | .receiverTakesByte n b => Sys2Proof.Machine.execReceiverTakesByte n b s

end Sys2Proof.Machine
end

