-- ==== Sys2Proof/WellFormed.lean ====
section
/-!
DEFINITION. Which commands can occur: a frame carries at most 58 payload bytes (Table 9-2, R148), an unknown request
has a kind that names no request (R162), an abandoned start has a LEN above 58 (R148), and a tick of a base longer
than 1 ms reaches the watch table only (R21). `exec` is total: on an ill-formed command it changes nothing, or acts on
it by the same checks.
-/

namespace Sys2Proof

/-- A payload fits in a frame (Table 9-2). -/
def payloadFits (payload : List Byte) : Bool := payload.length ≤ Config.maxPayload

/-- The kind codes of the frames a client sends (Table 10-1), ACK (0x06) among them. -/
def requestKinds : List Byte :=
  [0x01, 0x02, 0x03, 0x04, 0x05, 0x06, 0x10, 0x11, 0x12, 0x13, 0x14, 0x15, 0x16, 0x17, 0x18, 0x19, 0x1A,
   0x20, 0x21, 0x28, 0x29, 0x2A, 0x30, 0x31, 0x32, 0x33, 0x3F]

/-- A tick of `base` can be delivered to `reach`: only the watch table counts in bases other than 1 ms (R21). -/
def reachFits (base : Base) (reach : TickReach) : Bool :=
  match reach with
  | .allBlocks => true
  | .only b => base = .ms1 || b = .watchTable

/-- The check of a command. -/
def Instr.wellFormed (i : Instr) : Bool :=
  match i with
  | .openReq _ _ p => payloadFits p
  | .closeReq _ _ p => payloadFits p
  | .ping _ _ p => payloadFits p
  | .status _ _ p => payloadFits p
  | .floor _ _ p => payloadFits p
  | .ack _ _ p => payloadFits p
  | .unknownRequest _ k _ p => payloadFits p && !requestKinds.contains k
  | .define _ _ p => payloadFits p
  | .delete _ _ p => payloadFits p
  | .start _ _ p => payloadFits p
  | .stop _ _ p => payloadFits p
  | .feed _ _ p => payloadFits p
  | .complete _ _ p => payloadFits p
  | .pause _ _ p => payloadFits p
  | .resume _ _ p => payloadFits p
  | .freeze _ _ p => payloadFits p
  | .clear _ _ p => payloadFits p
  | .query _ _ p => payloadFits p
  | .lineSet _ _ p => payloadFits p
  | .lineQuery _ _ p => payloadFits p
  | .pulse _ _ p => payloadFits p
  | .hold _ _ p => payloadFits p
  | .unhold _ _ p => payloadFits p
  | .claim _ _ p => payloadFits p
  | .yieldReq _ _ p => payloadFits p
  | .acceptReq _ _ p => payloadFits p
  | .decline _ _ p => payloadFits p
  | .restart _ _ p => payloadFits p
  | .checkError _ _ _ p _ => payloadFits p
  | .frameStartAbandoned _ len => Config.maxPayload < len.toNat
  | .gapTimerExpiry _ => true
  | .tick b r _ => reachFits b r
  | .watchExpiry _ => true
  | .graceRunsOut _ => true
  | .acceptedChange _ => true
  | .lineNoticeLeftPool _ => true
  | .noticeCreation _ _ => true
  | .noticeUnitSessionEnd _ _ => true
  | .authoritySessionEnd _ => true
  | .offerTimerRunsOut => true
  | .inactivityTimeout _ => true
  | .ackTimerRunsOut _ _ => true
  | .transmitterTakesFrame _ => true
  | .lastByteSent _ _ => true
  | .takingAClaim _ => true
  | .claimExpiry _ _ => true
  | .clearClaimsRemoval _ => true
  | .crstAsserted _ => true
  | .crstReleased _ => true
  | .powerOnReset _ _ => true
  | .resetHeld => true
  | .resetReleased _ _ => true
  | .receiverTakesByte _ _ => true

end Sys2Proof
end

