-- ==== Sys2Proof/Safety.lean ====
section
/-!
DEFINITION. The words the statements are written in: when a request is answered and what its reply leaves, what a request
is checked for, and the laws of the device that every step keeps.
-/

namespace Sys2Proof

open Machine

/-! ### Commands -/

/-- The link, tag and check-and-act function of a request command. -/
def Instr.request (c : Instr) : Option (Link × Byte × (State → Answer × State)) :=
  match c with
  | .openReq n tag p => some (n, tag, openBody n p)
  | .closeReq n tag p => some (n, tag, closeBody n p)
  | .ping n tag p => some (n, tag, pingBody n p)
  | .status n tag p => some (n, tag, statusBody n p)
  | .floor n tag p => some (n, tag, floorBody n p)
  | .define n tag p => some (n, tag, defineBody n p)
  | .delete n tag p => some (n, tag, deleteBody n p)
  | .start n tag p => some (n, tag, startBody n p)
  | .stop n tag p => some (n, tag, stopBody n p)
  | .feed n tag p => some (n, tag, feedBody n p)
  | .complete n tag p => some (n, tag, completeBody n p)
  | .pause n tag p => some (n, tag, pauseBody n p)
  | .resume n tag p => some (n, tag, resumeBody n p)
  | .freeze n tag p => some (n, tag, freezeBody n p)
  | .clear n tag p => some (n, tag, clearBody n p)
  | .query n tag p => some (n, tag, queryBody n p)
  | .lineSet n tag p => some (n, tag, lineSetBody n p)
  | .lineQuery n tag p => some (n, tag, lineQueryBody n p)
  | .pulse n tag p => some (n, tag, pulseBody n p)
  | .hold n tag p => some (n, tag, holdBody n p)
  | .unhold n tag p => some (n, tag, unholdBody n p)
  | .claim n tag p => some (n, tag, claimBody n p)
  | .yieldReq n tag p => some (n, tag, yieldBody n p)
  | .acceptReq n tag p => some (n, tag, acceptBody n p)
  | .decline n tag p => some (n, tag, declineBody n p)
  | .restart n tag p => some (n, tag, restartBody n p)
  | _ => none

/-- The frame a client sends for a command: link, KIND, TAG and PAYLOAD (Table 10-1, Table 9-2). -/
def Instr.frame (c : Instr) : Option (Link × Byte × Byte × List Byte) :=
  match c with
  | .openReq n tag p => some (n, 0x01, tag, p)
  | .closeReq n tag p => some (n, 0x02, tag, p)
  | .ping n tag p => some (n, 0x03, tag, p)
  | .status n tag p => some (n, 0x04, tag, p)
  | .floor n tag p => some (n, 0x05, tag, p)
  | .ack n tag p => some (n, 0x06, tag, p)
  | .define n tag p => some (n, 0x10, tag, p)
  | .delete n tag p => some (n, 0x11, tag, p)
  | .start n tag p => some (n, 0x12, tag, p)
  | .stop n tag p => some (n, 0x13, tag, p)
  | .feed n tag p => some (n, 0x14, tag, p)
  | .complete n tag p => some (n, 0x15, tag, p)
  | .pause n tag p => some (n, 0x16, tag, p)
  | .resume n tag p => some (n, 0x17, tag, p)
  | .freeze n tag p => some (n, 0x18, tag, p)
  | .clear n tag p => some (n, 0x19, tag, p)
  | .query n tag p => some (n, 0x1A, tag, p)
  | .lineSet n tag p => some (n, 0x20, tag, p)
  | .lineQuery n tag p => some (n, 0x21, tag, p)
  | .pulse n tag p => some (n, 0x28, tag, p)
  | .hold n tag p => some (n, 0x29, tag, p)
  | .unhold n tag p => some (n, 0x2A, tag, p)
  | .claim n tag p => some (n, 0x30, tag, p)
  | .yieldReq n tag p => some (n, 0x31, tag, p)
  | .acceptReq n tag p => some (n, 0x32, tag, p)
  | .decline n tag p => some (n, 0x33, tag, p)
  | .restart n tag p => some (n, 0x3F, tag, p)
  | .unknownRequest n k tag p => some (n, k, tag, p)
  | _ => none

/-- The payload of a request has the length of Table 10-4, or for DEFINE the shape of R7. -/
def Instr.shaped (c : Instr) : Bool :=
  match c with
  | .openReq _ _ p => p.length = 6
  | .closeReq _ _ p => p.length = 0
  | .ping _ _ p => p.length = 0
  | .status _ _ p => p.length = 0
  | .floor _ _ p => p.length = 1
  | .define _ _ p => 13 ≤ p.length && (byteAt p 12).toNat ≤ 4 && p.length = 13 + 7 * (byteAt p 12).toNat
  | .delete _ _ p => p.length = 1
  | .start _ _ p => p.length = 1
  | .stop _ _ p => p.length = 1
  | .feed _ _ p => p.length = 2
  | .complete _ _ p => p.length = 1
  | .pause _ _ p => p.length = 1
  | .resume _ _ p => p.length = 1
  | .freeze _ _ p => p.length = 1
  | .clear _ _ p => p.length = 1
  | .query _ _ p => p.length = 1
  | .lineSet _ _ p => p.length = 7
  | .lineQuery _ _ p => p.length = 1
  | .pulse _ _ p => p.length = 3
  | .hold _ _ p => p.length = 1
  | .unhold _ _ p => p.length = 1
  | .claim _ _ p => p.length = 0
  | .yieldReq _ _ p => p.length = 0
  | .acceptReq _ _ p => p.length = 0
  | .decline _ _ p => p.length = 0
  | .restart _ _ p => p.length = 0
  | _ => true

/-- The command is an OPEN. -/
def Instr.isOpen (c : Instr) : Bool :=
  match c with
  | .openReq _ _ _ => true
  | _ => false

/-- The byte in which an owner-type request of Table 1-3 names its watch (R6). -/
def Instr.ownerTypeIndex (c : Instr) : Option Byte :=
  match c with
  | .delete _ _ p => p.head?
  | .start _ _ p => p.head?
  | .stop _ _ p => p.head?
  | .feed _ _ p => p.head?
  | .complete _ _ p => p.head?
  | .pause _ _ p => p.head?
  | .resume _ _ p => p.head?
  | _ => none

/-- The byte in which a request that needs a watch names it (R6). -/
def Instr.watchIndex (c : Instr) : Option Byte :=
  match c with
  | .freeze _ _ p => p.head?
  | .clear _ _ p => p.head?
  | _ => c.ownerTypeIndex

/-- The commands that are a power-on reset or hold the RESET input. -/
def Instr.resets (c : Instr) : Bool :=
  match c with
  | .powerOnReset _ _ => true
  | .resetHeld => true
  | _ => false

/-- The command can take a DEFINE: it is one, or a byte that may complete its frame. -/
def Instr.mayDefine (c : Instr) : Bool :=
  match c with
  | .define _ _ _ => true
  | .receiverTakesByte _ _ => true
  | _ => false

/-- The command is a TICK. -/
def Instr.isTick (c : Instr) : Bool :=
  match c with
  | .tick _ _ _ => true
  | _ => false

end Sys2Proof

namespace Sys2Proof.Machine

/-! ### A request and its reply -/

/-- The part takes events: RESET is not held, and no session end waits at the authority unit. Where one waits, every
command but AUTHORITY_SESSION_END takes it first (log 1). -/
abbrev State.runs (s : State) : Prop := s.resetIsHeld = false ∧ s.transit.authorityEnds = []

/-- Link `n` takes requests and can answer them: the part takes events, the link is not HELD, no CLOSE or RESTART is
pending on it, and its reply queue has room (R149, R150, R152). -/
abbrev State.answers (s : State) (n : Link) : Prop :=
  s.runs ∧ (s.link n).state ≠ .held ∧ (s.link n).closing = .nothing ∧ (s.link n).replies.length < 4

/-- Link `n` takes requests, can answer them, and has a session (R151). -/
abbrev State.serves (s : State) (n : Link) : Prop := s.answers n ∧ (s.link n).state = .up

/-- The request of link `n` comes from the owner of watch `i` or from the authority holder in state HELD (R6). -/
abbrev State.mayAct (s : State) (n : Link) (i : WatchIx) : Prop :=
  (s.watch i).owner = n ∨ s.authority.mode = .held n

/-- The state after a command. -/
def State.after (s : State) (c : Instr) : State :=
  match exec c s with
  | .next t => t
  | .fault _ => s
  | .refused _ => s

/-- The state once a valid frame has arrived on link `n`: its receiver is hunting, and with a session open its inactivity
timer is loaded again (R149, R158). -/
def State.heard (s : State) (n : Link) : State := s.frameArrived n

/-- A reply with a result and its items, completing nothing, joins link `n`'s reply queue (R152, R164). -/
def State.replied (s : State) (n : Link) (tag : Byte) (r : Result) (items : List Byte) : State :=
  s.queueReply n ⟨tag, r, items, .nothing⟩

/-! ### What an OPEN or DEFINE payload may hold, byte by byte -/

/-- The items of an OPEN payload lie within the values the part accepts (R154, Table 9-4). -/
abbrev openInRange (p : List Byte) : Prop :=
  p.length = 6 ∧ 1 ≤ (byteAt p 1).toNat ∧ (byteAt p 1).toNat ≤ 4 ∧ 1 ≤ (byteAt p 2).toNat ∧ halfAt p 3 ≤ 600
    ∧ (byteAt p 5).toNat ≤ 3

/-- The stage record at offset `k` of a DEFINE payload is in range (R8, Table 10-6). -/
abbrev stageInRange (p : List Byte) (k : Nat) : Prop :=
  (byteAt p k).toNat ≤ 3 ∧ (byteAt p (k + 6)).toNat ≤ 3
    ∧ ((byteAt p k).toNat ≤ 1 → halfAt p (k + 4) ≠ 0)
    ∧ (((byteAt p k).toNat = 1 ∨ (byteAt p k).toNat = 2) → (byteAt p (k + 1)).toNat ≤ 3)
    ∧ ((byteAt p k).toNat = 1 → halfAt p (k + 2) ≠ 0)

/-- Every item of a DEFINE payload lies within the values the part accepts (R8, Table 10-6). -/
abbrev defineInRange (p : List Byte) : Prop :=
  ((byteAt p 0).toNat ≤ 31 ∨ (byteAt p 0).toNat = 255) ∧ (byteAt p 1).toNat ≤ 2 ∧ (byteAt p 2).toNat ≤ 3
    ∧ halfAt p 3 ≠ 0 ∧ (byteAt p 6).toNat ≤ 15
    ∧ ((byteAt p 9).toNat ≤ 3 ∨ byteAt p 9 = 0xFE) ∧ ((byteAt p 10).toNat ≤ 3 ∨ byteAt p 10 = 0xFF)
    ∧ (byteAt p 11).toNat ≤ 3 ∧ ∀ k < (byteAt p 12).toNat, stageInRange p (13 + 7 * k)

/-- The items of a DEFINE payload that arrives on link `n` agree with one another (R9). -/
abbrev defineAgrees (n : Link) (p : List Byte) : Prop :=
  ((byteAt p 1).toNat ≠ 2 → (byteAt p 12).toNat ≠ 0) ∧ ((byteAt p 1).toNat = 2 → (byteAt p 12).toNat = 0)
    ∧ (byteAt p 5 ≠ 0 → (byteAt p 1).toNat = 0)
    ∧ ((byteAt p 1).toNat = 2 → (byteAt p 6).toNat = 0) ∧ ((byteAt p 1).toNat ≠ 2 → (byteAt p 11).toNat = 0)
    ∧ (∀ k < (byteAt p 12).toNat - 1, (byteAt p (13 + 7 * k)).toNat ≤ 1)
    ∧ ((byteAt p 10).toNat ≤ 3 →
        (byteAt p 10).toNat ≠ if byteAt p 9 = 0xFE then n.val else (byteAt p 9).toNat)

/-! ### Laws of a watch entry -/

/-- A FREE entry holds the reset values of Table 1-1 and its generation (R1, R3). -/
abbrev Watch.freeLaw (w : Watch) : Prop := w.state = .free → w = Watch.free w.generation

/-- What the fields of a defined entry hold by its kind, and which states it reaches (R2). -/
abbrev Watch.kindLaw (w : Watch) : Prop :=
  w.state ≠ .free →
    (w.kind = .heartbeat → (w.seqcheck = false → w.lastSeq = none) ∧ w.activityLevel = 0 ∧ 1 ≤ w.ladder.length
      ∧ w.state ≠ .quiet)
    ∧ (w.kind = .deadline → w.seqcheck = false ∧ w.lastSeq = none ∧ w.activityLevel = 0 ∧ 1 ≤ w.ladder.length
      ∧ w.state ≠ .quiet)
    ∧ (w.kind = .activity → w.seqcheck = false ∧ w.lastSeq = none ∧ w.strikeLimit = 0 ∧ w.ladder = []
      ∧ w.state ≠ .overdue ∧ w.state ≠ .latched)

/-- What a stage record holds (Table 1-2, R4). -/
abbrev StageRec.lawful (r : StageRec) : Prop :=
  (if r.action.latching then r.grace = 0 else 1 ≤ r.grace ∧ r.grace ≤ 65535)
    ∧ (if r.action = .pulse then 1 ≤ r.duration ∧ r.duration ≤ 65535 else r.duration = 0)
    ∧ ((r.action = .notify ∨ r.action = .safe) → r.target = 0)

/-- A ladder has at most four stages, each as Table 1-2 gives, and only the last may latch (R4). -/
abbrev Watch.ladderLaw (w : Watch) : Prop :=
  w.ladder.length ≤ 4 ∧ (∀ r ∈ w.ladder, r.lawful) ∧ ∀ r ∈ w.ladder.dropLast, r.action.latching = false

/-- The stage is 0 outside OVERDUE and LATCHED, and there lies between 1 and the ladder length (R42). -/
abbrev Watch.stageLaw (w : Watch) : Prop :=
  if w.state = .overdue ∨ w.state = .latched then 1 ≤ w.stage ∧ w.stage ≤ w.ladder.length else w.stage = 0

/-- The count lies between 1 and the value last loaded in RUNNING, PAUSED and OVERDUE, and is 0 in every other state
(R22, R26, R46). -/
abbrev Watch.countLaw (w : Watch) : Prop :=
  ((w.state = .running ∨ w.state = .paused) → 1 ≤ w.count ∧ w.count ≤ w.reload)
    ∧ (w.state = .overdue → 1 ≤ w.count ∧ w.count ≤ (w.stageRec w.stage).grace)
    ∧ ((w.state = .free ∨ w.state = .stopped ∨ w.state = .quiet ∨ w.state = .latched) → w.count = 0)

/-- The reload of a defined entry is 1 to 65535 ticks, its strike limit at most 15, its strikes at most 255, and a watch
whose strikes have reached its limit is LATCHED (Table 1-1, R35, R50). -/
abbrev Watch.strikeLaw (w : Watch) : Prop :=
  w.strikeLimit ≤ 15 ∧ w.strikes ≤ 255 ∧ w.reload ≤ 65535 ∧ (w.state ≠ .free → 1 ≤ w.reload)
    ∧ (w.strikeLimit ≠ 0 → w.strikeLimit ≤ w.strikes → w.state = .latched)

/-- The laws of one watch entry. -/
abbrev Watch.lawful (w : Watch) : Prop :=
  w.freeLaw ∧ w.kindLaw ∧ w.ladderLaw ∧ w.stageLaw ∧ w.countLaw ∧ w.strikeLaw

/-- Every watch entry keeps its laws (R1, R2, R4, R42, R46). -/
abbrev State.watchesLawful (s : State) : Prop := ∀ i, (s.watch i).lawful

/-- What a watch keeps until it is redefined or returns to FREE (R1). -/
abbrev Watch.sameConfiguration (w v : Watch) : Prop :=
  v.kind = w.kind ∧ v.owner = w.owner ∧ v.base = w.base ∧ v.reload = w.reload ∧ v.seqcheck = w.seqcheck
    ∧ v.strikeLimit = w.strikeLimit ∧ v.lineSet = w.lineSet ∧ v.primary = w.primary ∧ v.fallback = w.fallback
    ∧ v.activityLevel = w.activityLevel ∧ v.ladder = w.ladder

/-! ### Laws of the notice pool -/

/-- The records of levels 0 to 2 in the pool. -/
def State.lowRecords (s : State) : List Notice := s.poolRecords.filter fun r => r.level < 3

/-- The pool never holds more than 64 records, and never more than 56 of levels 0 to 2 (R71). -/
abbrev State.poolLaw (s : State) : Prop := s.poolInUse ≤ 64 ∧ s.lowRecords.length ≤ 56

/-- Each queue stands by level, highest first, and holds no two notices of one match key (R75, R76). -/
abbrev State.queueLaw (s : State) : Prop :=
  ∀ n, (s.queue n).Pairwise (fun a b => b.level ≤ a.level) ∧ ((s.queue n).map (·.key)).Nodup

/-- A link that is not UP has no unsent record but those its session's end, not yet taken, will find (R66 to R69,
R78). -/
abbrev State.silentQueueLaw (s : State) : Prop :=
  ∀ n, s.isUp n = false → (∀ e ∈ s.transit.noticeEnds, e.link ≠ n) → s.queue n = []

/-! ### Laws of delivery -/

/-- The number of the notice a frame being sent carries. -/
def TxFrame.number (f : TxFrame) : Option Byte :=
  match f.carried with
  | .reply _ => none
  | .notice k => some k

/-- The records in flight on a link number at most its window, carry distinct numbers, have been sent one to three times,
and there are none on a link that is not UP (R90, R91, R98). -/
abbrev State.windowLaw (s : State) : Prop :=
  ∀ n, (s.delivery n).inFlight.length ≤ (s.delivery n).window ∧ (s.delivery n).window ≤ 4
    ∧ ((s.delivery n).inFlight.map (·.number)).Nodup
    ∧ (∀ f ∈ (s.delivery n).inFlight, 1 ≤ f.attempt ∧ f.attempt ≤ 3)
    ∧ (s.isUp n = false → (s.delivery n).inFlight = [])

/-- The resend list holds, once each, numbers of records in flight that may be sent again and whose ack timers are
stopped, and none whose frame is being sent; the ack timer of a record whose frame is being sent is stopped (R94, R97,
R98). -/
abbrev State.resendLaw (s : State) : Prop :=
  ∀ n, (s.delivery n).resend.Nodup
    ∧ (∀ k ∈ (s.delivery n).resend,
        ∃ f ∈ (s.delivery n).inFlight, f.number = k ∧ f.timer = none ∧ f.attempt < 3)
    ∧ ∀ t ∈ s.transmitter n, ∀ k ∈ t.number,
        k ∉ (s.delivery n).resend ∧ ∀ f ∈ (s.delivery n).inFlight, f.number = k → f.timer = none

/-! ### Laws of the outputs -/

/-- The levels CRSTn has been told to stand at, followed from what the link shows: each word differs from the one before,
and the last is what the output stands at. -/
def crstChain (final : Bool) : Bool → List Bool → Bool
  | shown, [] => shown = final
  | shown, w :: ws => w ≠ shown && crstChain final w ws

/-- Link n is HELD exactly when CRSTn is asserted, but for the words about CRSTn that the link unit has not yet taken
(R127). -/
abbrev State.crstLaw (s : State) : Prop :=
  ∀ n, crstChain (s.asserted (crstOf n)) ((s.link n).state = .held)
    ((s.transit.crstWords.filter fun w => w.1 = n).map (·.2.level)) = true

/-- The time of a timed claim lies between 1 and 65535 ms (Table 7-2). -/
abbrev durationLaw (d : Option Nat) : Prop := ∀ k ∈ d, 1 ≤ k ∧ k ≤ 65535

/-- The remaining time of a claim. -/
def Claim.remaining (c : Claim) : Option Nat :=
  match c with
  | .timed r => some r
  | .held => none

/-- Every claim, taken or on its way, has a time between 1 and 65535 ms if it is timed (Table 7-2). -/
abbrev State.claimLaw (s : State) : Prop :=
  (∀ o : OutputIx, ∀ k : Fin 33, ∀ c ∈ (s.claimSet o)[k], durationLaw c.remaining)
    ∧ ∀ w ∈ s.transit.outputWords, durationLaw w.duration

/-- Whether watch `i` has a held claim on output `o` after the output unit has taken a word from it. -/
def OutputWord.holdsAfter (o : OutputIx) (before : Bool) (w : OutputWord) : Bool :=
  match w with
  | .claim _ p none _ => before || p = o
  | .claim _ _ (some _) _ => before
  | .removeAll _ => false

/-- Whether watch `i` has a held claim on output `o` once every word on its way from it has been taken. -/
def State.holds (s : State) (o : OutputIx) (i : WatchIx) : Bool :=
  (s.transit.outputWords.filter fun w => w.claimant = .watch i).foldl (OutputWord.holdsAfter o)
    (claimOf (s.claimSet o) (.watch i) = some .held)

/-- A watch has a held claim, taken or on its way, only while it is LATCHED (R14, R49). -/
abbrev State.heldLaw (s : State) : Prop := ∀ o i, s.holds o i = true → (s.watch i).state = .latched

/-! ### Laws of the authority -/

/-- The holder, present in HELD only (Table 8-1). -/
def AuthorityMode.holder (m : AuthorityMode) : Option Link :=
  match m with
  | .free => none
  | .held h => some h
  | .offering _ _ => none

/-- The offered link, present in OFFERING only (Table 8-1). -/
def AuthorityMode.offered (m : AuthorityMode) : Option Link :=
  match m with
  | .free => none
  | .held _ => none
  | .offering o _ => some o

/-- The offer timer, running in OFFERING only (Table 8-1). -/
def AuthorityMode.timer (m : AuthorityMode) : Option Nat :=
  match m with
  | .free => none
  | .held _ => none
  | .offering _ t => some t

/-- Link `n` is UP, or its session's end has not yet reached the authority unit (R132, R133, R140). -/
abbrev State.present (s : State) (n : Link) : Prop := s.isUp n = true ∨ n ∈ s.transit.authorityEnds

/-- The claim list holds each link at most once, only links that are UP or whose session's end is on its way, and never
the holder or the offered link; the holder and the offered link are such links too; in FREE the list is empty; a
running offer timer holds 1 to 3000 ms (Table 8-1, R132, R133). -/
abbrev State.authorityLaw (s : State) : Prop :=
  s.authority.claimList.Nodup ∧ (∀ n ∈ s.authority.claimList, s.present n)
    ∧ (s.authority.mode = .free → s.authority.claimList = [])
    ∧ (∀ h ∈ s.authority.mode.holder, s.present h ∧ h ∉ s.authority.claimList)
    ∧ (∀ o ∈ s.authority.mode.offered, s.present o ∧ o ∉ s.authority.claimList)
    ∧ ∀ t ∈ s.authority.mode.timer, 1 ≤ t ∧ t ≤ 3000

/-- The holder, the offered link and every link of the claim list are UP (R132, R133). -/
abbrev State.authorityUp (s : State) : Prop :=
  (∀ n ∈ s.authority.claimList, s.isUp n = true) ∧ (∀ h ∈ s.authority.mode.holder, s.isUp h = true)
    ∧ ∀ o ∈ s.authority.mode.offered, s.isUp o = true

/-- A session end on its way is that of a link that is not UP; the notice unit has at most one to take for each link, and
the authority unit at most one in all, since every command takes it first (R132, R159; log 1). -/
abbrev State.endsLaw (s : State) : Prop :=
  s.transit.authorityEnds.length ≤ 1 ∧ (s.transit.noticeEnds.map (·.link)).Nodup
    ∧ (∀ n ∈ s.transit.authorityEnds, s.isUp n = false) ∧ ∀ e ∈ s.transit.noticeEnds, s.isUp e.link = false

/-! ### Laws of the links -/

/-- A link that is not UP has its inactivity timer stopped and nothing pending; a link with a CLOSE or RESTART pending has
its timer stopped; a HELD link has no reply waiting; a reply queue holds at most four; a receiver that discards every
byte is hunting (R150, R152, R153, R158, R159). -/
abbrev State.linkLaw (s : State) : Prop :=
  ∀ n, (s.link n).replies.length ≤ 4
    ∧ (s.isUp n = false → (s.link n).inactivity = none ∧ (s.link n).closing = .nothing)
    ∧ ((s.link n).closing ≠ .nothing → (s.link n).inactivity = none)
    ∧ ((s.link n).state = .held → (s.link n).replies = [])
    ∧ (∀ k ∈ (s.link n).inactivity, 1 ≤ k ∧ k ≤ 60000) ∧ (s.link n).inactivityTimeout ≤ 600
    ∧ (s.deaf n = true → (s.receiver n).collected = none)

/-- The end that the last byte of a frame completes, if its reply is still that of a pending CLOSE or RESTART. -/
def TxFrame.closing (f : TxFrame) : Closing :=
  match f.carried with
  | .reply c => c
  | .notice _ => .nothing

/-- The ends that replies of link `n`, being sent or queued, will complete. -/
def State.closings (s : State) (n : Link) : List Closing :=
  ((s.transmitter n).toList.map TxFrame.closing ++ (s.link n).replies.map Reply.closing).filter (· ≠ .nothing)

/-- A CLOSE or RESTART is pending on a link exactly while its own reply waits or is being sent, and there is only one
(R144, R156). -/
abbrev State.closingLaw (s : State) : Prop :=
  ∀ n, s.closings n = if (s.link n).closing = .nothing then [] else [(s.link n).closing]

/-- A receiver in receiving holds fewer bytes than its LEN asks for, LEN being at most 58, and its gap timer holds 1 to 6
(R148). -/
abbrev State.receiverLaw (s : State) : Prop :=
  ∀ n, ∀ got ∈ (s.receiver n).collected,
    1 ≤ (s.receiver n).gap ∧ (s.receiver n).gap ≤ 6
      ∧ ∀ b ∈ got.head?, b.toNat ≤ 58 ∧ got.length < b.toNat + 5

/-- The counts of a link stop at their largest values (R77, R96, R149, R152). -/
abbrev State.counterLaw (s : State) : Prop :=
  ∀ n, (s.link n).discarded ≤ 255 ∧ (s.link n).framingErrors ≤ 65535 ∧ (s.link n).checkErrors ≤ 65535
    ∧ (s.delivery n).strayAcks ≤ 65535 ∧ s.loss n ≤ 255

/-! ### Laws of the event lines -/

/-- The LINE and REPEAT records of line `l` in the pool. -/
def State.lineRecords (s : State) (l : LineIx) : List Notice := s.poolRecords.filter fun r => r.key.source = .line l

/-- The reports about line `l` that the line unit has not yet taken. -/
def State.lineReports (s : State) (l : LineIx) : List (LineIx × Departure) :=
  s.transit.lineReports.filter fun w => w.1 = l

/-- The notices of line `l` handed over and not yet taken. -/
def State.lineCreations (s : State) (l : LineIx) : List Creation :=
  s.transit.creations.filter fun c => c.key.source = .line l

/-- The route of a notice of a watch or a line: a primary and a fallback (R66). -/
def Route.byPair (r : Route) : Bool :=
  match r with
  | .pair _ _ => true
  | .pairAfter _ _ _ => true
  | .target _ => false
  | .broadcast _ => false
  | .copies _ => false

/-- A line's pending flag is set exactly when a LINE or REPEAT notice of it exists in the pool, or has left it and the
line unit has yet to take the report; a line has one such notice at most, on its way, in the pool or reported; triggers
are counted in the overrun only while pending is set; the disagreement count has not passed the filter (R66, R105, R109
to R112). -/
abbrev State.lineLaw (s : State) : Prop :=
  ∀ l, ((s.line l).pending = true ↔ (s.lineRecords l).length + (s.lineReports l).length = 1)
    ∧ (s.lineRecords l).length + (s.lineReports l).length + (s.lineCreations l).length ≤ 1
    ∧ (∀ c ∈ s.lineCreations l, c.route.byPair = true)
    ∧ ((s.line l).overrun ≠ 0 → (s.line l).pending = true) ∧ (s.line l).overrun ≤ 255
    ∧ (s.line l).disagreement ≤ (s.line l).filter

/-! ### Ticks -/

/-- No tick is due anywhere: none has reached a count or timer it would bring to 0, or a line it would change, and still
waits to be taken (log 3). -/
abbrev State.noneDue (s : State) : Prop :=
  (∀ i, s.watchTickDue i = none) ∧ (∀ l, (s.line l).dueSample = none)
    ∧ s.claimTickDue = false
    ∧ (∀ n, ∀ f ∈ (s.delivery n).inFlight, f.timerDue = false) ∧ (∀ n, (s.link n).inactivityDue = false)
    ∧ s.authority.offerDue = false ∧ ∀ n, (s.receiver n).gapDue = false

/-! ### All laws -/

/-- Every law of the device that this file names. -/
abbrev State.lawful (s : State) : Prop :=
  s.watchesLawful ∧ s.poolLaw ∧ s.queueLaw ∧ s.silentQueueLaw ∧ s.windowLaw ∧ s.resendLaw ∧ s.crstLaw ∧ s.claimLaw
    ∧ s.heldLaw ∧ s.authorityLaw ∧ s.endsLaw ∧ s.linkLaw ∧ s.closingLaw ∧ s.receiverLaw ∧ s.counterLaw ∧ s.lineLaw

end Sys2Proof.Machine
end

