-- ==== Sys2Proof/Certificates/Slice0/Obligations.lean ====
section
/-!
DEFINITION. The statements for the provers.
-/

open Sys2Proof Sys2Proof.Machine

/-! ### The step and the frames of a link -/

/-- A step takes the command at the front of the queue and runs it on the state with the rest of the queue. -/
def Obligations.StepRunsTheFrontCommand : Prop :=
  ∀ (s : State) (c : Instr) (rest : List Instr),
    s.pending = c :: rest → step s = exec c { s with pending := rest }

/-- What the arrival of a valid frame does to its link, and when a request, one of unknown kind among them, is discarded
unanswered: while RESET is held, while the link is HELD or has a CLOSE or RESTART pending, and, counted, while the reply
queue is full (R149, R150, R152, R158, R162). -/
def Obligations.FramesArriveOrAreDiscarded : Prop :=
  (∀ (s : State) (n : Link), (s.link n).state ≠ .up → s.heard n = s.setReceiver n .hunting)
  ∧ (∀ (s : State) (n : Link), (s.link n).state = .up →
      s.heard n = (s.setReceiver n .hunting).setLink n
        { s.link n with inactivity :=
            if (s.link n).inactivityTimeout = 0 then none else some ((s.link n).inactivityTimeout * 100) })
  ∧ ∀ (c : Instr) (n : Link) (s : State),
      ((∃ tag body, c.request = some (n, tag, body))
        ∨ ∃ k tag p, c = .unknownRequest n k tag p ∧ k ∉ requestKinds) →
      (s.resetIsHeld = true → exec c s = .next s)
      ∧ (s.runs → ((s.link n).state = .held ∨ (s.link n).closing ≠ .nothing) → exec c s = .next s)
      ∧ (s.runs → (s.link n).state ≠ .held → (s.link n).closing = .nothing → 4 ≤ (s.link n).replies.length →
          exec c s = .next ((s.heard n).setLink n
            { (s.heard n).link n with discarded := min 255 ((s.link n).discarded + 1) }))

/-- The first three checks: a kind that names no request, then the payload's length or shape, then the session, in that
order, each answered by its result and nothing else (R152, R162, R163, Table 10-4). -/
def Obligations.KindThenShapeThenSession : Prop :=
  (∀ (s : State) (n : Link) (k tag : Byte) (p : List Byte), s.answers n → k ∉ requestKinds →
      exec (.unknownRequest n k tag p) s = .next ((s.heard n).replied n tag .unknown []))
  ∧ ∀ (c : Instr) (n : Link) (tag : Byte) (body : State → Answer × State) (s : State),
      c.request = some (n, tag, body) → s.answers n →
      (c.shaped = false → exec c s = .next ((s.heard n).replied n tag .malformed []))
      ∧ (c.shaped = true → c.isOpen = false → (s.link n).state = .silent →
          exec c s = .next ((s.heard n).replied n tag .notOpen []))

/-- A request that fails a check is answered with the result alone and changes nothing else (R163, R164). -/
def Obligations.RefusedRequestsChangeNothing : Prop :=
  ∀ (c : Instr) (n : Link) (tag : Byte) (body : State → Answer × State) (s : State),
    c.request = some (n, tag, body) → s.answers n → (body (s.heard n)).1.result ≠ .ok →
    exec c s = .next ((s.heard n).replied n tag (body (s.heard n)).1.result [])

/-- A request that names a watch: an index above 31 gives BAD-VALUE, a FREE entry NO-ENTRY, and an owner-type request from
a link that is neither owner nor holder NOT-AUTHORITY (R6, R163). -/
def Obligations.WatchRequestsAreCheckedInOrder : Prop :=
  ∀ (c : Instr) (n : Link) (tag : Byte) (body : State → Answer × State) (b : Byte) (s : State),
    c.request = some (n, tag, body) → c.watchIndex = some b → c.shaped = true → s.serves n →
    (31 < b.toNat → exec c s = .next ((s.heard n).replied n tag .badValue []))
    ∧ ∀ i : WatchIx, b.toNat = i.val →
        ((s.watch i).state = .free → exec c s = .next ((s.heard n).replied n tag .noEntry []))
        ∧ ((s.watch i).state ≠ .free → c.ownerTypeIndex = some b → ¬ s.mayAct n i →
            exec c s = .next ((s.heard n).replied n tag .notAuthority []))

/-- A privileged request, or a YIELD, from a link that is not the holder in state HELD gives NOT-AUTHORITY once its earlier
checks are passed (R143, R136, R144). -/
def Obligations.PrivilegedRequestsNeedTheHolder : Prop :=
  ∀ (s : State) (n : Link) (tag : Byte), s.serves n → s.authority.mode ≠ .held n →
    (∀ i : WatchIx, (s.watch i).state ≠ .free →
      exec (.clear n tag [byteOf i]) s = .next ((s.heard n).replied n tag .notAuthority []))
    ∧ (∀ p : List Byte, p.length = 7 → (readLineSet p).isSome = true →
        exec (.lineSet n tag p) s = .next ((s.heard n).replied n tag .notAuthority []))
    ∧ (∀ (o : OutputIx) (lo hi : Byte), (lo ≠ 0 ∨ hi ≠ 0) →
        exec (.pulse n tag [byteOf o, lo, hi]) s = .next ((s.heard n).replied n tag .notAuthority []))
    ∧ (∀ o : OutputIx, exec (.hold n tag [byteOf o]) s = .next ((s.heard n).replied n tag .notAuthority [])
        ∧ exec (.unhold n tag [byteOf o]) s = .next ((s.heard n).replied n tag .notAuthority []))
    ∧ exec (.restart n tag []) s = .next ((s.heard n).replied n tag .notAuthority [])
    ∧ exec (.yieldReq n tag []) s = .next ((s.heard n).replied n tag .notAuthority [])

/-- A client's frame, sent byte by byte to a hunting receiver, is taken as exactly its command: the START, LEN, KIND, TAG,
PAYLOAD and CHECK of every request, ACK or frame of unknown kind are read back whole (Table 9-2, Table 10-1, R147 to R149,
R152, R162). That a frame command stands for its bytes is the model's reading of the table (log 13). -/
def Obligations.WireFrameIsItsCommand : Prop :=
  ∀ (c : Instr) (n : Link) (k tag : Byte) (p : List Byte) (s : State),
    c.frame = some (n, k, tag, p) → c.wellFormed = true → (s.receiver n).collected = none →
    core.run (frameBytes k tag p).length
        { s with pending := (frameBytes k tag p).map fun b => Instr.receiverTakesByte n b }
      = exec c { s with pending := [] }

/-- The CHECK: the register starts at 0xFFFF, takes each byte in its upper half by exclusive-or and eight shifts, and
gives 0x29B1 for "1" to "9"; a frame whose CHECK disagrees is counted and discarded, as a command and as its last byte
comes, and on a link that takes nothing it is not counted (R147, R149, R150). -/
def Obligations.CheckIsTheCrcOfTheFrame : Prop :=
  crc [] = 0xFFFF
  ∧ (∀ (bs : List Byte) (b : Byte), crc (bs ++ [b]) =
      (crcShift ∘ crcShift ∘ crcShift ∘ crcShift ∘ crcShift ∘ crcShift ∘ crcShift ∘ crcShift)
        (crc bs ^^^ (b ++ 0#8)))
  ∧ (∀ r : Half, crcShift r = if r.getLsbD 15 then (r <<< 1) ^^^ 0x1021 else r <<< 1)
  ∧ crc [0x31, 0x32, 0x33, 0x34, 0x35, 0x36, 0x37, 0x38, 0x39] = 0x29B1
  ∧ (∀ (k tag : Byte) (p : List Byte), frameBytes k tag p =
      [0xC3, BitVec.ofNat 8 p.length, k, tag] ++ p
        ++ [(crc (BitVec.ofNat 8 p.length :: k :: tag :: p)).setWidth 8,
            (crc (BitVec.ofNat 8 p.length :: k :: tag :: p) >>> 8).setWidth 8])
  ∧ ∀ (s : State) (n : Link) (k tag : Byte) (p : List Byte), s.runs →
      let counted := (s.setReceiver n .hunting).setLink n
        { s.link n with checkErrors := min 65535 ((s.link n).checkErrors + 1) }
      ((s.link n).state ≠ .held → (s.link n).closing = .nothing →
        (∀ check : Half, check ≠ crc (BitVec.ofNat 8 p.length :: k :: tag :: p) →
          exec (.checkError n k tag p check) s = .next counted)
        ∧ ∀ lo hi : Byte, p.length ≤ 58 →
            (s.receiver n).collected = some (BitVec.ofNat 8 p.length :: k :: tag :: p ++ [lo]) →
            (lo ≠ (crc (BitVec.ofNat 8 p.length :: k :: tag :: p)).setWidth 8
              ∨ hi ≠ (crc (BitVec.ofNat 8 p.length :: k :: tag :: p) >>> 8).setWidth 8) →
            exec (.receiverTakesByte n hi) s = .next counted)
      ∧ ∀ check : Half, ((s.link n).state = .held ∨ (s.link n).closing ≠ .nothing) →
          exec (.checkError n k tag p check) s = .next s

/-! ### Sessions -/

/-- An OPEN on a SILENT link whose last session's end has been dealt with opens a session; one with an item out of range
gives BAD-VALUE (R154, R87, R158). -/
def Obligations.OpenOpensASession : Prop :=
  (∀ (s : State) (n : Link) (tag : Byte) (p : List Byte) (f : Level), s.answers n → (s.link n).state = .silent →
      (∀ e ∈ s.transit.noticeEnds, e.link ≠ n) → n ∉ s.transit.authorityEnds → openInRange p →
      (byteAt p 5).toNat = f.val →
      exec (.openReq n tag p) s = .next
        ((((s.setReceiver n .hunting).setLink n
            { s.link n with
              state := .up
              session := (s.link n).session + 1
              client := byteAt p 0
              inactivityTimeout := halfAt p 3
              inactivity := if halfAt p 3 = 0 then none else some (halfAt p 3 * 100) }).setDelivery n
            { s.delivery n with
              window := (byteAt p 1).toNat, ackTimeout := (byteAt p 2).toNat, floor := f, nextNumber := 0 }).replied
          n tag .ok ([(s.link n).session + 1, s.resetCause.code, 1, 64, 32, 16] ++ uptimeBytes s.uptime)))
  ∧ ∀ (s : State) (n : Link) (tag : Byte) (p : List Byte), s.answers n → p.length = 6 → ¬ openInRange p →
      exec (.openReq n tag p) s = .next ((s.heard n).replied n tag .badValue [])

/-- An OPEN, on an UP link too: the current session first ends with reason REOPENED and every consequence of it, and the
link then stands in a new session with nothing in flight, nothing queued, no authority and no place in the claim list
(R155, R159, R140). The consequences are the notice unit's share and the authority unit's, as their own commands take
them; which comes first is a free value, and where the authority unit's does, its notices are taken before the other
share (log 5). -/
def Obligations.ReopeningGivesEverythingUp : Prop :=
  (∀ (s : State) (n : Link) (tag : Byte) (p : List Byte) (f : Level), s.answers n → openInRange p →
    (byteAt p 5).toNat = f.val →
    ∃ t : State,
      exec (.openReq n tag p) s = .next t
      ∧ t = (openSession n ⟨byteAt p 0, (byteAt p 1).toNat, (byteAt p 2).toNat, halfAt p 3, f⟩
              (settleEnds n (endSession n .reopened (s.heard n)))).replied n tag .ok
            ([(s.link n).session + 1, s.resetCause.code, 1, 64, 32, 16] ++ uptimeBytes s.uptime)
      ∧ (t.link n).state = .up ∧ (t.link n).session = (s.link n).session + 1 ∧ (t.link n).client = byteAt p 0
      ∧ (t.link n).replies.length = (s.link n).replies.length + 1
      ∧ t.watches = s.watches ∧ t.uptime = s.uptime ∧ (∀ m, m ≠ n → t.link m = s.link m)
      ∧ (s.endsLaw → s.authorityLaw → s.silentQueueLaw → s.windowLaw →
          (t.delivery n).inFlight = [] ∧ t.queue n = [] ∧ t.authority.mode.holder ≠ some n
          ∧ t.authority.mode.offered ≠ some n ∧ n ∉ t.authority.claimList))
  ∧ (∀ (s : State) (n : Link),
      let waits := (∃ e ∈ s.transit.noticeEnds, e.link = n) ∨ n ∈ s.transit.authorityEnds
      let t : State := { s with choices := s.choices + 1 }
      let noticesTaken (u : State) : State :=
        (u.transit.creations.filter fun c => c.key.source = .authority).foldl (fun v c => takeCreation c .whole v)
          (u.setTransit { u.transit with
            creations := u.transit.creations.filter fun c => c.key.source ≠ .authority })
      (¬ waits → settleEnds n s = s)
      ∧ (waits → settleEnds n s =
          if Config.authorityShareFirst s.choices then noticeShare n .whole (noticesTaken (authorityShare n t))
          else authorityShare n (noticeShare n .whole t)))
  ∧ ∀ (s : State) (n : Link), s.runs →
      (∀ x, exec (.noticeUnitSessionEnd n x) s = .next (noticeShare n x s))
      ∧ ∀ ends, let waiting := s.setTransit { s.transit with authorityEnds := ends }
          exec (.authoritySessionEnd n) waiting = .next (authorityShare n waiting)

/-- CLOSE, and RESTART from the holder, are answered OK and become pending, with the inactivity timer stopped; FLOOR sets
the floor and nothing else; PING, STATUS and QUERY answer with what stands at the moment they are taken and change nothing
else; values out of range give BAD-VALUE (R156, R144, R150, R89, R157, R15, R149). -/
def Obligations.CloseFloorAndReadingRequests : Prop :=
  (∀ (s : State) (n : Link) (tag : Byte), s.serves n →
     exec (.closeReq n tag []) s = .next ((s.setReceiver n .hunting).setLink n
       { s.link n with
         closing := .close, inactivity := none, replies := (s.link n).replies ++ [⟨tag, .ok, [], .close⟩] })
     ∧ (s.authority.mode = .held n →
         exec (.restart n tag []) s = .next ((s.setReceiver n .hunting).setLink n
           { s.link n with
             closing := .restart, inactivity := none, replies := (s.link n).replies ++ [⟨tag, .ok, [], .restart⟩] }))
     ∧ (∀ f : Level, exec (.floor n tag [byteOf f]) s =
         .next (((s.heard n).setDelivery n { s.delivery n with floor := f }).replied n tag .ok []))
     ∧ ∀ b : Byte, 3 < b.toNat →
         exec (.floor n tag [b]) s = .next ((s.heard n).replied n tag .badValue []))
  ∧ (∀ (s : State) (n : Link) (tag : Byte), s.serves n →
       exec (.ping n tag []) s = .next ((s.heard n).replied n tag .ok (uptimeBytes s.uptime))
       ∧ exec (.status n tag []) s = .next ((s.heard n).replied n tag .ok (statusItems s))
       ∧ (∀ i : WatchIx, exec (.query n tag [byteOf i]) s =
           .next ((s.heard n).replied n tag .ok (queryItems (s.watch i))))
       ∧ ∀ b : Byte, 31 < b.toNat → exec (.query n tag [b]) s = .next ((s.heard n).replied n tag .badValue []))

/-- The QUERY and STATUS replies and the NOTICE payload are laid out as Tables 10-7, 10-8 and 10-9 give, and every item code
is that of Tables 10-2, 10-5 and 10-9 (R93, R157, R164, R165, R167, R168). The bits of the flags byte and of the outputs
byte that the tables do not name are 0 (log 18). -/
def Obligations.ReplyAndNoticeLayouts : Prop :=
  ([Result.ok, .unknown, .malformed, .notOpen, .badValue, .noEntry, .notOwner, .notAuthority, .frozen, .badState].map
      Result.code = [0x00, 0x01, 0x02, 0x03, 0x04, 0x05, 0x06, 0x07, 0x08, 0x09]
   ∧ [WatchState.free, .stopped, .running, .paused, .quiet, .overdue, .latched].map WatchState.code
      = [0, 1, 2, 3, 4, 5, 6]
   ∧ [WatchKind.heartbeat, .deadline, .activity].map WatchKind.code = [0, 1, 2]
   ∧ [Base.ms1, .ms10, .ms100, .s1].map baseCode = [0, 1, 2, 3]
   ∧ [Action.notify, .pulse, .hold, .safe].map Action.code = [0, 1, 2, 3]
   ∧ [LineMode.off, .high, .low, .rising, .falling, .both].map LineMode.code = [0, 1, 2, 3, 4, 5]
   ∧ [LinkState.silent, .up, .held].map LinkState.code = [0, 1, 2]
   ∧ (AuthorityMode.free.code = 0 ∧ ∀ n t, (AuthorityMode.held n).code = 1 ∧ (AuthorityMode.offering n t).code = 2)
   ∧ [ResetCause.power, .pin, .restart].map ResetCause.code = [0, 1, 2]
   ∧ (Claim.held.kindCode = 2 ∧ ∀ k, (Claim.timed k).kindCode = 1)
   ∧ [EndReason.closed, .silence, .noAck, .resetIssued, .reopened].map EndReason.code = [0, 1, 2, 3, 4]
   ∧ [Event.overdue, .seqfault, .recovered, .late, .latched, .quiet, .active, .line, .repeated, .linklost, .authchange,
      .authwanted, .authoffer, .output].map Event.code
      = [0x01, 0x02, 0x03, 0x04, 0x05, 0x06, 0x07, 0x10, 0x11, 0x20, 0x30, 0x31, 0x32, 0x40]
   ∧ (∀ i, (Source.watch i).classCode = 0 ∧ (Source.watch i).index.toNat = i.val)
   ∧ (∀ l, (Source.line l).classCode = 1 ∧ (Source.line l).index.toNat = l.val)
   ∧ (∀ n, (Source.link n).classCode = 2 ∧ (Source.link n).index.toNat = n.val)
   ∧ (Source.authority.classCode = 3 ∧ Source.authority.index = 0)
   ∧ (∀ o, (Source.output o).classCode = 4 ∧ (Source.output o).index.toNat = o.val)
   ∧ (flagByte false = 0 ∧ flagByte true = 1) ∧ linkOrNone none = 0xFF ∧ (∀ n, (linkOrNone (some n)).toNat = n.val)
   ∧ ∀ (u : Uptime) (k : Nat), k < 4 → (byteAt (uptimeBytes u) k).toNat = u.toNat / 256 ^ k % 256)
  ∧ ((∀ w : Watch, w.lawful →
       let q := queryItems w
       q.length = 22 + 7 * w.ladder.length
       ∧ byteAt q 0 = w.state.code ∧ byteAt q 1 = w.generation ∧ byteAt q 2 = w.kind.code
       ∧ (byteAt q 3).toNat = w.owner.val ∧ byteAt q 4 = baseCode w.base ∧ halfAt q 5 = w.reload
       ∧ halfAt q 7 = w.count ∧ byteAt q 9 = flagByte w.seqcheck ∧ byteAt q 10 = flagByte w.lastSeq.isSome
       ∧ byteAt q 11 = w.lastSeq.getD 0 ∧ (byteAt q 12).toNat = w.strikeLimit ∧ (byteAt q 13).toNat = w.strikes
       ∧ halfAt q 14 = w.lineSet.toNat ∧ (byteAt q 16).toNat = w.primary.val ∧ byteAt q 17 = linkOrNone w.fallback
       ∧ (byteAt q 18).toNat = w.activityLevel.val ∧ (byteAt q 19).toNat = w.stage
       ∧ byteAt q 20 = flagByte w.frozen ∧ (byteAt q 21).toNat = w.ladder.length
       ∧ ∀ k, ∀ r ∈ w.ladder[k]?,
           byteAt q (22 + 7 * k) = r.action.code ∧ (byteAt q (22 + 7 * k + 1)).toNat = r.target.val
           ∧ halfAt q (22 + 7 * k + 2) = r.duration ∧ halfAt q (22 + 7 * k + 4) = r.grace
           ∧ (byteAt q (22 + 7 * k + 6)).toNat = r.level.val)
   ∧ ∀ s : State, s.counterLaw → s.poolLaw →
       let q := statusItems s
       q.length = 48 ∧ q.take 4 = uptimeBytes s.uptime ∧ (byteAt q 4).toNat = s.poolInUse
       ∧ (∀ n : Link, byteAt q (5 + 9 * n.val) = (s.link n).state.code
           ∧ byteAt q (5 + 9 * n.val + 1) = (s.link n).session ∧ (byteAt q (5 + 9 * n.val + 2)).toNat = s.loss n
           ∧ halfAt q (5 + 9 * n.val + 3) = (s.link n).framingErrors
           ∧ halfAt q (5 + 9 * n.val + 5) = (s.link n).checkErrors
           ∧ halfAt q (5 + 9 * n.val + 7) = (s.delivery n).strayAcks)
       ∧ byteAt q 41 = s.authority.mode.code
       ∧ byteAt q 42 = linkOrNone (s.authority.mode.holder <|> s.authority.mode.offered)
       ∧ (∀ k < 3, byteAt q (43 + k) = linkOrNone s.authority.claimList[k]?)
       ∧ (∀ o : OutputIx, (byteAt q 46).getLsbD o.val = s.asserted o) ∧ (byteAt q 46).toNat < 32 ∧ byteAt q 47 = s.resetCause.code)
  ∧ (∀ f : InFlight, f.notice.repeats ≤ 255 → f.loss ≤ 255 → f.notice.detail.length ≤ 3 →
       (∀ k ∈ f.notice.key.stage, k ≤ 255) →
       let p := noticePayload f
       let r := f.notice
       p.length = 15 + r.detail.length ∧ byteAt p 0 = r.key.source.classCode ∧ byteAt p 1 = r.key.source.index
       ∧ byteAt p 2 = r.key.event.code ∧ (byteAt p 3).toNat = r.level.val
       ∧ (byteAt p 4).getLsbD 0 = r.key.generation.isSome ∧ (byteAt p 4).getLsbD 1 = r.key.stage.isSome
       ∧ (byteAt p 4).getLsbD 2 = r.origin.isSome ∧ (byteAt p 4).getLsbD 3 = decide (1 < f.attempt)
       ∧ (byteAt p 4).toNat < 16 ∧ byteAt p 5 = r.key.generation.getD 0 ∧ (byteAt p 6).toNat = r.key.stage.getD 0
       ∧ (byteAt p 7).toNat = (r.origin.map Fin.val).getD 0 ∧ (byteAt p 8).toNat = r.repeats
       ∧ (p.drop 9).take 4 = uptimeBytes r.timestamp ∧ (byteAt p 13).toNat = f.loss
       ∧ (byteAt p 14).toNat = r.detail.length ∧ p.drop 15 = r.detail)

/-- An ACK on an UP link removes the record in flight that carries its number, or counts as stray; on a SILENT link it is
ignored; on a link that takes nothing it is discarded; its payload is never examined (R95, R96, R149, R162). -/
def Obligations.AcksAreTaken : Prop :=
  ∀ (s : State) (n : Link) (k : Byte) (p : List Byte),
    (s.resetIsHeld = true → exec (.ack n k p) s = .next s)
    ∧ (s.runs → ((s.link n).state = .held ∨ (s.link n).closing ≠ .nothing) → exec (.ack n k p) s = .next s)
    ∧ (s.runs → (s.link n).state = .silent → (s.link n).closing = .nothing →
        exec (.ack n k p) s = .next (s.setReceiver n .hunting))
    ∧ (s.runs → (s.link n).state = .up → (s.link n).closing = .nothing →
        (∀ f ∈ (s.delivery n).inFlight, f.number = k → ((s.delivery n).inFlight.map (·.number)).Nodup →
          exec (.ack n k p) s = .next
            (((s.heard n).setDelivery n
                { s.delivery n with
                  inFlight := (s.delivery n).inFlight.filter (·.number ≠ k)
                  resend := (s.delivery n).resend.filter (· ≠ k) }).reportDeparture f.notice .acknowledged))
        ∧ ((∀ f ∈ (s.delivery n).inFlight, f.number ≠ k) →
            exec (.ack n k p) s = .next ((s.heard n).setDelivery n
              { s.delivery n with strayAcks := min 65535 ((s.delivery n).strayAcks + 1) })))

/-! ### Watches -/

/-- A DEFINE of the right shape whose items are out of range or do not agree gives BAD-VALUE and changes nothing; one whose
items are in range and agree is read with every field as its bytes give it, the fields of a stage record that are not
examined stored as 0 (R8, R9, R4, Table 10-6). -/
def Obligations.DefineReadsItsItems : Prop :=
  (∀ (s : State) (n : Link) (tag : Byte) (p : List Byte), s.serves n → (Instr.define n tag p).shaped = true →
      ¬ (defineInRange p ∧ defineAgrees n p) →
      exec (.define n tag p) s = .next ((s.heard n).replied n tag .badValue []))
  ∧ ∀ (n : Link) (p : List Byte), (Instr.define n 0 p).shaped = true → defineInRange p → defineAgrees n p →
      ∃ d : DefineItems, readDefine n p = some d
        ∧ d.index = byteAt p 0 ∧ d.kind.code = byteAt p 1 ∧ baseCode d.base = byteAt p 2 ∧ d.reload = halfAt p 3
        ∧ d.seqcheck = decide (byteAt p 5 ≠ 0) ∧ d.strikeLimit = (byteAt p 6).toNat
        ∧ (∀ l : LineIx, inLines d.lineSet l = (halfAt p 7).testBit l.val)
        ∧ d.primary.val = (if byteAt p 9 = 0xFE then n.val else (byteAt p 9).toNat)
        ∧ linkOrNone d.fallback = byteAt p 10 ∧ d.activityLevel.val = (byteAt p 11).toNat
        ∧ d.ladder.length = (byteAt p 12).toNat
        ∧ ∀ k, ∀ r ∈ d.ladder[k]?,
            r.action.code = byteAt p (13 + 7 * k) ∧ r.level.val = (byteAt p (13 + 7 * k + 6)).toNat
            ∧ r.grace = (if r.action.latching then 0 else halfAt p (13 + 7 * k + 4))
            ∧ r.target.val = (if r.action = .pulse ∨ r.action = .hold then (byteAt p (13 + 7 * k + 1)).toNat else 0)
            ∧ r.duration = (if r.action = .pulse then halfAt p (13 + 7 * k + 2) else 0)

/-- A DEFINE whose items are accepted: the entry it chooses, and what it makes of a FREE entry, of a defined one it may
replace, and of one it may not (R3, R10 to R12). -/
def Obligations.DefineWritesTheEntry : Prop :=
  ∀ (s : State) (n : Link) (tag : Byte) (p : List Byte) (d : DefineItems),
    s.serves n → (Instr.define n tag p).shaped = true → readDefine n p = some d →
    (d.index = 255 → (∀ i, (s.watch i).state ≠ .free) →
      exec (.define n tag p) s = .next ((s.heard n).replied n tag .noEntry []))
    ∧ ∀ i : WatchIx,
        let written : Watch :=
          ⟨.stopped, (s.watch i).generation + 1, d.kind, n, d.base, d.reload, 0, d.seqcheck, none, d.strikeLimit, 0,
           d.lineSet, d.primary, d.fallback, d.activityLevel, d.ladder, 0, false⟩
        let accepted := ((s.heard n).setWatch i written).replied n tag .ok [byteOf i, (s.watch i).generation + 1]
        ((s.watch i).state = .free →
          (d.index.toNat = i.val ∨ (d.index = 255 ∧ ∀ j < i, (s.watch j).state ≠ .free)) →
          exec (.define n tag p) s = .next accepted)
        ∧ (d.index.toNat = i.val → (s.watch i).state ≠ .free →
            (¬ s.mayAct n i → exec (.define n tag p) s = .next ((s.heard n).replied n tag .notAuthority []))
            ∧ (s.mayAct n i → (s.watch i).frozen = true →
                exec (.define n tag p) s = .next ((s.heard n).replied n tag .frozen []))
            ∧ (s.mayAct n i → (s.watch i).frozen = false → (s.watch i).state ≠ .stopped →
                exec (.define n tag p) s = .next ((s.heard n).replied n tag .badState []))
            ∧ (s.mayAct n i → (s.watch i).frozen = false → (s.watch i).state = .stopped →
                exec (.define n tag p) s = .next accepted))

/-- DELETE, checked in the order index, entry, right, frozen, LATCHED, returns the entry to FREE with its generation kept and
every other field at its reset value; FREEZE, from the owner alone, sets the frozen flag and nothing else, in every state
and again on a frozen entry, and replies with the generation. No expiry, stage step or trigger moves a FREE entry (R13,
R16). -/
def Obligations.DeleteAndFreeze : Prop :=
  ∀ (s : State) (n : Link) (tag : Byte), s.serves n →
    (∀ b : Byte, 31 < b.toNat →
      exec (.delete n tag [b]) s = .next ((s.heard n).replied n tag .badValue [])
      ∧ exec (.freeze n tag [b]) s = .next ((s.heard n).replied n tag .badValue []))
    ∧ ∀ i : WatchIx,
        ((s.watch i).state = .free →
          exec (.delete n tag [byteOf i]) s = .next ((s.heard n).replied n tag .noEntry [])
          ∧ exec (.freeze n tag [byteOf i]) s = .next ((s.heard n).replied n tag .noEntry []))
        ∧ ((s.watch i).state ≠ .free →
            (¬ s.mayAct n i →
              exec (.delete n tag [byteOf i]) s = .next ((s.heard n).replied n tag .notAuthority []))
            ∧ (s.mayAct n i → (s.watch i).frozen = true →
                exec (.delete n tag [byteOf i]) s = .next ((s.heard n).replied n tag .frozen []))
            ∧ (s.mayAct n i → (s.watch i).frozen = false → (s.watch i).state = .latched →
                exec (.delete n tag [byteOf i]) s = .next ((s.heard n).replied n tag .badState []))
            ∧ (s.mayAct n i → (s.watch i).frozen = false → (s.watch i).state ≠ .latched →
                exec (.delete n tag [byteOf i]) s = .next
                  (((s.heard n).setWatch i
                    ⟨.free, (s.watch i).generation, .heartbeat, 0, .ms1, 0, 0, false, none, 0, 0, 0, 0, none, 0, [], 0,
                     false⟩).replied n tag .ok []))
            ∧ ((s.watch i).owner ≠ n →
                exec (.freeze n tag [byteOf i]) s = .next ((s.heard n).replied n tag .notOwner []))
            ∧ ((s.watch i).owner = n →
                exec (.freeze n tag [byteOf i]) s = .next
                  (((s.heard n).setWatch i { s.watch i with frozen := true }).replied n tag .ok
                    [(s.watch i).generation])))
        ∧ ((s.watch i).state = .free → (s.watch i).freeLaw →
            exec (.watchExpiry i) s = .next s ∧ exec (.graceRunsOut i) s = .next s
            ∧ ∀ l : LineIx, (triggerWatches l s).watch i = s.watch i)

/-- START, STOP, PAUSE and RESUME in every state of a defined watch, frozen or not (R25 to R28, R17, Table 2-3). -/
def Obligations.StartStopPauseResume : Prop :=
  ∀ (s : State) (n : Link) (tag : Byte) (i : WatchIx),
    s.serves n → (s.watch i).state ≠ .free → s.mayAct n i →
    let w := s.watch i
    let refused (r : Result) := (s.heard n).replied n tag r []
    let becomes (v : Watch) := ((s.heard n).setWatch i v).replied n tag .ok []
    (w.state = .stopped → exec (.start n tag [byteOf i]) s =
      .next (becomes { w with state := .running, count := w.reload, stage := 0, lastSeq := none }))
    ∧ (w.state ≠ .stopped → exec (.start n tag [byteOf i]) s = .next (refused .badState))
    ∧ (w.frozen = true → exec (.stop n tag [byteOf i]) s = .next (refused .frozen))
    ∧ (w.frozen = false → (w.state = .stopped ∨ w.state = .latched) →
        exec (.stop n tag [byteOf i]) s = .next (refused .badState))
    ∧ (w.frozen = false → w.state ≠ .stopped → w.state ≠ .latched →
        exec (.stop n tag [byteOf i]) s = .next (becomes { w with state := .stopped, count := 0, stage := 0 }))
    ∧ (w.frozen = true → exec (.pause n tag [byteOf i]) s = .next (refused .frozen))
    ∧ (w.frozen = false → w.state ≠ .running → exec (.pause n tag [byteOf i]) s = .next (refused .badState))
    ∧ (w.frozen = false → w.state = .running →
        exec (.pause n tag [byteOf i]) s = .next (becomes { w with state := .paused }))
    ∧ (w.state = .paused → exec (.resume n tag [byteOf i]) s = .next (becomes { w with state := .running }))
    ∧ (w.state ≠ .paused → exec (.resume n tag [byteOf i]) s = .next (refused .badState))

/-- FEED: refused for a DEADLINE watch and in STOPPED, PAUSED and LATCHED; with the sequence in order or not examined it
reloads a RUNNING watch, recovers an OVERDUE HEARTBEAT with a RECOVERED notice and wakes a QUIET ACTIVITY with an ACTIVE
notice; the value examined becomes the last sequence (R29 to R31, R33, R53, R57, Table 2-4). -/
def Obligations.FeedInSequence : Prop :=
  ∀ (s : State) (n : Link) (tag v : Byte) (i : WatchIx),
    s.serves n → (s.watch i).state ≠ .free → s.mayAct n i →
    let w := s.watch i
    let fed : Watch :=
      { w with
        state := .running, stage := 0, count := w.reload
        lastSeq := if w.kind = .heartbeat ∧ w.seqcheck = true then some v else w.lastSeq }
    let inOrder := w.kind = .heartbeat → w.seqcheck = true → ∀ last ∈ w.lastSeq, v = last + 1
    ((w.kind = .deadline ∨ w.state = .stopped ∨ w.state = .paused ∨ w.state = .latched) →
      exec (.feed n tag [byteOf i, v]) s = .next ((s.heard n).replied n tag .badState []))
    ∧ (inOrder → w.kind ≠ .deadline → w.state = .running →
        exec (.feed n tag [byteOf i, v]) s = .next (((s.heard n).setWatch i fed).replied n tag .ok [0, 2, 0]))
    ∧ (inOrder → w.kind = .heartbeat → w.state = .overdue →
        exec (.feed n tag [byteOf i, v]) s = .next
          ((((s.heard n).setWatch i fed).post
            [⟨⟨.watch i, some w.generation, .recovered, none⟩, (w.stageRec 1).level, [],
              .pair w.primary w.fallback⟩]).replied n tag .ok [0, 2, 0]))
    ∧ (w.kind = .activity → w.state = .quiet →
        exec (.feed n tag [byteOf i, v]) s = .next
          ((((s.heard n).setWatch i fed).post
            [⟨⟨.watch i, some w.generation, .active, none⟩, w.activityLevel, [],
              .pair w.primary w.fallback⟩]).replied n tag .ok [0, 2, 0]))

/-- A sequence fault: in RUNNING it is a lapse, counted as a strike, to stage 1 or at the strike limit to the last stage;
in OVERDUE it moves the watch on one stage, or latches it at the ladder's end; the reply tells the fault, the state and
the stage (R30 to R32, R50 to R52). -/
def Obligations.SequenceFaultsAdvance : Prop :=
  ∀ (s : State) (n : Link) (tag v last : Byte) (i : WatchIx),
    s.serves n → s.mayAct n i → (s.watch i).kind = .heartbeat → (s.watch i).seqcheck = true →
    (s.watch i).lastSeq = some last → v ≠ last + 1 →
    let w : Watch := { s.watch i with lastSeq := some v }
    let struck : Watch := { w with strikes := min 255 (w.strikes + 1) }
    let outcome (r : WatchStep) :=
      exec (.feed n tag [byteOf i, v]) s =
        .next ((((s.heard n).setWatch i r.watch).sendOutput r.words).post r.notices |>.replied n tag .ok
          [1, r.watch.state.code, byteOf r.watch.stage])
    (w.state = .running → (w.strikeLimit = 0 ∨ struck.strikes < w.strikeLimit) →
      outcome (enterStage i struck 1 (some (last + 1, v))))
    ∧ (w.state = .running → w.strikeLimit ≠ 0 → w.strikeLimit ≤ struck.strikes → outcome (strikeOut i struck))
    ∧ (w.state = .overdue → w.stage < w.ladder.length →
        outcome (enterStage i w (w.stage + 1) (some (last + 1, v))))
    ∧ (w.state = .overdue → w.ladder.length ≤ w.stage →
        outcome ⟨{ w with state := .latched, count := 0 }, [],
          [⟨⟨.watch i, some w.generation, .seqfault, some w.stage⟩, (w.stageRec w.stage).level, [last + 1, v],
            .pair w.primary w.fallback⟩,
           ⟨⟨.watch i, some w.generation, .latched, some w.stage⟩, w.topLevel, [0],
            .pair w.primary w.fallback⟩]⟩)

/-- COMPLETE stops a RUNNING DEADLINE watch quietly and an OVERDUE one with a LATE notice, and is refused otherwise; CLEAR from
the holder returns an OVERDUE or LATCHED watch to STOPPED with its strikes at 0, its frozen flag and last sequence kept,
and orders every claim of its index removed; in other states it is refused (R34, R54, R55, R57). -/
def Obligations.CompleteAndClear : Prop :=
  (∀ (s : State) (n : Link) (tag : Byte) (i : WatchIx),
     s.serves n → (s.watch i).state ≠ .free → s.mayAct n i →
     let w := s.watch i
     let done : Watch := { w with state := .stopped, count := 0, stage := 0 }
     (w.kind = .deadline → w.state = .running →
       exec (.complete n tag [byteOf i]) s = .next (((s.heard n).setWatch i done).replied n tag .ok []))
     ∧ (w.kind = .deadline → w.state = .overdue →
         exec (.complete n tag [byteOf i]) s = .next
           ((((s.heard n).setWatch i done).post
             [⟨⟨.watch i, some w.generation, .late, none⟩, (w.stageRec 1).level, [],
               .pair w.primary w.fallback⟩]).replied n tag .ok []))
     ∧ ((w.kind ≠ .deadline ∨ (w.state ≠ .running ∧ w.state ≠ .overdue)) →
         exec (.complete n tag [byteOf i]) s = .next ((s.heard n).replied n tag .badState [])))
  ∧ (∀ (s : State) (n : Link) (tag : Byte) (i : WatchIx),
       s.serves n → (s.watch i).state ≠ .free → s.authority.mode = .held n →
       let w := s.watch i
       ((w.state = .overdue ∨ w.state = .latched) →
         exec (.clear n tag [byteOf i]) s = .next
           ((((s.heard n).setWatch i { w with state := .stopped, stage := 0, count := 0, strikes := 0 }).sendOutput
             [.removeAll i]).replied n tag .ok []))
       ∧ (w.state ≠ .overdue → w.state ≠ .latched →
           exec (.clear n tag [byteOf i]) s = .next ((s.heard n).replied n tag .badState [])))

/-! ### Event lines -/

/-- LINESET from the holder replaces the six configuration fields and sets the disagreement count to 0, and refuses values
out of range; LINEQUERY answers with the record and changes nothing else (R114, R116, Table 6-3). The outcome of a notice of
the line still on its way is taken first: its creations are taken whole, oldest first, the others staying (log 1). -/
def Obligations.LineSetAndLineQuery : Prop :=
  (∀ (s : State) (n : Link) (tag : Byte) (l : LineIx) (m : LineMode) (filter notify : Byte) (lv : Level) (p : Link)
      (f : Option Link), s.serves n → s.authority.mode = .held n → f ≠ some p →
      exec (.lineSet n tag [byteOf l, m.code, filter, notify, byteOf lv, byteOf p, linkOrNone f]) s = .next
        (((s.heard n).setLine l
          { s.line l with
            mode := m, filter := filter.toNat, notify := decide (notify ≠ 0), level := lv, primary := p
            fallback := f, disagreement := 0 }).replied n tag .ok []))
  ∧ (∀ (s : State) (n : Link) (tag b0 b1 b2 b3 b4 b5 b6 : Byte), s.serves n →
      (15 < b0.toNat ∨ 5 < b1.toNat ∨ 3 < b4.toNat ∨ 3 < b5.toNat ∨ (3 < b6.toNat ∧ b6 ≠ 0xFF) ∨ b6 = b5) →
      exec (.lineSet n tag [b0, b1, b2, b3, b4, b5, b6]) s = .next ((s.heard n).replied n tag .badValue []))
  ∧ ∀ (s : State) (n : Link) (tag : Byte), s.serves n →
      (∀ b : Byte, 15 < b.toNat →
        exec (.lineQuery n tag [b]) s = .next ((s.heard n).replied n tag .badValue []))
      ∧ ∀ l : LineIx,
          let t := (s.transit.creations.filter fun c => c.key.source = .line l).foldl
            (fun u c => takeCreation c .whole u)
            ((s.heard n).setTransit { s.transit with
              creations := s.transit.creations.filter fun c => c.key.source ≠ .line l })
          let r := t.line l
          exec (.lineQuery n tag [byteOf l]) s = .next (t.replied n tag .ok
            ([r.mode.code, byteOf r.filter, flagByte r.notify, byteOf r.level, byteOf r.primary,
              linkOrNone r.fallback, flagByte r.accepted, byteOf r.disagreement, byteOf (r.disagreement / 256),
              flagByte r.pending, byteOf r.overrun, flagByte r.pinLevel,
              flagByte ((r.mode = .high && r.accepted) || (r.mode = .low && !r.accepted))]))
          ∧ ((∀ c ∈ s.transit.creations, c.key.source ≠ .line l) → t = s.heard n)

/-! ### Outputs by hand -/

/-- PULSE and HOLD from the holder hand a claim of MANUAL to the output unit and tell the output's state and the claim
that stands after it; a held claim is not shortened; values out of range give BAD-VALUE (R123, R124). The claims of
MANUAL handed over for the output before it are counted in, oldest first (log 6). -/
def Obligations.PulseAndHold : Prop :=
  ∀ (s : State) (n : Link) (tag : Byte), s.serves n →
    (∀ (o : OutputIx) (lo hi : Byte), s.authority.mode = .held n → (lo ≠ 0 ∨ hi ≠ 0) →
      let d := lo.toNat + 256 * hi.toNat
      let kind : Byte := if claimOf (s.claimSetForManual o) .manual = some .held then 2 else 1
      exec (.pulse n tag [byteOf o, lo, hi]) s =
        .next (((s.heard n).sendOutput [.claim .manual o (some d) none]).replied n tag .ok [1, kind]))
    ∧ (∀ o : OutputIx, s.authority.mode = .held n →
        exec (.hold n tag [byteOf o]) s =
          .next (((s.heard n).sendOutput [.claim .manual o none none]).replied n tag .ok [1, 2]))
    ∧ (∀ b lo hi : Byte, 4 < b.toNat →
        exec (.pulse n tag [b, lo, hi]) s = .next ((s.heard n).replied n tag .badValue [])
        ∧ exec (.hold n tag [b]) s = .next ((s.heard n).replied n tag .badValue [])
        ∧ exec (.unhold n tag [b]) s = .next ((s.heard n).replied n tag .badValue []))
    ∧ (∀ o : OutputIx, s.claimSetForManual o =
        (s.transit.outputWords.filterMap fun w =>
          match w with
          | .claim .manual q d _ => if q = o then some d else none
          | _ => none).foldl
          (fun set d => put set (slotOf .manual) (some
            (match claimOf set .manual, d with
             | some .held, _ => .held
             | _, some k => .timed k
             | _, none => .held))) (s.claimSet o))
    ∧ ∀ o : OutputIx, exec (.pulse n tag [byteOf o, 0, 0]) s = .next ((s.heard n).replied n tag .badValue [])

/-- UNHOLD from the holder: BAD-STATE without a claim of MANUAL; otherwise the claim is removed, timed or held, the output
changes if it was the last, and the reply tells the output's state (R125, R119). The claims of MANUAL on the output that
were handed over before it are taken before it, oldest first, as the output unit takes a claim (log 6). -/
def Obligations.UnholdRemovesTheManualClaim : Prop :=
  ∀ (s : State) (n : Link) (tag : Byte) (o : OutputIx), s.serves n → s.authority.mode = .held n →
    let mine (w : OutputWord) : Bool :=
      match w with
      | .claim .manual q _ _ => decide (q = o)
      | _ => false
    let t := (s.transit.outputWords.filter mine).foldl (fun u w => takeClaim .manual o w.duration none u)
      ((s.heard n).setTransit { s.transit with outputWords := s.transit.outputWords.filter fun w => !mine w })
    let left := put (t.claimSet o) (slotOf .manual) none
    (claimOf (s.claimSetForManual o) .manual = none →
      exec (.unhold n tag [byteOf o]) s = .next ((s.heard n).replied n tag .badState []))
    ∧ (claimOf (s.claimSetForManual o) .manual ≠ none →
        (left.toList.any Option.isSome = true →
          exec (.unhold n tag [byteOf o]) s = .next ((t.setClaimSet o left).replied n tag .ok [1]))
        ∧ (left.toList.any Option.isSome = false →
            exec (.unhold n tag [byteOf o]) s = .next ((announce o .released (t.setClaimSet o left)).replied n tag .ok [0])))
    ∧ t.claimSet o = s.claimSetForManual o
    ∧ ((∀ w ∈ s.transit.outputWords, mine w = false) → s.claimSetForManual o = s.claimSet o ∧ t = s.heard n)

/-! ### The control authority -/

/-- A CLAIM in FREE is granted with an AUTHCHANGE; in HELD it finds the claimant the holder, or in the list, or appends it
with an AUTHWANTED to the holder; the list is empty in FREE and always has room (R134). -/
def Obligations.ClaimInFreeOrHeld : Prop :=
  (∀ (s : State) (n : Link) (tag : Byte), s.serves n →
      (s.authority.mode = .free →
        exec (.claim n tag []) s = .next
          ((((s.heard n).setAuthority { s.authority with mode := .held n }).post
            [authChange (some n) none]).replied n tag .ok [0, 0]))
      ∧ (s.authority.mode = .held n →
          exec (.claim n tag []) s = .next ((s.heard n).replied n tag .ok [2, 0]))
      ∧ ∀ h : Link, s.authority.mode = .held h → h ≠ n →
          (n ∈ s.authority.claimList →
            exec (.claim n tag []) s =
              .next ((s.heard n).replied n tag .ok [1, byteOf (s.authority.claimList.idxOf n + 1)]))
          ∧ (n ∉ s.authority.claimList →
              exec (.claim n tag []) s = .next
                ((((s.heard n).setAuthority { s.authority with claimList := s.authority.claimList ++ [n] }).post
                  [authWanted n h]).replied n tag .ok [1, byteOf (s.authority.claimList.length + 1)])))
  ∧ ∀ s : State, s.authorityLaw →
      (s.authority.mode = .free → s.authority.claimList = [])
      ∧ ∀ n h : Link, s.authority.mode = .held h → h ≠ n → n ∉ s.authority.claimList →
          s.authority.claimList.length < 3

/-- A CLAIM in OFFERING is granted to the offered link, finds a waiting link in its place, or appends a new one without a
notice (R135). -/
def Obligations.ClaimInOffering : Prop :=
  ∀ (s : State) (n o : Link) (t : Nat) (tag : Byte), s.serves n → s.authority.mode = .offering o t →
    (o = n →
      exec (.claim n tag []) s = .next
        ((((s.heard n).setAuthority { s.authority with mode := .held n }).post
          [authChange (some n) none]).replied n tag .ok [0, 0]))
    ∧ (o ≠ n → n ∉ s.authority.claimList →
        exec (.claim n tag []) s = .next
          (((s.heard n).setAuthority { s.authority with claimList := s.authority.claimList ++ [n] }).replied n tag .ok
            [1, byteOf (s.authority.claimList.length + 1)]))
    ∧ (o ≠ n → n ∈ s.authority.claimList →
        exec (.claim n tag []) s =
          .next ((s.heard n).replied n tag .ok [1, byteOf (s.authority.claimList.idxOf n + 1)]))

/-- YIELD: MALFORMED with a payload, NOT-AUTHORITY from anyone but the holder in HELD; accepted, it frees the authority with
an AUTHCHANGE naming NONE, or offers it to the head of the list with the timer at 3000 ms, its reply queued at the same
moment and the link not appended (R136, R137). -/
def Obligations.YieldPassesTheAuthorityOn : Prop :=
  ∀ (s : State) (n : Link) (tag : Byte), s.serves n →
    (∀ p : List Byte, p ≠ [] → exec (.yieldReq n tag p) s = .next ((s.heard n).replied n tag .malformed []))
    ∧ (s.authority.mode ≠ .held n →
        exec (.yieldReq n tag []) s = .next ((s.heard n).replied n tag .notAuthority []))
    ∧ (s.authority.mode = .held n →
        (s.authority.claimList = [] →
          exec (.yieldReq n tag []) s = .next
            ((((s.heard n).setAuthority { s.authority with mode := .free }).post
              [authChange none none]).replied n tag .ok []))
        ∧ ∀ (m : Link) (ms : List Link), s.authority.claimList = m :: ms →
            exec (.yieldReq n tag []) s = .next
              ((((s.heard n).setAuthority { s.authority with mode := .offering m 3000, claimList := ms }).post
                [authOffer m]).replied n tag .ok []))

/-- ACCEPT: MALFORMED with a payload, BAD-STATE from any link but the offered one in OFFERING; accepted, the offered link
becomes the holder with an AUTHCHANGE, the timer stops, and the claim list keeps its order (R138). -/
def Obligations.AcceptMakesTheHolder : Prop :=
  ∀ (s : State) (n : Link) (tag : Byte), s.serves n →
    (∀ p : List Byte, p ≠ [] → exec (.acceptReq n tag p) s = .next ((s.heard n).replied n tag .malformed []))
    ∧ (s.authority.mode.offered ≠ some n →
        exec (.acceptReq n tag []) s = .next ((s.heard n).replied n tag .badState []))
    ∧ (s.authority.mode.offered = some n →
        exec (.acceptReq n tag []) s = .next
          ((((s.heard n).setAuthority { s.authority with mode := .held n }).post
            [authChange (some n) none]).replied n tag .ok []))

/-- An offer ends without acceptance by DECLINE from the offered link, or when the tick that brings the offer timer to 0 is
taken: the next claimant is offered the authority, or it is FREE with an AUTHCHANGE naming NONE; a DECLINE from another
link, or in another state, gives BAD-STATE (R137, R139). -/
def Obligations.OffersEnd : Prop :=
  ∀ s : State,
    (∀ (n : Link) (tag : Byte), s.serves n →
      (∀ p : List Byte, p ≠ [] → exec (.decline n tag p) s = .next ((s.heard n).replied n tag .malformed []))
      ∧ (s.authority.mode.offered ≠ some n →
          exec (.decline n tag []) s = .next ((s.heard n).replied n tag .badState []))
      ∧ (s.authority.mode.offered = some n → s.authority.claimList = [] →
          exec (.decline n tag []) s = .next
            ((((s.heard n).setAuthority { s.authority with mode := .free }).post
              [authChange none none]).replied n tag .ok []))
      ∧ ∀ (m : Link) (ms : List Link), s.authority.mode.offered = some n → s.authority.claimList = m :: ms →
          exec (.decline n tag []) s = .next
            ((((s.heard n).setAuthority { s.authority with mode := .offering m 3000, claimList := ms }).post
              [authOffer m]).replied n tag .ok []))
    ∧ ∀ (o : Link) (k : Nat), s.runs → s.authority.mode = .offering o k → s.authority.offerDue = true →
        (1 < k → exec .offerTimerRunsOut s =
          .next (s.setAuthority { s.authority with mode := .offering o (k - 1), offerDue := false }))
        ∧ (k ≤ 1 → s.authority.claimList = [] → exec .offerTimerRunsOut s =
            .next ((s.setAuthority { s.authority with mode := .free, offerDue := false }).post
              [authChange none none]))
        ∧ ∀ (m : Link) (ms : List Link), k ≤ 1 → s.authority.claimList = m :: ms → exec .offerTimerRunsOut s =
            .next ((s.setAuthority ⟨.offering m 3000, ms, false⟩).post [authOffer m])

/-! ### The receiver -/

/-- The receiver byte by byte: hunting it heeds START alone; a LEN above 58 abandons the start, counts a framing error and
is examined as the first byte of the hunt, whether it comes as a byte or as the event itself; a byte of a frame loads the
gap timer with 6; the tick that brings the gap timer to 0 discards the bytes and counts a framing error (R148, R150). -/
def Obligations.ReceiverBuildsFrames : Prop :=
  ∀ (s : State) (n : Link), s.runs →
    (((s.link n).state = .held ∨ (s.link n).closing ≠ .nothing) →
      ∀ b : Byte, exec (.receiverTakesByte n b) s = .next s)
    ∧ ((s.link n).state ≠ .held → (s.link n).closing = .nothing →
        let due := (s.receiver n).gapDue
        let counted := s.setLink n { s.link n with framingErrors := min 65535 ((s.link n).framingErrors + 1) }
        let examined (t : State) (b : Byte) :=
          if b = 0xC3 then t.setReceiver n ⟨some [], 6, due⟩ else t.setReceiver n .hunting
        ((s.receiver n).collected = none → ∀ b : Byte, exec (.receiverTakesByte n b) s = .next (examined s b))
        ∧ ((s.receiver n).collected = some [] → ∀ b : Byte,
            (58 < b.toNat → exec (.receiverTakesByte n b) s = .next (examined counted b)
              ∧ exec (.frameStartAbandoned n b) s = .next (examined counted b))
            ∧ (b.toNat ≤ 58 → exec (.receiverTakesByte n b) s = .next (s.setReceiver n ⟨some [b], 6, due⟩)))
        ∧ ∀ (len : Byte) (got : List Byte), (s.receiver n).collected = some (len :: got) →
            got.length + 1 < len.toNat + 4 → ∀ b : Byte,
              exec (.receiverTakesByte n b) s = .next (s.setReceiver n ⟨some (len :: got ++ [b]), 6, due⟩))
    ∧ ∀ got : List Byte, (s.receiver n).collected = some got → (s.receiver n).gapDue = true →
        ((s.receiver n).gap ≤ 1 → exec (.gapTimerExpiry n) s =
          .next ((s.setReceiver n .hunting).setLink n
            { s.link n with framingErrors := min 65535 ((s.link n).framingErrors + 1) }))
        ∧ (1 < (s.receiver n).gap → exec (.gapTimerExpiry n) s =
            .next (s.setReceiver n ⟨some got, (s.receiver n).gap - 1, false⟩))

/-! ### Time -/

/-- A TICK command owed to one block reaches that block alone (R21, R22, R94, R105, R121, R137, R148, R158): every count or
timer it would not bring to 0 falls by one, every sample that would not be accepted is taken, and where it would bring a
count to 0 or change a line it is due and waits for that event's own command (log 3). The tick is one event at the output
unit (R121), so where it would bring one claim to 0 it is due there as a whole. -/
def Obligations.ATickReachesOneBlock : Prop :=
  ∀ (s : State) (pins : Half), s.runs → s.owedTicks.Nodup →
    let owing (p : TickPort) := s.owedTicks.filter (· ≠ p)
    (∀ b : Base, TickPort.watches b ∈ s.owedTicks → ∃ t, exec (.tick b (.only .watchTable) pins) s = .next t
        ∧ t = { s with evPins := pins, owedTicks := owing (.watches b), watches := t.watches
                       watchTicksDue := t.watchTicksDue }
        ∧ ∀ i, let w := s.watch i
            let counts := w.base = b ∧ (w.state = .running ∨ w.state = .overdue)
            t.watch i = (if counts ∧ 1 < w.count then { w with count := w.count - 1 } else w)
            ∧ t.watchTickDue i = (if counts ∧ w.count ≤ 1 then some b else s.watchTickDue i))
    ∧ (.lines ∈ s.owedTicks → ∃ t, exec (.tick .ms1 (.only .lines) pins) s = .next t
        ∧ t = { s with evPins := pins, owedTicks := owing .lines, lines := t.lines }
        ∧ ∀ l, let r := s.line l
            let v := pins.getLsbD l
            t.line l =
              (if v = r.accepted then { r with disagreement := 0, pinLevel := v }
               else if r.disagreement = r.filter then { r with dueSample := some v }
               else { r with disagreement := r.disagreement + 1, pinLevel := v }))
    ∧ (.outputs ∈ s.owedTicks → ∃ t, exec (.tick .ms1 (.only .outputs) pins) s = .next t
        ∧ t = { s with evPins := pins, owedTicks := owing .outputs, claims := t.claims, claimTickDue := t.claimTickDue }
        ∧ let runsOut := ∃ o c, ∃ k ≤ 1, claimOf (s.claimSet o) c = some (.timed k)
          (runsOut → t.claims = s.claims ∧ t.claimTickDue = true)
          ∧ (¬ runsOut → t.claimTickDue = s.claimTickDue
              ∧ ∀ o c, claimOf (t.claimSet o) c = (claimOf (s.claimSet o) c).map fun x =>
                  match x with
                  | .timed k => .timed (k - 1)
                  | .held => .held))
    ∧ (.ackTimers ∈ s.owedTicks → ∃ t, exec (.tick .ms1 (.only .ackTimers) pins) s = .next t
        ∧ t = { s with evPins := pins, owedTicks := owing .ackTimers, deliveries := t.deliveries }
        ∧ ∀ n, t.delivery n =
            { s.delivery n with inFlight := (s.delivery n).inFlight.map fun f =>
                match f.timer with
                | some k => if k ≤ 1 then { f with timerDue := true } else { f with timer := some (k - 1) }
                | none => f })
    ∧ (.inactivityTimers ∈ s.owedTicks → ∃ t, exec (.tick .ms1 (.only .inactivityTimers) pins) s = .next t
        ∧ t = { s with evPins := pins, owedTicks := owing .inactivityTimers, links := t.links }
        ∧ ∀ n, t.link n =
            match (s.link n).inactivity with
            | some k => if k ≤ 1 then { s.link n with inactivityDue := true }
                else { s.link n with inactivity := some (k - 1) }
            | none => s.link n)
    ∧ (.offerTimer ∈ s.owedTicks → exec (.tick .ms1 (.only .offerTimer) pins) s = .next
        { s with
          evPins := pins, owedTicks := owing .offerTimer
          authority :=
            match s.authority.mode with
            | .offering o k => if k ≤ 1 then { s.authority with offerDue := true }
                else { s.authority with mode := .offering o (k - 1) }
            | .free => s.authority
            | .held _ => s.authority })
    ∧ (.gapTimers ∈ s.owedTicks → ∃ t, exec (.tick .ms1 (.only .gapTimers) pins) s = .next t
        ∧ t = { s with evPins := pins, owedTicks := owing .gapTimers, receivers := t.receivers }
        ∧ ∀ n, t.receiver n =
            if (s.receiver n).collected = none then s.receiver n
            else if (s.receiver n).gap ≤ 1 then { s.receiver n with gapDue := true }
            else { s.receiver n with gap := (s.receiver n).gap - 1 })

/-- The uptime increases by one, wrapping after 4 294 967 295, when a tick of its next value is commanded; a tick of base P
falls where the uptime is a multiple of P, 0 by wrapping among them; one command may deliver a tick to every block at
once; and while RESET is held no tick occurs (R20, R21). Ticks still owed or due at the old uptime come first: the owed ones
are delivered, then each due one is taken as its own command takes it, watches, lines, outputs, ack timers, inactivity
timers, offer timer and gap timers, and none is left owed or due (log 3). A TICK of a base that does not fall there, or to
a block that does not count in it, changes nothing (log 9). -/
def Obligations.TheUptimeAndItsTicks : Prop :=
  (∀ (s : State) (b : Base) (r : TickReach) (pins : Half),
      (s.resetIsHeld = true → exec (.tick b r pins) s = .next s)
      ∧ (s.runs →
          (portsOf b r = [] → exec (.tick b r pins) s = .next s) ∧
          ((∃ p ∈ s.owedTicks, p ∈ portsOf b r) →
            exec (.tick b r pins) s = .next (deliverTicks (portsOf b r) (s.setPins pins)))
          ∧ ((∀ p ∈ s.owedTicks, p ∉ portsOf b r) →
              ((s.uptime + 1).toNat % period b = 0 → portsOf b r ≠ [] →
                let t := finishMillisecond s
                exec (.tick b r pins) s = .next (deliverTicks (portsOf b r)
                  { t with uptime := t.uptime + 1, owedTicks := portsAt (t.uptime + 1), evPins := pins }))
              ∧ ((s.uptime + 1).toNat % period b ≠ 0 → exec (.tick b r pins) s = .next s))))
  ∧ (∀ s : State, (finishMillisecond s).uptime = s.uptime
      ∧ (s.owedTicks = [] → s.noneDue → s.transit.authorityEnds = [] → finishMillisecond s = s)
      ∧ (s.resetIsHeld = false →
          let delivered := deliverTicks s.owedTicks s
          let watches := (List.finRange 32).foldl
            (fun t i => ((t.after (.watchExpiry i)).after (.graceRunsOut i)).setWatchTickDue i none) delivered
          let lines := (List.finRange 16).foldl (fun t l => t.after (.acceptedChange l)) watches
          let outputs := takeClaimTick (settleAuthority lines)
          let acks := (List.finRange 4).foldl
            (fun t n => ((t.delivery n).inFlight.map (·.number)).foldl
              (fun t k => t.after (.ackTimerRunsOut n k)) t) outputs
          let silences := (List.finRange 4).foldl (fun t n => t.after (.inactivityTimeout n)) acks
          let offers := silences.after .offerTimerRunsOut
          finishMillisecond s = (List.finRange 4).foldl (fun t n => t.after (.gapTimerExpiry n)) offers)
      ∧ ((∀ n, ((s.delivery n).inFlight.map (·.number)).Nodup
            ∧ ∀ f ∈ (s.delivery n).inFlight, f.timerDue = true → f.timer ≠ none) →
          (finishMillisecond s).owedTicks = [] ∧ (finishMillisecond s).noneDue
            ∧ (finishMillisecond s).transit.authorityEnds = []))
  ∧ (∀ (ports : List TickPort) (s : State), (deliverTicks ports s).uptime = s.uptime
      ∧ ((deliverTicks ports s).owedTicks = s.owedTicks.filter fun p => !ports.contains p)
      ∧ (s.owedTicks.Nodup → deliverTicks ports s = (s.owedTicks.filter ports.contains).foldl (fun t p => deliverTicks [p] t)
          { s with owedTicks := (s.owedTicks.filter fun p => !ports.contains p) ++ s.owedTicks.filter ports.contains }))
  ∧ (period .ms1 = 1 ∧ period .ms10 = 10 ∧ period .ms100 = 100 ∧ period .s1 = 1000)
  ∧ (∀ u : Uptime, (portsAt u).Nodup ∧ (∀ b, TickPort.watches b ∈ portsAt u ↔ u.toNat % period b = 0)
      ∧ ∀ p, (∀ b, p ≠ TickPort.watches b) → p ∈ portsAt u)
  ∧ portsOf .ms1 .allBlocks =
      [.watches .ms1, .lines, .outputs, .ackTimers, .inactivityTimers, .offerTimer, .gapTimers]
  ∧ ∀ b, b ≠ .ms1 → portsOf b .allBlocks = [.watches b]

/-- The tick due at a watch is taken. In RUNNING the count falls by one, and at 0 the watch expires: its strikes rise, and an
ACTIVITY watch falls QUIET with a QUIET notice, another enters stage 1, or goes to its last stage at the strike limit. In
OVERDUE at 0 the grace has run out: the next stage, or the ladder's end (R22, R23, R33, R35, R46, R47, R50). That the tick
waits as due is log 3; that either command changes nothing with no tick due, or in another state, is log 9. -/
def Obligations.WatchesRunOut : Prop :=
  ∀ (s : State) (i : WatchIx), s.runs →
    let w := s.watch i
    let t := s.setWatchTickDue i none
    let struck : Watch := { w with count := 0, strikes := min 255 (w.strikes + 1) }
    let outcome (c : Instr) (r : WatchStep) :=
      exec c s = .next (((t.setWatch i r.watch).sendOutput r.words).post r.notices)
    (s.watchTickDue i = some w.base →
      (w.state = .running →
        (1 < w.count → exec (.watchExpiry i) s = .next (t.setWatch i { w with count := w.count - 1 }))
        ∧ (w.count ≤ 1 → w.kind = .activity →
            outcome (.watchExpiry i) ⟨{ struck with state := .quiet, stage := 0 }, [],
              [⟨⟨.watch i, some w.generation, .quiet, none⟩, w.activityLevel, [], .pair w.primary w.fallback⟩]⟩)
        ∧ (w.count ≤ 1 → w.kind ≠ .activity → (w.strikeLimit = 0 ∨ struck.strikes < w.strikeLimit) →
            outcome (.watchExpiry i) (enterStage i struck 1 none))
        ∧ (w.count ≤ 1 → w.kind ≠ .activity → w.strikeLimit ≠ 0 → w.strikeLimit ≤ struck.strikes →
            outcome (.watchExpiry i) (strikeOut i struck)))
      ∧ (w.state = .overdue →
          (1 < w.count → exec (.graceRunsOut i) s = .next (t.setWatch i { w with count := w.count - 1 }))
          ∧ (w.count ≤ 1 → w.stage < w.ladder.length →
              outcome (.graceRunsOut i) (enterStage i { w with count := 0 } (w.stage + 1) none))
          ∧ (w.count ≤ 1 → w.ladder.length ≤ w.stage →
              outcome (.graceRunsOut i) ⟨{ w with state := .latched, count := 0 }, [],
                [⟨⟨.watch i, some w.generation, .latched, some w.stage⟩, w.topLevel, [0],
                  .pair w.primary w.fallback⟩]⟩)))
    ∧ (∀ b, s.watchTickDue i = some b → b ≠ w.base →
        (w.state = .running → exec (.watchExpiry i) s = .next t)
        ∧ (w.state = .overdue → exec (.graceRunsOut i) s = .next t))
    ∧ ((s.watchTickDue i = none ∨ w.state ≠ .running) → exec (.watchExpiry i) s = .next s)
    ∧ ((s.watchTickDue i = none ∨ w.state ≠ .overdue) → exec (.graceRunsOut i) s = .next s)

/-- Entering a stage: the state, stage and count, the claim of the stage's action, and the OVERDUE, SEQFAULT and LATCHED
notices with their levels, stages and details; the last stage at the strike limit; the level of a LATCHED notice is the
highest of the ladder (R43, R45, R48, R50, R56, R58). -/
def Obligations.StageEntryIsExplicit : Prop :=
  ∀ (i : WatchIx) (w : Watch),
    let notice (e : Event) (lv : Level) (k : Nat) (d : List Byte) : Creation :=
      ⟨⟨.watch i, some w.generation, e, some k⟩, lv, d, .pair w.primary w.fallback⟩
    (∀ (k : Nat) (fault : Option (Byte × Byte)),
      let r := w.stageRec k
      let first := match fault with
        | none => notice .overdue r.level k []
        | some (expected, received) => notice .seqfault r.level k [expected, received]
      ((r.action = .notify ∨ r.action = .pulse) → enterStage i w k fault =
        ⟨{ w with state := .overdue, stage := k, count := r.grace }, stageClaim i w.generation r, [first]⟩)
      ∧ ((r.action = .hold ∨ r.action = .safe) → enterStage i w k fault =
          ⟨{ w with state := .latched, stage := k, count := 0 }, stageClaim i w.generation r,
            [first, notice .latched w.topLevel k [1]]⟩))
    ∧ (∀ k, w.ladder.length = k → strikeOut i w =
        ⟨{ w with state := .latched, stage := k, count := 0 }, stageClaim i w.generation (w.stageRec k),
          [notice .latched w.topLevel k [2]]⟩)
    ∧ (∀ (g : Byte) (r : StageRec),
        (r.action = .notify → stageClaim i g r = [])
        ∧ (r.action = .pulse →
            stageClaim i g r = [.claim (.watch i) (crstOf r.target) (some r.duration) (some g)])
        ∧ (r.action = .hold → stageClaim i g r = [.claim (.watch i) (crstOf r.target) none (some g)])
        ∧ (r.action = .safe → stageClaim i g r = [.claim (.watch i) 4 none (some g)]))
    ∧ (∀ k r, 1 ≤ k → w.ladder[k - 1]? = some r → w.stageRec k = r)
    ∧ (∀ r ∈ w.ladder, r.level ≤ w.topLevel) ∧ (w.ladder ≠ [] → ∃ r ∈ w.ladder, r.level = w.topLevel)

/-! ### Event lines at work -/

/-- The sample due at a line is taken against the line as it is: showing the accepted level it clears the disagreement
count; short of the filter it adds to it; completing the filter it is accepted, and where the mode names the change the
trigger goes to the watches and, with notify on, either adds to the overrun or hands on a LINE notice (R105, R107, R109,
R110, Table 6-3). The outcome of an earlier notice of the line still on its way is taken first: its creations are taken
whole, oldest first, the others staying (log 1). That nothing happens where no sample is due is log 9. -/
def Obligations.DueSamplesAreTaken : Prop :=
  ∀ (s : State) (l : LineIx), s.runs →
    ((s.line l).dueSample = none → exec (.acceptedChange l) s = .next s)
    ∧ (∀ v, (s.line l).dueSample = some v →
        let r := s.line l
        let taken : LineRec := { r with accepted := v, disagreement := 0, pinLevel := v, dueSample := none }
        let named := (r.mode = .high ∧ v = true) ∨ (r.mode = .low ∧ v = false) ∨ (r.mode = .rising ∧ v = true)
          ∨ (r.mode = .falling ∧ v = false) ∨ r.mode = .both
        (v = r.accepted → exec (.acceptedChange l) s =
          .next (s.setLine l { r with disagreement := 0, pinLevel := v, dueSample := none }))
        ∧ (v ≠ r.accepted → r.disagreement ≠ r.filter → exec (.acceptedChange l) s =
            .next (s.setLine l { r with disagreement := r.disagreement + 1, pinLevel := v, dueSample := none }))
        ∧ (v ≠ r.accepted → r.disagreement = r.filter → ¬ named →
            exec (.acceptedChange l) s = .next (s.setLine l taken))
        ∧ (v ≠ r.accepted → r.disagreement = r.filter → named →
            let t := triggerWatches l (s.setLine l taken)
            let u := (t.transit.creations.filter fun c => c.key.source = .line l).foldl
              (fun v c => takeCreation c .whole v)
              (t.setTransit { t.transit with
                creations := t.transit.creations.filter fun c => c.key.source ≠ .line l })
            (r.notify = false → exec (.acceptedChange l) s = .next t)
            ∧ (r.notify = true → (u.line l).pending = true → exec (.acceptedChange l) s =
                .next (u.setLine l { u.line l with overrun := min 255 ((u.line l).overrun + 1) }))
            ∧ (r.notify = true → (u.line l).pending = false → exec (.acceptedChange l) s =
                .next (u.post [⟨⟨.line l, none, .line, none⟩, r.level, [flagByte v], .pair r.primary r.fallback⟩]))
            ∧ ((∀ c ∈ s.transit.creations, c.key.source ≠ .line l) → u = t ∧ t.line l = taken)))

/-- A trigger reaches every watch that lists its line, each on its own: a line completion at a DEADLINE watch, a line feed
at another, without a sequence check; it is ignored in STOPPED, PAUSED and LATCHED and where the line is not listed; the
recoveries, wakings and late completions create their notices, handed over as every notice is (R36, R37, R108, R44). -/
def Obligations.TriggersReachTheWatches : Prop :=
  ∀ (s : State) (l : LineIx),
    let t := triggerWatches l s
    let ended (w : Watch) := w.kind = .deadline ∧ (w.state = .running ∨ w.state = .overdue)
    let fed (w : Watch) := (w.kind ≠ .deadline ∧ w.state = .running) ∨ (w.kind = .heartbeat ∧ w.state = .overdue)
      ∨ (w.kind = .activity ∧ w.state = .quiet)
    let notice (i : WatchIx) (w : Watch) (e : Event) (lv : Level) : List Creation :=
      [⟨⟨.watch i, some w.generation, e, none⟩, lv, [], .pair w.primary w.fallback⟩]
    let told (i : WatchIx) (w : Watch) : List Creation :=
      if w.lineSet.getLsbD l = false then []
      else if w.kind = .deadline ∧ w.state = .overdue then notice i w .late (w.stageRec 1).level
      else if w.kind = .heartbeat ∧ w.state = .overdue then notice i w .recovered (w.stageRec 1).level
      else if w.kind = .activity ∧ w.state = .quiet then notice i w .active w.activityLevel
      else []
    (∀ i, let w := s.watch i
      t.watch i =
        if w.lineSet.getLsbD l = true ∧ ended w then { w with state := .stopped, count := 0, stage := 0 }
        else if w.lineSet.getLsbD l = true ∧ fed w then { w with state := .running, stage := 0, count := w.reload }
        else w)
    ∧ t = { s with
            watches := t.watches
            transit := { s.transit with
              creations := s.transit.creations
                ++ ((List.finRange 32).flatMap fun i => told i (s.watch i)).map (Creation.handed s) } }

/-- The line unit takes the oldest report that a line's notice has left the pool: pending becomes no and the overrun 0, and
after an acknowledgement an overrun of 1 or more goes out in a REPEAT notice (R111, R112, R110). The report waits in transit (log 1), and with none
waiting the command changes nothing (log 9). -/
def Obligations.LineReportsAreTaken : Prop :=
  ∀ (s : State) (l : LineIx), s.runs →
    ((∀ w ∈ s.transit.lineReports, w.1 ≠ l) → exec (.lineNoticeLeftPool l) s = .next s)
    ∧ ∀ (how : Departure) (pre post : List (LineIx × Departure)),
        s.transit.lineReports = pre ++ (l, how) :: post → (∀ w ∈ pre, w.1 ≠ l) →
        let r := s.line l
        let t := (s.setTransit { s.transit with lineReports := pre ++ post }).setLine l
          { r with pending := false, overrun := 0 }
        ((how ≠ .acknowledged ∨ r.overrun = 0) → exec (.lineNoticeLeftPool l) s = .next t)
        ∧ (how = .acknowledged → r.overrun ≠ 0 → exec (.lineNoticeLeftPool l) s =
            .next (t.post [⟨⟨.line l, none, .repeated, none⟩, r.level, [byteOf r.overrun],
              .pair r.primary r.fallback⟩]))

/-! ### The notice unit -/

/-- A notice by primary and fallback goes to the primary if it is UP, else to a fallback that is UP, with no onward link,
else it is unroutable and counted as a loss of the primary; one to a target goes there or is counted as its loss; a line
learns when its notice is created (R66, R67, R70, R77). A link whose session's end the notice unit has yet to take is
still UP there (R69), but not, until it opens again, to a watch's notice handed over after the watch's own claim had put
the link in HELD, for whatever reason the session had ended (R44); that is noted as the notice is handed over (log 1). -/
def Obligations.NoticesAreRouted : Prop :=
  (∀ (s : State) (c : Creation) (e : Extent) (pre post : List Creation), s.runs →
    s.transit.creations = pre ++ c :: post → (∀ d ∈ pre, d.channel ≠ c.channel) →
    let t := s.setTransit { s.transit with creations := pre ++ post }
    let up (reset : List (Link × Byte)) (n : Link) : Prop :=
      (s.link n).state = .up ∨ ((n, (s.link n).session) ∉ reset ∧ ∃ d ∈ s.transit.noticeEnds, d.link = n)
    let told (r : NoticeOutcome × State) : State :=
      match c.key.source with
      | .line l => if r.1 = .created then r.2.setLine l { r.2.line l with pending := true } else r.2
      | _ => r.2
    let becomes (u : State) := exec (.noticeCreation c.channel e) s = .next u
    becomes (takeCreation c e t)
    ∧ (∀ p f reset, ((c.route = .pair p f ∧ reset = []) ∨ c.route = .pairAfter p f reset) →
        (up reset p → becomes (told (place p f c t)))
        ∧ (∀ g, ¬ up reset p → f = some g → up reset g → becomes (told (place g none c t)))
        ∧ (¬ up reset p → (∀ g ∈ f, ¬ up reset g) → becomes (t.setLoss p (min 255 (s.loss p + 1)))))
    ∧ ∀ n, c.route = .target n →
        (up [] n → becomes (place n none c t).2)
        ∧ (¬ up [] n → becomes (t.setLoss n (min 255 (s.loss n + 1)))))
  ∧ (∀ (s : State) (cs : List Creation),
      s.post cs = s.setTransit { s.transit with creations := s.transit.creations ++ cs.map (Creation.handed s) })
  ∧ ∀ (s : State) (c : Creation),
      let resetBy (i : WatchIx) (g : Byte) : List (Link × Byte) :=
        (s.transit.noticeEnds.filter fun d => d.resetters.contains (i, g)).map fun d => (d.link, (s.link d.link).session)
      (∀ i g p f, c.key.source = .watch i → c.key.generation = some g → c.route = .pair p f → resetBy i g ≠ [] →
        c.handed s = { c with route := .pairAfter p f (resetBy i g) })
      ∧ ((∀ i g p f, c.key.source = .watch i → c.key.generation = some g → c.route = .pair p f → resetBy i g = []) →
          c.handed s = c)

/-- A broadcast makes one copy for each link that is UP when it is taken, in ascending order, less the excepted link; when
only one copy is taken at once, the others wait at the front of their channel (R68, R74). As each copy is taken, the links
not UP then are struck from those that wait, for good; one that has ended and opened again with no copy taken in between is
still among them (log 17). A link whose session's end the notice unit
has yet to take is still UP there (R69). -/
def Obligations.BroadcastsAreCopied : Prop :=
  ∀ (s : State) (c : Creation) (pre post : List Creation), s.runs →
    s.transit.creations = pre ++ c :: post → (∀ d ∈ pre, d.channel ≠ c.channel) →
    let t := s.setTransit { s.transit with creations := pre ++ post }
    let up (n : Link) : Bool := s.isUp n || s.transit.noticeEnds.any fun d => d.link = n
    let copy (u : State) (n : Link) : State := (place n none c u).2
    ∀ links : List Link,
      ((∃ except, c.route = .broadcast except
          ∧ links = (List.finRange 4).filter fun n => up n && decide (except ≠ some n))
        ∨ ∃ rest, c.route = .copies rest ∧ links = rest.filter up) →
      exec (.noticeCreation c.channel .whole) s = .next (links.foldl copy t)
      ∧ (links = [] → exec (.noticeCreation c.channel .oneCopy) s = .next t)
      ∧ (∀ n, links = [n] → exec (.noticeCreation c.channel .oneCopy) s = .next (copy t n))
      ∧ ∀ n m ms, links = n :: m :: ms → exec (.noticeCreation c.channel .oneCopy) s =
          .next ((copy t n).setTransit { (copy t n).transit with
            creations := { c with route := .copies (m :: ms) } :: (copy t n).transit.creations })

/-- A routed notice: it coalesces with a waiting one of its key; else it is created within the limits, at the tail of its
level; else it is created in place of the lowest and latest-joined unsent record of a lower level, which is lost; else it
is dropped and counted (R64, R65, R71 to R73, R75, R76). The marks created, latest and joined and the counter they are
drawn from are the model's account of order (log 4). -/
def Obligations.PlacesInThePool : Prop :=
  ∀ (n : Link) (onward : Option Link) (c : Creation) (s : State),
    let mine := s.queue n
    let fresh : Notice := ⟨c.key, c.level, c.detail, onward, 1, s.uptime, none, s.stamp, s.stamp, s.stamp⟩
    let fits := if c.level = 3 then s.poolInUse < 64 else s.poolInUse < 56
    let joins (q : List Notice) (r : Notice) :=
      q.filter (fun x => decide (r.level ≤ x.level)) ++ r :: q.filter (fun x => decide (x.level < r.level))
    s.queueLaw →
    (∀ before w after, mine = before ++ w :: after → w.key = c.key →
      let w' : Notice :=
        { w with repeats := min 255 (w.repeats + 1), detail := c.detail, level := max w.level c.level, latest := s.stamp }
      place n onward c s = (.coalesced,
        { s.setQueue n (if w.level < c.level then joins (before ++ after) w' else before ++ w' :: after) with
          stamp := s.stamp + 1 }))
    ∧ ((∀ r ∈ mine, r.key ≠ c.key) →
        (fits → place n onward c s = (.created, { s.setQueue n (joins mine fresh) with stamp := s.stamp + 1 }))
        ∧ (¬ fits → (∀ m, ∀ r ∈ s.queue m, c.level ≤ r.level) →
            place n onward c s = (.dropped, s.setLoss n (min 255 (s.loss n + 1))))
        ∧ (¬ fits → (∃ m, ∃ r ∈ s.queue m, r.level < c.level) →
            ∃ m, ∃ r ∈ s.queue m, r.level < c.level
              ∧ (∀ k, ∀ x ∈ s.queue k, r.level ≤ x.level ∧ (x.level = r.level → x.joined ≤ r.joined))
              ∧ let gone := ((s.setQueue m ((s.queue m).erase r)).setLoss m
                    (min 255 (s.loss m + 1))).reportDeparture r .evicted
                place n onward c s =
                  (.created, { gone.setQueue n (joins (gone.queue n) fresh) with stamp := s.stamp + 1 })))

/-- The notice unit takes a session end: first the records handed back, then the unsent ones from head to tail, each moved
to its onward link's queue if that link is another and UP, or merged with the record of its key waiting there, or
discarded and counted, each finding what the ones before it left; then, unless the reason is CLOSED, LINKLOST goes to the
other links that are UP; no record of the link is left (R78, R81 to R83, R159). An onward link whose own end is still on
its way is UP here (R80). The marks created, latest and joined are the model's account of order (log 4); LINKLOST may
overtake copies of an earlier one (log 16); with no end on its way nothing changes (log 9). -/
def Obligations.SessionEndsReachTheNotices : Prop :=
  (∀ (s : State) (e : NoticeEnd) (x : Extent) (pre post : List NoticeEnd),
      s.transit.noticeEnds = pre ++ e :: post → (∀ d ∈ pre, d.link ≠ e.link) →
      let t := s.setTransit { s.transit with noticeEnds := pre ++ post }
      let dealt := (e.handed ++ s.queue e.link).foldl (dealWith e.link) (t.setQueue e.link [])
      let lost : Creation :=
        ⟨⟨.link e.link, none, .linklost, none⟩, 2, [byteOf e.link, e.client, e.reason.code], .broadcast (some e.link)⟩
      let becomes (u : State) : Prop :=
        noticeShare e.link x s = u ∧ (s.runs → exec (.noticeUnitSessionEnd e.link x) s = .next u)
      (e.reason = .closed → becomes dealt)
      ∧ (e.reason ≠ .closed → becomes (takeCreation lost x dealt))
      ∧ dealt.queue e.link = [] ∧ (takeCreation lost .whole dealt).queue e.link = [])
  ∧ (∀ (s : State) (n : Link) (r : Notice),
      let up (m : Link) : Prop := (s.link m).state = .up ∨ ∃ d ∈ s.transit.noticeEnds, d.link = m
      let lost := (s.setLoss n (min 255 (s.loss n + 1))).reportDeparture r .discarded
      ((∀ m ∈ r.onward, m = n ∨ ¬ up m) → dealWith n s r = lost)
      ∧ ∀ m, r.onward = some m → m ≠ n → up m →
          ((∀ w ∈ s.queue m, w.key ≠ r.key) → dealWith n s r =
            { s.setQueue m (enqueue { r with onward := none, origin := some n, joined := s.stamp } (s.queue m)) with
              stamp := s.stamp + 1 })
          ∧ ∀ before w after, s.queue m = before ++ w :: after → w.key = r.key → (∀ x ∈ before, x.key ≠ r.key) →
              let w' : Notice :=
                { w with
                  repeats := min 255 (w.repeats + r.repeats)
                  timestamp := if r.created < w.created then r.timestamp else w.timestamp
                  detail := if w.latest < r.latest then r.detail else w.detail
                  level := max w.level r.level, origin := some n
                  created := min w.created r.created, latest := max w.latest r.latest }
              dealWith n s r = s.setQueue m
                (if w.level < r.level then enqueue w' (before ++ after) else before ++ w' :: after))
  ∧ ∀ (s : State) (n : Link) (x : Extent), (∀ d ∈ s.transit.noticeEnds, d.link ≠ n) →
      noticeShare n x s = s ∧ (s.runs → exec (.noticeUnitSessionEnd n x) s = .next s)

/-- The authority unit takes a session end: the holder's or the offered link's passes the authority to the head of the claim
list or leaves it FREE, with an AUTHCHANGE the ended link gets no copy of; a waiting link leaves the list; in FREE, or
with no end on its way, nothing changes (R140, R137, Table 8-2). The three notices are those of R142. The end changes the
authority at once (R132, R133): every command but AUTHORITY_SESSION_END, which takes one by itself, first takes the ends
that wait. That the ended link gets no copy even once it has opened again is log 12; that a command with no end on its
way changes nothing is log 9; the wait and its bound are log 1. -/
def Obligations.SessionEndsReachTheAuthority : Prop :=
  (∀ (s : State) (n : Link) (pre post : List Link), s.transit.authorityEnds = pre ++ n :: post → n ∉ pre →
      let t := s.setTransit { s.transit with authorityEnds := pre ++ post }
      let mine := s.authority.mode.holder = some n ∨ s.authority.mode.offered = some n
      let becomes (u : State) : Prop :=
        authorityShare n s = u ∧ (s.resetIsHeld = false → exec (.authoritySessionEnd n) s = .next u)
      (mine → s.authority.claimList = [] →
        becomes ((t.setAuthority { s.authority with mode := .free }).post [authChange none (some n)]))
      ∧ (∀ m ms, mine → s.authority.claimList = m :: ms →
          becomes ((t.setAuthority { s.authority with mode := .offering m 3000, claimList := ms }).post [authOffer m]))
      ∧ (¬ mine → s.authority.mode ≠ .free →
          becomes (t.setAuthority { s.authority with claimList := s.authority.claimList.filter (· ≠ n) }))
      ∧ (s.authority.mode = .free → becomes t))
  ∧ (∀ (s : State) (n : Link), n ∉ s.transit.authorityEnds →
      authorityShare n s = s ∧ exec (.authoritySessionEnd n) s = .next s)
  ∧ (∀ (c : Instr) (s : State), s.resetIsHeld = false → (∀ n, c ≠ .authoritySessionEnd n) →
      exec c s = exec c (settleAuthority s))
  ∧ (∀ s : State, (settleAuthority s).transit.authorityEnds = []
      ∧ (s.transit.authorityEnds = [] → settleAuthority s = s)
      ∧ ∀ n rest, s.transit.authorityEnds = n :: rest → settleAuthority s = settleAuthority (authorityShare n s))
  ∧ (∀ (holder except : Option Link), authChange holder except =
      ⟨⟨.authority, none, .authchange, none⟩, 1, [linkOrNone holder], .broadcast except⟩)
  ∧ (∀ n h : Link, authWanted n h = ⟨⟨.authority, none, .authwanted, none⟩, 1, [byteOf n], .target h⟩)
  ∧ ∀ n : Link, authOffer n = ⟨⟨.authority, none, .authoffer, none⟩, 2, [], .target n⟩

/-! ### Ends of sessions and client resets -/

/-- The end of a session: the link is not UP, its inactivity timer is stopped and a pending CLOSE or RESTART withdrawn, its
ack timers and resend list go, its in-flight records are handed to the notice unit and the end to the notice unit and the
authority unit; nothing else changes, and a link that is not UP has no session to end (R102, R144, R156, R159). The
inactivity timer's last tick ends the session with SILENCE; an ack timer's puts the record on the resend list, or at
attempt 3 ends the session with NO-ACK (R97, R98, R158). That a command with no tick due changes nothing is log 9. -/
def Obligations.TimersEndSessions : Prop :=
  (∀ (s : State) (n : Link) (why : EndReason),
      let l := s.link n
      let d := s.delivery n
      (l.state ≠ .up → endSession n why s = s)
      ∧ (l.state = .up → endSession n why s =
          let t := ((s.setLink n
            { l with
              state := .silent, inactivity := none, closing := .nothing
              replies := l.replies.map fun r => { r with closing := .nothing } }).setTransmitter n
            ((s.transmitter n).map fun f => { f with carried := f.carried.plain })).setDelivery n
            { d with inFlight := [], resend := [] }
          t.setTransit { s.transit with
            noticeEnds := s.transit.noticeEnds ++ [⟨n, why, l.client, d.inFlight.map (·.notice), []⟩]
            authorityEnds := s.transit.authorityEnds ++ [n] })
      ∧ (∀ c, (Carried.reply c).plain = .reply .nothing) ∧ ∀ k, (Carried.notice k).plain = .notice k)
  ∧ (∀ (s : State) (n : Link), s.runs →
      let l := s.link n
      (l.inactivityDue = false → exec (.inactivityTimeout n) s = .next s)
      ∧ (l.inactivityDue = true →
          (∀ k, l.inactivity = some k → 1 < k → exec (.inactivityTimeout n) s =
            .next (s.setLink n { l with inactivity := some (k - 1), inactivityDue := false }))
          ∧ (∀ k, l.inactivity = some k → k ≤ 1 → exec (.inactivityTimeout n) s =
              .next (endSession n .silence (s.setLink n { l with inactivityDue := false })))
          ∧ (l.inactivity = none → exec (.inactivityTimeout n) s =
              .next (s.setLink n { l with inactivityDue := false }))))
  ∧ ∀ (s : State) (n : Link) (number : Byte), s.runs →
      let d := s.delivery n
      let revised (g : InFlight → InFlight) : List InFlight :=
        d.inFlight.map fun f => if f.number = number then g f else f
      let stopped := revised fun f => { f with timer := none, timerDue := false }
      (∀ f ∈ d.inFlight, f.number = number → (d.inFlight.map (·.number)).Nodup →
        ((f.timer = none ∨ f.timerDue = false) → exec (.ackTimerRunsOut n number) s = .next s)
        ∧ ∀ k, f.timer = some k → f.timerDue = true →
            (1 < k → exec (.ackTimerRunsOut n number) s = .next (s.setDelivery n
              { d with inFlight := revised fun f => { f with timer := some (k - 1), timerDue := false } }))
            ∧ (k ≤ 1 → f.attempt < 3 → exec (.ackTimerRunsOut n number) s =
                .next (s.setDelivery n { d with inFlight := stopped, resend := d.resend ++ [number] }))
            ∧ (k ≤ 1 → 3 ≤ f.attempt → exec (.ackTimerRunsOut n number) s =
                .next (endSession n .noAck (s.setDelivery n { d with inFlight := stopped }))))
      ∧ ((∀ f ∈ d.inFlight, f.number ≠ number) → exec (.ackTimerRunsOut n number) s = .next s)

/-- The link unit takes the word that CRSTn is asserted: an UP session ends with reason RESET-ISSUED, and the link is HELD
with its reply queue emptied and its receiver hunting; the word that it is released takes HELD to SILENT (R127, R150,
R153). The watch whose claim did it is noted at the link's session end that waits, for R44 (log 1). The words of one link are taken in the order they were handed over (log 1); a command for which none, or the other
one, comes first changes nothing (log 9). -/
def Obligations.ClientResetsMoveTheLink : Prop :=
  ∀ (s : State) (n : Link), s.runs →
    (∀ (change : CrstChange) (pre post : List (Link × CrstChange)), s.transit.crstWords = pre ++ (n, change) :: post →
      (∀ w ∈ pre, w.1 ≠ n) →
      let t := s.setTransit { s.transit with crstWords := pre ++ post }
      let u := endSession n .resetIssued t
      (∀ resetter, change = .asserted resetter →
        let noted := u.setTransit { u.transit with
          noticeEnds := u.transit.noticeEnds.map fun e =>
            if e.link = n then { e with resetters := e.resetters ++ resetter.toList } else e }
        exec (.crstAsserted n) s =
          .next ((noted.setLink n { u.link n with state := .held, replies := [] }).setReceiver n .hunting)
        ∧ exec (.crstReleased n) s = .next s)
      ∧ (change = .released →
          exec (.crstAsserted n) s = .next s
          ∧ ((s.link n).state = .held → exec (.crstReleased n) s =
              .next ((t.setLink n { s.link n with state := .silent }).setReceiver n .hunting))
          ∧ ((s.link n).state ≠ .held → exec (.crstReleased n) s = .next t)))
    ∧ ((∀ w ∈ s.transit.crstWords, w.1 ≠ n) →
        exec (.crstAsserted n) s = .next s ∧ exec (.crstReleased n) s = .next s)

/-! ### Outputs at work -/

/-- The output unit takes a claim: none standing, it is added; a timed one is replaced; a held one stands, whatever comes;
an output whose set was empty is asserted, with an OUTPUT notice of level 3 for SAFE and 2 for CRSTn and, for CRSTn, word
to its link. The tick due at the output unit is one event: it takes one millisecond from every timed claim and removes those
it brings to 0; CLEAR's order removes every claim of its index from the five outputs, and no other claim; outputs whose sets
become empty are released, in ascending order (R118 to R122, R126, R129, Table 7-3). That the tick waits as due, and the
order in which one tick releases outputs, is log 3; that the word to a link names whose claim asserts it is log 1. A command
for which no word or due tick waits, or whose claim the tick does not remove, changes nothing (log 9). -/
def Obligations.ClaimsComeAndGo : Prop :=
  ((∀ (s : State) (c : Claimant) (o : OutputIx) (d : Option Nat) (g : Option Byte) (pre post : List OutputWord), s.runs →
       s.transit.outputWords = pre ++ .claim c o d g :: post → (∀ w ∈ pre, w.claimant ≠ c) →
       let t := s.setTransit { s.transit with outputWords := pre ++ post }
       let stands (new : Claim) (u : State) := u = t.setClaimSet o (put (s.claimSet o) (slotOf c) (some new))
       ∃ new u, stands new u
         ∧ takeClaim c o d g t = (if s.asserted o then u else announce o (.asserted
             (match c with
              | .watch i => g.map fun g => (i, g)
              | .manual => none)) u)
         ∧ exec (.takingAClaim c) s = .next (takeClaim c o d g t)
         ∧ (claimOf (s.claimSet o) c = some .held → new = .held)
         ∧ (d = none → new = .held)
         ∧ ∀ k, d = some k → claimOf (s.claimSet o) c ≠ some .held → new = .timed k)
   ∧ (∀ (s : State) (c : Claimant), s.runs → (∀ w ∈ s.transit.outputWords, w.claimant ≠ c) →
       exec (.takingAClaim c) s = .next s)
   ∧ (∀ (s : State) (o : OutputIx), s.asserted o = true ↔ ∃ c : Claimant, claimOf (s.claimSet o) c ≠ none)
   ∧ ∀ (s : State) (change : CrstChange) (v : Bool),
       (match change with
        | .asserted _ => v = true
        | .released => v = false) →
       announce 4 change s = s.post [⟨⟨.output 4, none, .output, none⟩, 3, [flagByte v], .broadcast none⟩]
       ∧ ∀ n : Link, announce (crstOf n) change s =
           let t := s.post [⟨⟨.output (crstOf n), none, .output, none⟩, 2, [flagByte v], .broadcast none⟩]
           t.setTransit { t.transit with crstWords := s.transit.crstWords ++ [(n, change)] })
  ∧ (∀ s : State,
       (s.claimTickDue = false → takeClaimTick s = s)
       ∧ (s.claimTickDue = true →
           let u := takeClaimTick s
           (∀ (o : OutputIx) (c : Claimant), claimOf (u.claimSet o) c =
             match claimOf (s.claimSet o) c with
             | some (.timed k) => if k ≤ 1 then none else some (.timed (k - 1))
             | some .held => some .held
             | none => none)
           ∧ u = (List.finRange 5).foldl
               (fun v o => if s.asserted o && !u.asserted o then announce o .released v else v)
               { s with claims := u.claims, claimTickDue := false }))
  ∧ (∀ s : State, s.runs →
       (∀ (o : OutputIx) (c : Claimant),
         ((s.claimTickDue = false ∨ ∀ k ≤ 1, claimOf (s.claimSet o) c ≠ some (.timed k)) →
           exec (.claimExpiry o c) s = .next s)
         ∧ ∀ k ≤ 1, claimOf (s.claimSet o) c = some (.timed k) → s.claimTickDue = true →
             exec (.claimExpiry o c) s = .next (takeClaimTick s))
       ∧ (∀ (i : WatchIx) (pre post : List OutputWord), s.transit.outputWords = pre ++ .removeAll i :: post →
           (∀ w ∈ pre, w.claimant ≠ .watch i) →
           let t := s.setTransit { s.transit with outputWords := pre ++ post }
           let left (o : OutputIx) := put (s.claimSet o) (slotOf (.watch i)) none
           ∃ u : State, exec (.clearClaimsRemoval i) s = .next u ∧ (∀ o, u.claimSet o = left o)
             ∧ u = (List.finRange 5).foldl
                 (fun v o => if s.asserted o && !ClaimSet.nonEmpty (left o) then announce o .released v else v)
                 { t with claims := u.claims })
       ∧ ∀ i : WatchIx, (∀ w ∈ s.transit.outputWords, w.claimant ≠ .watch i) →
           exec (.clearClaimsRemoval i) s = .next s)

/-! ### Transmitters -/

/-- An idle transmitter takes the oldest reply, with the discarded-requests count, which becomes 0; else, on an UP link, the
first record on the resend list, its attempt one higher; else, within the window, the head of the queue if it is at or
above the floor: a first send, with a number no record in flight carries, the loss count and attempt 1; a busy one, or one
with nothing to take, takes nothing (R88, R90 to R93, R97, R99, R153, R164, R168). ATTNn is asserted while link n is UP
and has a record in flight or one waiting at or above the floor (R101). -/
def Obligations.TransmittersTakeTheNextFrame : Prop :=
  ∀ (s : State) (n : Link), s.runs →
    let d := s.delivery n
    (s.attention n = true ↔
      (s.link n).state = .up ∧ (d.inFlight ≠ [] ∨ ∃ r ∈ s.queue n, d.floor ≤ r.level)) ∧
    let sends (t : State) (bytes : List Byte) (carried : Carried) :=
      exec (.transmitterTakesFrame n) s = .next (t.setTransmitter n (some ⟨bytes, carried⟩))
    let idles := exec (.transmitterTakesFrame n) s = .next s
    (s.transmitter n ≠ none → idles)
    ∧ (s.transmitter n = none →
        (∀ r rest, (s.link n).replies = r :: rest →
          sends (s.setLink n { s.link n with replies := rest, discarded := 0 })
            (frameBytes 0x80 r.tag (r.result.code :: byteOf (s.link n).discarded :: r.items)) (.reply r.closing))
        ∧ ((s.link n).replies = [] → (s.link n).state ≠ .up → idles)
        ∧ ((s.link n).replies = [] → (s.link n).state = .up →
            (∀ k rest, ∀ f ∈ d.inFlight, d.resend = k :: rest → f.number = k → (d.inFlight.map (·.number)).Nodup →
              let again : InFlight := { f with attempt := f.attempt + 1 }
              sends (s.setDelivery n
                  { d with
                    inFlight := d.inFlight.map fun g => if g.number = k then { g with attempt := g.attempt + 1 } else g
                    resend := rest })
                (frameBytes 0x81 k (noticePayload again)) (.notice k))
            ∧ (d.resend = [] →
                (d.window ≤ d.inFlight.length → idles) ∧ (s.queue n = [] → idles)
                ∧ ∀ r rest, s.queue n = r :: rest →
                    (r.level < d.floor → idles)
                    ∧ (d.floor ≤ r.level → d.inFlight.length < d.window → d.inFlight.length ≤ 3 →
                        ∃ k : Byte, (∀ f ∈ d.inFlight, f.number ≠ k)
                          ∧ (∃ skipped ≤ 3, k = d.nextNumber + BitVec.ofNat 8 skipped
                              ∧ ∀ j < skipped, ∃ f ∈ d.inFlight, f.number = d.nextNumber + BitVec.ofNat 8 j)
                          ∧ let f : InFlight := ⟨r, 1, k, s.loss n, none, false⟩
                            sends (((s.setQueue n rest).setLoss n 0).setDelivery n
                                { d with inFlight := d.inFlight ++ [f], nextNumber := k + 1 })
                              (frameBytes 0x81 k (noticePayload f)) (.notice k)))))

/-- The last byte of a frame has been sent: a NOTICE starts the ack timer of its record, if it is still in flight, at the
timeout times 10 ms; the reply of a pending CLOSE ends the session with reason CLOSED; any other reply ends nothing (R94,
R102, R144, R156). On an idle transmitter the command only tells how the pins stand (log 9). -/
def Obligations.LastBytes : Prop :=
  ∀ (s : State) (n : Link) (pins : Half), s.runs →
    let t := (s.setPins pins).setTransmitter n none
    let d := s.delivery n
    let becomes (u : State) := exec (.lastByteSent n pins) s = .next u
    (s.transmitter n = none → becomes (s.setPins pins))
    ∧ (∀ bytes k, s.transmitter n = some ⟨bytes, .notice k⟩ →
        becomes (t.setDelivery n
          { d with inFlight := d.inFlight.map fun f =>
              if f.number = k then { f with timer := some (d.ackTimeout * 10), timerDue := false } else f }))
    ∧ (∀ bytes, s.transmitter n = some ⟨bytes, .reply .nothing⟩ → becomes t)
    ∧ (∀ bytes, s.transmitter n = some ⟨bytes, .reply .close⟩ →
        ((s.link n).closing = .close → becomes (endSession n .closed t))
        ∧ ((s.link n).closing ≠ .close → becomes t))
    ∧ ∀ bytes, s.transmitter n = some ⟨bytes, .reply .restart⟩ → (s.link n).closing ≠ .restart → becomes t

/-! ### Resets -/

/-- The last byte of the reply to a pending RESTART performs the command restart, at every block at once: frozen watches and
their claims, taken or on their way, stay as they are, every other entry is FREE with its generation and every other claim
gone; lines keep their configuration and start again from the pins; the pool, the loss counts, the delivery units, the
authority and the sessions are as after a reset, a link HELD while its CRST output keeps a claim; the uptime, the session
numbers, the client ids and the frames of other links go on (R19, R85, R87, R103, R117, R130, R145, R153, R161). What the
blocks had handed one another is dropped (log 7). -/
def Obligations.TheCommandRestart : Prop :=
  ∀ (s : State) (n : Link) (pins : Half) (bytes : List Byte), s.runs →
    s.transmitter n = some ⟨bytes, .reply .restart⟩ → (s.link n).closing = .restart →
    ∃ t : State, exec (.lastByteSent n pins) s = .next t
      ∧ (∀ i, t.watch i =
          if (s.watch i).frozen then s.watch i else Watch.free (s.watch i).generation)
      ∧ (∀ l, t.line l =
          { s.line l with
            accepted := pins.getLsbD l, pinLevel := pins.getLsbD l, disagreement := 0, pending := false, overrun := 0
            dueSample := none })
      ∧ (∀ o i, claimOf (t.claimSet o) (.watch i) =
          if (s.watch i).frozen then claimOf (s.claimSet o) (.watch i) else none)
      ∧ (∀ o, claimOf (t.claimSet o) .manual = none)
      ∧ t.authority = ⟨.free, [], false⟩
      ∧ (∀ m, t.link m =
          { s.link m with
            state := if t.asserted (crstOf m) then .held else .silent
            inactivity := none, inactivityDue := false, closing := .nothing, replies := [], discarded := 0
            framingErrors := 0, checkErrors := 0 })
      ∧ (∀ m, t.receiver m = .hunting ∧ t.delivery m = .atReset ∧ t.queue m = [] ∧ t.loss m = 0)
      ∧ t.transmitter n = none
      ∧ (∀ m, m ≠ n → t.transmitter m =
          (s.transmitter m).map fun f => { f with carried :=
            match f.carried with
            | .reply _ => .reply .nothing
            | .notice k => .notice k })
      ∧ t.transit = { Transit.empty with
          outputWords := s.transit.outputWords.filter fun w =>
            match w.claimant with
            | .watch i => (s.watch i).frozen
            | .manual => false }
      ∧ t.resetCause = .restart
      ∧ t = { s with
              resetCause := t.resetCause, evPins := pins, watches := t.watches, lines := t.lines, claims := t.claims
              authority := t.authority, links := t.links, receivers := t.receivers, transmitters := t.transmitters
              deliveries := t.deliveries, queues := t.queues, losses := t.losses, transit := t.transit }

/-- A power-on reset and a held RESET put every block at its reset values, with reset cause POWER or PIN; while RESET is held
no request, byte, tick or word is taken; at the end the pins become the accepted levels and the straps set the rate (R18,
R20, R86, R87, R103, R106, R131, R132, R146, R160). The command queue and the counter of the free value are not the part's
(log 5, log 8). A release while RESET is not held changes nothing (log 9). The accepted and sampled levels stand at 0 while
RESET is held (log 2). -/
def Obligations.ResetsStartAfresh : Prop :=
  (∀ (s : State) (pins : Half) (straps : Straps),
      let started (cause : ResetCause) (held : Bool) (l : Vector LineRec 16) (r : Rate) (p : Half) : State :=
        { State.reset with
          pending := s.pending, choices := s.choices, resetCause := cause, resetIsHeld := held, lines := l, rate := r
          evPins := p }
      let sampled : Vector LineRec 16 := Vector.ofFn fun l => LineRec.atReset (pins.getLsbD l)
      let chosen : Rate :=
        if straps = 0 then .baud57600 else if straps = 1 then .baud115200 else if straps = 2 then .baud460800
        else .baud921600
      exec (.powerOnReset pins straps) s = .next (started .power s.resetIsHeld sampled chosen pins)
      ∧ exec .resetHeld s = .next (started .pin true (Vector.replicate 16 (LineRec.atReset false)) s.rate s.evPins)
      ∧ (s.resetIsHeld = true → exec (.resetReleased pins straps) s =
          .next { s with
            resetIsHeld := false, resetCause := .pin, evPins := pins, rate := chosen
            lines := Vector.ofFn fun l =>
              { s.line l with
                accepted := pins.getLsbD l, pinLevel := pins.getLsbD l, disagreement := 0, pending := false
                overrun := 0, dueSample := none } })
      ∧ (s.runs → exec (.resetReleased pins straps) s = .next s))
  ∧ ∀ (s : State) (c : Instr), s.resetIsHeld = true → c.resets = false →
      (∀ pins straps, c ≠ .resetReleased pins straps) → exec c s = .next s

/-- Right after a reset every law of the part holds and no tick is due; every watch is FREE with generation 0, every link
SILENT, the authority FREE, every output released, and pool, queues and counts are empty (R18, R20, R71, R87, R106, R118,
R131, R132, R160). The pins and straps stand at 0 there (log 2). -/
def Obligations.TheResetStateIsLawful : Prop :=
  State.reset.lawful ∧ State.reset.noneDue ∧ State.reset.pending = [] ∧ State.reset.uptime = 0
    ∧ (∀ i, State.reset.watch i =
        ⟨.free, 0, .heartbeat, 0, .ms1, 0, 0, false, none, 0, 0, 0, 0, none, 0, [], 0, false⟩)
    ∧ (∀ l, State.reset.line l = ⟨.off, 0, false, 0, 0, none, false, 0, false, 0, false, none⟩)
    ∧ (∀ n, State.reset.link n = ⟨.silent, 0, 0, 0, none, false, .nothing, [], 0, 0, 0⟩
        ∧ State.reset.delivery n = ⟨0, 1, 1, 0, [], [], 0⟩ ∧ State.reset.queue n = [] ∧ State.reset.loss n = 0
        ∧ State.reset.receiver n = ⟨none, 0, false⟩ ∧ State.reset.transmitter n = none
        ∧ State.reset.attention n = false)
    ∧ State.reset.authority = ⟨.free, [], false⟩ ∧ (∀ o, State.reset.asserted o = false)
    ∧ State.reset.poolInUse = 0 ∧ State.reset.resetCause = .power

/-! ### What every step keeps -/

/-- Every watch entry keeps its laws: what its kind and its FREE state fix, its ladder, its stage between 1 and the ladder
length exactly in OVERDUE and LATCHED, its count between 1 and the value last loaded where it counts and 0 elsewhere, and
LATCHED once its strikes have reached its limit (R1, R2, R4, R22, R35, R42, R46, R50). -/
def Obligations.WatchesStayLawful : Prop :=
  ∀ s t : State, s.watchesLawful → step s = .next t → t.watchesLawful

/-- A frozen watch stays frozen, is never FREE, and keeps its generation and everything DEFINE gave it, through every step
that is not a power-on or pin reset (R17, R19). -/
def Obligations.FrozenWatchesStayAsTheyAre : Prop :=
  ∀ s t : State, s.watchesLawful → step s = .next t → (∀ c ∈ s.pending.head?, c.resets = false) →
    ∀ i, (s.watch i).frozen = true →
      (t.watch i).frozen = true ∧ (t.watch i).state ≠ .free ∧ (t.watch i).generation = (s.watch i).generation
        ∧ (s.watch i).sameConfiguration (t.watch i)

/-- Resets apart, only a TICK moves the uptime, by one at most; only a DEFINE, or a byte that completes one, moves a
generation, by one, or writes the configuration of an entry that is not freed; and a step takes one command from the
queue (R1, R3, R20). -/
def Obligations.OnlyTicksAndDefines : Prop :=
  ∀ (s t : State) (c : Instr) (rest : List Instr), s.pending = c :: rest → step s = .next t →
    t.pending = rest
    ∧ (c.resets = false →
        (t.uptime = s.uptime ∨ (c.isTick = true ∧ t.uptime = s.uptime + 1))
        ∧ ∀ i, ((t.watch i).generation = (s.watch i).generation
              ∧ ((t.watch i).state = .free ∨ (s.watch i).sameConfiguration (t.watch i)))
            ∨ (c.mayDefine = true ∧ (t.watch i).generation = (s.watch i).generation + 1))

/-- The pool never holds more than 64 records, nor more than 56 of levels 0 to 2 (R71). -/
def Obligations.ThePoolIsBounded : Prop :=
  ∀ s t : State, s.poolLaw → step s = .next t → t.poolLaw

/-- Every queue stands by level, highest first, with no two notices of one match key, and a link that is not UP has an empty
queue once its session's end has been taken (R66 to R69, R75, R76, R78). -/
def Obligations.QueuesStayInOrder : Prop :=
  ∀ s t : State, s.queueLaw ∧ s.silentQueueLaw → step s = .next t → t.queueLaw ∧ t.silentQueueLaw

/-- The records in flight on a link number at most its window, carry distinct numbers, are sent at most three times, and are
gone when it is not UP; the resend list and the ack timers agree with them (R90, R91, R94, R97, R98, R102). -/
def Obligations.FlightsStayInTheWindow : Prop :=
  ∀ s t : State, s.windowLaw ∧ s.resendLaw → step s = .next t → t.windowLaw ∧ t.resendLaw

/-- A line's pending flag is set exactly when a LINE or REPEAT notice of it exists in the pool, or the report that it has left
has yet to be taken; it has one such notice at most (R109 to R112; log 1). -/
def Obligations.PendingMeansANotice : Prop :=
  ∀ s t : State, s.lineLaw ∧ s.windowLaw ∧ s.resendLaw → step s = .next t → t.lineLaw

/-- Link n is HELD exactly when CRSTn is asserted, but for the words about CRSTn its link unit has yet to take (R118, R119,
R127; log 1). -/
def Obligations.HeldMeansClientReset : Prop :=
  ∀ s t : State, s.crstLaw → step s = .next t → t.crstLaw

/-- At most one link holds the authority or is offered it; it and the links of the claim list are UP, or their sessions' ends
have yet to reach the authority unit (log 1); none waits twice, nor while it holds or is offered it; FREE has an empty
list; the offer timer runs from 3000 to 1; at most one end waits, and once it is taken, as every command takes it first,
the holder, the offered link and the claim list are UP without exception (R132, R133, R137, R140). -/
def Obligations.TheAuthorityIsWellHeld : Prop :=
  ∀ s t : State, s.authorityLaw ∧ s.endsLaw → step s = .next t →
    t.authorityLaw ∧ t.endsLaw ∧ (settleAuthority t).authorityLaw ∧ (settleAuthority t).authorityUp

/-- Links, receivers and counts keep their bounds: at most four replies, an inactivity timer only while UP with nothing
pending, a CLOSE or RESTART pending exactly while its reply waits, a deaf receiver hunting, a frame no longer than its
LEN, and counts that stop at their largest value (R77, R96, R144, R148 to R150, R152, R153, R156, R158, R159). -/
def Obligations.LinksKeepTheirBounds : Prop :=
  ∀ s t : State, s.linkLaw ∧ s.closingLaw ∧ s.receiverLaw ∧ s.counterLaw → step s = .next t →
    t.linkLaw ∧ t.closingLaw ∧ t.receiverLaw ∧ t.counterLaw

/-- Every timed claim has 1 to 65535 ms left, and a watch has a held claim, taken or on its way, only while it is LATCHED,
but for held claims whose removal, ordered by CLEAR, the output unit has yet to take (R14, R49, Table 7-2; log 1). -/
def Obligations.HeldClaimsAreOfLatchedWatches : Prop :=
  ∀ s t : State, s.watchesLawful ∧ s.claimLaw ∧ s.heldLaw → step s = .next t → t.claimLaw ∧ t.heldLaw
end

