-- ==== Sys2Proof/Laws/State.lean ====
section
/-!
SUPPORT. What each accessor of State reads after each update: one lemma per field per update.
-/

namespace Sys2Proof.Machine

/-! ### Tables -/

@[simp] theorem get_put_same {α : Type} {k : Nat} (v : Vector α k) (i : Fin k) (x : α) :
    (put v i x)[i.val] = x := by
  simp [put]

@[simp] theorem get_put_other {α : Type} {k : Nat} (v : Vector α k) (i j : Fin k) (x : α) (h : j ≠ i) :
    (put v i x)[j.val] = v[j.val] := by
  have : i.val ≠ j.val := fun e => h (Fin.ext e.symm)
  simp [put, this]

theorem get_put {α : Type} {k : Nat} (v : Vector α k) (i j : Fin k) (x : α) :
    (put v i x)[j.val] = if j = i then x else v[j.val] := by
  by_cases h : j = i
  · subst h; simp
  · simp [h]

@[simp] theorem get_remap {α : Type} {k : Nat} (v : Vector α k) (f : Fin k → α → α) (i : Fin k) :
    (remap v f)[i.val] = f i v[i.val] := by
  simp [remap]

theorem table_ext {α : Type} {k : Nat} {v w : Vector α k} (h : ∀ i : Fin k, v[i.val] = w[i.val]) : v = w := by
  apply Vector.ext
  intro i hi
  exact h ⟨i, hi⟩

@[simp] theorem put_get_self {α : Type} {k : Nat} (v : Vector α k) (i : Fin k) : put v i v[i.val] = v := by
  apply table_ext
  intro j
  rw [get_put]
  split
  · next h => rw [h]
  · rfl

@[simp] theorem put_put {α : Type} {k : Nat} (v : Vector α k) (i : Fin k) (x y : α) :
    put (put v i x) i y = put v i y := by
  apply table_ext
  intro j
  simp only [get_put]
  split <;> rfl

/-! ### `setWatch` -/

@[simp] theorem watch_setWatch_same (s : State) (i : WatchIx) (x : Watch) : (s.setWatch i x).watch i = x := (get_put_same _ _ _)

@[simp] theorem watch_setWatch_other (s : State) (i : WatchIx) (x : Watch) (j : WatchIx) (h : j ≠ i) :
    (s.setWatch i x).watch j = s.watch j := get_put_other _ _ _ _ h

theorem watch_setWatch (s : State) (i : WatchIx) (x : Watch) (j : WatchIx) :
    (s.setWatch i x).watch j = if j = i then x else s.watch j := get_put _ _ _ _

@[simp] theorem setWatch_self (s : State) (i : WatchIx) : s.setWatch i (s.watch i) = s := by
  simp [State.setWatch, State.watch]

@[simp] theorem setWatch_setWatch (s : State) (i : WatchIx) (x y : Watch) :
    (s.setWatch i x).setWatch i y = s.setWatch i y := by
  simp [State.setWatch]

@[simp] theorem line_setWatch (s : State) (i : WatchIx) (x : Watch) (j : LineIx) :
    (s.setWatch i x).line j = s.line j := (rfl)

@[simp] theorem link_setWatch (s : State) (i : WatchIx) (x : Watch) (j : Link) :
    (s.setWatch i x).link j = s.link j := (rfl)

@[simp] theorem receiver_setWatch (s : State) (i : WatchIx) (x : Watch) (j : Link) :
    (s.setWatch i x).receiver j = s.receiver j := (rfl)

@[simp] theorem transmitter_setWatch (s : State) (i : WatchIx) (x : Watch) (j : Link) :
    (s.setWatch i x).transmitter j = s.transmitter j := (rfl)

@[simp] theorem delivery_setWatch (s : State) (i : WatchIx) (x : Watch) (j : Link) :
    (s.setWatch i x).delivery j = s.delivery j := (rfl)

@[simp] theorem queue_setWatch (s : State) (i : WatchIx) (x : Watch) (j : Link) :
    (s.setWatch i x).queue j = s.queue j := (rfl)

@[simp] theorem loss_setWatch (s : State) (i : WatchIx) (x : Watch) (j : Link) :
    (s.setWatch i x).loss j = s.loss j := (rfl)

@[simp] theorem claimSet_setWatch (s : State) (i : WatchIx) (x : Watch) (j : OutputIx) :
    (s.setWatch i x).claimSet j = s.claimSet j := (rfl)

@[simp] theorem watchTickDue_setWatch (s : State) (i : WatchIx) (x : Watch) (j : WatchIx) :
    (s.setWatch i x).watchTickDue j = s.watchTickDue j := (rfl)

@[simp] theorem isUp_setWatch (s : State) (i : WatchIx) (x : Watch) (j : Link) : (s.setWatch i x).isUp j = s.isUp j := (rfl)

@[simp] theorem upAtNotices_setWatch (s : State) (i : WatchIx) (x : Watch) (j : Link) :
    (s.setWatch i x).upAtNotices j = s.upAtNotices j := (rfl)

@[simp] theorem pending_setWatch (s : State) (i : WatchIx) (x : Watch) : (s.setWatch i x).pending = s.pending := (rfl)

@[simp] theorem resetIsHeld_setWatch (s : State) (i : WatchIx) (x : Watch) : (s.setWatch i x).resetIsHeld = s.resetIsHeld := (rfl)

@[simp] theorem resetCause_setWatch (s : State) (i : WatchIx) (x : Watch) : (s.setWatch i x).resetCause = s.resetCause := (rfl)

@[simp] theorem rate_setWatch (s : State) (i : WatchIx) (x : Watch) : (s.setWatch i x).rate = s.rate := (rfl)

@[simp] theorem evPins_setWatch (s : State) (i : WatchIx) (x : Watch) : (s.setWatch i x).evPins = s.evPins := (rfl)

@[simp] theorem uptime_setWatch (s : State) (i : WatchIx) (x : Watch) : (s.setWatch i x).uptime = s.uptime := (rfl)

@[simp] theorem owedTicks_setWatch (s : State) (i : WatchIx) (x : Watch) : (s.setWatch i x).owedTicks = s.owedTicks := (rfl)

@[simp] theorem watchTicksDue_setWatch (s : State) (i : WatchIx) (x : Watch) : (s.setWatch i x).watchTicksDue = s.watchTicksDue := (rfl)

@[simp] theorem lines_setWatch (s : State) (i : WatchIx) (x : Watch) : (s.setWatch i x).lines = s.lines := (rfl)

@[simp] theorem claims_setWatch (s : State) (i : WatchIx) (x : Watch) : (s.setWatch i x).claims = s.claims := (rfl)

@[simp] theorem claimTickDue_setWatch (s : State) (i : WatchIx) (x : Watch) : (s.setWatch i x).claimTickDue = s.claimTickDue := (rfl)

@[simp] theorem authority_setWatch (s : State) (i : WatchIx) (x : Watch) : (s.setWatch i x).authority = s.authority := (rfl)

@[simp] theorem links_setWatch (s : State) (i : WatchIx) (x : Watch) : (s.setWatch i x).links = s.links := (rfl)

@[simp] theorem receivers_setWatch (s : State) (i : WatchIx) (x : Watch) : (s.setWatch i x).receivers = s.receivers := (rfl)

@[simp] theorem transmitters_setWatch (s : State) (i : WatchIx) (x : Watch) : (s.setWatch i x).transmitters = s.transmitters := (rfl)

@[simp] theorem deliveries_setWatch (s : State) (i : WatchIx) (x : Watch) : (s.setWatch i x).deliveries = s.deliveries := (rfl)

@[simp] theorem queues_setWatch (s : State) (i : WatchIx) (x : Watch) : (s.setWatch i x).queues = s.queues := (rfl)

@[simp] theorem losses_setWatch (s : State) (i : WatchIx) (x : Watch) : (s.setWatch i x).losses = s.losses := (rfl)

@[simp] theorem transit_setWatch (s : State) (i : WatchIx) (x : Watch) : (s.setWatch i x).transit = s.transit := (rfl)

@[simp] theorem stamp_setWatch (s : State) (i : WatchIx) (x : Watch) : (s.setWatch i x).stamp = s.stamp := (rfl)

@[simp] theorem choices_setWatch (s : State) (i : WatchIx) (x : Watch) : (s.setWatch i x).choices = s.choices := (rfl)

/-! ### `setLine` -/

@[simp] theorem line_setLine_same (s : State) (i : LineIx) (x : LineRec) : (s.setLine i x).line i = x := (get_put_same _ _ _)

@[simp] theorem line_setLine_other (s : State) (i : LineIx) (x : LineRec) (j : LineIx) (h : j ≠ i) :
    (s.setLine i x).line j = s.line j := get_put_other _ _ _ _ h

theorem line_setLine (s : State) (i : LineIx) (x : LineRec) (j : LineIx) :
    (s.setLine i x).line j = if j = i then x else s.line j := get_put _ _ _ _

@[simp] theorem setLine_self (s : State) (i : LineIx) : s.setLine i (s.line i) = s := by
  simp [State.setLine, State.line]

@[simp] theorem setLine_setLine (s : State) (i : LineIx) (x y : LineRec) :
    (s.setLine i x).setLine i y = s.setLine i y := by
  simp [State.setLine]

@[simp] theorem watch_setLine (s : State) (i : LineIx) (x : LineRec) (j : WatchIx) :
    (s.setLine i x).watch j = s.watch j := (rfl)

@[simp] theorem link_setLine (s : State) (i : LineIx) (x : LineRec) (j : Link) :
    (s.setLine i x).link j = s.link j := (rfl)

@[simp] theorem receiver_setLine (s : State) (i : LineIx) (x : LineRec) (j : Link) :
    (s.setLine i x).receiver j = s.receiver j := (rfl)

@[simp] theorem transmitter_setLine (s : State) (i : LineIx) (x : LineRec) (j : Link) :
    (s.setLine i x).transmitter j = s.transmitter j := (rfl)

@[simp] theorem delivery_setLine (s : State) (i : LineIx) (x : LineRec) (j : Link) :
    (s.setLine i x).delivery j = s.delivery j := (rfl)

@[simp] theorem queue_setLine (s : State) (i : LineIx) (x : LineRec) (j : Link) :
    (s.setLine i x).queue j = s.queue j := (rfl)

@[simp] theorem loss_setLine (s : State) (i : LineIx) (x : LineRec) (j : Link) :
    (s.setLine i x).loss j = s.loss j := (rfl)

@[simp] theorem claimSet_setLine (s : State) (i : LineIx) (x : LineRec) (j : OutputIx) :
    (s.setLine i x).claimSet j = s.claimSet j := (rfl)

@[simp] theorem watchTickDue_setLine (s : State) (i : LineIx) (x : LineRec) (j : WatchIx) :
    (s.setLine i x).watchTickDue j = s.watchTickDue j := (rfl)

@[simp] theorem isUp_setLine (s : State) (i : LineIx) (x : LineRec) (j : Link) : (s.setLine i x).isUp j = s.isUp j := (rfl)

@[simp] theorem upAtNotices_setLine (s : State) (i : LineIx) (x : LineRec) (j : Link) :
    (s.setLine i x).upAtNotices j = s.upAtNotices j := (rfl)

@[simp] theorem pending_setLine (s : State) (i : LineIx) (x : LineRec) : (s.setLine i x).pending = s.pending := (rfl)

@[simp] theorem resetIsHeld_setLine (s : State) (i : LineIx) (x : LineRec) : (s.setLine i x).resetIsHeld = s.resetIsHeld := (rfl)

@[simp] theorem resetCause_setLine (s : State) (i : LineIx) (x : LineRec) : (s.setLine i x).resetCause = s.resetCause := (rfl)

@[simp] theorem rate_setLine (s : State) (i : LineIx) (x : LineRec) : (s.setLine i x).rate = s.rate := (rfl)

@[simp] theorem evPins_setLine (s : State) (i : LineIx) (x : LineRec) : (s.setLine i x).evPins = s.evPins := (rfl)

@[simp] theorem uptime_setLine (s : State) (i : LineIx) (x : LineRec) : (s.setLine i x).uptime = s.uptime := (rfl)

@[simp] theorem owedTicks_setLine (s : State) (i : LineIx) (x : LineRec) : (s.setLine i x).owedTicks = s.owedTicks := (rfl)

@[simp] theorem watches_setLine (s : State) (i : LineIx) (x : LineRec) : (s.setLine i x).watches = s.watches := (rfl)

@[simp] theorem watchTicksDue_setLine (s : State) (i : LineIx) (x : LineRec) : (s.setLine i x).watchTicksDue = s.watchTicksDue := (rfl)

@[simp] theorem claims_setLine (s : State) (i : LineIx) (x : LineRec) : (s.setLine i x).claims = s.claims := (rfl)

@[simp] theorem claimTickDue_setLine (s : State) (i : LineIx) (x : LineRec) : (s.setLine i x).claimTickDue = s.claimTickDue := (rfl)

@[simp] theorem authority_setLine (s : State) (i : LineIx) (x : LineRec) : (s.setLine i x).authority = s.authority := (rfl)

@[simp] theorem links_setLine (s : State) (i : LineIx) (x : LineRec) : (s.setLine i x).links = s.links := (rfl)

@[simp] theorem receivers_setLine (s : State) (i : LineIx) (x : LineRec) : (s.setLine i x).receivers = s.receivers := (rfl)

@[simp] theorem transmitters_setLine (s : State) (i : LineIx) (x : LineRec) : (s.setLine i x).transmitters = s.transmitters := (rfl)

@[simp] theorem deliveries_setLine (s : State) (i : LineIx) (x : LineRec) : (s.setLine i x).deliveries = s.deliveries := (rfl)

@[simp] theorem queues_setLine (s : State) (i : LineIx) (x : LineRec) : (s.setLine i x).queues = s.queues := (rfl)

@[simp] theorem losses_setLine (s : State) (i : LineIx) (x : LineRec) : (s.setLine i x).losses = s.losses := (rfl)

@[simp] theorem transit_setLine (s : State) (i : LineIx) (x : LineRec) : (s.setLine i x).transit = s.transit := (rfl)

@[simp] theorem stamp_setLine (s : State) (i : LineIx) (x : LineRec) : (s.setLine i x).stamp = s.stamp := (rfl)

@[simp] theorem choices_setLine (s : State) (i : LineIx) (x : LineRec) : (s.setLine i x).choices = s.choices := (rfl)

/-! ### `setLink` -/

@[simp] theorem link_setLink_same (s : State) (i : Link) (x : LinkRec) : (s.setLink i x).link i = x := (get_put_same _ _ _)

@[simp] theorem link_setLink_other (s : State) (i : Link) (x : LinkRec) (j : Link) (h : j ≠ i) :
    (s.setLink i x).link j = s.link j := get_put_other _ _ _ _ h

theorem link_setLink (s : State) (i : Link) (x : LinkRec) (j : Link) :
    (s.setLink i x).link j = if j = i then x else s.link j := get_put _ _ _ _

@[simp] theorem setLink_self (s : State) (i : Link) : s.setLink i (s.link i) = s := by
  simp [State.setLink, State.link]

@[simp] theorem setLink_setLink (s : State) (i : Link) (x y : LinkRec) :
    (s.setLink i x).setLink i y = s.setLink i y := by
  simp [State.setLink]

@[simp] theorem watch_setLink (s : State) (i : Link) (x : LinkRec) (j : WatchIx) :
    (s.setLink i x).watch j = s.watch j := (rfl)

@[simp] theorem line_setLink (s : State) (i : Link) (x : LinkRec) (j : LineIx) :
    (s.setLink i x).line j = s.line j := (rfl)

@[simp] theorem receiver_setLink (s : State) (i : Link) (x : LinkRec) (j : Link) :
    (s.setLink i x).receiver j = s.receiver j := (rfl)

@[simp] theorem transmitter_setLink (s : State) (i : Link) (x : LinkRec) (j : Link) :
    (s.setLink i x).transmitter j = s.transmitter j := (rfl)

@[simp] theorem delivery_setLink (s : State) (i : Link) (x : LinkRec) (j : Link) :
    (s.setLink i x).delivery j = s.delivery j := (rfl)

@[simp] theorem queue_setLink (s : State) (i : Link) (x : LinkRec) (j : Link) :
    (s.setLink i x).queue j = s.queue j := (rfl)

@[simp] theorem loss_setLink (s : State) (i : Link) (x : LinkRec) (j : Link) :
    (s.setLink i x).loss j = s.loss j := (rfl)

@[simp] theorem claimSet_setLink (s : State) (i : Link) (x : LinkRec) (j : OutputIx) :
    (s.setLink i x).claimSet j = s.claimSet j := (rfl)

@[simp] theorem watchTickDue_setLink (s : State) (i : Link) (x : LinkRec) (j : WatchIx) :
    (s.setLink i x).watchTickDue j = s.watchTickDue j := (rfl)

@[simp] theorem pending_setLink (s : State) (i : Link) (x : LinkRec) : (s.setLink i x).pending = s.pending := (rfl)

@[simp] theorem resetIsHeld_setLink (s : State) (i : Link) (x : LinkRec) : (s.setLink i x).resetIsHeld = s.resetIsHeld := (rfl)

@[simp] theorem resetCause_setLink (s : State) (i : Link) (x : LinkRec) : (s.setLink i x).resetCause = s.resetCause := (rfl)

@[simp] theorem rate_setLink (s : State) (i : Link) (x : LinkRec) : (s.setLink i x).rate = s.rate := (rfl)

@[simp] theorem evPins_setLink (s : State) (i : Link) (x : LinkRec) : (s.setLink i x).evPins = s.evPins := (rfl)

@[simp] theorem uptime_setLink (s : State) (i : Link) (x : LinkRec) : (s.setLink i x).uptime = s.uptime := (rfl)

@[simp] theorem owedTicks_setLink (s : State) (i : Link) (x : LinkRec) : (s.setLink i x).owedTicks = s.owedTicks := (rfl)

@[simp] theorem watches_setLink (s : State) (i : Link) (x : LinkRec) : (s.setLink i x).watches = s.watches := (rfl)

@[simp] theorem watchTicksDue_setLink (s : State) (i : Link) (x : LinkRec) : (s.setLink i x).watchTicksDue = s.watchTicksDue := (rfl)

@[simp] theorem lines_setLink (s : State) (i : Link) (x : LinkRec) : (s.setLink i x).lines = s.lines := (rfl)

@[simp] theorem claims_setLink (s : State) (i : Link) (x : LinkRec) : (s.setLink i x).claims = s.claims := (rfl)

@[simp] theorem claimTickDue_setLink (s : State) (i : Link) (x : LinkRec) : (s.setLink i x).claimTickDue = s.claimTickDue := (rfl)

@[simp] theorem authority_setLink (s : State) (i : Link) (x : LinkRec) : (s.setLink i x).authority = s.authority := (rfl)

@[simp] theorem receivers_setLink (s : State) (i : Link) (x : LinkRec) : (s.setLink i x).receivers = s.receivers := (rfl)

@[simp] theorem transmitters_setLink (s : State) (i : Link) (x : LinkRec) : (s.setLink i x).transmitters = s.transmitters := (rfl)

@[simp] theorem deliveries_setLink (s : State) (i : Link) (x : LinkRec) : (s.setLink i x).deliveries = s.deliveries := (rfl)

@[simp] theorem queues_setLink (s : State) (i : Link) (x : LinkRec) : (s.setLink i x).queues = s.queues := (rfl)

@[simp] theorem losses_setLink (s : State) (i : Link) (x : LinkRec) : (s.setLink i x).losses = s.losses := (rfl)

@[simp] theorem transit_setLink (s : State) (i : Link) (x : LinkRec) : (s.setLink i x).transit = s.transit := (rfl)

@[simp] theorem stamp_setLink (s : State) (i : Link) (x : LinkRec) : (s.setLink i x).stamp = s.stamp := (rfl)

@[simp] theorem choices_setLink (s : State) (i : Link) (x : LinkRec) : (s.setLink i x).choices = s.choices := (rfl)

/-! ### `setReceiver` -/

@[simp] theorem receiver_setReceiver_same (s : State) (i : Link) (x : Receiver) : (s.setReceiver i x).receiver i = x := (get_put_same _ _ _)

@[simp] theorem receiver_setReceiver_other (s : State) (i : Link) (x : Receiver) (j : Link) (h : j ≠ i) :
    (s.setReceiver i x).receiver j = s.receiver j := get_put_other _ _ _ _ h

theorem receiver_setReceiver (s : State) (i : Link) (x : Receiver) (j : Link) :
    (s.setReceiver i x).receiver j = if j = i then x else s.receiver j := get_put _ _ _ _

@[simp] theorem setReceiver_self (s : State) (i : Link) : s.setReceiver i (s.receiver i) = s := by
  simp [State.setReceiver, State.receiver]

@[simp] theorem setReceiver_setReceiver (s : State) (i : Link) (x y : Receiver) :
    (s.setReceiver i x).setReceiver i y = s.setReceiver i y := by
  simp [State.setReceiver]

@[simp] theorem watch_setReceiver (s : State) (i : Link) (x : Receiver) (j : WatchIx) :
    (s.setReceiver i x).watch j = s.watch j := (rfl)

@[simp] theorem line_setReceiver (s : State) (i : Link) (x : Receiver) (j : LineIx) :
    (s.setReceiver i x).line j = s.line j := (rfl)

@[simp] theorem link_setReceiver (s : State) (i : Link) (x : Receiver) (j : Link) :
    (s.setReceiver i x).link j = s.link j := (rfl)

@[simp] theorem transmitter_setReceiver (s : State) (i : Link) (x : Receiver) (j : Link) :
    (s.setReceiver i x).transmitter j = s.transmitter j := (rfl)

@[simp] theorem delivery_setReceiver (s : State) (i : Link) (x : Receiver) (j : Link) :
    (s.setReceiver i x).delivery j = s.delivery j := (rfl)

@[simp] theorem queue_setReceiver (s : State) (i : Link) (x : Receiver) (j : Link) :
    (s.setReceiver i x).queue j = s.queue j := (rfl)

@[simp] theorem loss_setReceiver (s : State) (i : Link) (x : Receiver) (j : Link) :
    (s.setReceiver i x).loss j = s.loss j := (rfl)

@[simp] theorem claimSet_setReceiver (s : State) (i : Link) (x : Receiver) (j : OutputIx) :
    (s.setReceiver i x).claimSet j = s.claimSet j := (rfl)

@[simp] theorem watchTickDue_setReceiver (s : State) (i : Link) (x : Receiver) (j : WatchIx) :
    (s.setReceiver i x).watchTickDue j = s.watchTickDue j := (rfl)

@[simp] theorem isUp_setReceiver (s : State) (i : Link) (x : Receiver) (j : Link) : (s.setReceiver i x).isUp j = s.isUp j := (rfl)

@[simp] theorem upAtNotices_setReceiver (s : State) (i : Link) (x : Receiver) (j : Link) :
    (s.setReceiver i x).upAtNotices j = s.upAtNotices j := (rfl)

@[simp] theorem pending_setReceiver (s : State) (i : Link) (x : Receiver) : (s.setReceiver i x).pending = s.pending := (rfl)

@[simp] theorem resetIsHeld_setReceiver (s : State) (i : Link) (x : Receiver) : (s.setReceiver i x).resetIsHeld = s.resetIsHeld := (rfl)

@[simp] theorem resetCause_setReceiver (s : State) (i : Link) (x : Receiver) : (s.setReceiver i x).resetCause = s.resetCause := (rfl)

@[simp] theorem rate_setReceiver (s : State) (i : Link) (x : Receiver) : (s.setReceiver i x).rate = s.rate := (rfl)

@[simp] theorem evPins_setReceiver (s : State) (i : Link) (x : Receiver) : (s.setReceiver i x).evPins = s.evPins := (rfl)

@[simp] theorem uptime_setReceiver (s : State) (i : Link) (x : Receiver) : (s.setReceiver i x).uptime = s.uptime := (rfl)

@[simp] theorem owedTicks_setReceiver (s : State) (i : Link) (x : Receiver) : (s.setReceiver i x).owedTicks = s.owedTicks := (rfl)

@[simp] theorem watches_setReceiver (s : State) (i : Link) (x : Receiver) : (s.setReceiver i x).watches = s.watches := (rfl)

@[simp] theorem watchTicksDue_setReceiver (s : State) (i : Link) (x : Receiver) : (s.setReceiver i x).watchTicksDue = s.watchTicksDue := (rfl)

@[simp] theorem lines_setReceiver (s : State) (i : Link) (x : Receiver) : (s.setReceiver i x).lines = s.lines := (rfl)

@[simp] theorem claims_setReceiver (s : State) (i : Link) (x : Receiver) : (s.setReceiver i x).claims = s.claims := (rfl)

@[simp] theorem claimTickDue_setReceiver (s : State) (i : Link) (x : Receiver) : (s.setReceiver i x).claimTickDue = s.claimTickDue := (rfl)

@[simp] theorem authority_setReceiver (s : State) (i : Link) (x : Receiver) : (s.setReceiver i x).authority = s.authority := (rfl)

@[simp] theorem links_setReceiver (s : State) (i : Link) (x : Receiver) : (s.setReceiver i x).links = s.links := (rfl)

@[simp] theorem transmitters_setReceiver (s : State) (i : Link) (x : Receiver) : (s.setReceiver i x).transmitters = s.transmitters := (rfl)

@[simp] theorem deliveries_setReceiver (s : State) (i : Link) (x : Receiver) : (s.setReceiver i x).deliveries = s.deliveries := (rfl)

@[simp] theorem queues_setReceiver (s : State) (i : Link) (x : Receiver) : (s.setReceiver i x).queues = s.queues := (rfl)

@[simp] theorem losses_setReceiver (s : State) (i : Link) (x : Receiver) : (s.setReceiver i x).losses = s.losses := (rfl)

@[simp] theorem transit_setReceiver (s : State) (i : Link) (x : Receiver) : (s.setReceiver i x).transit = s.transit := (rfl)

@[simp] theorem stamp_setReceiver (s : State) (i : Link) (x : Receiver) : (s.setReceiver i x).stamp = s.stamp := (rfl)

@[simp] theorem choices_setReceiver (s : State) (i : Link) (x : Receiver) : (s.setReceiver i x).choices = s.choices := (rfl)

/-! ### `setTransmitter` -/

@[simp] theorem transmitter_setTransmitter_same (s : State) (i : Link) (x : Option TxFrame) : (s.setTransmitter i x).transmitter i = x := (get_put_same _ _ _)

@[simp] theorem transmitter_setTransmitter_other (s : State) (i : Link) (x : Option TxFrame) (j : Link) (h : j ≠ i) :
    (s.setTransmitter i x).transmitter j = s.transmitter j := get_put_other _ _ _ _ h

theorem transmitter_setTransmitter (s : State) (i : Link) (x : Option TxFrame) (j : Link) :
    (s.setTransmitter i x).transmitter j = if j = i then x else s.transmitter j := get_put _ _ _ _

@[simp] theorem setTransmitter_self (s : State) (i : Link) : s.setTransmitter i (s.transmitter i) = s := by
  simp [State.setTransmitter, State.transmitter]

@[simp] theorem setTransmitter_setTransmitter (s : State) (i : Link) (x y : Option TxFrame) :
    (s.setTransmitter i x).setTransmitter i y = s.setTransmitter i y := by
  simp [State.setTransmitter]

@[simp] theorem watch_setTransmitter (s : State) (i : Link) (x : Option TxFrame) (j : WatchIx) :
    (s.setTransmitter i x).watch j = s.watch j := (rfl)

@[simp] theorem line_setTransmitter (s : State) (i : Link) (x : Option TxFrame) (j : LineIx) :
    (s.setTransmitter i x).line j = s.line j := (rfl)

@[simp] theorem link_setTransmitter (s : State) (i : Link) (x : Option TxFrame) (j : Link) :
    (s.setTransmitter i x).link j = s.link j := (rfl)

@[simp] theorem receiver_setTransmitter (s : State) (i : Link) (x : Option TxFrame) (j : Link) :
    (s.setTransmitter i x).receiver j = s.receiver j := (rfl)

@[simp] theorem delivery_setTransmitter (s : State) (i : Link) (x : Option TxFrame) (j : Link) :
    (s.setTransmitter i x).delivery j = s.delivery j := (rfl)

@[simp] theorem queue_setTransmitter (s : State) (i : Link) (x : Option TxFrame) (j : Link) :
    (s.setTransmitter i x).queue j = s.queue j := (rfl)

@[simp] theorem loss_setTransmitter (s : State) (i : Link) (x : Option TxFrame) (j : Link) :
    (s.setTransmitter i x).loss j = s.loss j := (rfl)

@[simp] theorem claimSet_setTransmitter (s : State) (i : Link) (x : Option TxFrame) (j : OutputIx) :
    (s.setTransmitter i x).claimSet j = s.claimSet j := (rfl)

@[simp] theorem watchTickDue_setTransmitter (s : State) (i : Link) (x : Option TxFrame) (j : WatchIx) :
    (s.setTransmitter i x).watchTickDue j = s.watchTickDue j := (rfl)

@[simp] theorem isUp_setTransmitter (s : State) (i : Link) (x : Option TxFrame) (j : Link) : (s.setTransmitter i x).isUp j = s.isUp j := (rfl)

@[simp] theorem upAtNotices_setTransmitter (s : State) (i : Link) (x : Option TxFrame) (j : Link) :
    (s.setTransmitter i x).upAtNotices j = s.upAtNotices j := (rfl)

@[simp] theorem pending_setTransmitter (s : State) (i : Link) (x : Option TxFrame) : (s.setTransmitter i x).pending = s.pending := (rfl)

@[simp] theorem resetIsHeld_setTransmitter (s : State) (i : Link) (x : Option TxFrame) : (s.setTransmitter i x).resetIsHeld = s.resetIsHeld := (rfl)

@[simp] theorem resetCause_setTransmitter (s : State) (i : Link) (x : Option TxFrame) : (s.setTransmitter i x).resetCause = s.resetCause := (rfl)

@[simp] theorem rate_setTransmitter (s : State) (i : Link) (x : Option TxFrame) : (s.setTransmitter i x).rate = s.rate := (rfl)

@[simp] theorem evPins_setTransmitter (s : State) (i : Link) (x : Option TxFrame) : (s.setTransmitter i x).evPins = s.evPins := (rfl)

@[simp] theorem uptime_setTransmitter (s : State) (i : Link) (x : Option TxFrame) : (s.setTransmitter i x).uptime = s.uptime := (rfl)

@[simp] theorem owedTicks_setTransmitter (s : State) (i : Link) (x : Option TxFrame) : (s.setTransmitter i x).owedTicks = s.owedTicks := (rfl)

@[simp] theorem watches_setTransmitter (s : State) (i : Link) (x : Option TxFrame) : (s.setTransmitter i x).watches = s.watches := (rfl)

@[simp] theorem watchTicksDue_setTransmitter (s : State) (i : Link) (x : Option TxFrame) : (s.setTransmitter i x).watchTicksDue = s.watchTicksDue := (rfl)

@[simp] theorem lines_setTransmitter (s : State) (i : Link) (x : Option TxFrame) : (s.setTransmitter i x).lines = s.lines := (rfl)

@[simp] theorem claims_setTransmitter (s : State) (i : Link) (x : Option TxFrame) : (s.setTransmitter i x).claims = s.claims := (rfl)

@[simp] theorem claimTickDue_setTransmitter (s : State) (i : Link) (x : Option TxFrame) : (s.setTransmitter i x).claimTickDue = s.claimTickDue := (rfl)

@[simp] theorem authority_setTransmitter (s : State) (i : Link) (x : Option TxFrame) : (s.setTransmitter i x).authority = s.authority := (rfl)

@[simp] theorem links_setTransmitter (s : State) (i : Link) (x : Option TxFrame) : (s.setTransmitter i x).links = s.links := (rfl)

@[simp] theorem receivers_setTransmitter (s : State) (i : Link) (x : Option TxFrame) : (s.setTransmitter i x).receivers = s.receivers := (rfl)

@[simp] theorem deliveries_setTransmitter (s : State) (i : Link) (x : Option TxFrame) : (s.setTransmitter i x).deliveries = s.deliveries := (rfl)

@[simp] theorem queues_setTransmitter (s : State) (i : Link) (x : Option TxFrame) : (s.setTransmitter i x).queues = s.queues := (rfl)

@[simp] theorem losses_setTransmitter (s : State) (i : Link) (x : Option TxFrame) : (s.setTransmitter i x).losses = s.losses := (rfl)

@[simp] theorem transit_setTransmitter (s : State) (i : Link) (x : Option TxFrame) : (s.setTransmitter i x).transit = s.transit := (rfl)

@[simp] theorem stamp_setTransmitter (s : State) (i : Link) (x : Option TxFrame) : (s.setTransmitter i x).stamp = s.stamp := (rfl)

@[simp] theorem choices_setTransmitter (s : State) (i : Link) (x : Option TxFrame) : (s.setTransmitter i x).choices = s.choices := (rfl)

/-! ### `setDelivery` -/

@[simp] theorem delivery_setDelivery_same (s : State) (i : Link) (x : Delivery) : (s.setDelivery i x).delivery i = x := (get_put_same _ _ _)

@[simp] theorem delivery_setDelivery_other (s : State) (i : Link) (x : Delivery) (j : Link) (h : j ≠ i) :
    (s.setDelivery i x).delivery j = s.delivery j := get_put_other _ _ _ _ h

theorem delivery_setDelivery (s : State) (i : Link) (x : Delivery) (j : Link) :
    (s.setDelivery i x).delivery j = if j = i then x else s.delivery j := get_put _ _ _ _

@[simp] theorem setDelivery_self (s : State) (i : Link) : s.setDelivery i (s.delivery i) = s := by
  simp [State.setDelivery, State.delivery]

@[simp] theorem setDelivery_setDelivery (s : State) (i : Link) (x y : Delivery) :
    (s.setDelivery i x).setDelivery i y = s.setDelivery i y := by
  simp [State.setDelivery]

@[simp] theorem watch_setDelivery (s : State) (i : Link) (x : Delivery) (j : WatchIx) :
    (s.setDelivery i x).watch j = s.watch j := (rfl)

@[simp] theorem line_setDelivery (s : State) (i : Link) (x : Delivery) (j : LineIx) :
    (s.setDelivery i x).line j = s.line j := (rfl)

@[simp] theorem link_setDelivery (s : State) (i : Link) (x : Delivery) (j : Link) :
    (s.setDelivery i x).link j = s.link j := (rfl)

@[simp] theorem receiver_setDelivery (s : State) (i : Link) (x : Delivery) (j : Link) :
    (s.setDelivery i x).receiver j = s.receiver j := (rfl)

@[simp] theorem transmitter_setDelivery (s : State) (i : Link) (x : Delivery) (j : Link) :
    (s.setDelivery i x).transmitter j = s.transmitter j := (rfl)

@[simp] theorem queue_setDelivery (s : State) (i : Link) (x : Delivery) (j : Link) :
    (s.setDelivery i x).queue j = s.queue j := (rfl)

@[simp] theorem loss_setDelivery (s : State) (i : Link) (x : Delivery) (j : Link) :
    (s.setDelivery i x).loss j = s.loss j := (rfl)

@[simp] theorem claimSet_setDelivery (s : State) (i : Link) (x : Delivery) (j : OutputIx) :
    (s.setDelivery i x).claimSet j = s.claimSet j := (rfl)

@[simp] theorem watchTickDue_setDelivery (s : State) (i : Link) (x : Delivery) (j : WatchIx) :
    (s.setDelivery i x).watchTickDue j = s.watchTickDue j := (rfl)

@[simp] theorem isUp_setDelivery (s : State) (i : Link) (x : Delivery) (j : Link) : (s.setDelivery i x).isUp j = s.isUp j := (rfl)

@[simp] theorem upAtNotices_setDelivery (s : State) (i : Link) (x : Delivery) (j : Link) :
    (s.setDelivery i x).upAtNotices j = s.upAtNotices j := (rfl)

@[simp] theorem pending_setDelivery (s : State) (i : Link) (x : Delivery) : (s.setDelivery i x).pending = s.pending := (rfl)

@[simp] theorem resetIsHeld_setDelivery (s : State) (i : Link) (x : Delivery) : (s.setDelivery i x).resetIsHeld = s.resetIsHeld := (rfl)

@[simp] theorem resetCause_setDelivery (s : State) (i : Link) (x : Delivery) : (s.setDelivery i x).resetCause = s.resetCause := (rfl)

@[simp] theorem rate_setDelivery (s : State) (i : Link) (x : Delivery) : (s.setDelivery i x).rate = s.rate := (rfl)

@[simp] theorem evPins_setDelivery (s : State) (i : Link) (x : Delivery) : (s.setDelivery i x).evPins = s.evPins := (rfl)

@[simp] theorem uptime_setDelivery (s : State) (i : Link) (x : Delivery) : (s.setDelivery i x).uptime = s.uptime := (rfl)

@[simp] theorem owedTicks_setDelivery (s : State) (i : Link) (x : Delivery) : (s.setDelivery i x).owedTicks = s.owedTicks := (rfl)

@[simp] theorem watches_setDelivery (s : State) (i : Link) (x : Delivery) : (s.setDelivery i x).watches = s.watches := (rfl)

@[simp] theorem watchTicksDue_setDelivery (s : State) (i : Link) (x : Delivery) : (s.setDelivery i x).watchTicksDue = s.watchTicksDue := (rfl)

@[simp] theorem lines_setDelivery (s : State) (i : Link) (x : Delivery) : (s.setDelivery i x).lines = s.lines := (rfl)

@[simp] theorem claims_setDelivery (s : State) (i : Link) (x : Delivery) : (s.setDelivery i x).claims = s.claims := (rfl)

@[simp] theorem claimTickDue_setDelivery (s : State) (i : Link) (x : Delivery) : (s.setDelivery i x).claimTickDue = s.claimTickDue := (rfl)

@[simp] theorem authority_setDelivery (s : State) (i : Link) (x : Delivery) : (s.setDelivery i x).authority = s.authority := (rfl)

@[simp] theorem links_setDelivery (s : State) (i : Link) (x : Delivery) : (s.setDelivery i x).links = s.links := (rfl)

@[simp] theorem receivers_setDelivery (s : State) (i : Link) (x : Delivery) : (s.setDelivery i x).receivers = s.receivers := (rfl)

@[simp] theorem transmitters_setDelivery (s : State) (i : Link) (x : Delivery) : (s.setDelivery i x).transmitters = s.transmitters := (rfl)

@[simp] theorem queues_setDelivery (s : State) (i : Link) (x : Delivery) : (s.setDelivery i x).queues = s.queues := (rfl)

@[simp] theorem losses_setDelivery (s : State) (i : Link) (x : Delivery) : (s.setDelivery i x).losses = s.losses := (rfl)

@[simp] theorem transit_setDelivery (s : State) (i : Link) (x : Delivery) : (s.setDelivery i x).transit = s.transit := (rfl)

@[simp] theorem stamp_setDelivery (s : State) (i : Link) (x : Delivery) : (s.setDelivery i x).stamp = s.stamp := (rfl)

@[simp] theorem choices_setDelivery (s : State) (i : Link) (x : Delivery) : (s.setDelivery i x).choices = s.choices := (rfl)

/-! ### `setQueue` -/

@[simp] theorem queue_setQueue_same (s : State) (i : Link) (x : List Notice) : (s.setQueue i x).queue i = x := (get_put_same _ _ _)

@[simp] theorem queue_setQueue_other (s : State) (i : Link) (x : List Notice) (j : Link) (h : j ≠ i) :
    (s.setQueue i x).queue j = s.queue j := get_put_other _ _ _ _ h

theorem queue_setQueue (s : State) (i : Link) (x : List Notice) (j : Link) :
    (s.setQueue i x).queue j = if j = i then x else s.queue j := get_put _ _ _ _

@[simp] theorem setQueue_self (s : State) (i : Link) : s.setQueue i (s.queue i) = s := by
  simp [State.setQueue, State.queue]

@[simp] theorem setQueue_setQueue (s : State) (i : Link) (x y : List Notice) :
    (s.setQueue i x).setQueue i y = s.setQueue i y := by
  simp [State.setQueue]

@[simp] theorem watch_setQueue (s : State) (i : Link) (x : List Notice) (j : WatchIx) :
    (s.setQueue i x).watch j = s.watch j := (rfl)

@[simp] theorem line_setQueue (s : State) (i : Link) (x : List Notice) (j : LineIx) :
    (s.setQueue i x).line j = s.line j := (rfl)

@[simp] theorem link_setQueue (s : State) (i : Link) (x : List Notice) (j : Link) :
    (s.setQueue i x).link j = s.link j := (rfl)

@[simp] theorem receiver_setQueue (s : State) (i : Link) (x : List Notice) (j : Link) :
    (s.setQueue i x).receiver j = s.receiver j := (rfl)

@[simp] theorem transmitter_setQueue (s : State) (i : Link) (x : List Notice) (j : Link) :
    (s.setQueue i x).transmitter j = s.transmitter j := (rfl)

@[simp] theorem delivery_setQueue (s : State) (i : Link) (x : List Notice) (j : Link) :
    (s.setQueue i x).delivery j = s.delivery j := (rfl)

@[simp] theorem loss_setQueue (s : State) (i : Link) (x : List Notice) (j : Link) :
    (s.setQueue i x).loss j = s.loss j := (rfl)

@[simp] theorem claimSet_setQueue (s : State) (i : Link) (x : List Notice) (j : OutputIx) :
    (s.setQueue i x).claimSet j = s.claimSet j := (rfl)

@[simp] theorem watchTickDue_setQueue (s : State) (i : Link) (x : List Notice) (j : WatchIx) :
    (s.setQueue i x).watchTickDue j = s.watchTickDue j := (rfl)

@[simp] theorem isUp_setQueue (s : State) (i : Link) (x : List Notice) (j : Link) : (s.setQueue i x).isUp j = s.isUp j := (rfl)

@[simp] theorem upAtNotices_setQueue (s : State) (i : Link) (x : List Notice) (j : Link) :
    (s.setQueue i x).upAtNotices j = s.upAtNotices j := (rfl)

@[simp] theorem pending_setQueue (s : State) (i : Link) (x : List Notice) : (s.setQueue i x).pending = s.pending := (rfl)

@[simp] theorem resetIsHeld_setQueue (s : State) (i : Link) (x : List Notice) : (s.setQueue i x).resetIsHeld = s.resetIsHeld := (rfl)

@[simp] theorem resetCause_setQueue (s : State) (i : Link) (x : List Notice) : (s.setQueue i x).resetCause = s.resetCause := (rfl)

@[simp] theorem rate_setQueue (s : State) (i : Link) (x : List Notice) : (s.setQueue i x).rate = s.rate := (rfl)

@[simp] theorem evPins_setQueue (s : State) (i : Link) (x : List Notice) : (s.setQueue i x).evPins = s.evPins := (rfl)

@[simp] theorem uptime_setQueue (s : State) (i : Link) (x : List Notice) : (s.setQueue i x).uptime = s.uptime := (rfl)

@[simp] theorem owedTicks_setQueue (s : State) (i : Link) (x : List Notice) : (s.setQueue i x).owedTicks = s.owedTicks := (rfl)

@[simp] theorem watches_setQueue (s : State) (i : Link) (x : List Notice) : (s.setQueue i x).watches = s.watches := (rfl)

@[simp] theorem watchTicksDue_setQueue (s : State) (i : Link) (x : List Notice) : (s.setQueue i x).watchTicksDue = s.watchTicksDue := (rfl)

@[simp] theorem lines_setQueue (s : State) (i : Link) (x : List Notice) : (s.setQueue i x).lines = s.lines := (rfl)

@[simp] theorem claims_setQueue (s : State) (i : Link) (x : List Notice) : (s.setQueue i x).claims = s.claims := (rfl)

@[simp] theorem claimTickDue_setQueue (s : State) (i : Link) (x : List Notice) : (s.setQueue i x).claimTickDue = s.claimTickDue := (rfl)

@[simp] theorem authority_setQueue (s : State) (i : Link) (x : List Notice) : (s.setQueue i x).authority = s.authority := (rfl)

@[simp] theorem links_setQueue (s : State) (i : Link) (x : List Notice) : (s.setQueue i x).links = s.links := (rfl)

@[simp] theorem receivers_setQueue (s : State) (i : Link) (x : List Notice) : (s.setQueue i x).receivers = s.receivers := (rfl)

@[simp] theorem transmitters_setQueue (s : State) (i : Link) (x : List Notice) : (s.setQueue i x).transmitters = s.transmitters := (rfl)

@[simp] theorem deliveries_setQueue (s : State) (i : Link) (x : List Notice) : (s.setQueue i x).deliveries = s.deliveries := (rfl)

@[simp] theorem losses_setQueue (s : State) (i : Link) (x : List Notice) : (s.setQueue i x).losses = s.losses := (rfl)

@[simp] theorem transit_setQueue (s : State) (i : Link) (x : List Notice) : (s.setQueue i x).transit = s.transit := (rfl)

@[simp] theorem stamp_setQueue (s : State) (i : Link) (x : List Notice) : (s.setQueue i x).stamp = s.stamp := (rfl)

@[simp] theorem choices_setQueue (s : State) (i : Link) (x : List Notice) : (s.setQueue i x).choices = s.choices := (rfl)

/-! ### `setLoss` -/

@[simp] theorem loss_setLoss_same (s : State) (i : Link) (x : Nat) : (s.setLoss i x).loss i = x := (get_put_same _ _ _)

@[simp] theorem loss_setLoss_other (s : State) (i : Link) (x : Nat) (j : Link) (h : j ≠ i) :
    (s.setLoss i x).loss j = s.loss j := get_put_other _ _ _ _ h

theorem loss_setLoss (s : State) (i : Link) (x : Nat) (j : Link) :
    (s.setLoss i x).loss j = if j = i then x else s.loss j := get_put _ _ _ _

@[simp] theorem setLoss_self (s : State) (i : Link) : s.setLoss i (s.loss i) = s := by
  simp [State.setLoss, State.loss]

@[simp] theorem setLoss_setLoss (s : State) (i : Link) (x y : Nat) :
    (s.setLoss i x).setLoss i y = s.setLoss i y := by
  simp [State.setLoss]

@[simp] theorem watch_setLoss (s : State) (i : Link) (x : Nat) (j : WatchIx) :
    (s.setLoss i x).watch j = s.watch j := (rfl)

@[simp] theorem line_setLoss (s : State) (i : Link) (x : Nat) (j : LineIx) :
    (s.setLoss i x).line j = s.line j := (rfl)

@[simp] theorem link_setLoss (s : State) (i : Link) (x : Nat) (j : Link) :
    (s.setLoss i x).link j = s.link j := (rfl)

@[simp] theorem receiver_setLoss (s : State) (i : Link) (x : Nat) (j : Link) :
    (s.setLoss i x).receiver j = s.receiver j := (rfl)

@[simp] theorem transmitter_setLoss (s : State) (i : Link) (x : Nat) (j : Link) :
    (s.setLoss i x).transmitter j = s.transmitter j := (rfl)

@[simp] theorem delivery_setLoss (s : State) (i : Link) (x : Nat) (j : Link) :
    (s.setLoss i x).delivery j = s.delivery j := (rfl)

@[simp] theorem queue_setLoss (s : State) (i : Link) (x : Nat) (j : Link) :
    (s.setLoss i x).queue j = s.queue j := (rfl)

@[simp] theorem claimSet_setLoss (s : State) (i : Link) (x : Nat) (j : OutputIx) :
    (s.setLoss i x).claimSet j = s.claimSet j := (rfl)

@[simp] theorem watchTickDue_setLoss (s : State) (i : Link) (x : Nat) (j : WatchIx) :
    (s.setLoss i x).watchTickDue j = s.watchTickDue j := (rfl)

@[simp] theorem isUp_setLoss (s : State) (i : Link) (x : Nat) (j : Link) : (s.setLoss i x).isUp j = s.isUp j := (rfl)

@[simp] theorem upAtNotices_setLoss (s : State) (i : Link) (x : Nat) (j : Link) :
    (s.setLoss i x).upAtNotices j = s.upAtNotices j := (rfl)

@[simp] theorem pending_setLoss (s : State) (i : Link) (x : Nat) : (s.setLoss i x).pending = s.pending := (rfl)

@[simp] theorem resetIsHeld_setLoss (s : State) (i : Link) (x : Nat) : (s.setLoss i x).resetIsHeld = s.resetIsHeld := (rfl)

@[simp] theorem resetCause_setLoss (s : State) (i : Link) (x : Nat) : (s.setLoss i x).resetCause = s.resetCause := (rfl)

@[simp] theorem rate_setLoss (s : State) (i : Link) (x : Nat) : (s.setLoss i x).rate = s.rate := (rfl)

@[simp] theorem evPins_setLoss (s : State) (i : Link) (x : Nat) : (s.setLoss i x).evPins = s.evPins := (rfl)

@[simp] theorem uptime_setLoss (s : State) (i : Link) (x : Nat) : (s.setLoss i x).uptime = s.uptime := (rfl)

@[simp] theorem owedTicks_setLoss (s : State) (i : Link) (x : Nat) : (s.setLoss i x).owedTicks = s.owedTicks := (rfl)

@[simp] theorem watches_setLoss (s : State) (i : Link) (x : Nat) : (s.setLoss i x).watches = s.watches := (rfl)

@[simp] theorem watchTicksDue_setLoss (s : State) (i : Link) (x : Nat) : (s.setLoss i x).watchTicksDue = s.watchTicksDue := (rfl)

@[simp] theorem lines_setLoss (s : State) (i : Link) (x : Nat) : (s.setLoss i x).lines = s.lines := (rfl)

@[simp] theorem claims_setLoss (s : State) (i : Link) (x : Nat) : (s.setLoss i x).claims = s.claims := (rfl)

@[simp] theorem claimTickDue_setLoss (s : State) (i : Link) (x : Nat) : (s.setLoss i x).claimTickDue = s.claimTickDue := (rfl)

@[simp] theorem authority_setLoss (s : State) (i : Link) (x : Nat) : (s.setLoss i x).authority = s.authority := (rfl)

@[simp] theorem links_setLoss (s : State) (i : Link) (x : Nat) : (s.setLoss i x).links = s.links := (rfl)

@[simp] theorem receivers_setLoss (s : State) (i : Link) (x : Nat) : (s.setLoss i x).receivers = s.receivers := (rfl)

@[simp] theorem transmitters_setLoss (s : State) (i : Link) (x : Nat) : (s.setLoss i x).transmitters = s.transmitters := (rfl)

@[simp] theorem deliveries_setLoss (s : State) (i : Link) (x : Nat) : (s.setLoss i x).deliveries = s.deliveries := (rfl)

@[simp] theorem queues_setLoss (s : State) (i : Link) (x : Nat) : (s.setLoss i x).queues = s.queues := (rfl)

@[simp] theorem transit_setLoss (s : State) (i : Link) (x : Nat) : (s.setLoss i x).transit = s.transit := (rfl)

@[simp] theorem stamp_setLoss (s : State) (i : Link) (x : Nat) : (s.setLoss i x).stamp = s.stamp := (rfl)

@[simp] theorem choices_setLoss (s : State) (i : Link) (x : Nat) : (s.setLoss i x).choices = s.choices := (rfl)

/-! ### `setClaimSet` -/

@[simp] theorem claimSet_setClaimSet_same (s : State) (i : OutputIx) (x : ClaimSet) : (s.setClaimSet i x).claimSet i = x := (get_put_same _ _ _)

@[simp] theorem claimSet_setClaimSet_other (s : State) (i : OutputIx) (x : ClaimSet) (j : OutputIx) (h : j ≠ i) :
    (s.setClaimSet i x).claimSet j = s.claimSet j := get_put_other _ _ _ _ h

theorem claimSet_setClaimSet (s : State) (i : OutputIx) (x : ClaimSet) (j : OutputIx) :
    (s.setClaimSet i x).claimSet j = if j = i then x else s.claimSet j := get_put _ _ _ _

@[simp] theorem setClaimSet_self (s : State) (i : OutputIx) : s.setClaimSet i (s.claimSet i) = s := by
  simp [State.setClaimSet, State.claimSet]

@[simp] theorem setClaimSet_setClaimSet (s : State) (i : OutputIx) (x y : ClaimSet) :
    (s.setClaimSet i x).setClaimSet i y = s.setClaimSet i y := by
  simp [State.setClaimSet]

@[simp] theorem watch_setClaimSet (s : State) (i : OutputIx) (x : ClaimSet) (j : WatchIx) :
    (s.setClaimSet i x).watch j = s.watch j := (rfl)

@[simp] theorem line_setClaimSet (s : State) (i : OutputIx) (x : ClaimSet) (j : LineIx) :
    (s.setClaimSet i x).line j = s.line j := (rfl)

@[simp] theorem link_setClaimSet (s : State) (i : OutputIx) (x : ClaimSet) (j : Link) :
    (s.setClaimSet i x).link j = s.link j := (rfl)

@[simp] theorem receiver_setClaimSet (s : State) (i : OutputIx) (x : ClaimSet) (j : Link) :
    (s.setClaimSet i x).receiver j = s.receiver j := (rfl)

@[simp] theorem transmitter_setClaimSet (s : State) (i : OutputIx) (x : ClaimSet) (j : Link) :
    (s.setClaimSet i x).transmitter j = s.transmitter j := (rfl)

@[simp] theorem delivery_setClaimSet (s : State) (i : OutputIx) (x : ClaimSet) (j : Link) :
    (s.setClaimSet i x).delivery j = s.delivery j := (rfl)

@[simp] theorem queue_setClaimSet (s : State) (i : OutputIx) (x : ClaimSet) (j : Link) :
    (s.setClaimSet i x).queue j = s.queue j := (rfl)

@[simp] theorem loss_setClaimSet (s : State) (i : OutputIx) (x : ClaimSet) (j : Link) :
    (s.setClaimSet i x).loss j = s.loss j := (rfl)

@[simp] theorem watchTickDue_setClaimSet (s : State) (i : OutputIx) (x : ClaimSet) (j : WatchIx) :
    (s.setClaimSet i x).watchTickDue j = s.watchTickDue j := (rfl)

@[simp] theorem isUp_setClaimSet (s : State) (i : OutputIx) (x : ClaimSet) (j : Link) : (s.setClaimSet i x).isUp j = s.isUp j := (rfl)

@[simp] theorem upAtNotices_setClaimSet (s : State) (i : OutputIx) (x : ClaimSet) (j : Link) :
    (s.setClaimSet i x).upAtNotices j = s.upAtNotices j := (rfl)

@[simp] theorem pending_setClaimSet (s : State) (i : OutputIx) (x : ClaimSet) : (s.setClaimSet i x).pending = s.pending := (rfl)

@[simp] theorem resetIsHeld_setClaimSet (s : State) (i : OutputIx) (x : ClaimSet) : (s.setClaimSet i x).resetIsHeld = s.resetIsHeld := (rfl)

@[simp] theorem resetCause_setClaimSet (s : State) (i : OutputIx) (x : ClaimSet) : (s.setClaimSet i x).resetCause = s.resetCause := (rfl)

@[simp] theorem rate_setClaimSet (s : State) (i : OutputIx) (x : ClaimSet) : (s.setClaimSet i x).rate = s.rate := (rfl)

@[simp] theorem evPins_setClaimSet (s : State) (i : OutputIx) (x : ClaimSet) : (s.setClaimSet i x).evPins = s.evPins := (rfl)

@[simp] theorem uptime_setClaimSet (s : State) (i : OutputIx) (x : ClaimSet) : (s.setClaimSet i x).uptime = s.uptime := (rfl)

@[simp] theorem owedTicks_setClaimSet (s : State) (i : OutputIx) (x : ClaimSet) : (s.setClaimSet i x).owedTicks = s.owedTicks := (rfl)

@[simp] theorem watches_setClaimSet (s : State) (i : OutputIx) (x : ClaimSet) : (s.setClaimSet i x).watches = s.watches := (rfl)

@[simp] theorem watchTicksDue_setClaimSet (s : State) (i : OutputIx) (x : ClaimSet) : (s.setClaimSet i x).watchTicksDue = s.watchTicksDue := (rfl)

@[simp] theorem lines_setClaimSet (s : State) (i : OutputIx) (x : ClaimSet) : (s.setClaimSet i x).lines = s.lines := (rfl)

@[simp] theorem claimTickDue_setClaimSet (s : State) (i : OutputIx) (x : ClaimSet) : (s.setClaimSet i x).claimTickDue = s.claimTickDue := (rfl)

@[simp] theorem authority_setClaimSet (s : State) (i : OutputIx) (x : ClaimSet) : (s.setClaimSet i x).authority = s.authority := (rfl)

@[simp] theorem links_setClaimSet (s : State) (i : OutputIx) (x : ClaimSet) : (s.setClaimSet i x).links = s.links := (rfl)

@[simp] theorem receivers_setClaimSet (s : State) (i : OutputIx) (x : ClaimSet) : (s.setClaimSet i x).receivers = s.receivers := (rfl)

@[simp] theorem transmitters_setClaimSet (s : State) (i : OutputIx) (x : ClaimSet) : (s.setClaimSet i x).transmitters = s.transmitters := (rfl)

@[simp] theorem deliveries_setClaimSet (s : State) (i : OutputIx) (x : ClaimSet) : (s.setClaimSet i x).deliveries = s.deliveries := (rfl)

@[simp] theorem queues_setClaimSet (s : State) (i : OutputIx) (x : ClaimSet) : (s.setClaimSet i x).queues = s.queues := (rfl)

@[simp] theorem losses_setClaimSet (s : State) (i : OutputIx) (x : ClaimSet) : (s.setClaimSet i x).losses = s.losses := (rfl)

@[simp] theorem transit_setClaimSet (s : State) (i : OutputIx) (x : ClaimSet) : (s.setClaimSet i x).transit = s.transit := (rfl)

@[simp] theorem stamp_setClaimSet (s : State) (i : OutputIx) (x : ClaimSet) : (s.setClaimSet i x).stamp = s.stamp := (rfl)

@[simp] theorem choices_setClaimSet (s : State) (i : OutputIx) (x : ClaimSet) : (s.setClaimSet i x).choices = s.choices := (rfl)

/-! ### `setWatchTickDue` -/

@[simp] theorem watchTickDue_setWatchTickDue_same (s : State) (i : WatchIx) (x : Option Base) : (s.setWatchTickDue i x).watchTickDue i = x := (get_put_same _ _ _)

@[simp] theorem watchTickDue_setWatchTickDue_other (s : State) (i : WatchIx) (x : Option Base) (j : WatchIx) (h : j ≠ i) :
    (s.setWatchTickDue i x).watchTickDue j = s.watchTickDue j := get_put_other _ _ _ _ h

theorem watchTickDue_setWatchTickDue (s : State) (i : WatchIx) (x : Option Base) (j : WatchIx) :
    (s.setWatchTickDue i x).watchTickDue j = if j = i then x else s.watchTickDue j := get_put _ _ _ _

@[simp] theorem setWatchTickDue_self (s : State) (i : WatchIx) : s.setWatchTickDue i (s.watchTickDue i) = s := by
  simp [State.setWatchTickDue, State.watchTickDue]

@[simp] theorem setWatchTickDue_setWatchTickDue (s : State) (i : WatchIx) (x y : Option Base) :
    (s.setWatchTickDue i x).setWatchTickDue i y = s.setWatchTickDue i y := by
  simp [State.setWatchTickDue]

@[simp] theorem watch_setWatchTickDue (s : State) (i : WatchIx) (x : Option Base) (j : WatchIx) :
    (s.setWatchTickDue i x).watch j = s.watch j := (rfl)

@[simp] theorem line_setWatchTickDue (s : State) (i : WatchIx) (x : Option Base) (j : LineIx) :
    (s.setWatchTickDue i x).line j = s.line j := (rfl)

@[simp] theorem link_setWatchTickDue (s : State) (i : WatchIx) (x : Option Base) (j : Link) :
    (s.setWatchTickDue i x).link j = s.link j := (rfl)

@[simp] theorem receiver_setWatchTickDue (s : State) (i : WatchIx) (x : Option Base) (j : Link) :
    (s.setWatchTickDue i x).receiver j = s.receiver j := (rfl)

@[simp] theorem transmitter_setWatchTickDue (s : State) (i : WatchIx) (x : Option Base) (j : Link) :
    (s.setWatchTickDue i x).transmitter j = s.transmitter j := (rfl)

@[simp] theorem delivery_setWatchTickDue (s : State) (i : WatchIx) (x : Option Base) (j : Link) :
    (s.setWatchTickDue i x).delivery j = s.delivery j := (rfl)

@[simp] theorem queue_setWatchTickDue (s : State) (i : WatchIx) (x : Option Base) (j : Link) :
    (s.setWatchTickDue i x).queue j = s.queue j := (rfl)

@[simp] theorem loss_setWatchTickDue (s : State) (i : WatchIx) (x : Option Base) (j : Link) :
    (s.setWatchTickDue i x).loss j = s.loss j := (rfl)

@[simp] theorem claimSet_setWatchTickDue (s : State) (i : WatchIx) (x : Option Base) (j : OutputIx) :
    (s.setWatchTickDue i x).claimSet j = s.claimSet j := (rfl)

@[simp] theorem isUp_setWatchTickDue (s : State) (i : WatchIx) (x : Option Base) (j : Link) : (s.setWatchTickDue i x).isUp j = s.isUp j := (rfl)

@[simp] theorem upAtNotices_setWatchTickDue (s : State) (i : WatchIx) (x : Option Base) (j : Link) :
    (s.setWatchTickDue i x).upAtNotices j = s.upAtNotices j := (rfl)

@[simp] theorem pending_setWatchTickDue (s : State) (i : WatchIx) (x : Option Base) : (s.setWatchTickDue i x).pending = s.pending := (rfl)

@[simp] theorem resetIsHeld_setWatchTickDue (s : State) (i : WatchIx) (x : Option Base) : (s.setWatchTickDue i x).resetIsHeld = s.resetIsHeld := (rfl)

@[simp] theorem resetCause_setWatchTickDue (s : State) (i : WatchIx) (x : Option Base) : (s.setWatchTickDue i x).resetCause = s.resetCause := (rfl)

@[simp] theorem rate_setWatchTickDue (s : State) (i : WatchIx) (x : Option Base) : (s.setWatchTickDue i x).rate = s.rate := (rfl)

@[simp] theorem evPins_setWatchTickDue (s : State) (i : WatchIx) (x : Option Base) : (s.setWatchTickDue i x).evPins = s.evPins := (rfl)

@[simp] theorem uptime_setWatchTickDue (s : State) (i : WatchIx) (x : Option Base) : (s.setWatchTickDue i x).uptime = s.uptime := (rfl)

@[simp] theorem owedTicks_setWatchTickDue (s : State) (i : WatchIx) (x : Option Base) : (s.setWatchTickDue i x).owedTicks = s.owedTicks := (rfl)

@[simp] theorem watches_setWatchTickDue (s : State) (i : WatchIx) (x : Option Base) : (s.setWatchTickDue i x).watches = s.watches := (rfl)

@[simp] theorem lines_setWatchTickDue (s : State) (i : WatchIx) (x : Option Base) : (s.setWatchTickDue i x).lines = s.lines := (rfl)

@[simp] theorem claims_setWatchTickDue (s : State) (i : WatchIx) (x : Option Base) : (s.setWatchTickDue i x).claims = s.claims := (rfl)

@[simp] theorem claimTickDue_setWatchTickDue (s : State) (i : WatchIx) (x : Option Base) : (s.setWatchTickDue i x).claimTickDue = s.claimTickDue := (rfl)

@[simp] theorem authority_setWatchTickDue (s : State) (i : WatchIx) (x : Option Base) : (s.setWatchTickDue i x).authority = s.authority := (rfl)

@[simp] theorem links_setWatchTickDue (s : State) (i : WatchIx) (x : Option Base) : (s.setWatchTickDue i x).links = s.links := (rfl)

@[simp] theorem receivers_setWatchTickDue (s : State) (i : WatchIx) (x : Option Base) : (s.setWatchTickDue i x).receivers = s.receivers := (rfl)

@[simp] theorem transmitters_setWatchTickDue (s : State) (i : WatchIx) (x : Option Base) : (s.setWatchTickDue i x).transmitters = s.transmitters := (rfl)

@[simp] theorem deliveries_setWatchTickDue (s : State) (i : WatchIx) (x : Option Base) : (s.setWatchTickDue i x).deliveries = s.deliveries := (rfl)

@[simp] theorem queues_setWatchTickDue (s : State) (i : WatchIx) (x : Option Base) : (s.setWatchTickDue i x).queues = s.queues := (rfl)

@[simp] theorem losses_setWatchTickDue (s : State) (i : WatchIx) (x : Option Base) : (s.setWatchTickDue i x).losses = s.losses := (rfl)

@[simp] theorem transit_setWatchTickDue (s : State) (i : WatchIx) (x : Option Base) : (s.setWatchTickDue i x).transit = s.transit := (rfl)

@[simp] theorem stamp_setWatchTickDue (s : State) (i : WatchIx) (x : Option Base) : (s.setWatchTickDue i x).stamp = s.stamp := (rfl)

@[simp] theorem choices_setWatchTickDue (s : State) (i : WatchIx) (x : Option Base) : (s.setWatchTickDue i x).choices = s.choices := (rfl)

/-! ### `setPins` -/

@[simp] theorem watch_setPins (s : State) (pins : Half) (j : WatchIx) : (s.setPins pins).watch j = s.watch j := (rfl)

@[simp] theorem line_setPins (s : State) (pins : Half) (j : LineIx) : (s.setPins pins).line j = s.line j := (rfl)

@[simp] theorem link_setPins (s : State) (pins : Half) (j : Link) : (s.setPins pins).link j = s.link j := (rfl)

@[simp] theorem receiver_setPins (s : State) (pins : Half) (j : Link) : (s.setPins pins).receiver j = s.receiver j := (rfl)

@[simp] theorem transmitter_setPins (s : State) (pins : Half) (j : Link) : (s.setPins pins).transmitter j = s.transmitter j := (rfl)

@[simp] theorem delivery_setPins (s : State) (pins : Half) (j : Link) : (s.setPins pins).delivery j = s.delivery j := (rfl)

@[simp] theorem queue_setPins (s : State) (pins : Half) (j : Link) : (s.setPins pins).queue j = s.queue j := (rfl)

@[simp] theorem loss_setPins (s : State) (pins : Half) (j : Link) : (s.setPins pins).loss j = s.loss j := (rfl)

@[simp] theorem claimSet_setPins (s : State) (pins : Half) (j : OutputIx) : (s.setPins pins).claimSet j = s.claimSet j := (rfl)

@[simp] theorem watchTickDue_setPins (s : State) (pins : Half) (j : WatchIx) : (s.setPins pins).watchTickDue j = s.watchTickDue j := (rfl)

@[simp] theorem isUp_setPins (s : State) (pins : Half) (j : Link) : (s.setPins pins).isUp j = s.isUp j := (rfl)

@[simp] theorem upAtNotices_setPins (s : State) (pins : Half) (j : Link) :
    (s.setPins pins).upAtNotices j = s.upAtNotices j := (rfl)

@[simp] theorem pending_setPins (s : State) (pins : Half) : (s.setPins pins).pending = s.pending := (rfl)

@[simp] theorem resetIsHeld_setPins (s : State) (pins : Half) : (s.setPins pins).resetIsHeld = s.resetIsHeld := (rfl)

@[simp] theorem resetCause_setPins (s : State) (pins : Half) : (s.setPins pins).resetCause = s.resetCause := (rfl)

@[simp] theorem rate_setPins (s : State) (pins : Half) : (s.setPins pins).rate = s.rate := (rfl)

@[simp] theorem uptime_setPins (s : State) (pins : Half) : (s.setPins pins).uptime = s.uptime := (rfl)

@[simp] theorem owedTicks_setPins (s : State) (pins : Half) : (s.setPins pins).owedTicks = s.owedTicks := (rfl)

@[simp] theorem watches_setPins (s : State) (pins : Half) : (s.setPins pins).watches = s.watches := (rfl)

@[simp] theorem watchTicksDue_setPins (s : State) (pins : Half) : (s.setPins pins).watchTicksDue = s.watchTicksDue := (rfl)

@[simp] theorem lines_setPins (s : State) (pins : Half) : (s.setPins pins).lines = s.lines := (rfl)

@[simp] theorem claims_setPins (s : State) (pins : Half) : (s.setPins pins).claims = s.claims := (rfl)

@[simp] theorem claimTickDue_setPins (s : State) (pins : Half) : (s.setPins pins).claimTickDue = s.claimTickDue := (rfl)

@[simp] theorem authority_setPins (s : State) (pins : Half) : (s.setPins pins).authority = s.authority := (rfl)

@[simp] theorem links_setPins (s : State) (pins : Half) : (s.setPins pins).links = s.links := (rfl)

@[simp] theorem receivers_setPins (s : State) (pins : Half) : (s.setPins pins).receivers = s.receivers := (rfl)

@[simp] theorem transmitters_setPins (s : State) (pins : Half) : (s.setPins pins).transmitters = s.transmitters := (rfl)

@[simp] theorem deliveries_setPins (s : State) (pins : Half) : (s.setPins pins).deliveries = s.deliveries := (rfl)

@[simp] theorem queues_setPins (s : State) (pins : Half) : (s.setPins pins).queues = s.queues := (rfl)

@[simp] theorem losses_setPins (s : State) (pins : Half) : (s.setPins pins).losses = s.losses := (rfl)

@[simp] theorem transit_setPins (s : State) (pins : Half) : (s.setPins pins).transit = s.transit := (rfl)

@[simp] theorem stamp_setPins (s : State) (pins : Half) : (s.setPins pins).stamp = s.stamp := (rfl)

@[simp] theorem choices_setPins (s : State) (pins : Half) : (s.setPins pins).choices = s.choices := (rfl)

@[simp] theorem evPins_setPins (s : State) (pins : Half) : (s.setPins pins).evPins = pins := (rfl)

/-! ### `setOwedTicks` -/

@[simp] theorem watch_setOwedTicks (s : State) (ports : List TickPort) (j : WatchIx) : (s.setOwedTicks ports).watch j = s.watch j := (rfl)

@[simp] theorem line_setOwedTicks (s : State) (ports : List TickPort) (j : LineIx) : (s.setOwedTicks ports).line j = s.line j := (rfl)

@[simp] theorem link_setOwedTicks (s : State) (ports : List TickPort) (j : Link) : (s.setOwedTicks ports).link j = s.link j := (rfl)

@[simp] theorem receiver_setOwedTicks (s : State) (ports : List TickPort) (j : Link) : (s.setOwedTicks ports).receiver j = s.receiver j := (rfl)

@[simp] theorem transmitter_setOwedTicks (s : State) (ports : List TickPort) (j : Link) : (s.setOwedTicks ports).transmitter j = s.transmitter j := (rfl)

@[simp] theorem delivery_setOwedTicks (s : State) (ports : List TickPort) (j : Link) : (s.setOwedTicks ports).delivery j = s.delivery j := (rfl)

@[simp] theorem queue_setOwedTicks (s : State) (ports : List TickPort) (j : Link) : (s.setOwedTicks ports).queue j = s.queue j := (rfl)

@[simp] theorem loss_setOwedTicks (s : State) (ports : List TickPort) (j : Link) : (s.setOwedTicks ports).loss j = s.loss j := (rfl)

@[simp] theorem claimSet_setOwedTicks (s : State) (ports : List TickPort) (j : OutputIx) : (s.setOwedTicks ports).claimSet j = s.claimSet j := (rfl)

@[simp] theorem watchTickDue_setOwedTicks (s : State) (ports : List TickPort) (j : WatchIx) : (s.setOwedTicks ports).watchTickDue j = s.watchTickDue j := (rfl)

@[simp] theorem isUp_setOwedTicks (s : State) (ports : List TickPort) (j : Link) : (s.setOwedTicks ports).isUp j = s.isUp j := (rfl)

@[simp] theorem upAtNotices_setOwedTicks (s : State) (ports : List TickPort) (j : Link) :
    (s.setOwedTicks ports).upAtNotices j = s.upAtNotices j := (rfl)

@[simp] theorem pending_setOwedTicks (s : State) (ports : List TickPort) : (s.setOwedTicks ports).pending = s.pending := (rfl)

@[simp] theorem resetIsHeld_setOwedTicks (s : State) (ports : List TickPort) : (s.setOwedTicks ports).resetIsHeld = s.resetIsHeld := (rfl)

@[simp] theorem resetCause_setOwedTicks (s : State) (ports : List TickPort) : (s.setOwedTicks ports).resetCause = s.resetCause := (rfl)

@[simp] theorem rate_setOwedTicks (s : State) (ports : List TickPort) : (s.setOwedTicks ports).rate = s.rate := (rfl)

@[simp] theorem evPins_setOwedTicks (s : State) (ports : List TickPort) : (s.setOwedTicks ports).evPins = s.evPins := (rfl)

@[simp] theorem uptime_setOwedTicks (s : State) (ports : List TickPort) : (s.setOwedTicks ports).uptime = s.uptime := (rfl)

@[simp] theorem watches_setOwedTicks (s : State) (ports : List TickPort) : (s.setOwedTicks ports).watches = s.watches := (rfl)

@[simp] theorem watchTicksDue_setOwedTicks (s : State) (ports : List TickPort) : (s.setOwedTicks ports).watchTicksDue = s.watchTicksDue := (rfl)

@[simp] theorem lines_setOwedTicks (s : State) (ports : List TickPort) : (s.setOwedTicks ports).lines = s.lines := (rfl)

@[simp] theorem claims_setOwedTicks (s : State) (ports : List TickPort) : (s.setOwedTicks ports).claims = s.claims := (rfl)

@[simp] theorem claimTickDue_setOwedTicks (s : State) (ports : List TickPort) : (s.setOwedTicks ports).claimTickDue = s.claimTickDue := (rfl)

@[simp] theorem authority_setOwedTicks (s : State) (ports : List TickPort) : (s.setOwedTicks ports).authority = s.authority := (rfl)

@[simp] theorem links_setOwedTicks (s : State) (ports : List TickPort) : (s.setOwedTicks ports).links = s.links := (rfl)

@[simp] theorem receivers_setOwedTicks (s : State) (ports : List TickPort) : (s.setOwedTicks ports).receivers = s.receivers := (rfl)

@[simp] theorem transmitters_setOwedTicks (s : State) (ports : List TickPort) : (s.setOwedTicks ports).transmitters = s.transmitters := (rfl)

@[simp] theorem deliveries_setOwedTicks (s : State) (ports : List TickPort) : (s.setOwedTicks ports).deliveries = s.deliveries := (rfl)

@[simp] theorem queues_setOwedTicks (s : State) (ports : List TickPort) : (s.setOwedTicks ports).queues = s.queues := (rfl)

@[simp] theorem losses_setOwedTicks (s : State) (ports : List TickPort) : (s.setOwedTicks ports).losses = s.losses := (rfl)

@[simp] theorem transit_setOwedTicks (s : State) (ports : List TickPort) : (s.setOwedTicks ports).transit = s.transit := (rfl)

@[simp] theorem stamp_setOwedTicks (s : State) (ports : List TickPort) : (s.setOwedTicks ports).stamp = s.stamp := (rfl)

@[simp] theorem choices_setOwedTicks (s : State) (ports : List TickPort) : (s.setOwedTicks ports).choices = s.choices := (rfl)

@[simp] theorem owedTicks_setOwedTicks (s : State) (ports : List TickPort) :
    (s.setOwedTicks ports).owedTicks = ports := (rfl)

/-! ### `setTransit` -/

@[simp] theorem watch_setTransit (s : State) (t : Transit) (j : WatchIx) : (s.setTransit t).watch j = s.watch j := (rfl)

@[simp] theorem line_setTransit (s : State) (t : Transit) (j : LineIx) : (s.setTransit t).line j = s.line j := (rfl)

@[simp] theorem link_setTransit (s : State) (t : Transit) (j : Link) : (s.setTransit t).link j = s.link j := (rfl)

@[simp] theorem receiver_setTransit (s : State) (t : Transit) (j : Link) : (s.setTransit t).receiver j = s.receiver j := (rfl)

@[simp] theorem transmitter_setTransit (s : State) (t : Transit) (j : Link) : (s.setTransit t).transmitter j = s.transmitter j := (rfl)

@[simp] theorem delivery_setTransit (s : State) (t : Transit) (j : Link) : (s.setTransit t).delivery j = s.delivery j := (rfl)

@[simp] theorem queue_setTransit (s : State) (t : Transit) (j : Link) : (s.setTransit t).queue j = s.queue j := (rfl)

@[simp] theorem loss_setTransit (s : State) (t : Transit) (j : Link) : (s.setTransit t).loss j = s.loss j := (rfl)

@[simp] theorem claimSet_setTransit (s : State) (t : Transit) (j : OutputIx) : (s.setTransit t).claimSet j = s.claimSet j := (rfl)

@[simp] theorem watchTickDue_setTransit (s : State) (t : Transit) (j : WatchIx) : (s.setTransit t).watchTickDue j = s.watchTickDue j := (rfl)

@[simp] theorem isUp_setTransit (s : State) (t : Transit) (j : Link) : (s.setTransit t).isUp j = s.isUp j := (rfl)

@[simp] theorem pending_setTransit (s : State) (t : Transit) : (s.setTransit t).pending = s.pending := (rfl)

@[simp] theorem resetIsHeld_setTransit (s : State) (t : Transit) : (s.setTransit t).resetIsHeld = s.resetIsHeld := (rfl)

@[simp] theorem resetCause_setTransit (s : State) (t : Transit) : (s.setTransit t).resetCause = s.resetCause := (rfl)

@[simp] theorem rate_setTransit (s : State) (t : Transit) : (s.setTransit t).rate = s.rate := (rfl)

@[simp] theorem evPins_setTransit (s : State) (t : Transit) : (s.setTransit t).evPins = s.evPins := (rfl)

@[simp] theorem uptime_setTransit (s : State) (t : Transit) : (s.setTransit t).uptime = s.uptime := (rfl)

@[simp] theorem owedTicks_setTransit (s : State) (t : Transit) : (s.setTransit t).owedTicks = s.owedTicks := (rfl)

@[simp] theorem watches_setTransit (s : State) (t : Transit) : (s.setTransit t).watches = s.watches := (rfl)

@[simp] theorem watchTicksDue_setTransit (s : State) (t : Transit) : (s.setTransit t).watchTicksDue = s.watchTicksDue := (rfl)

@[simp] theorem lines_setTransit (s : State) (t : Transit) : (s.setTransit t).lines = s.lines := (rfl)

@[simp] theorem claims_setTransit (s : State) (t : Transit) : (s.setTransit t).claims = s.claims := (rfl)

@[simp] theorem claimTickDue_setTransit (s : State) (t : Transit) : (s.setTransit t).claimTickDue = s.claimTickDue := (rfl)

@[simp] theorem authority_setTransit (s : State) (t : Transit) : (s.setTransit t).authority = s.authority := (rfl)

@[simp] theorem links_setTransit (s : State) (t : Transit) : (s.setTransit t).links = s.links := (rfl)

@[simp] theorem receivers_setTransit (s : State) (t : Transit) : (s.setTransit t).receivers = s.receivers := (rfl)

@[simp] theorem transmitters_setTransit (s : State) (t : Transit) : (s.setTransit t).transmitters = s.transmitters := (rfl)

@[simp] theorem deliveries_setTransit (s : State) (t : Transit) : (s.setTransit t).deliveries = s.deliveries := (rfl)

@[simp] theorem queues_setTransit (s : State) (t : Transit) : (s.setTransit t).queues = s.queues := (rfl)

@[simp] theorem losses_setTransit (s : State) (t : Transit) : (s.setTransit t).losses = s.losses := (rfl)

@[simp] theorem stamp_setTransit (s : State) (t : Transit) : (s.setTransit t).stamp = s.stamp := (rfl)

@[simp] theorem choices_setTransit (s : State) (t : Transit) : (s.setTransit t).choices = s.choices := (rfl)

@[simp] theorem transit_setTransit (s : State) (t : Transit) : (s.setTransit t).transit = t := (rfl)

@[simp] theorem setTransit_self (s : State) : s.setTransit s.transit = s := (rfl)

@[simp] theorem setTransit_setTransit (s : State) (t u : Transit) :
    (s.setTransit t).setTransit u = s.setTransit u := (rfl)

/-! ### `setClaimTickDue` -/

@[simp] theorem watch_setClaimTickDue (s : State) (due : Bool) (j : WatchIx) : (s.setClaimTickDue due).watch j = s.watch j := (rfl)

@[simp] theorem line_setClaimTickDue (s : State) (due : Bool) (j : LineIx) : (s.setClaimTickDue due).line j = s.line j := (rfl)

@[simp] theorem link_setClaimTickDue (s : State) (due : Bool) (j : Link) : (s.setClaimTickDue due).link j = s.link j := (rfl)

@[simp] theorem receiver_setClaimTickDue (s : State) (due : Bool) (j : Link) : (s.setClaimTickDue due).receiver j = s.receiver j := (rfl)

@[simp] theorem transmitter_setClaimTickDue (s : State) (due : Bool) (j : Link) : (s.setClaimTickDue due).transmitter j = s.transmitter j := (rfl)

@[simp] theorem delivery_setClaimTickDue (s : State) (due : Bool) (j : Link) : (s.setClaimTickDue due).delivery j = s.delivery j := (rfl)

@[simp] theorem queue_setClaimTickDue (s : State) (due : Bool) (j : Link) : (s.setClaimTickDue due).queue j = s.queue j := (rfl)

@[simp] theorem loss_setClaimTickDue (s : State) (due : Bool) (j : Link) : (s.setClaimTickDue due).loss j = s.loss j := (rfl)

@[simp] theorem claimSet_setClaimTickDue (s : State) (due : Bool) (j : OutputIx) : (s.setClaimTickDue due).claimSet j = s.claimSet j := (rfl)

@[simp] theorem watchTickDue_setClaimTickDue (s : State) (due : Bool) (j : WatchIx) : (s.setClaimTickDue due).watchTickDue j = s.watchTickDue j := (rfl)

@[simp] theorem isUp_setClaimTickDue (s : State) (due : Bool) (j : Link) : (s.setClaimTickDue due).isUp j = s.isUp j := (rfl)

@[simp] theorem upAtNotices_setClaimTickDue (s : State) (due : Bool) (j : Link) :
    (s.setClaimTickDue due).upAtNotices j = s.upAtNotices j := (rfl)

@[simp] theorem pending_setClaimTickDue (s : State) (due : Bool) : (s.setClaimTickDue due).pending = s.pending := (rfl)

@[simp] theorem resetIsHeld_setClaimTickDue (s : State) (due : Bool) : (s.setClaimTickDue due).resetIsHeld = s.resetIsHeld := (rfl)

@[simp] theorem resetCause_setClaimTickDue (s : State) (due : Bool) : (s.setClaimTickDue due).resetCause = s.resetCause := (rfl)

@[simp] theorem rate_setClaimTickDue (s : State) (due : Bool) : (s.setClaimTickDue due).rate = s.rate := (rfl)

@[simp] theorem evPins_setClaimTickDue (s : State) (due : Bool) : (s.setClaimTickDue due).evPins = s.evPins := (rfl)

@[simp] theorem uptime_setClaimTickDue (s : State) (due : Bool) : (s.setClaimTickDue due).uptime = s.uptime := (rfl)

@[simp] theorem owedTicks_setClaimTickDue (s : State) (due : Bool) : (s.setClaimTickDue due).owedTicks = s.owedTicks := (rfl)

@[simp] theorem watches_setClaimTickDue (s : State) (due : Bool) : (s.setClaimTickDue due).watches = s.watches := (rfl)

@[simp] theorem watchTicksDue_setClaimTickDue (s : State) (due : Bool) : (s.setClaimTickDue due).watchTicksDue = s.watchTicksDue := (rfl)

@[simp] theorem lines_setClaimTickDue (s : State) (due : Bool) : (s.setClaimTickDue due).lines = s.lines := (rfl)

@[simp] theorem claims_setClaimTickDue (s : State) (due : Bool) : (s.setClaimTickDue due).claims = s.claims := (rfl)

@[simp] theorem authority_setClaimTickDue (s : State) (due : Bool) : (s.setClaimTickDue due).authority = s.authority := (rfl)

@[simp] theorem links_setClaimTickDue (s : State) (due : Bool) : (s.setClaimTickDue due).links = s.links := (rfl)

@[simp] theorem receivers_setClaimTickDue (s : State) (due : Bool) : (s.setClaimTickDue due).receivers = s.receivers := (rfl)

@[simp] theorem transmitters_setClaimTickDue (s : State) (due : Bool) : (s.setClaimTickDue due).transmitters = s.transmitters := (rfl)

@[simp] theorem deliveries_setClaimTickDue (s : State) (due : Bool) : (s.setClaimTickDue due).deliveries = s.deliveries := (rfl)

@[simp] theorem queues_setClaimTickDue (s : State) (due : Bool) : (s.setClaimTickDue due).queues = s.queues := (rfl)

@[simp] theorem losses_setClaimTickDue (s : State) (due : Bool) : (s.setClaimTickDue due).losses = s.losses := (rfl)

@[simp] theorem transit_setClaimTickDue (s : State) (due : Bool) : (s.setClaimTickDue due).transit = s.transit := (rfl)

@[simp] theorem stamp_setClaimTickDue (s : State) (due : Bool) : (s.setClaimTickDue due).stamp = s.stamp := (rfl)

@[simp] theorem choices_setClaimTickDue (s : State) (due : Bool) : (s.setClaimTickDue due).choices = s.choices := (rfl)

@[simp] theorem claimTickDue_setClaimTickDue (s : State) (due : Bool) :
    (s.setClaimTickDue due).claimTickDue = due := (rfl)

/-! ### `setAuthority` -/

@[simp] theorem watch_setAuthority (s : State) (a : Authority) (j : WatchIx) : (s.setAuthority a).watch j = s.watch j := (rfl)

@[simp] theorem line_setAuthority (s : State) (a : Authority) (j : LineIx) : (s.setAuthority a).line j = s.line j := (rfl)

@[simp] theorem link_setAuthority (s : State) (a : Authority) (j : Link) : (s.setAuthority a).link j = s.link j := (rfl)

@[simp] theorem receiver_setAuthority (s : State) (a : Authority) (j : Link) : (s.setAuthority a).receiver j = s.receiver j := (rfl)

@[simp] theorem transmitter_setAuthority (s : State) (a : Authority) (j : Link) : (s.setAuthority a).transmitter j = s.transmitter j := (rfl)

@[simp] theorem delivery_setAuthority (s : State) (a : Authority) (j : Link) : (s.setAuthority a).delivery j = s.delivery j := (rfl)

@[simp] theorem queue_setAuthority (s : State) (a : Authority) (j : Link) : (s.setAuthority a).queue j = s.queue j := (rfl)

@[simp] theorem loss_setAuthority (s : State) (a : Authority) (j : Link) : (s.setAuthority a).loss j = s.loss j := (rfl)

@[simp] theorem claimSet_setAuthority (s : State) (a : Authority) (j : OutputIx) : (s.setAuthority a).claimSet j = s.claimSet j := (rfl)

@[simp] theorem watchTickDue_setAuthority (s : State) (a : Authority) (j : WatchIx) : (s.setAuthority a).watchTickDue j = s.watchTickDue j := (rfl)

@[simp] theorem isUp_setAuthority (s : State) (a : Authority) (j : Link) : (s.setAuthority a).isUp j = s.isUp j := (rfl)

@[simp] theorem upAtNotices_setAuthority (s : State) (a : Authority) (j : Link) :
    (s.setAuthority a).upAtNotices j = s.upAtNotices j := (rfl)

@[simp] theorem pending_setAuthority (s : State) (a : Authority) : (s.setAuthority a).pending = s.pending := (rfl)

@[simp] theorem resetIsHeld_setAuthority (s : State) (a : Authority) : (s.setAuthority a).resetIsHeld = s.resetIsHeld := (rfl)

@[simp] theorem resetCause_setAuthority (s : State) (a : Authority) : (s.setAuthority a).resetCause = s.resetCause := (rfl)

@[simp] theorem rate_setAuthority (s : State) (a : Authority) : (s.setAuthority a).rate = s.rate := (rfl)

@[simp] theorem evPins_setAuthority (s : State) (a : Authority) : (s.setAuthority a).evPins = s.evPins := (rfl)

@[simp] theorem uptime_setAuthority (s : State) (a : Authority) : (s.setAuthority a).uptime = s.uptime := (rfl)

@[simp] theorem owedTicks_setAuthority (s : State) (a : Authority) : (s.setAuthority a).owedTicks = s.owedTicks := (rfl)

@[simp] theorem watches_setAuthority (s : State) (a : Authority) : (s.setAuthority a).watches = s.watches := (rfl)

@[simp] theorem watchTicksDue_setAuthority (s : State) (a : Authority) : (s.setAuthority a).watchTicksDue = s.watchTicksDue := (rfl)

@[simp] theorem lines_setAuthority (s : State) (a : Authority) : (s.setAuthority a).lines = s.lines := (rfl)

@[simp] theorem claims_setAuthority (s : State) (a : Authority) : (s.setAuthority a).claims = s.claims := (rfl)

@[simp] theorem claimTickDue_setAuthority (s : State) (a : Authority) : (s.setAuthority a).claimTickDue = s.claimTickDue := (rfl)

@[simp] theorem links_setAuthority (s : State) (a : Authority) : (s.setAuthority a).links = s.links := (rfl)

@[simp] theorem receivers_setAuthority (s : State) (a : Authority) : (s.setAuthority a).receivers = s.receivers := (rfl)

@[simp] theorem transmitters_setAuthority (s : State) (a : Authority) : (s.setAuthority a).transmitters = s.transmitters := (rfl)

@[simp] theorem deliveries_setAuthority (s : State) (a : Authority) : (s.setAuthority a).deliveries = s.deliveries := (rfl)

@[simp] theorem queues_setAuthority (s : State) (a : Authority) : (s.setAuthority a).queues = s.queues := (rfl)

@[simp] theorem losses_setAuthority (s : State) (a : Authority) : (s.setAuthority a).losses = s.losses := (rfl)

@[simp] theorem transit_setAuthority (s : State) (a : Authority) : (s.setAuthority a).transit = s.transit := (rfl)

@[simp] theorem stamp_setAuthority (s : State) (a : Authority) : (s.setAuthority a).stamp = s.stamp := (rfl)

@[simp] theorem choices_setAuthority (s : State) (a : Authority) : (s.setAuthority a).choices = s.choices := (rfl)

@[simp] theorem authority_setAuthority (s : State) (a : Authority) : (s.setAuthority a).authority = a := (rfl)

/-! ### `post` -/

@[simp] theorem watch_post (s : State) (cs : List Creation) (j : WatchIx) : (s.post cs).watch j = s.watch j := (rfl)

@[simp] theorem line_post (s : State) (cs : List Creation) (j : LineIx) : (s.post cs).line j = s.line j := (rfl)

@[simp] theorem link_post (s : State) (cs : List Creation) (j : Link) : (s.post cs).link j = s.link j := (rfl)

@[simp] theorem receiver_post (s : State) (cs : List Creation) (j : Link) : (s.post cs).receiver j = s.receiver j := (rfl)

@[simp] theorem transmitter_post (s : State) (cs : List Creation) (j : Link) : (s.post cs).transmitter j = s.transmitter j := (rfl)

@[simp] theorem delivery_post (s : State) (cs : List Creation) (j : Link) : (s.post cs).delivery j = s.delivery j := (rfl)

@[simp] theorem queue_post (s : State) (cs : List Creation) (j : Link) : (s.post cs).queue j = s.queue j := (rfl)

@[simp] theorem loss_post (s : State) (cs : List Creation) (j : Link) : (s.post cs).loss j = s.loss j := (rfl)

@[simp] theorem claimSet_post (s : State) (cs : List Creation) (j : OutputIx) : (s.post cs).claimSet j = s.claimSet j := (rfl)

@[simp] theorem watchTickDue_post (s : State) (cs : List Creation) (j : WatchIx) : (s.post cs).watchTickDue j = s.watchTickDue j := (rfl)

@[simp] theorem isUp_post (s : State) (cs : List Creation) (j : Link) : (s.post cs).isUp j = s.isUp j := (rfl)

@[simp] theorem upAtNotices_post (s : State) (cs : List Creation) (j : Link) :
    (s.post cs).upAtNotices j = s.upAtNotices j := (rfl)

@[simp] theorem pending_post (s : State) (cs : List Creation) : (s.post cs).pending = s.pending := (rfl)

@[simp] theorem resetIsHeld_post (s : State) (cs : List Creation) : (s.post cs).resetIsHeld = s.resetIsHeld := (rfl)

@[simp] theorem resetCause_post (s : State) (cs : List Creation) : (s.post cs).resetCause = s.resetCause := (rfl)

@[simp] theorem rate_post (s : State) (cs : List Creation) : (s.post cs).rate = s.rate := (rfl)

@[simp] theorem evPins_post (s : State) (cs : List Creation) : (s.post cs).evPins = s.evPins := (rfl)

@[simp] theorem uptime_post (s : State) (cs : List Creation) : (s.post cs).uptime = s.uptime := (rfl)

@[simp] theorem owedTicks_post (s : State) (cs : List Creation) : (s.post cs).owedTicks = s.owedTicks := (rfl)

@[simp] theorem watches_post (s : State) (cs : List Creation) : (s.post cs).watches = s.watches := (rfl)

@[simp] theorem watchTicksDue_post (s : State) (cs : List Creation) : (s.post cs).watchTicksDue = s.watchTicksDue := (rfl)

@[simp] theorem lines_post (s : State) (cs : List Creation) : (s.post cs).lines = s.lines := (rfl)

@[simp] theorem claims_post (s : State) (cs : List Creation) : (s.post cs).claims = s.claims := (rfl)

@[simp] theorem claimTickDue_post (s : State) (cs : List Creation) : (s.post cs).claimTickDue = s.claimTickDue := (rfl)

@[simp] theorem authority_post (s : State) (cs : List Creation) : (s.post cs).authority = s.authority := (rfl)

@[simp] theorem links_post (s : State) (cs : List Creation) : (s.post cs).links = s.links := (rfl)

@[simp] theorem receivers_post (s : State) (cs : List Creation) : (s.post cs).receivers = s.receivers := (rfl)

@[simp] theorem transmitters_post (s : State) (cs : List Creation) : (s.post cs).transmitters = s.transmitters := (rfl)

@[simp] theorem deliveries_post (s : State) (cs : List Creation) : (s.post cs).deliveries = s.deliveries := (rfl)

@[simp] theorem queues_post (s : State) (cs : List Creation) : (s.post cs).queues = s.queues := (rfl)

@[simp] theorem losses_post (s : State) (cs : List Creation) : (s.post cs).losses = s.losses := (rfl)

@[simp] theorem stamp_post (s : State) (cs : List Creation) : (s.post cs).stamp = s.stamp := (rfl)

@[simp] theorem choices_post (s : State) (cs : List Creation) : (s.post cs).choices = s.choices := (rfl)

@[simp] theorem transit_post (s : State) (cs : List Creation) :
    (s.post cs).transit = { s.transit with creations := s.transit.creations ++ cs.map (Creation.handed s) } := (rfl)

@[simp] theorem post_nil (s : State) : s.post [] = s := by
  rw [State.post, List.map_nil, List.append_nil]; rfl

/-! ### `sendOutput` -/

@[simp] theorem watch_sendOutput (s : State) (ws : List OutputWord) (j : WatchIx) : (s.sendOutput ws).watch j = s.watch j := (rfl)

@[simp] theorem line_sendOutput (s : State) (ws : List OutputWord) (j : LineIx) : (s.sendOutput ws).line j = s.line j := (rfl)

@[simp] theorem link_sendOutput (s : State) (ws : List OutputWord) (j : Link) : (s.sendOutput ws).link j = s.link j := (rfl)

@[simp] theorem receiver_sendOutput (s : State) (ws : List OutputWord) (j : Link) : (s.sendOutput ws).receiver j = s.receiver j := (rfl)

@[simp] theorem transmitter_sendOutput (s : State) (ws : List OutputWord) (j : Link) : (s.sendOutput ws).transmitter j = s.transmitter j := (rfl)

@[simp] theorem delivery_sendOutput (s : State) (ws : List OutputWord) (j : Link) : (s.sendOutput ws).delivery j = s.delivery j := (rfl)

@[simp] theorem queue_sendOutput (s : State) (ws : List OutputWord) (j : Link) : (s.sendOutput ws).queue j = s.queue j := (rfl)

@[simp] theorem loss_sendOutput (s : State) (ws : List OutputWord) (j : Link) : (s.sendOutput ws).loss j = s.loss j := (rfl)

@[simp] theorem claimSet_sendOutput (s : State) (ws : List OutputWord) (j : OutputIx) : (s.sendOutput ws).claimSet j = s.claimSet j := (rfl)

@[simp] theorem watchTickDue_sendOutput (s : State) (ws : List OutputWord) (j : WatchIx) : (s.sendOutput ws).watchTickDue j = s.watchTickDue j := (rfl)

@[simp] theorem isUp_sendOutput (s : State) (ws : List OutputWord) (j : Link) : (s.sendOutput ws).isUp j = s.isUp j := (rfl)

@[simp] theorem upAtNotices_sendOutput (s : State) (ws : List OutputWord) (j : Link) :
    (s.sendOutput ws).upAtNotices j = s.upAtNotices j := (rfl)

@[simp] theorem pending_sendOutput (s : State) (ws : List OutputWord) : (s.sendOutput ws).pending = s.pending := (rfl)

@[simp] theorem resetIsHeld_sendOutput (s : State) (ws : List OutputWord) : (s.sendOutput ws).resetIsHeld = s.resetIsHeld := (rfl)

@[simp] theorem resetCause_sendOutput (s : State) (ws : List OutputWord) : (s.sendOutput ws).resetCause = s.resetCause := (rfl)

@[simp] theorem rate_sendOutput (s : State) (ws : List OutputWord) : (s.sendOutput ws).rate = s.rate := (rfl)

@[simp] theorem evPins_sendOutput (s : State) (ws : List OutputWord) : (s.sendOutput ws).evPins = s.evPins := (rfl)

@[simp] theorem uptime_sendOutput (s : State) (ws : List OutputWord) : (s.sendOutput ws).uptime = s.uptime := (rfl)

@[simp] theorem owedTicks_sendOutput (s : State) (ws : List OutputWord) : (s.sendOutput ws).owedTicks = s.owedTicks := (rfl)

@[simp] theorem watches_sendOutput (s : State) (ws : List OutputWord) : (s.sendOutput ws).watches = s.watches := (rfl)

@[simp] theorem watchTicksDue_sendOutput (s : State) (ws : List OutputWord) : (s.sendOutput ws).watchTicksDue = s.watchTicksDue := (rfl)

@[simp] theorem lines_sendOutput (s : State) (ws : List OutputWord) : (s.sendOutput ws).lines = s.lines := (rfl)

@[simp] theorem claims_sendOutput (s : State) (ws : List OutputWord) : (s.sendOutput ws).claims = s.claims := (rfl)

@[simp] theorem claimTickDue_sendOutput (s : State) (ws : List OutputWord) : (s.sendOutput ws).claimTickDue = s.claimTickDue := (rfl)

@[simp] theorem authority_sendOutput (s : State) (ws : List OutputWord) : (s.sendOutput ws).authority = s.authority := (rfl)

@[simp] theorem links_sendOutput (s : State) (ws : List OutputWord) : (s.sendOutput ws).links = s.links := (rfl)

@[simp] theorem receivers_sendOutput (s : State) (ws : List OutputWord) : (s.sendOutput ws).receivers = s.receivers := (rfl)

@[simp] theorem transmitters_sendOutput (s : State) (ws : List OutputWord) : (s.sendOutput ws).transmitters = s.transmitters := (rfl)

@[simp] theorem deliveries_sendOutput (s : State) (ws : List OutputWord) : (s.sendOutput ws).deliveries = s.deliveries := (rfl)

@[simp] theorem queues_sendOutput (s : State) (ws : List OutputWord) : (s.sendOutput ws).queues = s.queues := (rfl)

@[simp] theorem losses_sendOutput (s : State) (ws : List OutputWord) : (s.sendOutput ws).losses = s.losses := (rfl)

@[simp] theorem stamp_sendOutput (s : State) (ws : List OutputWord) : (s.sendOutput ws).stamp = s.stamp := (rfl)

@[simp] theorem choices_sendOutput (s : State) (ws : List OutputWord) : (s.sendOutput ws).choices = s.choices := (rfl)

@[simp] theorem transit_sendOutput (s : State) (ws : List OutputWord) :
    (s.sendOutput ws).transit = { s.transit with outputWords := s.transit.outputWords ++ ws } := (rfl)

@[simp] theorem sendOutput_nil (s : State) : s.sendOutput [] = s := by
  rw [State.sendOutput, List.append_nil]; rfl

/-! ### `withOutputWords` -/

@[simp] theorem watch_withOutputWords (s : State) (ws : List OutputWord) (j : WatchIx) : (s.withOutputWords ws).watch j = s.watch j := (rfl)

@[simp] theorem line_withOutputWords (s : State) (ws : List OutputWord) (j : LineIx) : (s.withOutputWords ws).line j = s.line j := (rfl)

@[simp] theorem link_withOutputWords (s : State) (ws : List OutputWord) (j : Link) : (s.withOutputWords ws).link j = s.link j := (rfl)

@[simp] theorem receiver_withOutputWords (s : State) (ws : List OutputWord) (j : Link) : (s.withOutputWords ws).receiver j = s.receiver j := (rfl)

@[simp] theorem transmitter_withOutputWords (s : State) (ws : List OutputWord) (j : Link) : (s.withOutputWords ws).transmitter j = s.transmitter j := (rfl)

@[simp] theorem delivery_withOutputWords (s : State) (ws : List OutputWord) (j : Link) : (s.withOutputWords ws).delivery j = s.delivery j := (rfl)

@[simp] theorem queue_withOutputWords (s : State) (ws : List OutputWord) (j : Link) : (s.withOutputWords ws).queue j = s.queue j := (rfl)

@[simp] theorem loss_withOutputWords (s : State) (ws : List OutputWord) (j : Link) : (s.withOutputWords ws).loss j = s.loss j := (rfl)

@[simp] theorem claimSet_withOutputWords (s : State) (ws : List OutputWord) (j : OutputIx) : (s.withOutputWords ws).claimSet j = s.claimSet j := (rfl)

@[simp] theorem watchTickDue_withOutputWords (s : State) (ws : List OutputWord) (j : WatchIx) : (s.withOutputWords ws).watchTickDue j = s.watchTickDue j := (rfl)

@[simp] theorem isUp_withOutputWords (s : State) (ws : List OutputWord) (j : Link) : (s.withOutputWords ws).isUp j = s.isUp j := (rfl)

@[simp] theorem upAtNotices_withOutputWords (s : State) (ws : List OutputWord) (j : Link) :
    (s.withOutputWords ws).upAtNotices j = s.upAtNotices j := (rfl)

@[simp] theorem pending_withOutputWords (s : State) (ws : List OutputWord) : (s.withOutputWords ws).pending = s.pending := (rfl)

@[simp] theorem resetIsHeld_withOutputWords (s : State) (ws : List OutputWord) : (s.withOutputWords ws).resetIsHeld = s.resetIsHeld := (rfl)

@[simp] theorem resetCause_withOutputWords (s : State) (ws : List OutputWord) : (s.withOutputWords ws).resetCause = s.resetCause := (rfl)

@[simp] theorem rate_withOutputWords (s : State) (ws : List OutputWord) : (s.withOutputWords ws).rate = s.rate := (rfl)

@[simp] theorem evPins_withOutputWords (s : State) (ws : List OutputWord) : (s.withOutputWords ws).evPins = s.evPins := (rfl)

@[simp] theorem uptime_withOutputWords (s : State) (ws : List OutputWord) : (s.withOutputWords ws).uptime = s.uptime := (rfl)

@[simp] theorem owedTicks_withOutputWords (s : State) (ws : List OutputWord) : (s.withOutputWords ws).owedTicks = s.owedTicks := (rfl)

@[simp] theorem watches_withOutputWords (s : State) (ws : List OutputWord) : (s.withOutputWords ws).watches = s.watches := (rfl)

@[simp] theorem watchTicksDue_withOutputWords (s : State) (ws : List OutputWord) : (s.withOutputWords ws).watchTicksDue = s.watchTicksDue := (rfl)

@[simp] theorem lines_withOutputWords (s : State) (ws : List OutputWord) : (s.withOutputWords ws).lines = s.lines := (rfl)

@[simp] theorem claims_withOutputWords (s : State) (ws : List OutputWord) : (s.withOutputWords ws).claims = s.claims := (rfl)

@[simp] theorem claimTickDue_withOutputWords (s : State) (ws : List OutputWord) : (s.withOutputWords ws).claimTickDue = s.claimTickDue := (rfl)

@[simp] theorem authority_withOutputWords (s : State) (ws : List OutputWord) : (s.withOutputWords ws).authority = s.authority := (rfl)

@[simp] theorem links_withOutputWords (s : State) (ws : List OutputWord) : (s.withOutputWords ws).links = s.links := (rfl)

@[simp] theorem receivers_withOutputWords (s : State) (ws : List OutputWord) : (s.withOutputWords ws).receivers = s.receivers := (rfl)

@[simp] theorem transmitters_withOutputWords (s : State) (ws : List OutputWord) : (s.withOutputWords ws).transmitters = s.transmitters := (rfl)

@[simp] theorem deliveries_withOutputWords (s : State) (ws : List OutputWord) : (s.withOutputWords ws).deliveries = s.deliveries := (rfl)

@[simp] theorem queues_withOutputWords (s : State) (ws : List OutputWord) : (s.withOutputWords ws).queues = s.queues := (rfl)

@[simp] theorem losses_withOutputWords (s : State) (ws : List OutputWord) : (s.withOutputWords ws).losses = s.losses := (rfl)

@[simp] theorem stamp_withOutputWords (s : State) (ws : List OutputWord) : (s.withOutputWords ws).stamp = s.stamp := (rfl)

@[simp] theorem choices_withOutputWords (s : State) (ws : List OutputWord) : (s.withOutputWords ws).choices = s.choices := (rfl)

@[simp] theorem transit_withOutputWords (s : State) (ws : List OutputWord) :
    (s.withOutputWords ws).transit = { s.transit with outputWords := ws } := (rfl)

/-! ### `nextStamp` -/

@[simp] theorem watch_nextStamp (s : State) (j : WatchIx) : s.nextStamp.watch j = s.watch j := (rfl)

@[simp] theorem line_nextStamp (s : State) (j : LineIx) : s.nextStamp.line j = s.line j := (rfl)

@[simp] theorem link_nextStamp (s : State) (j : Link) : s.nextStamp.link j = s.link j := (rfl)

@[simp] theorem receiver_nextStamp (s : State) (j : Link) : s.nextStamp.receiver j = s.receiver j := (rfl)

@[simp] theorem transmitter_nextStamp (s : State) (j : Link) : s.nextStamp.transmitter j = s.transmitter j := (rfl)

@[simp] theorem delivery_nextStamp (s : State) (j : Link) : s.nextStamp.delivery j = s.delivery j := (rfl)

@[simp] theorem queue_nextStamp (s : State) (j : Link) : s.nextStamp.queue j = s.queue j := (rfl)

@[simp] theorem loss_nextStamp (s : State) (j : Link) : s.nextStamp.loss j = s.loss j := (rfl)

@[simp] theorem claimSet_nextStamp (s : State) (j : OutputIx) : s.nextStamp.claimSet j = s.claimSet j := (rfl)

@[simp] theorem watchTickDue_nextStamp (s : State) (j : WatchIx) : s.nextStamp.watchTickDue j = s.watchTickDue j := (rfl)

@[simp] theorem isUp_nextStamp (s : State) (j : Link) : s.nextStamp.isUp j = s.isUp j := (rfl)

@[simp] theorem upAtNotices_nextStamp (s : State) (j : Link) :
    s.nextStamp.upAtNotices j = s.upAtNotices j := (rfl)

@[simp] theorem pending_nextStamp (s : State) : s.nextStamp.pending = s.pending := (rfl)

@[simp] theorem resetIsHeld_nextStamp (s : State) : s.nextStamp.resetIsHeld = s.resetIsHeld := (rfl)

@[simp] theorem resetCause_nextStamp (s : State) : s.nextStamp.resetCause = s.resetCause := (rfl)

@[simp] theorem rate_nextStamp (s : State) : s.nextStamp.rate = s.rate := (rfl)

@[simp] theorem evPins_nextStamp (s : State) : s.nextStamp.evPins = s.evPins := (rfl)

@[simp] theorem uptime_nextStamp (s : State) : s.nextStamp.uptime = s.uptime := (rfl)

@[simp] theorem owedTicks_nextStamp (s : State) : s.nextStamp.owedTicks = s.owedTicks := (rfl)

@[simp] theorem watches_nextStamp (s : State) : s.nextStamp.watches = s.watches := (rfl)

@[simp] theorem watchTicksDue_nextStamp (s : State) : s.nextStamp.watchTicksDue = s.watchTicksDue := (rfl)

@[simp] theorem lines_nextStamp (s : State) : s.nextStamp.lines = s.lines := (rfl)

@[simp] theorem claims_nextStamp (s : State) : s.nextStamp.claims = s.claims := (rfl)

@[simp] theorem claimTickDue_nextStamp (s : State) : s.nextStamp.claimTickDue = s.claimTickDue := (rfl)

@[simp] theorem authority_nextStamp (s : State) : s.nextStamp.authority = s.authority := (rfl)

@[simp] theorem links_nextStamp (s : State) : s.nextStamp.links = s.links := (rfl)

@[simp] theorem receivers_nextStamp (s : State) : s.nextStamp.receivers = s.receivers := (rfl)

@[simp] theorem transmitters_nextStamp (s : State) : s.nextStamp.transmitters = s.transmitters := (rfl)

@[simp] theorem deliveries_nextStamp (s : State) : s.nextStamp.deliveries = s.deliveries := (rfl)

@[simp] theorem queues_nextStamp (s : State) : s.nextStamp.queues = s.queues := (rfl)

@[simp] theorem losses_nextStamp (s : State) : s.nextStamp.losses = s.losses := (rfl)

@[simp] theorem transit_nextStamp (s : State) : s.nextStamp.transit = s.transit := (rfl)

@[simp] theorem choices_nextStamp (s : State) : s.nextStamp.choices = s.choices := (rfl)

@[simp] theorem stamp_nextStamp (s : State) : s.nextStamp.stamp = s.stamp + 1 := (rfl)

/-! ### `setLink` and `isUp`; `countLoss` -/

theorem isUp_setLink (s : State) (i : Link) (x : LinkRec) (j : Link) :
    (s.setLink i x).isUp j = if j = i then decide (x.state = .up) else s.isUp j := by
  simp only [State.isUp, link_setLink]
  split <;> rfl

@[simp] theorem isUp_setLink_same (s : State) (i : Link) (x : LinkRec) :
    (s.setLink i x).isUp i = decide (x.state = .up) := by
  simp [State.isUp]

@[simp] theorem isUp_setLink_other (s : State) (i : Link) (x : LinkRec) (j : Link) (h : j ≠ i) :
    (s.setLink i x).isUp j = s.isUp j := by
  simp [State.isUp, h]

theorem upAtNotices_setTransit (s : State) (t : Transit) (n : Link) :
    (s.setTransit t).upAtNotices n = (s.isUp n || t.noticeEnds.any fun e => e.link = n) := (rfl)

/-- With no session end on its way to the notice unit, a link counts as UP there exactly when it is UP. -/
theorem upAtNotices_of_noEnd (s : State) (n : Link) (h : ∀ e ∈ s.transit.noticeEnds, e.link ≠ n) :
    s.upAtNotices n = s.isUp n := by
  unfold State.upAtNotices
  rw [List.any_eq_false.mpr (by simpa using h), Bool.or_false]

/-! ### A creation as it is handed over (R44) -/

@[simp] theorem key_handed (s : State) (c : Creation) : (c.handed s).key = c.key := by
  unfold Creation.handed; split <;> [split; skip] <;> rfl

@[simp] theorem level_handed (s : State) (c : Creation) : (c.handed s).level = c.level := by
  unfold Creation.handed; split <;> [split; skip] <;> rfl

@[simp] theorem detail_handed (s : State) (c : Creation) : (c.handed s).detail = c.detail := by
  unfold Creation.handed; split <;> [split; skip] <;> rfl

@[simp] theorem channel_handed (s : State) (c : Creation) : (c.handed s).channel = c.channel := by
  simp [Creation.channel]

/-- Only a watch's creation is marked. -/
theorem handed_of_notWatch (s : State) (c : Creation) (h : ∀ i, c.key.source ≠ .watch i) : c.handed s = c := by
  unfold Creation.handed
  split
  · next i _ _ _ e _ _ => exact absurd e (h i)
  · rfl

/-- While no end of a link that a watch's claim has put in HELD waits at the notice unit, no creation is marked. -/
theorem handed_of_noReset (s : State) (c : Creation) (h : ∀ e ∈ s.transit.noticeEnds, e.resetters = []) :
    c.handed s = c := by
  have none : ∀ i g, s.resetBy i g = [] := by
    intro i g
    unfold State.resetBy
    rw [List.map_eq_nil_iff, List.filter_eq_nil_iff]
    intro e he
    simp [h e he]
  unfold Creation.handed
  split
  · rw [if_pos (none _ _)]
  · rfl

/-- The mark depends on the ends on their way to the notice unit and on the links, and on nothing else. -/
theorem handed_congr (s t : State) (he : t.transit.noticeEnds = s.transit.noticeEnds) (hl : t.links = s.links)
    (c : Creation) : c.handed t = c.handed s := by
  have resets : ∀ i g, t.resetBy i g = s.resetBy i g := by
    intro i g
    unfold State.resetBy State.link
    rw [he, hl]
  unfold Creation.handed
  simp only [resets]

/-- Counting a loss sets the loss count of its link, no higher than 255. -/
theorem countLoss_eq (s : State) (n : Link) : s.countLoss n = s.setLoss n (min 255 (s.loss n + 1)) := (rfl)

end Sys2Proof.Machine
end

