-- ==== Sys2Proof/Laws/Lists.lean ====
section
/-!
SUPPORT. The list operations of the model: the first of a kind, joining a queue, substituting and removing by key.
-/

namespace Sys2Proof.Machine

/-! ### The first element that satisfies a test -/

theorem takeFirst_of_split {α : Type} (p : α → Bool) (pre post : List α) (a : α) (hp : ∀ x ∈ pre, p x = false)
    (ha : p a = true) : takeFirst p (pre ++ a :: post) = some (a, pre ++ post) := by
  induction pre with
  | nil => simp [takeFirst, ha]
  | cons x xs ih =>
    have hx := hp x (by simp)
    have := ih (fun y hy => hp y (by simp [hy]))
    simp [takeFirst, hx, this]

theorem takeFirst_of_none {α : Type} (p : α → Bool) (l : List α) (h : ∀ x ∈ l, p x = false) : takeFirst p l = none := by
  induction l with
  | nil => rfl
  | cons x xs ih =>
    have hx := h x (by simp)
    simp [takeFirst, hx, ih (fun y hy => h y (by simp [hy]))]

/-- Everything `takeFirst` can answer. -/
theorem takeFirst_cases {α : Type} (p : α → Bool) (l : List α) :
    (takeFirst p l = none ∧ ∀ x ∈ l, p x = false)
    ∨ ∃ pre a post, l = pre ++ a :: post ∧ (∀ x ∈ pre, p x = false) ∧ p a = true
        ∧ takeFirst p l = some (a, pre ++ post) := by
  induction l with
  | nil => exact Or.inl ⟨rfl, by simp⟩
  | cons x xs ih =>
    cases hx : p x
    · rcases ih with ⟨h1, h2⟩ | ⟨pre, a, post, rfl, h2, h3, h4⟩
      · refine Or.inl ⟨by simp [takeFirst, hx, h1], ?_⟩
        intro y hy
        rcases List.mem_cons.mp hy with rfl | hy
        · exact hx
        · exact h2 y hy
      · refine Or.inr ⟨x :: pre, a, post, rfl, ?_, h3, by simp [takeFirst, hx, h4]⟩
        intro y hy
        rcases List.mem_cons.mp hy with rfl | hy
        · exact hx
        · exact h2 y hy
    · exact Or.inr ⟨[], x, xs, rfl, by simp, hx, by simp [takeFirst, hx]⟩

theorem takeFirst_eq_none {α : Type} (p : α → Bool) (l : List α) (h : takeFirst p l = none) : ∀ x ∈ l, p x = false := by
  rcases takeFirst_cases p l with ⟨_, h'⟩ | ⟨_, _, _, _, _, _, h'⟩
  · exact h'
  · rw [h] at h'; cases h'

theorem takeFirst_eq_some {α : Type} (p : α → Bool) (l : List α) (a : α) (rest : List α)
    (h : takeFirst p l = some (a, rest)) :
    ∃ pre post, l = pre ++ a :: post ∧ rest = pre ++ post ∧ (∀ x ∈ pre, p x = false) ∧ p a = true := by
  rcases takeFirst_cases p l with ⟨h', _⟩ | ⟨pre, b, post, h1, h2, h3, h'⟩
  · rw [h] at h'; cases h'
  · rw [h] at h'
    cases h'
    exact ⟨pre, post, h1, rfl, h2, h3⟩

/-! ### Joining a queue (R75) -/

theorem mem_enqueue (r x : Notice) (q : List Notice) : x ∈ enqueue r q ↔ x = r ∨ x ∈ q := by
  induction q with
  | nil => simp [enqueue]
  | cons y ys ih =>
    unfold enqueue
    split
    · simp
    · simp only [List.mem_cons, ih]; tauto

theorem perm_enqueue (r : Notice) (q : List Notice) : (enqueue r q).Perm (r :: q) := by
  induction q with
  | nil => exact List.Perm.refl _
  | cons y ys ih =>
    unfold enqueue
    split
    · exact List.Perm.refl _
    · exact (List.Perm.cons y ih).trans (List.Perm.swap r y ys)

@[simp] theorem length_enqueue (r : Notice) (q : List Notice) : (enqueue r q).length = q.length + 1 :=
  (perm_enqueue r q).length_eq

/-- Highest level first. -/
abbrev byLevel (q : List Notice) : Prop := q.Pairwise fun a b => b.level ≤ a.level

/-- In a queue that stands by level, a record joins behind those of its level or above and before the others. -/
theorem enqueue_eq (r : Notice) (q : List Notice) (h : byLevel q) :
    enqueue r q = q.filter (fun x => decide (r.level ≤ x.level)) ++ r :: q.filter (fun x => decide (x.level < r.level)) := by
  induction q with
  | nil => rfl
  | cons y ys ih =>
    have hy : ∀ x ∈ ys, x.level ≤ y.level := (List.pairwise_cons.mp h).1
    unfold enqueue
    split
    · next hlt =>
      have h1 : ys.filter (fun x => decide (r.level ≤ x.level)) = [] := by
        rw [List.filter_eq_nil_iff]
        intro x hx
        have := lt_of_le_of_lt (hy x hx) hlt
        simp [this]
      have h2 : ys.filter (fun x => decide (x.level < r.level)) = ys := by
        rw [List.filter_eq_self]
        intro x hx
        simpa using lt_of_le_of_lt (hy x hx) hlt
      simp [h1, h2, hlt, not_le.mpr hlt]
    · next hge =>
      have hge' : r.level ≤ y.level := not_lt.mp hge
      rw [ih (List.pairwise_cons.mp h).2]
      simp [hge', hge]

theorem byLevel_enqueue (r : Notice) (q : List Notice) (h : byLevel q) : byLevel (enqueue r q) := by
  induction q with
  | nil => simp [enqueue, byLevel]
  | cons y ys ih =>
    have hy := List.pairwise_cons.mp h
    unfold enqueue
    split
    · next hlt =>
      refine List.pairwise_cons.mpr ⟨?_, h⟩
      intro x hx
      rcases List.mem_cons.mp hx with rfl | hx
      · exact le_of_lt hlt
      · exact le_of_lt (lt_of_le_of_lt (hy.1 x hx) hlt)
    · next hge =>
      refine List.pairwise_cons.mpr ⟨?_, ih hy.2⟩
      intro x hx
      rcases (mem_enqueue r x ys).mp hx with rfl | hx
      · exact not_lt.mp hge
      · exact hy.1 x hx

/-! ### By key -/

theorem findKey_of_none (k : Key) (q : List Notice) (h : ∀ r ∈ q, r.key ≠ k) : findKey k q = none := by
  simpa [findKey] using h

theorem findKey_of_split (k : Key) (pre post : List Notice) (w : Notice) (hp : ∀ r ∈ pre, r.key ≠ k) (hw : w.key = k) :
    findKey k (pre ++ w :: post) = some w := by
  have h1 : pre.find? (fun r => decide (r.key = k)) = none := by simpa using hp
  simp [findKey, List.find?_append, h1, hw]

theorem findKey_eq_none (k : Key) (q : List Notice) (h : findKey k q = none) : ∀ r ∈ q, r.key ≠ k := by
  simpa [findKey] using h

theorem findKey_eq_some (k : Key) (q : List Notice) (w : Notice) (h : findKey k q = some w) :
    w.key = k ∧ ∃ pre post, q = pre ++ w :: post ∧ ∀ r ∈ pre, r.key ≠ k := by
  unfold findKey at h
  obtain ⟨hk, pre, post, rfl, hp⟩ := List.find?_eq_some_iff_append.mp h
  exact ⟨by simpa using hk, pre, post, rfl, fun r hr => by simpa using hp r hr⟩

theorem substitute_of_split (k : Key) (new w : Notice) (pre post : List Notice) (hp : ∀ r ∈ pre, r.key ≠ k)
    (hw : w.key = k) : substitute k new (pre ++ w :: post) = pre ++ new :: post := by
  induction pre with
  | nil => simp [substitute, hw]
  | cons x xs ih =>
    have hx := hp x (by simp)
    simp [substitute, hx, ih (fun y hy => hp y (by simp [hy]))]

theorem removeKey_of_split (k : Key) (w : Notice) (pre post : List Notice) (hp : ∀ r ∈ pre, r.key ≠ k)
    (hw : w.key = k) : removeKey k (pre ++ w :: post) = pre ++ post := by
  induction pre with
  | nil => simp [removeKey, hw]
  | cons x xs ih =>
    have hx := hp x (by simp)
    simp [removeKey, hx, ih (fun y hy => hp y (by simp [hy]))]

/-- A waiting record revised: at the tail of its new level when that is higher, else in its place (R76, R82). -/
theorem revise_of_split (w new : Notice) (pre post : List Notice) (hp : ∀ r ∈ pre, r.key ≠ w.key) :
    revise w new (pre ++ w :: post) =
      if w.level < new.level then enqueue new (pre ++ post) else pre ++ new :: post := by
  unfold revise
  rw [substitute_of_split w.key new w pre post hp rfl, removeKey_of_split w.key w pre post hp rfl]

/-- A revised queue keeps its number of records. -/
theorem length_revise (w new : Notice) (q : List Notice) (h : w ∈ q) : (revise w new q).length = q.length := by
  have hf : findKey w.key q ≠ none := by
    intro e
    exact findKey_eq_none _ _ e w h rfl
  obtain ⟨v, hv⟩ := Option.ne_none_iff_exists'.mp hf
  obtain ⟨hk, pre, post, rfl, hp⟩ := findKey_eq_some _ _ _ hv
  unfold revise
  rw [substitute_of_split w.key new v pre post hp hk, removeKey_of_split w.key v pre post hp hk]
  split
  · simp; omega
  · simp

end Sys2Proof.Machine
end

