-- ==== Sys2Proof/Laws/Notices.lean ====
section
/-!
SUPPORT. The notice unit: which record an eviction takes, everything a placement can do, and the only parts of State a
creation or a session end can change.
-/

namespace Sys2Proof.Machine

/-! ### The victim of an eviction (R72) -/

theorem mem_candidates (s : State) (level : Level) (a : Link × Notice) :
    a ∈ s.candidates level ↔ a.2 ∈ s.queue a.1 ∧ a.2.level < level := by
  obtain ⟨n, r⟩ := a
  simp [State.candidates]

/-- Candidate `a` goes before `b`: it is of lower level, or of the same level and joined no earlier. -/
abbrev goesFirst (a b : Link × Notice) : Prop :=
  a.2.level ≤ b.2.level ∧ (b.2.level = a.2.level → b.2.joined ≤ a.2.joined)

theorem goesFirst_trans {a b c : Link × Notice} (h : goesFirst a b) (h' : goesFirst b c) : goesFirst a c := by
  refine ⟨le_trans h.1 h'.1, fun e => ?_⟩
  have e1 : b.2.level = a.2.level := le_antisymm (by rw [← e]; exact h'.1) h.1
  exact le_trans (h'.2 (by rw [e1, e])) (h.2 e1)

theorem pickVictim_spec (a b : Link × Notice) :
    (pickVictim a b = a ∨ pickVictim a b = b) ∧ goesFirst (pickVictim a b) a ∧ goesFirst (pickVictim a b) b := by
  unfold pickVictim goesFirst
  split
  · next h => exact ⟨.inr rfl, ⟨le_of_lt h, fun e => absurd e (ne_of_gt h)⟩, le_refl _, fun _ => le_refl _⟩
  · next h =>
    split
    · next h' => exact ⟨.inl rfl, ⟨le_refl _, fun _ => le_refl _⟩, le_of_lt h', fun e => absurd e (ne_of_gt h')⟩
    · next h' =>
      have e : a.2.level = b.2.level := le_antisymm (not_lt.mp h) (not_lt.mp h')
      split
      · next j => exact ⟨.inr rfl, ⟨le_of_eq e.symm, fun _ => le_of_lt j⟩, le_refl _, fun _ => le_refl _⟩
      · next j => exact ⟨.inl rfl, ⟨le_refl _, fun _ => le_refl _⟩, le_of_eq e, fun _ => not_lt.mp j⟩

theorem foldl_pickVictim (l : List (Link × Notice)) (a : Link × Notice) :
    l.foldl pickVictim a ∈ a :: l ∧ ∀ x ∈ a :: l, goesFirst (l.foldl pickVictim a) x := by
  induction l generalizing a with
  | nil => simp [goesFirst]
  | cons b l ih =>
    obtain ⟨hp, ha, hb⟩ := pickVictim_spec a b
    obtain ⟨h1, h2⟩ := ih (pickVictim a b)
    have first := h2 _ (List.mem_cons_self)
    rw [List.foldl_cons]
    constructor
    · rcases List.mem_cons.mp h1 with h1 | h1
      · rw [h1]
        rcases hp with hp | hp <;> rw [hp] <;> simp
      · simp [h1]
    · intro x hx
      rcases List.mem_cons.mp hx with rfl | hx
      · exact goesFirst_trans first ha
      · rcases List.mem_cons.mp hx with rfl | hx
        · exact goesFirst_trans first hb
        · exact h2 x (List.mem_cons_of_mem _ hx)

/-- The victim is an unsent record of lower level, of the lowest level there is, and of those the last that joined its
queue. -/
theorem victim_eq_some (s : State) (level : Level) (m : Link) (r : Notice) (h : s.victim level = some (m, r)) :
    r ∈ s.queue m ∧ r.level < level
    ∧ ∀ k, ∀ x ∈ s.queue k, r.level ≤ x.level ∧ (x.level = r.level → x.joined ≤ r.joined) := by
  unfold State.victim at h
  split at h
  · cases h
  · next a l he =>
    obtain ⟨h1, h2⟩ := foldl_pickVictim l a
    rw [Option.some.inj h] at h1 h2
    rw [← he] at h1 h2
    have hm := (mem_candidates s level (m, r)).mp h1
    refine ⟨hm.1, hm.2, fun k x hx => ?_⟩
    by_cases hl : x.level < level
    · exact h2 (k, x) ((mem_candidates s level (k, x)).mpr ⟨hx, hl⟩)
    · have lt : r.level < x.level := lt_of_lt_of_le hm.2 (not_lt.mp hl)
      exact ⟨le_of_lt lt, fun e => absurd e (ne_of_gt lt)⟩

/-- There is no victim exactly when no unsent record is of lower level. -/
theorem victim_eq_none_iff (s : State) (level : Level) :
    s.victim level = none ↔ ∀ m, ∀ r ∈ s.queue m, level ≤ r.level := by
  constructor
  · intro h m r hr
    by_contra hc
    have hm := (mem_candidates s level (m, r)).mpr ⟨hr, not_le.mp hc⟩
    unfold State.victim at h
    split at h
    · next he => rw [he] at hm; cases hm
    · cases h
  · intro h
    unfold State.victim
    split
    · rfl
    · next a l he =>
      have := (mem_candidates s level a).mp (by rw [he]; simp)
      exact absurd this.2 (not_lt.mpr (h _ _ this.1))

/-! ### Reports and evictions -/

/-- A departure adds a report about the line of a LINE or REPEAT record, and nothing else. -/
theorem reportDeparture_eq (s : State) (r : Notice) (how : Departure) :
    s.reportDeparture r how = s.setTransit
      { s.transit with lineReports := s.transit.lineReports ++
          match r.key.source with
          | .line l => [(l, how)]
          | _ => [] } := by
  unfold State.reportDeparture
  cases r.key.source <;> simp [State.setTransit]

theorem queue_evict (s : State) (m n : Link) (r : Notice) :
    (s.evict m r).queue n = if n = m then (s.queue m).erase r else s.queue n := by
  simp [State.evict, reportDeparture_eq, State.countLoss, queue_setQueue]

/-! ### Placement -/

/-- Everything a routed creation can do (R64, R71 to R73, R76). -/
theorem place_cases (n : Link) (onward : Option Link) (c : Creation) (s : State) :
    (∃ w, findKey c.key (s.queue n) = some w ∧ place n onward c s =
        (.coalesced, (s.setQueue n (revise w (w.absorb c s.stamp) (s.queue n))).nextStamp))
    ∨ (findKey c.key (s.queue n) = none ∧ admits c.level s.poolInUse = true
        ∧ place n onward c s = (.created, s.createRecord n onward c))
    ∨ (∃ v, findKey c.key (s.queue n) = none ∧ admits c.level s.poolInUse = false ∧ s.victim c.level = some v
        ∧ place n onward c s = (.created, (s.evict v.1 v.2).createRecord n onward c))
    ∨ (findKey c.key (s.queue n) = none ∧ admits c.level s.poolInUse = false ∧ s.victim c.level = none
        ∧ place n onward c s = (.dropped, s.countLoss n)) := by
  unfold place
  cases hf : findKey c.key (s.queue n) with
  | some w => exact .inl ⟨w, rfl, rfl⟩
  | none =>
    cases ha : admits c.level s.poolInUse with
    | true => exact .inr (.inl ⟨rfl, rfl, rfl⟩)
    | false =>
      cases hv : s.victim c.level with
      | some v => exact .inr (.inr (.inl ⟨v, rfl, rfl, rfl, rfl⟩))
      | none => exact .inr (.inr (.inr ⟨rfl, rfl, rfl, rfl⟩))

/-! ### What the notice unit may change -/

/-- The queues, the loss counts, the order marks, and the reports handed to the line unit. -/
abbrev OnlyPool (s t : State) : Prop :=
  t = { s with
    queues := t.queues, losses := t.losses, stamp := t.stamp
    transit := { s.transit with lineReports := t.transit.lineReports } }

theorem OnlyPool.trans {s t u : State} (h : OnlyPool s t) (h' : OnlyPool t u) : OnlyPool s u := by
  unfold OnlyPool at *
  rw [h'] at *
  rw [h]

theorem onlyPool_refl (s : State) : OnlyPool s s := rfl

theorem onlyPool_setQueue (s : State) (n : Link) (q : List Notice) : OnlyPool s (s.setQueue n q) := rfl

theorem onlyPool_countLoss (s : State) (n : Link) : OnlyPool s (s.countLoss n) := rfl

theorem onlyPool_nextStamp (s : State) : OnlyPool s s.nextStamp := rfl

theorem onlyPool_reportDeparture (s : State) (r : Notice) (how : Departure) : OnlyPool s (s.reportDeparture r how) := by
  rw [reportDeparture_eq]; rfl

theorem onlyPool_evict (s : State) (n : Link) (r : Notice) : OnlyPool s (s.evict n r) :=
  ((onlyPool_setQueue _ _ _).trans (onlyPool_countLoss _ _)).trans (onlyPool_reportDeparture _ _ _)

theorem onlyPool_createRecord (s : State) (n : Link) (onward : Option Link) (c : Creation) :
    OnlyPool s (s.createRecord n onward c) := rfl

theorem onlyPool_place (n : Link) (onward : Option Link) (c : Creation) (s : State) :
    OnlyPool s (place n onward c s).2 := by
  rcases place_cases n onward c s with ⟨w, _, h⟩ | ⟨_, _, h⟩ | ⟨v, _, _, _, h⟩ | ⟨_, _, _, h⟩ <;> rw [h]
  · exact (onlyPool_setQueue _ _ _).trans (onlyPool_nextStamp _)
  · exact onlyPool_createRecord _ _ _ _
  · exact (onlyPool_evict _ _ _).trans (onlyPool_createRecord _ _ _ _)
  · exact onlyPool_countLoss _ _

theorem onlyPool_placeCopies (c : Creation) (links : List Link) (s : State) : OnlyPool s (placeCopies c links s) := by
  induction links generalizing s with
  | nil => rfl
  | cons n ns ih =>
    unfold placeCopies
    refine OnlyPool.trans ?_ (ih _)
    split
    · exact onlyPool_place _ _ _ _
    · rfl

theorem onlyPool_placePair (p : Link) (f : Option Link) (reset : List (Link × Byte)) (c : Creation) (s : State) :
    OnlyPool s (placePair p f reset c s).2 := by
  unfold placePair
  split
  · exact onlyPool_place _ _ _ _
  · split
    · split
      · exact onlyPool_place _ _ _ _
      · exact onlyPool_countLoss _ _
    · exact onlyPool_countLoss _ _

theorem onlyPool_redirect (n m : Link) (r : Notice) (s : State) : OnlyPool s (redirect n m r s) := rfl

theorem onlyPool_discardRecord (n : Link) (r : Notice) (s : State) : OnlyPool s (discardRecord n r s) :=
  (onlyPool_countLoss _ _).trans (onlyPool_reportDeparture _ _ _)

theorem onlyPool_dealWith (n : Link) (s : State) (r : Notice) : OnlyPool s (dealWith n s r) := by
  unfold dealWith
  split
  · split
    · split
      · exact onlyPool_setQueue _ _ _
      · exact onlyPool_redirect _ _ _ _
    · exact onlyPool_discardRecord _ _ _
  · exact onlyPool_discardRecord _ _ _

theorem onlyPool_dealWithAll (n : Link) (rs : List Notice) (s : State) : OnlyPool s (rs.foldl (dealWith n) s) := by
  induction rs generalizing s with
  | nil => rfl
  | cons r rs ih => exact (onlyPool_dealWith n s r).trans (ih _)

/-- The pool, the pending flags of the lines, and the words the notice unit takes or hands on. -/
abbrev OnlyNotices (s t : State) : Prop :=
  t = { s with
    queues := t.queues, losses := t.losses, stamp := t.stamp, lines := t.lines
    transit := { s.transit with creations := t.transit.creations, lineReports := t.transit.lineReports } }

theorem OnlyNotices.trans {s t u : State} (h : OnlyNotices s t) (h' : OnlyNotices t u) : OnlyNotices s u := by
  unfold OnlyNotices at *
  rw [h'] at *
  rw [h]

theorem OnlyPool.onlyNotices {s t : State} (h : OnlyPool s t) : OnlyNotices s t := by
  unfold OnlyPool OnlyNotices at *
  rw [h]

theorem onlyNotices_noteOutcome (c : Creation) (o : NoticeOutcome) (s : State) :
    OnlyNotices s (noteOutcome c o s) := by
  unfold noteOutcome
  split
  · split <;> rfl
  · rfl

theorem onlyNotices_takeCopies (c : Creation) (links : List Link) (e : Extent) (s : State) :
    OnlyNotices s (takeCopies c links e s) := by
  unfold takeCopies
  cases e with
  | whole => exact (onlyPool_placeCopies _ _ _).onlyNotices
  | oneCopy =>
    simp only
    split
    · rfl
    · next n ns _ =>
      have h := (onlyPool_placeCopies c [n] s).onlyNotices
      split
      · exact h
      · exact h.trans rfl

theorem onlyNotices_takePair (p : Link) (f : Option Link) (reset : List (Link × Byte)) (c : Creation) (s : State) :
    OnlyNotices s (takePair p f reset c s) :=
  (onlyPool_placePair _ _ _ _ _).onlyNotices.trans (onlyNotices_noteOutcome _ _ _)

/-- All that taking a creation can change. -/
theorem onlyNotices_takeCreation (c : Creation) (e : Extent) (s : State) : OnlyNotices s (takeCreation c e s) := by
  unfold takeCreation
  split
  · exact onlyNotices_takePair _ _ _ _ _
  · exact onlyNotices_takePair _ _ _ _ _
  · split
    · exact (onlyPool_place _ _ _ _).onlyNotices
    · exact (onlyPool_countLoss _ _).onlyNotices
  · exact onlyNotices_takeCopies _ _ _ _
  · exact onlyNotices_takeCopies _ _ _ _

theorem onlyNotices_takeChannel (ch : Channel) (e : Extent) (s : State) : OnlyNotices s (takeChannel ch e s) := by
  unfold takeChannel
  split
  · rfl
  · exact OnlyNotices.trans rfl (onlyNotices_takeCreation _ _ _)

theorem onlyNotices_drainChannel (ch : Channel) (s : State) : OnlyNotices s (drainChannel ch s) := by
  unfold drainChannel
  suffices h : ∀ (cs : List Creation) (t : State),
      OnlyNotices t (cs.foldl (fun t c => takeCreation c .whole t) t) from OnlyNotices.trans rfl (h _ _)
  intro cs
  induction cs with
  | nil => intro t; rfl
  | cons c cs ih => intro t; exact (onlyNotices_takeCreation _ _ _).trans (ih _)

/-- A channel with nothing on it is drained at once. -/
theorem drainChannel_of_none (ch : Channel) (s : State) (h : ∀ c ∈ s.transit.creations, c.channel ≠ ch) :
    drainChannel ch s = s := by
  have h1 : s.transit.creations.filter (fun c => decide (c.channel = ch)) = [] := by
    rw [List.filter_eq_nil_iff]
    intro c hc
    simpa using h c hc
  have h2 : s.transit.creations.filter (fun c => decide (c.channel ≠ ch)) = s.transit.creations := by
    rw [List.filter_eq_self]
    intro c hc
    simpa using h c hc
  simp only [drainChannel, h1, h2, List.foldl_nil]
  rfl

theorem channel_eq_line_iff (c : Creation) (l : LineIx) : c.channel = .line l ↔ c.key.source = .line l := by
  unfold Creation.channel Source.channel
  cases c.key.source <;> simp

/-- All that taking a session end can change. -/
theorem onlyNotices_takeNoticeEnd (e : NoticeEnd) (x : Extent) (s : State) : OnlyNotices s (takeNoticeEnd e x s) := by
  have h : OnlyNotices s ((e.handed ++ s.queue e.link).foldl (dealWith e.link) (s.setQueue e.link [])) :=
    ((onlyPool_setQueue _ _ _).trans (onlyPool_dealWithAll _ _ _)).onlyNotices
  unfold takeNoticeEnd
  simp only
  split
  · exact h
  · exact h.trans (onlyNotices_takeCreation _ _ _)

/-- The configuration and the samples of a line are not the notice unit's: only its pending flag may be set. -/
theorem line_takeCreation (c : Creation) (e : Extent) (s : State) (l : LineIx) :
    (takeCreation c e s).line l = s.line l ∨ (takeCreation c e s).line l = { s.line l with pending := true } := by
  have copies : ∀ links : List Link, (takeCopies c links e s).line l = s.line l := by
    intro links
    unfold takeCopies
    cases e with
    | whole =>
      simp only
      have h := onlyPool_placeCopies c links s
      rw [h]; rfl
    | oneCopy =>
      simp only
      split
      · rfl
      · next n ns _ =>
        have h := onlyPool_placeCopies c [n] s
        split
        · rw [h]; rfl
        · rw [h]; rfl
  have pair : ∀ p f reset, (takePair p f reset c s).line l = s.line l
      ∨ (takePair p f reset c s).line l = { s.line l with pending := true } := by
    intro p f reset
    have h : (placePair p f reset c s).2.line l = s.line l := by
      have h := onlyPool_placePair p f reset c s
      rw [h]; rfl
    unfold takePair noteOutcome
    split
    · next k _ =>
      split
      · by_cases hk : l = k
        · subst hk; right; simp [h]
        · left; simp [hk, h]
      · exact .inl h
    · exact .inl h
  unfold takeCreation
  split
  · exact pair _ _ _
  · exact pair _ _ _
  · left
    split
    · have h := onlyPool_place ‹Link› none c s
      rw [h]; rfl
    · rfl
  · exact .inl (copies _)
  · exact .inl (copies _)

theorem line_drainChannel (ch : Channel) (s : State) (l : LineIx) :
    (drainChannel ch s).line l = s.line l ∨ (drainChannel ch s).line l = { s.line l with pending := true } := by
  unfold drainChannel
  suffices h : ∀ (cs : List Creation) (t : State),
      (cs.foldl (fun t c => takeCreation c .whole t) t).line l = t.line l
      ∨ (cs.foldl (fun t c => takeCreation c .whole t) t).line l = { t.line l with pending := true } from h _ _
  intro cs
  induction cs with
  | nil => intro t; exact .inl rfl
  | cons c cs ih =>
    intro t
    rw [List.foldl_cons]
    rcases ih (takeCreation c .whole t) with h | h <;> rcases line_takeCreation c .whole t l with h' | h' <;>
      rw [h, h'] <;> simp

end Sys2Proof.Machine
end

