-- ==== Sys2Proof/Laws/Sessions.lean ====
section
/-!
SUPPORT. Session ends and the authority: everything the end of a session does at the link, and the only parts of State its
shares elsewhere can change.
-/

namespace Sys2Proof.Machine

/-- A link that is not UP has no session to end (R159). -/
theorem endSession_of_not_up (n : Link) (why : EndReason) (s : State) (h : s.isUp n = false) :
    endSession n why s = s := by
  simp [endSession, h]

/-- Everything the end of a session does at the link unit, the transmitter and the delivery unit, and the words it hands to
the notice unit and the authority unit (R102, R159). -/
theorem endSession_of_up (n : Link) (why : EndReason) (s : State) (h : s.isUp n = true) :
    endSession n why s =
      (((s.setLink n
          { s.link n with
            state := .silent, inactivity := none, closing := .nothing
            replies := (s.link n).replies.map fun r => { r with closing := .nothing } }).setTransmitter n
          ((s.transmitter n).map fun f => { f with carried := f.carried.plain })).setDelivery n
          { s.delivery n with inFlight := [], resend := [] }).setTransit
        { s.transit with
          noticeEnds := s.transit.noticeEnds ++
            [⟨n, why, (s.link n).client, (s.delivery n).inFlight.map (·.notice), []⟩]
          authorityEnds := s.transit.authorityEnds ++ [n] } := by
  unfold endSession
  rw [h]
  simp only [Bool.not_true, Bool.false_eq_true, if_false, withdrawClosing, deliveryShare]
  simp [State.setLink, State.setTransmitter, State.setDelivery, State.setTransit, State.link, State.delivery,
    State.transmitter]

/-- What a session end may change at once. -/
abbrev OnlyEnds (s t : State) : Prop :=
  t = { s with
    links := t.links, transmitters := t.transmitters, deliveries := t.deliveries
    transit := { s.transit with
      noticeEnds := t.transit.noticeEnds, authorityEnds := t.transit.authorityEnds } }

theorem onlyEnds_endSession (n : Link) (why : EndReason) (s : State) : OnlyEnds s (endSession n why s) := by
  cases h : s.isUp n with
  | false => rw [endSession_of_not_up n why s h]
  | true => rw [endSession_of_up n why s h]; rfl

/-- Noting a watch at a waiting end moves no end and names no other link (R44). -/
theorem link_noteResetter (n : Link) (r : Resetter) (s : State) :
    (noteResetter n r s).transit.noticeEnds.map (·.link) = s.transit.noticeEnds.map (·.link) := by
  unfold noteResetter
  rw [transit_setTransit, List.map_map]
  apply List.map_congr_left
  intro e _
  simp only [Function.comp_apply]
  split <;> rfl

@[simp] theorem upAtNotices_noteResetter (n m : Link) (r : Resetter) (s : State) :
    (noteResetter n r s).upAtNotices m = s.upAtNotices m := by
  have h : ∀ t : State, t.upAtNotices m = (t.isUp m || (t.transit.noticeEnds.map (·.link)).any fun k => k = m) := by
    intro t
    unfold State.upAtNotices
    rw [List.any_map]
    rfl
  rw [h, h, link_noteResetter]
  rfl

theorem isUp_endSession (n m : Link) (why : EndReason) (s : State) :
    (endSession n why s).isUp m = if m = n then false else s.isUp m := by
  cases h : s.isUp n with
  | false =>
    rw [endSession_of_not_up n why s h]
    split
    · next e => rw [e, h]
    · rfl
  | true =>
    rw [endSession_of_up n why s h]
    unfold State.isUp
    simp only [link_setTransit, link_setDelivery, link_setTransmitter, link_setLink]
    split <;> simp_all

/-! ### The authority's share -/

/-- The authority record and the notices handed on. -/
abbrev OnlyAuthority (s t : State) : Prop :=
  t = { s with authority := t.authority, transit := { s.transit with creations := t.transit.creations } }

theorem onlyAuthority_becomeHolder (n : Link) (s : State) : OnlyAuthority s (becomeHolder n s) := rfl

theorem onlyAuthority_passOn (ended : Option Link) (s : State) : OnlyAuthority s (passOn ended s) := by
  unfold passOn
  split <;> rfl

theorem onlyAuthority_takeAuthorityEnd (n : Link) (s : State) : OnlyAuthority s (takeAuthorityEnd n s) := by
  unfold takeAuthorityEnd
  split
  · split
    · exact onlyAuthority_passOn _ _
    · rfl
  · split
    · exact onlyAuthority_passOn _ _
    · rfl
  · rfl

@[simp] theorem handed_authChange (s : State) (holder except : Option Link) :
    (authChange holder except).handed s = authChange holder except := rfl

@[simp] theorem handed_authWanted (s : State) (n h : Link) : (authWanted n h).handed s = authWanted n h := rfl

@[simp] theorem handed_authOffer (s : State) (n : Link) : (authOffer n).handed s = authOffer n := rfl

/-! ### The ends every command takes first (R132, R133) -/

theorem OnlyAuthority.trans {s t u : State} (h : OnlyAuthority s t) (h' : OnlyAuthority t u) : OnlyAuthority s u := by
  unfold OnlyAuthority at *
  rw [h'] at *
  rw [h]

/-- All that settling the authority can change: the authority record, the notices handed on, and the ends, of which none is
left. -/
theorem settleAuthority_leaves (s : State) : settleAuthority s =
    { s with
      authority := (settleAuthority s).authority
      transit := { s.transit with creations := (settleAuthority s).transit.creations, authorityEnds := [] } } := by
  have all : ∀ (ns : List Link) (t : State), OnlyAuthority t (ns.foldl (fun t n => takeAuthorityEnd n t) t) := by
    intro ns
    induction ns with
    | nil => intro t; rfl
    | cons n ns ih => intro t; exact (onlyAuthority_takeAuthorityEnd n t).trans (ih _)
  exact all s.transit.authorityEnds (s.setTransit { s.transit with authorityEnds := [] })

@[simp] theorem authorityEnds_settleAuthority (s : State) : (settleAuthority s).transit.authorityEnds = [] := by
  rw [settleAuthority_leaves]

/-- With no end waiting there is nothing to settle. -/
theorem settleAuthority_of_prompt (s : State) (h : s.transit.authorityEnds = []) : settleAuthority s = s := by
  unfold settleAuthority
  rw [h, List.foldl_nil, ← h]
  rfl

@[simp] theorem settleAuthority_settleAuthority (s : State) :
    settleAuthority (settleAuthority s) = settleAuthority s :=
  settleAuthority_of_prompt _ (authorityEnds_settleAuthority s)

/-- An end waiting alone is taken as the authority unit's share of it. -/
theorem settleAuthority_of_one (s : State) (n : Link) (h : s.transit.authorityEnds = [n]) :
    settleAuthority s = authorityShare n s := by
  simp [settleAuthority, authorityShare, h, takeFirst]

@[simp] theorem link_settleAuthority (s : State) (n : Link) : (settleAuthority s).link n = s.link n := by
  rw [settleAuthority_leaves]; rfl

@[simp] theorem isUp_settleAuthority (s : State) (n : Link) : (settleAuthority s).isUp n = s.isUp n := by
  rw [settleAuthority_leaves]; rfl

@[simp] theorem deaf_settleAuthority (s : State) (n : Link) : (settleAuthority s).deaf n = s.deaf n := by
  rw [settleAuthority_leaves]; rfl

@[simp] theorem receiver_settleAuthority (s : State) (n : Link) : (settleAuthority s).receiver n = s.receiver n := by
  rw [settleAuthority_leaves]; rfl

@[simp] theorem resetIsHeld_settleAuthority (s : State) : (settleAuthority s).resetIsHeld = s.resetIsHeld := by
  rw [settleAuthority_leaves]

@[simp] theorem pending_settleAuthority (s : State) : (settleAuthority s).pending = s.pending := by
  rw [settleAuthority_leaves]

@[simp] theorem uptime_settleAuthority (s : State) : (settleAuthority s).uptime = s.uptime := by
  rw [settleAuthority_leaves]

theorem unlessReset_of_held (f : State → State) (s : State) (h : s.resetIsHeld = true) : unlessReset f s = s := by
  simp [unlessReset, h]

/-- An event finds no session end waiting at the authority unit. -/
theorem unlessReset_of_running (f : State → State) (s : State) (h : s.resetIsHeld = false) :
    unlessReset f s = f (settleAuthority s) := by
  simp [unlessReset, h]

theorem unlessReset_of_prompt (f : State → State) (s : State) (h : s.resetIsHeld = false)
    (h' : s.transit.authorityEnds = []) : unlessReset f s = f s := by
  rw [unlessReset_of_running f s h, settleAuthority_of_prompt s h']

/-- Settling the authority before an event makes no difference to it, RESET not held. -/
theorem unlessReset_settleAuthority (f : State → State) (s : State) (h : s.resetIsHeld = false) :
    unlessReset f (settleAuthority s) = unlessReset f s := by
  simp [unlessReset, h]

/-- What the notice unit's and the authority unit's shares of session ends may change together. -/
abbrev OnlyShares (s t : State) : Prop :=
  t = { s with
    queues := t.queues, losses := t.losses, stamp := t.stamp, lines := t.lines, authority := t.authority
    choices := t.choices
    transit := { s.transit with
      creations := t.transit.creations, lineReports := t.transit.lineReports, noticeEnds := t.transit.noticeEnds
      authorityEnds := t.transit.authorityEnds } }

theorem OnlyShares.trans {s t u : State} (h : OnlyShares s t) (h' : OnlyShares t u) : OnlyShares s u := by
  unfold OnlyShares at *
  rw [h'] at *
  rw [h]

theorem OnlyNotices.onlyShares {s t : State} (h : OnlyNotices s t) : OnlyShares s t := by
  unfold OnlyNotices OnlyShares at *
  rw [h]

theorem OnlyAuthority.onlyShares {s t : State} (h : OnlyAuthority s t) : OnlyShares s t := by
  unfold OnlyAuthority OnlyShares at *
  rw [h]

theorem onlyShares_noticeShare (n : Link) (x : Extent) (s : State) : OnlyShares s (noticeShare n x s) := by
  unfold noticeShare
  split
  · rfl
  · exact OnlyShares.trans rfl (onlyNotices_takeNoticeEnd _ _ _).onlyShares

theorem onlyShares_authorityShare (n : Link) (s : State) : OnlyShares s (authorityShare n s) := by
  unfold authorityShare
  split
  · rfl
  · exact OnlyShares.trans rfl (onlyAuthority_takeAuthorityEnd _ _).onlyShares

/-- All that settling the ends of a link's session can change. -/
theorem onlyShares_settleEnds (n : Link) (s : State) : OnlyShares s (settleEnds n s) := by
  unfold settleEnds
  split
  · have counted : OnlyShares s { s with choices := s.choices + 1 } := rfl
    simp only
    split
    · exact ((counted.trans (onlyShares_authorityShare _ _)).trans
        (onlyNotices_drainChannel _ _).onlyShares).trans (onlyShares_noticeShare _ _ _)
    · exact (counted.trans (onlyShares_noticeShare _ _ _)).trans (onlyShares_authorityShare _ _)
  · rfl

end Sys2Proof.Machine
end

