-- ==== Sys2Proof/Laws/Delivery.lean ====
section
/-!
SUPPORT. The delivery units: the record a number names, and the number a first send takes.
-/

namespace Sys2Proof.Machine

/-- In a set whose numbers are distinct, a record is the one its number names (R91). -/
theorem flightOf_of_mem (set : List InFlight) (f : InFlight) (hf : f ∈ set) (hn : (set.map (·.number)).Nodup) :
    flightOf set f.number = some f := by
  unfold flightOf
  induction set with
  | nil => cases hf
  | cons a l ih =>
    simp only [List.map_cons, List.nodup_cons, List.mem_map, not_exists, not_and] at hn
    rcases List.mem_cons.mp hf with rfl | hf
    · simp
    · have : a.number ≠ f.number := fun h => hn.1 f hf h.symm
      simp [this, ih hf hn.2]

theorem flightOf_eq_none_iff (set : List InFlight) (k : Byte) :
    flightOf set k = none ↔ ∀ f ∈ set, f.number ≠ k := by
  simp [flightOf]

theorem flightOf_eq_some (set : List InFlight) (k : Byte) (f : InFlight) (h : flightOf set k = some f) :
    f ∈ set ∧ f.number = k :=
  ⟨List.mem_of_find?_eq_some h, by simpa using List.find?_some h⟩

/-- A revision that keeps the numbers keeps the list of them. -/
theorem numbers_reviseFlight (set : List InFlight) (k : Byte) (g : InFlight → InFlight)
    (hg : ∀ f, (g f).number = f.number) : (reviseFlight set k g).map (·.number) = set.map (·.number) := by
  unfold reviseFlight
  rw [List.map_map]
  apply List.map_congr_left
  intro f _
  simp only [Function.comp_apply]
  split
  · exact hg f
  · rfl

/-- Of four distinct numbers one is free of at most three records in flight. -/
theorem exists_free_number (set : List InFlight) (next : Byte) (h : set.length ≤ 3) :
    ∃ k ∈ [next, next + 1, next + 2, next + 3], ∀ f ∈ set, f.number ≠ k := by
  by_contra hc
  push Not at hc
  have sub : [next, next + 1, next + 2, next + 3] ⊆ set.map (·.number) := by
    intro k hk
    obtain ⟨f, hf, e⟩ := hc k hk
    exact List.mem_map.mpr ⟨f, hf, e⟩
  have nd : ∀ n : Byte, [n, n + 1, n + 2, n + 3].Nodup := by decide
  have := ((nd next).subperm sub).length_le
  simp at this
  omega

/-- The number a first send takes: no record in flight carries it, and it is the next notice number after as few skips as
that needs (R91). -/
theorem pickNumber_spec (set : List InFlight) (next : Byte) (h : set.length ≤ 3) :
    (∀ f ∈ set, f.number ≠ pickNumber set next)
    ∧ ∃ skipped ≤ 3, pickNumber set next = next + BitVec.ofNat 8 skipped
        ∧ ∀ j < skipped, ∃ f ∈ set, f.number = next + BitVec.ofNat 8 j := by
  obtain ⟨k, hk, free⟩ := exists_free_number set next h
  have used : ∀ m : Byte, (flightOf set m).isNone = false → ∃ f ∈ set, f.number = m := by
    intro m hm
    cases hf : flightOf set m with
    | none => rw [hf] at hm; cases hm
    | some f => exact ⟨f, flightOf_eq_some set m f hf⟩
  have unused : ∀ m : Byte, (flightOf set m).isNone = true → ∀ f ∈ set, f.number ≠ m := by
    intro m hm
    exact (flightOf_eq_none_iff set m).mp (by simpa using hm)
  have zero : next + BitVec.ofNat 8 0 = next := by simp
  have spec : ∀ skipped ≤ 3, (flightOf set (next + BitVec.ofNat 8 skipped)).isNone = true →
      (∀ j < skipped, (flightOf set (next + BitVec.ofNat 8 j)).isNone = false) →
      pickNumber set next = next + BitVec.ofNat 8 skipped →
      (∀ f ∈ set, f.number ≠ pickNumber set next)
      ∧ ∃ skipped ≤ 3, pickNumber set next = next + BitVec.ofNat 8 skipped
          ∧ ∀ j < skipped, ∃ f ∈ set, f.number = next + BitVec.ofNat 8 j := by
    intro m hm hn hb he
    exact ⟨by rw [he]; exact unused _ hn, m, hm, he, fun j hj => used _ (hb j hj)⟩
  have pick := pickNumber.eq_1 set next
  simp only [List.find?_cons, List.find?_nil] at pick
  cases h0 : (flightOf set next).isNone with
  | true =>
    rw [h0] at pick
    exact spec 0 (by omega) (by rw [zero]; exact h0) (fun j hj => absurd hj (by omega)) (by rw [zero]; exact pick)
  | false =>
    rw [h0] at pick
    cases h1 : (flightOf set (next + 1)).isNone with
    | true =>
      rw [h1] at pick
      refine spec 1 (by omega) h1 (fun j hj => ?_) pick
      have : j = 0 := by omega
      subst this; rw [zero]; exact h0
    | false =>
      rw [h1] at pick
      cases h2 : (flightOf set (next + 2)).isNone with
      | true =>
        rw [h2] at pick
        refine spec 2 (by omega) h2 (fun j hj => ?_) pick
        have : j = 0 ∨ j = 1 := by omega
        rcases this with rfl | rfl
        · rw [zero]; exact h0
        · exact h1
      | false =>
        rw [h2] at pick
        cases h3 : (flightOf set (next + 3)).isNone with
        | true =>
          rw [h3] at pick
          refine spec 3 (by omega) h3 (fun j hj => ?_) pick
          have : j = 0 ∨ j = 1 ∨ j = 2 := by omega
          rcases this with rfl | rfl | rfl
          · rw [zero]; exact h0
          · exact h1
          · exact h2
        | false =>
          exfalso
          simp only [List.mem_cons, List.not_mem_nil, or_false] at hk
          rcases hk with rfl | rfl | rfl | rfl
          · obtain ⟨f, hf, e⟩ := used _ h0; exact free f hf e
          · obtain ⟨f, hf, e⟩ := used _ h1; exact free f hf e
          · obtain ⟨f, hf, e⟩ := used _ h2; exact free f hf e
          · obtain ⟨f, hf, e⟩ := used _ h3; exact free f hf e

/-- What the tick taken at an ack timer may change (R94, R97, R98). -/
theorem onlyEnds_takeAckTick (n : Link) (k : Byte) (s : State) : OnlyEnds s (takeAckTick n k s) := by
  have set : ∀ d, OnlyEnds s (s.setDelivery n d) := fun _ => rfl
  unfold takeAckTick
  simp only
  split
  · split
    · split
      · exact set _
      · split
        · exact set _
        · have h := onlyEnds_endSession n .noAck (s.setDelivery n
            { s.delivery n with
              inFlight := reviseFlight (s.delivery n).inFlight k fun f => { f with timer := none, timerDue := false } })
          unfold OnlyEnds at h ⊢
          rw [h]; rfl
    · rfl
  · rfl

end Sys2Proof.Machine
end

