-- ==== Sys2Proof/Laws/Outputs.lean ====
section
/-!
SUPPORT. The output unit: the slots of a claim set, when a set is empty, and everything a change of one does.
-/

namespace Sys2Proof.Machine

/-! ### Slots -/

theorem slotOf_surj (k : Fin 33) : ∃ c, k = slotOf c := by
  by_cases h : k.val < 32
  · exact ⟨.watch ⟨k.val, h⟩, by simp [slotOf]⟩
  · exact ⟨.manual, by simp [slotOf]; omega⟩

theorem val_slotOf (c : Claimant) : (slotOf c).val = match c with | .watch i => i.val | .manual => 32 := by
  cases c <;> rfl

theorem slotOf_inj (a b : Claimant) (h : slotOf a = slotOf b) : a = b := by
  have hv := congrArg Fin.val h
  rw [val_slotOf, val_slotOf] at hv
  cases a with
  | watch i =>
    cases b with
    | watch j => exact congrArg Claimant.watch (Fin.ext hv)
    | manual => exact absurd hv (Nat.ne_of_lt i.isLt)
  | manual =>
    cases b with
    | watch j => exact absurd hv.symm (Nat.ne_of_lt j.isLt)
    | manual => rfl

/-- The claim of a claimant after one slot of the set is replaced. -/
theorem claimOf_put (set : ClaimSet) (a b : Claimant) (x : Option Claim) :
    claimOf (put set (slotOf a) x) b = if b = a then x else claimOf set b := by
  unfold claimOf
  by_cases h : b = a
  · subst h; simp
  · have : slotOf b ≠ slotOf a := fun e => h (slotOf_inj _ _ e)
    simp [h, this]

/-- A set is non-empty exactly when some claimant has a claim in it. -/
theorem nonEmpty_iff (set : ClaimSet) : ClaimSet.nonEmpty set = true ↔ ∃ c, claimOf set c ≠ none := by
  unfold ClaimSet.nonEmpty claimOf
  simp only [List.any_eq_true, Vector.mem_toList_iff]
  constructor
  · rintro ⟨x, hx, h⟩
    obtain ⟨i, hi, rfl⟩ := Vector.mem_iff_getElem.mp hx
    obtain ⟨c, hc⟩ := slotOf_surj ⟨i, hi⟩
    refine ⟨c, fun e => ?_⟩
    have : set[slotOf c] = set[(⟨i, hi⟩ : Fin 33)] := by simp only [hc]
    rw [this] at e
    have e' : set[i] = none := e
    simp [e'] at h
  · rintro ⟨c, hc⟩
    refine ⟨set[slotOf c], by simp, ?_⟩
    cases h : set[slotOf c] <;> simp_all

theorem nonEmpty_eq_false_iff (set : ClaimSet) : ClaimSet.nonEmpty set = false ↔ ∀ c, claimOf set c = none := by
  rw [← Bool.not_eq_true, nonEmpty_iff]
  push Not
  rfl

/-- A set in which a claim has been taken is not empty. -/
theorem nonEmpty_claimInto (c : Claimant) (d : Option Nat) (set : ClaimSet) :
    ClaimSet.nonEmpty (claimInto c d set) = true := by
  rw [nonEmpty_iff]
  exact ⟨c, by simp [claimInto, claimOf_put]⟩

/-! ### Changes -/

theorem linkOfOutput_crstOf (n : Link) : linkOfOutput (crstOf n) = some n := by
  simp [linkOfOutput, crstOf]

theorem crstOf_ne_safe (n : Link) : crstOf n ≠ 4 := by
  intro e
  have := congrArg Fin.val e
  simp [crstOf] at this
  omega

/-- The state an output stands at after a change. -/
@[simp] theorem level_asserted (resetter : Resetter) : (CrstChange.asserted resetter).level = true := rfl

@[simp] theorem level_released : CrstChange.released.level = false := rfl

@[simp] theorem handed_outputNotice (s : State) (o : OutputIx) (level : Bool) :
    (outputNotice o level).handed s = outputNotice o level := rfl

/-- An announcement adds one OUTPUT notice and, for CRSTn, one word to link n (R119, R129). -/
theorem announce_eq (o : OutputIx) (change : CrstChange) (s : State) :
    announce o change s = s.setTransit
      { s.transit with
        creations := s.transit.creations ++ [outputNotice o change.level]
        crstWords := s.transit.crstWords ++ (linkOfOutput o).toList.map fun n => (n, change) } := by
  unfold announce
  cases linkOfOutput o <;> simp [State.post]

/-- Everything a change of a claim set does: the set is replaced, and a change of the output is announced. -/
theorem changeClaims_eq (o : OutputIx) (set : ClaimSet) (r : Resetter) (s : State) :
    changeClaims o set r s =
      if ClaimSet.nonEmpty set = s.asserted o then s.setClaimSet o set
      else announce o (if ClaimSet.nonEmpty set then .asserted r else .released) (s.setClaimSet o set) := rfl

theorem claimSet_changeClaims (o p : OutputIx) (set : ClaimSet) (r : Resetter) (s : State) :
    (changeClaims o set r s).claimSet p = if p = o then set else s.claimSet p := by
  rw [changeClaims_eq]
  split <;> simp [announce_eq, claimSet_setClaimSet]

theorem claimSet_takeClaim (c : Claimant) (o p : OutputIx) (d : Option Nat) (g : Option Byte) (s : State) :
    (takeClaim c o d g s).claimSet p = if p = o then claimInto c d (s.claimSet o) else s.claimSet p :=
  claimSet_changeClaims _ _ _ _ _

theorem claimSet_dropClaim (c : Claimant) (o p : OutputIx) (s : State) :
    (dropClaim c o s).claimSet p = if p = o then put (s.claimSet o) (slotOf c) none else s.claimSet p :=
  claimSet_changeClaims _ _ _ _ _

/-- Every claim of a watch is gone, and no other (R126). -/
theorem claimSet_dropAllClaims (i : WatchIx) (o : OutputIx) (s : State) :
    (dropAllClaims i s).claimSet o = put (s.claimSet o) (slotOf (.watch i)) none := by
  have cases5 : ∀ x : OutputIx, x = 0 ∨ x = 1 ∨ x = 2 ∨ x = 3 ∨ x = 4 := by decide
  have all5 : List.finRange 5 = [0, 1, 2, 3, 4] := by decide
  unfold dropAllClaims
  rw [all5]
  simp only [List.foldl_cons, List.foldl_nil, claimSet_dropClaim]
  rcases cases5 o with h | h | h | h | h <;> subst h <;> simp

/-! ### Removals on several outputs -/

/-- A change is announced the same whatever the claim sets are. -/
theorem announce_setClaimSet (o p : OutputIx) (change : CrstChange) (set : ClaimSet) (s : State) :
    announce o change (s.setClaimSet p set) = (announce o change s).setClaimSet p set := by
  rw [announce_eq, announce_eq]
  rfl

/-- An output is released, if its set was not empty and is. -/
abbrev releaseIf (was left : Bool) (o : OutputIx) (s : State) : State :=
  if was && !left then announce o .released s else s

theorem claimSet_releaseIf (was left : Bool) (o p : OutputIx) (s : State) :
    (releaseIf was left o s).claimSet p = s.claimSet p := by
  unfold releaseIf
  split
  · rw [announce_eq]; rfl
  · rfl

theorem releaseIf_setClaimSet (was left : Bool) (o p : OutputIx) (set : ClaimSet) (s : State) :
    releaseIf was left o (s.setClaimSet p set) = (releaseIf was left o s).setClaimSet p set := by
  unfold releaseIf
  split
  · rw [announce_setClaimSet]
  · rfl

theorem changeClaims_release (o : OutputIx) (set : ClaimSet) (r : Resetter) (s : State)
    (h : s.asserted o = false → ClaimSet.nonEmpty set = false) :
    changeClaims o set r s = releaseIf (s.asserted o) (ClaimSet.nonEmpty set) o (s.setClaimSet o set) := by
  rw [changeClaims_eq]
  unfold releaseIf
  cases ha : s.asserted o <;> cases hs : ClaimSet.nonEmpty set <;> simp_all

/-- Everything a removal of claims on several outputs does: the sets are replaced, and then the outputs whose sets became
empty are released, in the order they were gone through (R121, R126). -/
theorem foldl_changeClaims (f : ClaimSet → ClaimSet) (h : ∀ set, ClaimSet.nonEmpty set = false → ClaimSet.nonEmpty (f set) = false)
    (os : List OutputIx) (hn : os.Nodup) (s : State) :
    os.foldl (fun t o => changeClaims o (f (t.claimSet o)) none t) s =
      os.foldl (fun t o => releaseIf (s.asserted o) (ClaimSet.nonEmpty (f (s.claimSet o))) o t)
        (os.foldl (fun t o => t.setClaimSet o (f (s.claimSet o))) s) := by
  have commute : ∀ (os : List OutputIx) (was left : Bool) (o : OutputIx) (g : OutputIx → ClaimSet) (t : State),
      os.foldl (fun t o => t.setClaimSet o (g o)) (releaseIf was left o t) =
        releaseIf was left o (os.foldl (fun t o => t.setClaimSet o (g o)) t) := by
    intro os
    induction os with
    | nil => intros; rfl
    | cons p os ih =>
      intro was left o g t
      rw [List.foldl_cons, ← releaseIf_setClaimSet, ih, List.foldl_cons]
  induction os generalizing s with
  | nil => rfl
  | cons o os ih =>
    rw [List.nodup_cons] at hn
    have other : ∀ p ∈ os, (changeClaims o (f (s.claimSet o)) none s).claimSet p = s.claimSet p := by
      intro p hp
      rw [claimSet_changeClaims, if_neg]
      rintro rfl
      exact hn.1 hp
    rw [List.foldl_cons, ih hn.2]
    have sets : ∀ (g : State → State) , os.foldl (fun t p => t.setClaimSet p (f ((changeClaims o (f (s.claimSet o)) none s).claimSet p))) (g s)
        = os.foldl (fun t p => t.setClaimSet p (f (s.claimSet p))) (g s) :=
      fun g => List.foldl_ext _ _ _ fun t p hp => by rw [other p hp]
    rw [sets fun s => changeClaims o (f (s.claimSet o)) none s,
      changeClaims_release o _ none s (h _), commute]
    rw [List.foldl_cons, List.foldl_cons]
    refine List.foldl_ext _ _ _ fun t p hp => ?_
    have := other p hp
    rw [changeClaims_release o _ none s (h _)] at this
    unfold State.asserted at this ⊢
    rw [this]

/-- Every claim set replaced by a function of itself, one output after the other. -/
theorem foldl_setClaimSet (f : ClaimSet → ClaimSet) (s : State) :
    (List.finRange 5).foldl (fun t o => t.setClaimSet o (f (s.claimSet o))) s =
      { s with claims := remap s.claims fun _ set => f set } := by
  have all5 : List.finRange 5 = [0, 1, 2, 3, 4] := by decide
  have cases5 : ∀ x : OutputIx, x = 0 ∨ x = 1 ∨ x = 2 ∨ x = 3 ∨ x = 4 := by decide
  rw [all5]
  simp only [List.foldl_cons, List.foldl_nil]
  generalize ht : ((((s.setClaimSet 0 (f (s.claimSet 0))).setClaimSet 1 (f (s.claimSet 1))).setClaimSet 2
    (f (s.claimSet 2))).setClaimSet 3 (f (s.claimSet 3))).setClaimSet 4 (f (s.claimSet 4)) = t
  have only : t = { s with claims := t.claims } := by rw [← ht]; rfl
  have each : ∀ o, t.claimSet o = f (s.claimSet o) := by
    intro o
    rw [← ht]
    rcases cases5 o with e | e | e | e | e <;> subst e <;> simp
  have sets : t.claims = remap s.claims fun _ set => f set := by
    apply table_ext
    intro o
    rw [get_remap]
    exact each o
  rw [only, sets]

/-- Everything CLEAR's order does (R126). -/
theorem dropAllClaims_eq (i : WatchIx) (s : State) :
    dropAllClaims i s =
      (List.finRange 5).foldl
        (fun t o => releaseIf (s.asserted o) (ClaimSet.nonEmpty (put (s.claimSet o) (slotOf (.watch i)) none)) o t)
        { s with claims := remap s.claims fun _ set => put set (slotOf (.watch i)) none } := by
  have h : ∀ set : ClaimSet, ClaimSet.nonEmpty set = false →
      ClaimSet.nonEmpty (put set (slotOf (.watch i)) none) = false := by
    intro set e
    rw [nonEmpty_eq_false_iff] at *
    intro c
    rw [claimOf_put, e c]
    split <;> rfl
  rw [← foldl_setClaimSet fun set => put set (slotOf (.watch i)) none]
  exact foldl_changeClaims (fun set => put set (slotOf (.watch i)) none) h _ (by decide) s

/-! ### Claims of MANUAL on their way (log 6) -/

theorem settleManual_of_none (o : OutputIx) (s : State) (h : s.manualWords o = []) : settleManual o s = s := by
  have keep : s.transit.outputWords.filter (fun w => !w.isManual o) = s.transit.outputWords := by
    rw [List.filter_eq_self]
    intro w hw
    have : w ∉ s.manualWords o := by rw [h]; exact List.not_mem_nil
    simpa [State.manualWords, hw] using this
  unfold settleManual
  rw [h, keep]
  rfl

/-- Once the claims of MANUAL on their way to an output are taken, its set is the one a request of the holder finds. -/
theorem claimSet_settleManual (o : OutputIx) (s : State) :
    (settleManual o s).claimSet o = s.claimSetForManual o := by
  unfold settleManual State.claimSetForManual
  suffices h : ∀ (ws : List OutputWord) (t : State),
      (ws.foldl (fun t w => takeClaim .manual o w.duration none t) t).claimSet o =
        ws.foldl (fun set w => claimInto .manual w.duration set) (t.claimSet o) by
    rw [h]; rfl
  intro ws
  induction ws with
  | nil => intro t; rfl
  | cons w ws ih =>
    intro t
    rw [List.foldl_cons, ih, claimSet_takeClaim, if_pos rfl, List.foldl_cons]

/-- What the output unit may change: the claim sets, and notices and CRST words handed on. -/
abbrev OnlyClaims (s t : State) : Prop :=
  t = { s with
    claims := t.claims
    transit := { s.transit with creations := t.transit.creations, crstWords := t.transit.crstWords } }

theorem OnlyClaims.trans {s t u : State} (h : OnlyClaims s t) (h' : OnlyClaims t u) : OnlyClaims s u := by
  unfold OnlyClaims at *
  rw [h'] at *
  rw [h]

theorem onlyClaims_changeClaims (o : OutputIx) (set : ClaimSet) (r : Resetter) (s : State) :
    OnlyClaims s (changeClaims o set r s) := by
  rw [changeClaims_eq]
  split
  · rfl
  · rw [announce_eq]; rfl

theorem onlyClaims_dropAllClaims (i : WatchIx) (s : State) : OnlyClaims s (dropAllClaims i s) := by
  unfold dropAllClaims
  suffices h : ∀ (os : List OutputIx) (t : State), OnlyClaims t (os.foldl (fun t o => dropClaim (.watch i) o t) t) from
    h _ _
  intro os
  induction os with
  | nil => intro t; rfl
  | cons o os ih => intro t; exact (onlyClaims_changeClaims _ _ _ _).trans (ih _)

/-! ### The 1 ms tick (R121) -/

/-- A claim after a tick, case by case. -/
theorem counted_eq (c : Claim) : c.counted =
    match c with
    | .timed r => if r ≤ 1 then none else some (.timed (r - 1))
    | .held => some .held := by
  cases c <;> simp [Claim.counted, Claim.atLastTick]

@[simp] theorem claimOf_counted (set : ClaimSet) (c : Claimant) :
    claimOf (ClaimSet.counted set) c = (claimOf set c).bind Claim.counted := by
  simp only [claimOf, ClaimSet.counted, Fin.getElem_fin, get_remap]

/-- A released output stays released by a tick. -/
theorem nonEmpty_counted (set : ClaimSet) (h : ClaimSet.nonEmpty set = false) :
    ClaimSet.nonEmpty (ClaimSet.counted set) = false := by
  rw [nonEmpty_eq_false_iff] at *
  intro c
  simp [h c]

theorem onlyClaims_countClaims (s : State) : OnlyClaims s (countClaims s) := by
  unfold countClaims
  suffices h : ∀ (os : List OutputIx) (t : State),
      OnlyClaims t (os.foldl (fun t o => changeClaims o (ClaimSet.counted (t.claimSet o)) none t) t) from h _ _
  intro os
  induction os with
  | nil => intro t; rfl
  | cons o os ih =>
    intro t
    rw [List.foldl_cons]
    exact (onlyClaims_changeClaims o (ClaimSet.counted (t.claimSet o)) none t).trans (ih _)

/-- Everything a 1 ms tick does at the output unit (R121). -/
theorem countClaims_eq (s : State) :
    countClaims s =
      (List.finRange 5).foldl
        (fun t o => releaseIf (s.asserted o) (ClaimSet.nonEmpty (ClaimSet.counted (s.claimSet o))) o t)
        { s with claims := remap s.claims fun _ set => ClaimSet.counted set } := by
  rw [← foldl_setClaimSet ClaimSet.counted]
  exact foldl_changeClaims ClaimSet.counted nonEmpty_counted _ (by decide) s

/-- Every claim set loses a millisecond by a tick, and no other thing happens to it (R121). -/
theorem claimSet_countClaims (o : OutputIx) (s : State) :
    (countClaims s).claimSet o = ClaimSet.counted (s.claimSet o) := by
  have cases5 : ∀ x : OutputIx, x = 0 ∨ x = 1 ∨ x = 2 ∨ x = 3 ∨ x = 4 := by decide
  have all5 : List.finRange 5 = [0, 1, 2, 3, 4] := by decide
  unfold countClaims
  rw [all5]
  simp only [List.foldl_cons, List.foldl_nil, claimSet_changeClaims]
  rcases cases5 o with h | h | h | h | h <;> subst h <;> simp

/-- A tick removes a claim exactly where some claim is at its last one. -/
theorem claimRunsOut_eq_false_iff (s : State) :
    s.claimRunsOut = false ↔ ∀ o c, ∀ x ∈ claimOf (s.claimSet o) c, x.atLastTick = false := by
  unfold State.claimRunsOut
  simp only [List.any_eq_false, Vector.mem_toList_iff, Vector.mem_iff_getElem]
  constructor
  · intro h o c x hx
    have hx : (s.claimSet o)[slotOf c] = some x := hx
    have := h s.claims[o] ⟨o, o.isLt, rfl⟩
    simp only [List.any_eq_true, Vector.mem_toList_iff, not_exists, not_and] at this
    have := this (some x) (Vector.mem_iff_getElem.mpr ⟨slotOf c, (slotOf c).isLt, hx⟩)
    simpa using this
  · rintro h set ⟨o, ho, rfl⟩
    simp only [List.any_eq_true, Vector.mem_toList_iff, not_exists, not_and]
    intro x hx
    obtain ⟨k, hk, rfl⟩ := Vector.mem_iff_getElem.mp hx
    obtain ⟨c, hc⟩ := slotOf_surj ⟨k, hk⟩
    have key := h ⟨o, ho⟩ c
    have e : claimOf (s.claimSet ⟨o, ho⟩) c = s.claims[o][k] := by
      simp only [claimOf, ← hc]
      rfl
    rw [e] at key
    cases hv : s.claims[o][k] with
    | none => simp
    | some y => simp [key y hv]

/-- Where a tick removes no claim, every claim set stays as empty as it was. -/
theorem nonEmpty_counted_of_none (set : ClaimSet) (h : ∀ c, ∀ x ∈ claimOf set c, x.atLastTick = false) :
    ClaimSet.nonEmpty (ClaimSet.counted set) = ClaimSet.nonEmpty set := by
  rw [Bool.eq_iff_iff, nonEmpty_iff, nonEmpty_iff]
  have : ∀ c, claimOf (ClaimSet.counted set) c ≠ none ↔ claimOf set c ≠ none := by
    intro c
    rw [claimOf_counted]
    cases hc : claimOf set c with
    | none => simp
    | some x =>
      have := h c x hc
      cases x <;> simp [Claim.counted, this]
  simp only [this]

/-- A tick that removes no claim only counts (R121). -/
theorem countClaims_of_noneRunsOut (s : State) (h : s.claimRunsOut = false) :
    countClaims s = { s with claims := remap s.claims fun _ set => ClaimSet.counted set } := by
  rw [claimRunsOut_eq_false_iff] at h
  have same : ∀ (o : OutputIx) (t : State),
      releaseIf (s.asserted o) (ClaimSet.nonEmpty (ClaimSet.counted (s.claimSet o))) o t = t := by
    intro o t
    unfold releaseIf State.asserted
    rw [nonEmpty_counted_of_none _ (h o)]
    simp
  rw [countClaims_eq]
  simp only [same, List.foldl_fixed]

/-- What a tick that reaches the output unit may change. -/
theorem tickClaims_eq (s : State) :
    tickClaims s =
      if s.claimRunsOut then { s with claimTickDue := true }
      else { s with claims := remap s.claims fun _ set => ClaimSet.counted set } := by
  unfold tickClaims
  by_cases h : s.claimRunsOut = true
  · rw [if_pos h, if_pos h, State.setClaimTickDue]
  · rw [if_neg h, if_neg h, countClaims_of_noneRunsOut s (by simpa using h)]

/-- What taking the tick due at the output unit may change: what `OnlyClaims` names, and whether the tick is due. -/
theorem onlyClaims_takeClaimTick (s : State) :
    OnlyClaims (s.setClaimTickDue (takeClaimTick s).claimTickDue) (takeClaimTick s) := by
  unfold takeClaimTick
  split
  · have h := onlyClaims_countClaims (s.setClaimTickDue false)
    have due : (countClaims (s.setClaimTickDue false)).claimTickDue = false := congrArg State.claimTickDue h
    rw [due]
    exact h
  · rfl

@[simp] theorem claimTickDue_takeClaimTick (s : State) : (takeClaimTick s).claimTickDue = false := by
  unfold takeClaimTick
  split
  · exact congrArg State.claimTickDue (onlyClaims_countClaims (s.setClaimTickDue false))
  · next h => simpa using h

theorem takeClaimTick_of_notDue (s : State) (h : s.claimTickDue = false) : takeClaimTick s = s := by
  simp [takeClaimTick, h]

end Sys2Proof.Machine
end

