-- ==== Sys2Proof/Laws/Requests.lean ====
section
/-!
SUPPORT. Everything a request command can do: what the arrival of its frame changes, when it is discarded, and that it is
otherwise answered by its block.
-/

namespace Sys2Proof.Machine

/-! ### The arrival of a frame -/

/-- The link record once a valid frame has arrived. -/
def LinkRec.heard (l : LinkRec) : LinkRec := if l.state = .up then l.loadInactivity else l

theorem heard_eq (s : State) (n : Link) :
    s.heard n = (s.setReceiver n .hunting).setLink n (s.link n).heard := by
  unfold State.heard State.frameArrived LinkRec.heard State.isUp
  by_cases h : (s.link n).state = .up
  · simp [h]
  · simp only [h, decide_false, Bool.false_eq_true, if_false]
    conv_rhs => rw [show s.link n = (s.setReceiver n .hunting).link n from rfl]
    rw [setLink_self]

@[simp] theorem state_heardRec (l : LinkRec) : l.heard.state = l.state := by
  unfold LinkRec.heard LinkRec.loadInactivity; split <;> rfl

@[simp] theorem session_heardRec (l : LinkRec) : l.heard.session = l.session := by
  unfold LinkRec.heard LinkRec.loadInactivity; split <;> rfl

@[simp] theorem client_heardRec (l : LinkRec) : l.heard.client = l.client := by
  unfold LinkRec.heard LinkRec.loadInactivity; split <;> rfl

@[simp] theorem inactivityTimeout_heardRec (l : LinkRec) : l.heard.inactivityTimeout = l.inactivityTimeout := by
  unfold LinkRec.heard LinkRec.loadInactivity; split <;> rfl

@[simp] theorem inactivityDue_heardRec (l : LinkRec) : l.heard.inactivityDue = l.inactivityDue := by
  unfold LinkRec.heard LinkRec.loadInactivity; split <;> rfl

@[simp] theorem closing_heardRec (l : LinkRec) : l.heard.closing = l.closing := by
  unfold LinkRec.heard LinkRec.loadInactivity; split <;> rfl

@[simp] theorem replies_heardRec (l : LinkRec) : l.heard.replies = l.replies := by
  unfold LinkRec.heard LinkRec.loadInactivity; split <;> rfl

@[simp] theorem discarded_heardRec (l : LinkRec) : l.heard.discarded = l.discarded := by
  unfold LinkRec.heard LinkRec.loadInactivity; split <;> rfl

@[simp] theorem framingErrors_heardRec (l : LinkRec) : l.heard.framingErrors = l.framingErrors := by
  unfold LinkRec.heard LinkRec.loadInactivity; split <;> rfl

@[simp] theorem checkErrors_heardRec (l : LinkRec) : l.heard.checkErrors = l.checkErrors := by
  unfold LinkRec.heard LinkRec.loadInactivity; split <;> rfl

theorem link_heard_same (s : State) (n : Link) : (s.heard n).link n = (s.link n).heard := by
  simp [heard_eq]

theorem link_heard_other (s : State) (n m : Link) (h : m ≠ n) : (s.heard n).link m = s.link m := by
  simp [heard_eq, h]

@[simp] theorem receiver_heard_same (s : State) (n : Link) : (s.heard n).receiver n = .hunting := by
  simp [heard_eq]

@[simp] theorem isUp_heard (s : State) (n m : Link) : (s.heard n).isUp m = s.isUp m := by
  rw [heard_eq, isUp_setLink]
  split
  · next h => subst h; simp [State.isUp]
  · rfl

@[simp] theorem watch_heard (s : State) (n : Link) (j : WatchIx) : (s.heard n).watch j = s.watch j := by simp [heard_eq]

@[simp] theorem line_heard (s : State) (n : Link) (j : LineIx) : (s.heard n).line j = s.line j := by simp [heard_eq]

@[simp] theorem transmitter_heard (s : State) (n : Link) (j : Link) : (s.heard n).transmitter j = s.transmitter j := by simp [heard_eq]

@[simp] theorem delivery_heard (s : State) (n : Link) (j : Link) : (s.heard n).delivery j = s.delivery j := by simp [heard_eq]

@[simp] theorem queue_heard (s : State) (n : Link) (j : Link) : (s.heard n).queue j = s.queue j := by simp [heard_eq]

@[simp] theorem loss_heard (s : State) (n : Link) (j : Link) : (s.heard n).loss j = s.loss j := by simp [heard_eq]

@[simp] theorem claimSet_heard (s : State) (n : Link) (j : OutputIx) : (s.heard n).claimSet j = s.claimSet j := by simp [heard_eq]

@[simp] theorem watchTickDue_heard (s : State) (n : Link) (j : WatchIx) : (s.heard n).watchTickDue j = s.watchTickDue j := by simp [heard_eq]

@[simp] theorem pending_heard (s : State) (n : Link) : (s.heard n).pending = s.pending := by simp [heard_eq]

@[simp] theorem resetIsHeld_heard (s : State) (n : Link) : (s.heard n).resetIsHeld = s.resetIsHeld := by simp [heard_eq]

@[simp] theorem resetCause_heard (s : State) (n : Link) : (s.heard n).resetCause = s.resetCause := by simp [heard_eq]

@[simp] theorem rate_heard (s : State) (n : Link) : (s.heard n).rate = s.rate := by simp [heard_eq]

@[simp] theorem evPins_heard (s : State) (n : Link) : (s.heard n).evPins = s.evPins := by simp [heard_eq]

@[simp] theorem uptime_heard (s : State) (n : Link) : (s.heard n).uptime = s.uptime := by simp [heard_eq]

@[simp] theorem owedTicks_heard (s : State) (n : Link) : (s.heard n).owedTicks = s.owedTicks := by simp [heard_eq]

@[simp] theorem watches_heard (s : State) (n : Link) : (s.heard n).watches = s.watches := by simp [heard_eq]

@[simp] theorem watchTicksDue_heard (s : State) (n : Link) : (s.heard n).watchTicksDue = s.watchTicksDue := by simp [heard_eq]

@[simp] theorem lines_heard (s : State) (n : Link) : (s.heard n).lines = s.lines := by simp [heard_eq]

@[simp] theorem claims_heard (s : State) (n : Link) : (s.heard n).claims = s.claims := by simp [heard_eq]

@[simp] theorem authority_heard (s : State) (n : Link) : (s.heard n).authority = s.authority := by simp [heard_eq]

@[simp] theorem transmitters_heard (s : State) (n : Link) : (s.heard n).transmitters = s.transmitters := by simp [heard_eq]

@[simp] theorem deliveries_heard (s : State) (n : Link) : (s.heard n).deliveries = s.deliveries := by simp [heard_eq]

@[simp] theorem queues_heard (s : State) (n : Link) : (s.heard n).queues = s.queues := by simp [heard_eq]

@[simp] theorem losses_heard (s : State) (n : Link) : (s.heard n).losses = s.losses := by simp [heard_eq]

@[simp] theorem transit_heard (s : State) (n : Link) : (s.heard n).transit = s.transit := by simp [heard_eq]

@[simp] theorem stamp_heard (s : State) (n : Link) : (s.heard n).stamp = s.stamp := by simp [heard_eq]

@[simp] theorem choices_heard (s : State) (n : Link) : (s.heard n).choices = s.choices := by simp [heard_eq]

@[simp] theorem isHolder_heard (s : State) (n m : Link) : (s.heard n).isHolder m = s.isHolder m := by
  simp [State.isHolder]

@[simp] theorem isOffered_heard (s : State) (n m : Link) : (s.heard n).isOffered m = s.isOffered m := by
  simp [State.isOffered]

@[simp] theorem setReceiver_heard (s : State) (n : Link) :
    (s.setReceiver n .hunting).setLink n (s.link n).heard = s.heard n := (heard_eq s n).symm

/-! ### The checks of a request -/

theorem isUp_of_serves {s : State} {n : Link} (h : s.serves n) : s.isUp n = true := by
  simp [State.isUp, h.2]

theorem checkShapeAndOpen_of_malformed (n : Link) (s : State) (rest : Answer × State) :
    checkShapeAndOpen false n s rest = refuse .malformed s := rfl

theorem checkShapeAndOpen_of_notOpen (n : Link) (s : State) (rest : Answer × State) (h : s.isUp n = false) :
    checkShapeAndOpen true n s rest = refuse .notOpen s := by
  simp [checkShapeAndOpen, h]

theorem checkShapeAndOpen_of_up (n : Link) (s : State) (rest : Answer × State) (h : s.isUp n = true) :
    checkShapeAndOpen true n s rest = rest := by
  simp [checkShapeAndOpen, h]

theorem withWatch_of_defined (b : Byte) (i : WatchIx) (s : State) (rest : WatchIx → Watch → Answer × State)
    (h : readWatchIx b = some i) (hf : (s.watch i).state ≠ .free) : withWatch b s rest = rest i (s.watch i) := by
  simp [withWatch, h, hf]

theorem ownerOrHolder_eq (n : Link) (i : WatchIx) (s : State) :
    ownerOrHolder n (s.watch i) s = decide (s.mayAct n i) := by
  simp [ownerOrHolder, State.isHolder]

/-- An owner-type request that passes the checks of R6 goes on to its own. -/
theorem ownerRequest_of_mayAct (len : Nat) (n : Link) (p : List Byte) (i : WatchIx) (s : State)
    (rest : WatchIx → Watch → Answer × State) (hp : p.length = len) (hu : s.isUp n = true)
    (hi : readWatchIx (byteAt p 0) = some i) (hf : (s.watch i).state ≠ .free) (ha : s.mayAct n i) :
    ownerRequest len n p s rest = rest i (s.watch i) := by
  have ha' : ((s.watch i).owner = n ∨ s.authority.mode = .held n) = True := eq_true ha
  simp only [ownerRequest, hp, decide_true]
  rw [checkShapeAndOpen_of_up _ _ _ hu, withWatch_of_defined _ _ _ _ hi hf, ownerOrHolder_eq]
  simp only [ha', decide_true, if_true]

/-! ### Reading back what was written -/

@[simp] theorem toNat_byteOf (k : Nat) : (byteOf k).toNat = k % 256 := by simp [byteOf]

@[simp] theorem readWatchIx_byteOf (i : WatchIx) : readWatchIx (byteOf i) = some i := by
  have := i.isLt
  simp [readWatchIx, Nat.mod_eq_of_lt (show i.val < 256 by omega)]

@[simp] theorem readLineIx_byteOf (l : LineIx) : readLineIx (byteOf l) = some l := by
  have := l.isLt
  simp [readLineIx, Nat.mod_eq_of_lt (show l.val < 256 by omega)]

@[simp] theorem readOutput_byteOf (o : OutputIx) : readOutput (byteOf o) = some o := by
  have := o.isLt
  simp [readOutput, Nat.mod_eq_of_lt (show o.val < 256 by omega)]

@[simp] theorem readLink_byteOf (n : Link) : readLink (byteOf n) = some n := by
  have := n.isLt
  simp [readLink, Nat.mod_eq_of_lt (show n.val < 256 by omega)]

@[simp] theorem readLevel_byteOf (lv : Level) : readLevel (byteOf lv) = some lv := by
  have := lv.isLt
  simp [readLevel, Nat.mod_eq_of_lt (show lv.val < 256 by omega)]

theorem readWatchIx_of_big (b : Byte) (h : 31 < b.toNat) : readWatchIx b = none := by
  simp [readWatchIx]; omega

theorem readWatchIx_of_toNat (b : Byte) (i : WatchIx) (h : b.toNat = i.val) : readWatchIx b = some i := by
  have := i.isLt
  simp [readWatchIx, h]

@[simp] theorem byteAt_cons_zero (b : Byte) (p : List Byte) : byteAt (b :: p) 0 = b := rfl

@[simp] theorem byteAt_cons_succ (b : Byte) (p : List Byte) (k : Nat) : byteAt (b :: p) (k + 1) = byteAt p k := by
  simp [byteAt]

/-! ### Taken, discarded or answered -/

theorem takeRequest_of_held (n : Link) (tag : Byte) (body : State → Answer × State) (s : State)
    (h : s.resetIsHeld = true) : takeRequest n tag body s = s := unlessReset_of_held _ s h

/-- A request does the same once the authority is settled, which it does first. -/
theorem takeRequest_settleAuthority (n : Link) (tag : Byte) (body : State → Answer × State) (s : State)
    (h : s.resetIsHeld = false) : takeRequest n tag body (settleAuthority s) = takeRequest n tag body s :=
  unlessReset_settleAuthority _ s h

theorem takeRequest_of_deaf (n : Link) (tag : Byte) (body : State → Answer × State) (s : State)
    (h : s.runs) (h' : s.deaf n = true) : takeRequest n tag body s = s := by
  unfold takeRequest
  rw [unlessReset_of_prompt _ s h.1 h.2, if_pos h']

theorem takeRequest_of_full (n : Link) (tag : Byte) (body : State → Answer × State) (s : State)
    (h : s.runs) (h' : s.deaf n = false) (h'' : 4 ≤ (s.link n).replies.length) :
    takeRequest n tag body s = (s.heard n).setLink n
      { (s.heard n).link n with discarded := min 255 ((s.link n).discarded + 1) } := by
  have e : s.frameArrived n = s.heard n := rfl
  unfold takeRequest
  rw [unlessReset_of_prompt _ s h.1 h.2]
  simp [h', e, link_heard_same, Config.replyPlaces, h'', satAdd]

theorem takeRequest_of_answers (n : Link) (tag : Byte) (body : State → Answer × State) (s : State) (h : s.answers n) :
    takeRequest n tag body s = (body (s.heard n)).2.queueReply n
      ⟨tag, (body (s.heard n)).1.result, (body (s.heard n)).1.items, (body (s.heard n)).1.closing⟩ := by
  obtain ⟨h0, h1, h2, h3⟩ := h
  have e : s.frameArrived n = s.heard n := rfl
  have hd : s.deaf n = false := by simp [State.deaf, h1, h2]
  have hf : ¬ Config.replyPlaces ≤ (s.link n).replies.length := Nat.not_le.mpr h3
  unfold takeRequest
  rw [unlessReset_of_prompt _ s h0.1 h0.2]
  simp [hd, e, link_heard_same, hf]

/-- Everything a request command can do on a part that takes events. -/
theorem takeRequest_cases (n : Link) (tag : Byte) (body : State → Answer × State) (s : State) (h : s.runs) :
    (s.deaf n = true ∧ takeRequest n tag body s = s)
    ∨ (4 ≤ (s.link n).replies.length ∧ s.deaf n = false ∧ takeRequest n tag body s =
        (s.heard n).setLink n { (s.heard n).link n with discarded := min 255 ((s.link n).discarded + 1) })
    ∨ (s.answers n ∧ takeRequest n tag body s = (body (s.heard n)).2.queueReply n
        ⟨tag, (body (s.heard n)).1.result, (body (s.heard n)).1.items, (body (s.heard n)).1.closing⟩) := by
  by_cases h1 : s.deaf n = true
  · exact Or.inl ⟨h1, takeRequest_of_deaf n tag body s h h1⟩
  · simp only [Bool.not_eq_true] at h1
    by_cases h2 : 4 ≤ (s.link n).replies.length
    · exact Or.inr (Or.inl ⟨h2, h1, takeRequest_of_full n tag body s h h1 h2⟩)
    · have ha : s.answers n := by
        simp only [State.deaf, Bool.or_eq_false_iff, decide_eq_false_iff_not, ne_eq, Decidable.not_not] at h1
        exact ⟨h, h1.1, h1.2, by omega⟩
      exact Or.inr (Or.inr ⟨ha, takeRequest_of_answers n tag body s ha⟩)

/-- A request command runs `takeRequest` with its own body. -/
theorem exec_request (c : Instr) (n : Link) (tag : Byte) (body : State → Answer × State) (s : State)
    (h : c.request = some (n, tag, body)) : exec c s = .next (takeRequest n tag body s) := by
  cases c <;> simp only [Instr.request, Option.some.injEq, Prod.mk.injEq, reduceCtorEq] at h <;>
    (obtain ⟨rfl, rfl, rfl⟩ := h; rfl)

theorem exec_request_answers (c : Instr) (n : Link) (tag : Byte) (body : State → Answer × State) (s : State)
    (h : c.request = some (n, tag, body)) (ha : s.answers n) :
    exec c s = .next ((body (s.heard n)).2.queueReply n
      ⟨tag, (body (s.heard n)).1.result, (body (s.heard n)).1.items, (body (s.heard n)).1.closing⟩) := by
  rw [exec_request c n tag body s h, takeRequest_of_answers n tag body s ha]

end Sys2Proof.Machine
end

