-- ==== Sys2Proof/Laws/Step.lean ====
section
/-!
SUPPORT. What a step and a command can do: every command answers a next state, and a step takes one command.
-/

namespace Sys2Proof.Machine

/-- Every command answers a next state. -/
theorem exec_next (c : Instr) (s : State) : ∃ t, exec c s = .next t := by
  cases c <;> exact ⟨_, rfl⟩

theorem step_of_empty (s : State) (h : s.pending = []) : step s = .next s := by
  simp [step, h]

/-- Everything a step can do: idle on an empty queue, or take the front command and run it. -/
theorem step_cases (s t : State) (h : step s = .next t) :
    (s.pending = [] ∧ t = s)
    ∨ ∃ c rest, s.pending = c :: rest ∧ exec c { s with pending := rest } = .next t := by
  cases hp : s.pending with
  | nil =>
    rw [step_of_empty s hp] at h
    cases h
    exact Or.inl ⟨rfl, rfl⟩
  | cons c rest =>
    simp only [step, hp] at h
    exact Or.inr ⟨c, rest, rfl, h⟩

/-- A law that every command keeps on a state with its queue shortened is kept by every step. -/
theorem step_keeps (P : State → Prop) (shorter : ∀ (s : State) (q : List Instr), P s → P { s with pending := q })
    (kept : ∀ (c : Instr) (s t : State), P s → exec c s = .next t → P t) (s t : State) (h : P s)
    (hs : step s = .next t) : P t := by
  rcases step_cases s t hs with ⟨_, rfl⟩ | ⟨c, rest, _, he⟩
  · exact h
  · exact kept c _ t (shorter s rest h) he

end Sys2Proof.Machine
end

