-- ==== Sys2Proof/Laws/Watches.lean ====
section
/-!
SUPPORT. Watches and event lines: what an event at an entry hands on, everything a trigger does at the watch table, and the
only parts of State that ticks and samples taken there can change.
-/

namespace Sys2Proof.Machine

/-! ### An event at one entry -/

/-- An event at a watch replaces its entry and hands on its words and notices, and changes nothing else. -/
theorem applyStep_eq (i : WatchIx) (r : WatchStep) (s : State) :
    applyStep i r s = (s.setWatch i r.watch).setTransit
      { s.transit with
        outputWords := s.transit.outputWords ++ r.words
        creations := s.transit.creations ++ r.notices.map (Creation.handed (s.setWatch i r.watch)) } := rfl

theorem watch_applyStep (i j : WatchIx) (r : WatchStep) (s : State) :
    (applyStep i r s).watch j = if j = i then r.watch else s.watch j := by
  rw [applyStep_eq, watch_setTransit, watch_setWatch]

/-- No trigger hands a claim on (R36, R37, R53, R54). -/
theorem words_triggerStep (i : WatchIx) (w : Watch) : (triggerStep i w).words = [] := by
  unfold triggerStep completeStep feedStep WatchStep.quiet
  (repeat' split) <;> rfl

theorem handed_triggerStep (i : WatchIx) (s : State) (c : Creation) :
    c.handed (s.setWatch i (triggerStep i (s.watch i)).watch) = c.handed s := handed_congr _ _ rfl rfl c

/-- What a watch event may change. -/
abbrev OnlyWatches (s t : State) : Prop :=
  t = { s with
    watches := t.watches, watchTicksDue := t.watchTicksDue
    transit := { s.transit with creations := t.transit.creations, outputWords := t.transit.outputWords } }

theorem OnlyWatches.trans {s t u : State} (h : OnlyWatches s t) (h' : OnlyWatches t u) : OnlyWatches s u := by
  unfold OnlyWatches at *
  rw [h'] at *
  rw [h]

theorem onlyWatches_applyStep (i : WatchIx) (r : WatchStep) (s : State) : OnlyWatches s (applyStep i r s) := rfl

theorem onlyWatches_takeWatchTick (i : WatchIx) (s : State) : OnlyWatches s (takeWatchTick i s) := by
  unfold takeWatchTick
  split
  · rfl
  · simp only
    split <;> rfl

theorem onlyWatches_triggerWatches (l : LineIx) (s : State) : OnlyWatches s (triggerWatches l s) := by
  unfold triggerWatches
  suffices h : ∀ (is : List WatchIx) (t : State), OnlyWatches t (is.foldl
      (fun t i => if inLines (t.watch i).lineSet l then applyStep i (triggerStep i (t.watch i)) t else t) t) from h _ _
  intro is
  induction is with
  | nil => intro t; rfl
  | cons i is ih =>
    intro t
    refine OnlyWatches.trans ?_ (ih _)
    simp only
    split
    · exact onlyWatches_applyStep _ _ _
    · rfl

/-! ### A trigger at the watch table (R36, R37, R108) -/

/-- A trigger does, at each watch that lists its line, what it does there alone, and hands the notices on in the order of the
entries. -/
theorem triggerWatches_spec (l : LineIx) (s : State) :
    (∀ i, (triggerWatches l s).watch i =
      if inLines (s.watch i).lineSet l then (triggerStep i (s.watch i)).watch else s.watch i)
    ∧ (triggerWatches l s).transit.creations = s.transit.creations ++ ((List.finRange 32).flatMap fun i =>
        if inLines (s.watch i).lineSet l then (triggerStep i (s.watch i)).notices else []).map (Creation.handed s) := by
  have all : ∀ (is : List WatchIx) (t : State), is.Nodup →
      let u := is.foldl
        (fun t i => if inLines (t.watch i).lineSet l then applyStep i (triggerStep i (t.watch i)) t else t) t
      (∀ i, u.watch i =
        if i ∈ is ∧ inLines (t.watch i).lineSet l then (triggerStep i (t.watch i)).watch else t.watch i)
      ∧ u.transit.creations = t.transit.creations ++ (is.flatMap fun i =>
          if inLines (t.watch i).lineSet l then (triggerStep i (t.watch i)).notices else []).map (Creation.handed t) := by
    intro is
    induction is with
    | nil => intro t _; simp
    | cons a is ih =>
      intro t hn
      obtain ⟨ha, hn⟩ := List.nodup_cons.mp hn
      simp only [List.foldl_cons]
      by_cases h : inLines (t.watch a).lineSet l = true
      · rw [if_pos h]
        have hw : ∀ i ∈ is, (applyStep a (triggerStep a (t.watch a)) t).watch i = t.watch i := by
          intro i hi
          rw [watch_applyStep, if_neg]
          rintro rfl
          exact ha hi
        obtain ⟨h1, h2⟩ := ih (applyStep a (triggerStep a (t.watch a)) t) hn
        constructor
        · intro i
          rw [h1, watch_applyStep]
          by_cases hi : i = a
          · subst hi; simp [ha, h]
          · simp [hi]
        · have same : Creation.handed (applyStep a (triggerStep a (t.watch a)) t) = Creation.handed t :=
            funext fun c => handed_triggerStep a t c
          have own : Creation.handed (t.setWatch a (triggerStep a (t.watch a)).watch) = Creation.handed t :=
            funext fun c => handed_triggerStep a t c
          rw [h2, same, applyStep_eq, own]
          simp only [transit_setTransit, List.flatMap_cons, h, if_true, List.append_assoc, List.map_append]
          congr 3
          apply List.flatMap_congr
          intro i hi
          have := hw i hi
          rw [applyStep_eq, watch_setTransit] at this
          rw [watch_setTransit, this]
      · rw [if_neg h]
        obtain ⟨h1, h2⟩ := ih t hn
        constructor
        · intro i
          rw [h1]
          by_cases hi : i = a
          · subst hi; simp [ha, h]
          · simp [hi]
        · rw [h2]; simp [h]
  obtain ⟨h1, h2⟩ := all (List.finRange 32) s (List.nodup_finRange 32)
  refine ⟨fun i => ?_, h2⟩
  have := h1 i
  simp only [List.mem_finRange, true_and] at this
  exact this

theorem line_triggerWatches (l k : LineIx) (s : State) : (triggerWatches l s).line k = s.line k := by
  rw [onlyWatches_triggerWatches l s]; rfl

/-! ### Samples and reports -/

/-- What a line event may change. -/
abbrev OnlyLines (s t : State) : Prop :=
  t = { s with
    watches := t.watches, watchTicksDue := t.watchTicksDue, lines := t.lines, queues := t.queues, losses := t.losses
    stamp := t.stamp
    transit := { s.transit with
      creations := t.transit.creations, outputWords := t.transit.outputWords
      lineReports := t.transit.lineReports } }

theorem OnlyLines.trans {s t u : State} (h : OnlyLines s t) (h' : OnlyLines t u) : OnlyLines s u := by
  unfold OnlyLines at *
  rw [h'] at *
  rw [h]

theorem OnlyWatches.onlyLines {s t : State} (h : OnlyWatches s t) : OnlyLines s t := by
  unfold OnlyWatches OnlyLines at *
  rw [h]

theorem OnlyNotices.onlyLines {s t : State} (h : OnlyNotices s t) : OnlyLines s t := by
  unfold OnlyNotices OnlyLines at *
  rw [h]

theorem onlyLines_notifyTrigger (l : LineIx) (level : Bool) (s : State) : OnlyLines s (notifyTrigger l level s) := by
  unfold notifyTrigger
  split
  · have h := (onlyNotices_drainChannel (.line l) s).onlyLines
    simp only
    split
    · exact h.trans rfl
    · exact h.trans rfl
  · rfl

theorem onlyLines_takeSample (l : LineIx) (s : State) : OnlyLines s (takeSample l s) := by
  unfold takeSample
  split
  · rfl
  · simp only
    split
    · refine OnlyLines.trans ?_ (onlyLines_notifyTrigger _ _ _)
      exact OnlyLines.trans rfl (onlyWatches_triggerWatches _ _).onlyLines
    · rfl

theorem onlyLines_takeLineReport (l : LineIx) (s : State) : OnlyLines s (takeLineReport l s) := by
  unfold takeLineReport
  split
  · rfl
  · unfold takeDeparture
    split
    · simp only
      split <;> rfl
    · rfl
    · rfl

end Sys2Proof.Machine
end

