-- ==== Sys2Proof/Laws/Time.lean ====
section
/-!
SUPPORT. The time base: what delivering and taking ticks leaves alone, and that with no tick owed or due a millisecond ends
with nothing done.
-/

namespace Sys2Proof.Machine

/-! ### Ticks reaching a block -/

/-- Ticks that reach a block change neither the commands waiting, the uptime, the RESET input nor what is in transit. -/
theorem deliverTick_leaves (p : TickPort) (s : State) :
    (deliverTick s p).pending = s.pending ∧ (deliverTick s p).uptime = s.uptime
    ∧ (deliverTick s p).owedTicks = s.owedTicks ∧ (deliverTick s p).resetIsHeld = s.resetIsHeld
    ∧ (deliverTick s p).transit = s.transit ∧ (deliverTick s p).queues = s.queues := by
  cases p <;> simp only [deliverTick, tickWatches, tickLines, tickClaims_eq, tickAckTimers, tickInactivity, tickGaps,
    and_self]
  · split <;> exact ⟨rfl, rfl, rfl, rfl, rfl, rfl⟩
  · unfold tickOffer
    split
    · split <;> exact ⟨rfl, rfl, rfl, rfl, rfl, rfl⟩
    · exact ⟨rfl, rfl, rfl, rfl, rfl, rfl⟩
    · exact ⟨rfl, rfl, rfl, rfl, rfl, rfl⟩

theorem deliverTicks_leaves (ports : List TickPort) (s : State) :
    (deliverTicks ports s).pending = s.pending ∧ (deliverTicks ports s).uptime = s.uptime
    ∧ (deliverTicks ports s).owedTicks = (s.owedTicks.filter fun p => !ports.contains p)
    ∧ (deliverTicks ports s).resetIsHeld = s.resetIsHeld ∧ (deliverTicks ports s).transit = s.transit
    ∧ (deliverTicks ports s).queues = s.queues := by
  unfold deliverTicks
  suffices h : ∀ (ps : List TickPort) (t : State),
      (ps.foldl deliverTick t).pending = t.pending ∧ (ps.foldl deliverTick t).uptime = t.uptime
      ∧ (ps.foldl deliverTick t).owedTicks = t.owedTicks ∧ (ps.foldl deliverTick t).resetIsHeld = t.resetIsHeld
      ∧ (ps.foldl deliverTick t).transit = t.transit ∧ (ps.foldl deliverTick t).queues = t.queues from h _ _
  intro ps
  induction ps with
  | nil => intro t; exact ⟨rfl, rfl, rfl, rfl, rfl, rfl⟩
  | cons p ps ih =>
    intro t
    obtain ⟨a, b, c, d, e, f⟩ := ih (deliverTick t p)
    obtain ⟨a', b', c', d', e', f'⟩ := deliverTick_leaves p t
    exact ⟨a.trans a', b.trans b', c.trans c', d.trans d', e.trans e', f.trans f'⟩

/-! ### A millisecond with nothing due -/

/-- An operation that changes nothing, repeated. -/
theorem foldl_of_fixed {α : Type} (f : State → α → State) (s : State) (l : List α) (h : ∀ a ∈ l, f s a = s) :
    l.foldl f s = s := by
  induction l with
  | nil => rfl
  | cons a l ih =>
    rw [List.foldl_cons, h a (by simp)]
    exact ih fun b hb => h b (by simp [hb])

theorem takeAckTick_of_noneDue (n : Link) (k : Byte) (s : State)
    (h : ∀ f ∈ (s.delivery n).inFlight, f.timerDue = false) : takeAckTick n k s = s := by
  unfold takeAckTick
  simp only
  cases hf : flightOf (s.delivery n).inFlight k with
  | none => rfl
  | some f =>
    have hd : f.timerDue = false := h f (flightOf_eq_some _ _ _ hf).1
    simp only [hd]
    split
    · next e => cases e
    · rfl

/-- With no session end waiting at the authority unit, an event is taken as it is. -/
theorem taking_of_prompt (f : State → State) (s : State) (h : s.transit.authorityEnds = []) : taking f s = f s := by
  rw [taking, settleAuthority_of_prompt s h]

/-- With no tick owed, none due and no session end waiting, the end of a millisecond does nothing. -/
theorem finishMillisecond_of_noneDue (s : State) (h0 : s.owedTicks = []) (hn : s.noneDue)
    (hp : s.transit.authorityEnds = []) : finishMillisecond s = s := by
  obtain ⟨h1, h2, h3, h4, h5, h6, h7⟩ := hn
  have d : deliverTicks s.owedTicks s = s := by
    unfold deliverTicks
    rw [h0]
    simp only [List.filter_nil, List.foldl_nil]
    unfold State.setOwedTicks
    rw [← h0]
  have now : ∀ f : State → State, taking f s = f s := fun f => taking_of_prompt f s hp
  have watches : (List.finRange 32).foldl (fun t i => taking (takeWatchTick i) t) s = s :=
    foldl_of_fixed (fun t i => taking (takeWatchTick i) t) s _ fun i _ => by simp [now, takeWatchTick, h1 i]
  have lines : (List.finRange 16).foldl (fun t l => taking (takeSample l) t) s = s :=
    foldl_of_fixed (fun t l => taking (takeSample l) t) s _ fun l _ => by simp [now, takeSample, h2 l]
  have outputs : taking takeClaimTick s = s := (now _).trans (takeClaimTick_of_notDue s h3)
  have ack : ∀ (n : Link) (l : List Byte), l.foldl (fun t k => taking (takeAckTick n k) t) s = s := fun n l =>
    foldl_of_fixed (fun t k => taking (takeAckTick n k) t) s l fun k _ =>
      (now _).trans (takeAckTick_of_noneDue n k s (h4 n))
  have acks : (List.finRange 4).foldl
      (fun t n => ((t.delivery n).inFlight.map (·.number)).foldl (fun t k => taking (takeAckTick n k) t) t) s = s := by
    apply foldl_of_fixed
    intro n _
    exact ack n _
  have silence : (List.finRange 4).foldl (fun t n => taking (takeInactivityTick n) t) s = s :=
    foldl_of_fixed (fun t n => taking (takeInactivityTick n) t) s _ fun n _ => by simp [now, takeInactivityTick, h5 n]
  have offer : taking takeOfferTick s = s := by simp [now, takeOfferTick, h6]
  have gaps : (List.finRange 4).foldl (fun t n => taking (takeGapTick n) t) s = s :=
    foldl_of_fixed (fun t n => taking (takeGapTick n) t) s _ fun n _ => by simp [now, takeGapTick, h7 n]
  unfold finishMillisecond takeDueTicks
  simp only [d, watches, lines, outputs, acks, silence, offer, gaps]

/-! ### What the end of a millisecond leaves alone -/

theorem takeInactivityTick_leaves (n : Link) (s : State) :
    (takeInactivityTick n s).pending = s.pending ∧ (takeInactivityTick n s).uptime = s.uptime
    ∧ (takeInactivityTick n s).owedTicks = s.owedTicks ∧ (takeInactivityTick n s).resetIsHeld = s.resetIsHeld := by
  unfold takeInactivityTick
  simp only
  split
  · split
    · split
      · rw [onlyEnds_endSession]
        exact ⟨rfl, rfl, rfl, rfl⟩
      · exact ⟨rfl, rfl, rfl, rfl⟩
    · exact ⟨rfl, rfl, rfl, rfl⟩
  · exact ⟨rfl, rfl, rfl, rfl⟩

theorem takeClaimTick_leaves (s : State) :
    (takeClaimTick s).pending = s.pending ∧ (takeClaimTick s).uptime = s.uptime
    ∧ (takeClaimTick s).resetIsHeld = s.resetIsHeld := by
  have h := onlyClaims_takeClaimTick s
  unfold OnlyClaims at h
  generalize takeClaimTick s = t at h ⊢
  rw [h]
  simp

theorem takeOfferTick_leaves (s : State) :
    (takeOfferTick s).pending = s.pending ∧ (takeOfferTick s).uptime = s.uptime
    ∧ (takeOfferTick s).owedTicks = s.owedTicks ∧ (takeOfferTick s).resetIsHeld = s.resetIsHeld := by
  unfold takeOfferTick
  simp only
  split
  · split
    · split
      · rw [onlyAuthority_passOn]
        exact ⟨rfl, rfl, rfl, rfl⟩
      · exact ⟨rfl, rfl, rfl, rfl⟩
    · exact ⟨rfl, rfl, rfl, rfl⟩
    · exact ⟨rfl, rfl, rfl, rfl⟩
  · exact ⟨rfl, rfl, rfl, rfl⟩

theorem takeGapTick_leaves (n : Link) (s : State) :
    (takeGapTick n s).pending = s.pending ∧ (takeGapTick n s).uptime = s.uptime
    ∧ (takeGapTick n s).owedTicks = s.owedTicks ∧ (takeGapTick n s).resetIsHeld = s.resetIsHeld := by
  unfold takeGapTick
  simp only
  split
  · split
    · split <;> exact ⟨rfl, rfl, rfl, rfl⟩
    · exact ⟨rfl, rfl, rfl, rfl⟩
  · exact ⟨rfl, rfl, rfl, rfl⟩

/-- A part of State that no operation of a list changes is not changed by the list. -/
theorem foldl_leaves {α β : Type} (g : State → β) (f : State → α → State) (l : List α) (s : State)
    (h : ∀ t a, g (f t a) = g t) : g (l.foldl f s) = g s := by
  induction l generalizing s with
  | nil => rfl
  | cons a l ih => rw [List.foldl_cons, ih, h]

/-- A part of State that taking a due tick never changes is not changed by taking them all. -/
theorem takeDueTicks_leaves {β : Type} (g : State → β) (s : State) (settled : ∀ t, g (settleAuthority t) = g t)
    (watches : ∀ t i, g (takeWatchTick i t) = g t) (lines : ∀ t l, g (takeSample l t) = g t)
    (outputs : ∀ t, g (takeClaimTick t) = g t) (acks : ∀ t n k, g (takeAckTick n k t) = g t)
    (silence : ∀ t n, g (takeInactivityTick n t) = g t) (offer : ∀ t, g (takeOfferTick t) = g t)
    (gaps : ∀ t n, g (takeGapTick n t) = g t) : g (takeDueTicks s) = g s := by
  have now : ∀ (f : State → State) (t : State), (∀ u, g (f u) = g u) → g (taking f t) = g t :=
    fun f t h => (h _).trans (settled t)
  unfold takeDueTicks
  simp only
  rw [foldl_leaves g (fun t n => taking (takeGapTick n) t) _ _ fun t n => now _ t fun u => gaps u n,
    now _ _ offer,
    foldl_leaves g (fun t n => taking (takeInactivityTick n) t) _ _ fun t n => now _ t fun u => silence u n,
    foldl_leaves g
      (fun t n => ((t.delivery n).inFlight.map (·.number)).foldl (fun t k => taking (takeAckTick n k) t) t) _ _
      fun t n => foldl_leaves g (fun t k => taking (takeAckTick n k) t) _ _ fun t k => now _ t fun u => acks u n k,
    now _ _ outputs,
    foldl_leaves g (fun t l => taking (takeSample l) t) _ _ fun t l => now _ t fun u => lines u l,
    foldl_leaves g (fun t i => taking (takeWatchTick i) t) _ _ fun t i => now _ t fun u => watches u i]

/-- The end of a millisecond takes no command and moves neither the uptime nor the RESET input. -/
theorem finishMillisecond_leaves (s : State) :
    (finishMillisecond s).pending = s.pending ∧ (finishMillisecond s).uptime = s.uptime
    ∧ (finishMillisecond s).resetIsHeld = s.resetIsHeld := by
  obtain ⟨a, b, _, c, _⟩ := deliverTicks_leaves s.owedTicks s
  unfold finishMillisecond
  refine ⟨Eq.trans ?_ a, Eq.trans ?_ b, Eq.trans ?_ c⟩ <;>
    apply takeDueTicks_leaves
  all_goals first
    | exact fun t => pending_settleAuthority t
    | exact fun t => uptime_settleAuthority t
    | exact fun t => resetIsHeld_settleAuthority t
    | exact fun t i => by rw [onlyWatches_takeWatchTick]
    | exact fun t l => by rw [onlyLines_takeSample]
    | exact fun t => (takeClaimTick_leaves t).1
    | exact fun t => (takeClaimTick_leaves t).2.1
    | exact fun t => (takeClaimTick_leaves t).2.2
    | exact fun t n k => by rw [onlyEnds_takeAckTick]
    | exact fun t n => (takeInactivityTick_leaves n t).1
    | exact fun t n => (takeInactivityTick_leaves n t).2.1
    | exact fun t n => (takeInactivityTick_leaves n t).2.2.2
    | exact fun t => (takeOfferTick_leaves t).1
    | exact fun t => (takeOfferTick_leaves t).2.1
    | exact fun t => (takeOfferTick_leaves t).2.2.2
    | exact fun t n => (takeGapTick_leaves n t).1
    | exact fun t n => (takeGapTick_leaves n t).2.1
    | exact fun t n => (takeGapTick_leaves n t).2.2.2

end Sys2Proof.Machine
end

