-- ==== Sys2Proof/Tests/Slice0.lean ====
section
/-!
SUPPORT. Checks of the model on small states: ill-formed commands, values of the spec's worked examples, and for each
statement with hypotheses a state and operands that meet them.
-/

namespace Sys2Proof.Tests

open Machine

set_option maxRecDepth 100000
set_option synthInstance.maxSize 2000
set_option synthInstance.maxHeartbeats 200000

/-! ### Commands that cannot occur -/

theorem test_payload_of_59_is_ill_formed : (Instr.ping 0 0 (List.replicate 59 0)).wellFormed = false := by decide

theorem test_payload_of_58_fits : (Instr.ping 0 0 (List.replicate 58 0)).wellFormed = true := by decide

theorem test_unknown_request_of_a_known_kind_is_ill_formed :
    (Instr.unknownRequest 0 0x3F 0 []).wellFormed = false ∧ (Instr.unknownRequest 0 0x80 0 []).wellFormed = true := by
  decide

theorem test_abandoned_start_of_58_is_ill_formed :
    (Instr.frameStartAbandoned 0 58).wellFormed = false ∧ (Instr.frameStartAbandoned 0 59).wellFormed = true := by
  decide

theorem test_long_tick_at_a_millisecond_block_is_ill_formed :
    (Instr.tick .ms10 (.only .lines) 0).wellFormed = false ∧ (Instr.tick .s1 (.only .watchTable) 0).wellFormed = true := by
  decide

/-- No row of the table gives bits, so no word spells a command. -/
theorem test_no_word_is_a_command : decodeTableWord 0 0 = none ∧ decodeTableWord 16 0xC3 = none := by decide

/-! ### Small states -/

/-- What a next state is. -/
def after (o : Host.Outcome State Fault Refusal) : State :=
  match o with
  | .next t => t
  | .fault _ => State.reset
  | .refused _ => State.reset

/-- The state after a list of commands. -/
def runs (cs : List Instr) (s : State) : State := cs.foldl (fun t c => after (exec c t)) s

/-- Every link with the record `l`. -/
def linked (l : LinkRec) : State := { State.reset with links := Vector.replicate 4 l }

/-- A link with a session. -/
def upLink : LinkRec := { LinkRec.atReset with state := .up, session := 1, client := 9 }

/-- All four links UP. -/
def allUp : State := linked upLink

/-- All four links UP, L1 the holder. -/
def ruled : State := allUp.setAuthority ⟨.held 1, [], false⟩

/-- All four links UP, the authority offered to L2, L3 waiting. -/
def offering : State := allUp.setAuthority ⟨.offering 2 3000, [3], false⟩

/-- The watch W3 of Table 3-2, owned by L2, base 100 ms, as Table 2-5 leaves it before the fault. -/
def w3 : Watch :=
  { Watch.free 1 with
    state := .running, owner := 2, base := .ms100, reload := 5, count := 2, seqcheck := true, lastSeq := some 8
    primary := 2, ladder := [⟨8, .notify, 0, 0, 1⟩, ⟨8, .notify, 0, 0, 2⟩] }

/-- A DEADLINE watch with a PULSE and a HOLD stage. -/
def deadline : Watch :=
  { Watch.free 4 with
    state := .running, kind := .deadline, owner := 0, reload := 9, count := 1, strikeLimit := 2, fallback := some 1
    lineSet := 1, ladder := [⟨20, .pulse, 3, 500, 1⟩, ⟨0, .hold, 3, 0, 3⟩] }

/-- An ACTIVITY watch. -/
def activity : Watch :=
  { Watch.free 2 with
    state := .running, kind := .activity, owner := 3, reload := 2, count := 1, lineSet := 1, activityLevel := 2 }

/-- All links UP and one watch in the table. -/
def watching (i : WatchIx) (w : Watch) : State := allUp.setWatch i w

/-- A DEFINE payload as Table 10-6 lays it out: W3 of Table 3-2 at any index. -/
def defineW3 (index primary fallback : Byte) : List Byte :=
  [index, 0, 2, 5, 0, 1, 0, 0, 0, primary, fallback, 0, 2, 0, 0, 0, 0, 8, 0, 1, 0, 0, 0, 0, 8, 0, 2]

/-- A notice about watch W4. -/
def aNotice (e : Event) (lv : Level) (mark : Nat) : Notice :=
  ⟨⟨.watch 4, some 1, e, some 1⟩, lv, [], none, 1, 0, none, mark, mark, mark⟩

/-- A creation about watch W4. -/
def aCreation (e : Event) (lv : Level) (route : Route) : Creation := ⟨⟨.watch 4, some 1, e, some 1⟩, lv, [], route⟩

/-- The state with a creation on its way. -/
def creating (s : State) (c : Creation) : State := s.post [c]

/-- A link UP with one record in flight. -/
def flying (f : InFlight) : State :=
  allUp.setDelivery 2 { Delivery.atReset with window := 2, inFlight := [f], nextNumber := 1 }

/-- A record in flight under number 0. -/
def aFlight (attempt : Nat) (timer : Option Nat) (due : Bool) : InFlight :=
  ⟨aNotice .overdue 1 0, attempt, 0, 3, timer, due⟩

/-! ### Worked examples -/

/-- The check value of R147. -/
theorem test_crc_of_the_nine_characters :
    crc [0x31, 0x32, 0x33, 0x34, 0x35, 0x36, 0x37, 0x38, 0x39] = 0x29B1 := by decide

/-- The first OPEN after a power-on reset gives session number 1 and reset cause POWER (R154, R164). -/
theorem test_open_reply :
    ((runs [.openReq 0 7 [12, 2, 50, 20, 0, 2], .transmitterTakesFrame 0] State.reset).transmitter 0).map TxFrame.bytes
      = some (frameBytes 0x80 7 [0, 0, 1, 0, 1, 64, 32, 16, 0, 0, 0, 0]) := by decide

/-- A request on a SILENT link gives NOT-OPEN, and its reply is sent there (R152, R153). -/
theorem test_ping_on_a_silent_link :
    ((runs [.ping 3 21 [], .transmitterTakesFrame 3] State.reset).transmitter 3).map TxFrame.bytes
      = some (frameBytes 0x80 21 [3, 0]) := by decide

/-- Table 9-6: two requests find the reply queue full, and the next reply taken tells it. -/
theorem test_table_9_6 :
    let s := runs [.ping 3 21 [], .ping 3 22 [], .ping 3 23 [], .ping 3 24 [], .ping 3 25 [], .ping 3 26 []] allUp
    (s.link 3).discarded = 2 ∧ (s.link 3).replies.length = 4
      ∧ ((runs [.transmitterTakesFrame 3] s).transmitter 3).map TxFrame.bytes
          = some (frameBytes 0x80 21 [0, 2, 0, 0, 0, 0]) := by decide

/-- DEFINE with index 255 takes the lowest FREE entry, and OWNER is the requesting link (R10, R11). -/
theorem test_define_of_w3 :
    let s := runs [.define 2 1 (defineW3 255 0xFE 0xFF)] (watching 0 deadline)
    s.watch 1 = { w3 with state := .stopped, count := 0, lastSeq := none }
      ∧ (s.link 2).replies = [⟨1, .ok, [1, 1], .nothing⟩] := by decide

/-- Table 2-5: the feeds 7 and 8 are in order, 10 is a fault. -/
theorem test_table_2_5 :
    let s0 := watching 3 { w3 with state := .stopped, count := 0, lastSeq := none }
    let s := runs [.start 2 0 [3], .feed 2 1 [3, 7], .feed 2 2 [3, 8]] s0
    s.watch 3 = { w3 with count := 5 }
      ∧ ((runs [.feed 2 3 [3, 10]] s).link 2).replies.getLast? = some ⟨3, .ok, [1, 5, 1], .nothing⟩ := by decide

/-- Table 3-2: the fault, the second fault, and the recovery. -/
theorem test_table_3_2 :
    let s1 := runs [.feed 2 0 [3, 10]] (watching 3 w3)
    let s2 := runs [.feed 2 0 [3, 13]] s1
    let s3 := runs [.feed 2 0 [3, 14]] s2
    s1.watch 3 = { w3 with state := .overdue, stage := 1, count := 8, lastSeq := some 10, strikes := 1 }
      ∧ s2.watch 3 = { w3 with state := .overdue, stage := 2, count := 8, lastSeq := some 13, strikes := 1 }
      ∧ s3.watch 3 = { w3 with count := 5, lastSeq := some 14, strikes := 1 }
      ∧ s3.transit.creations.map (fun c => (c.key.event, c.key.stage, c.level, c.detail))
          = [(.seqfault, some 1, 1, [9, 10]), (.seqfault, some 2, 2, [11, 13]), (.recovered, none, 1, [])] := by decide

/-- A deadline that expires pulses CRST3, whose claim is taken and resets L3 (R43, R45, R119, R127). -/
theorem test_expiry_pulses_and_resets :
    let s := runs [.tick .ms1 .allBlocks 0, .watchExpiry 8, .takingAClaim (.watch 8), .crstAsserted 3] (watching 8 deadline)
    (s.watch 8).state = .overdue ∧ (s.watch 8).stage = 1 ∧ (s.watch 8).strikes = 1 ∧ s.asserted 3 = true
      ∧ (s.link 3).state = .held ∧ s.transit.authorityEnds = [3] ∧ s.uptime = 1 := by decide

/-- Table 6-2: the filter of 3 drops the first pulse and accepts the fourth sample of the second. -/
theorem test_table_6_2 :
    let s0 := allUp.setLine 4 { LineRec.atReset false with filter := 3 }
    let hi : Instr := .tick .ms1 .allBlocks 16
    let lo : Instr := .tick .ms1 .allBlocks 0
    let s := runs [hi, hi, lo, hi, hi, hi] s0
    (s.line 4).disagreement = 3 ∧ (s.line 4).accepted = false
      ∧ ((runs [hi, .acceptedChange 4] s).line 4).accepted = true := by decide

/-- A LINE notice is created, acknowledged, and its overrun reported (R109, R111). -/
theorem test_line_notice_and_repeat :
    let s0 := (flying (aFlight 1 none false)).setLine 0
      { LineRec.atReset false with mode := .both, notify := true, level := 1, primary := 1, dueSample := some true }
    let s := runs [.acceptedChange 0, .noticeCreation (.line 0) .whole] s0
    (s.line 0).pending = true ∧ (s.queue 1).map (·.key.event) = [.line]
      ∧ (runs [.lineNoticeLeftPool 0] { s with transit :=
          { Transit.empty with lineReports := [(0, .evicted)] } }).line 0 =
          { s.line 0 with pending := false, overrun := 0 } := by decide

/-- Table 7-5: CRST2 under two claimants. -/
theorem test_table_7_5 :
    let s0 := runs [.hold 1 0 [2], .takingAClaim .manual]
      (ruled.setClaimSet 2 (put (ruled.claimSet 2) (slotOf (.watch 8)) (some (.timed 500))))
    let s := runs [.pulse 1 0 [2, 44, 1], .takingAClaim .manual, .unhold 1 1 [2]] s0
    (s.link 1).replies.map Reply.items = [[1, 2], [1, 2], [1]] ∧ s.asserted 2 = true
      ∧ claimOf (s.claimSet 2) .manual = none := by decide

/-- Table 8-4: a handover through three offers. -/
theorem test_table_8_4 :
    let s := runs [.claim 2 0 [], .claim 3 0 [], .yieldReq 0 0 [], .claim 1 0 [], .decline 2 0 [], .acceptReq 2 0 []]
      (allUp.setAuthority ⟨.held 0, [], false⟩)
    s.authority = ⟨.offering 3 3000, [1], false⟩
      ∧ (s.link 2).replies.map Reply.result = [.ok, .ok, .badState]
      ∧ (s.link 3).replies.map Reply.items = [[1, 2]] := by decide

/-- Table 5-3, steps 6 to 12: an ACK, a resend after the timer, and a stray ACK. -/
theorem test_table_5_3 :
    let s0 := flying { aFlight 1 (some 1) true with number := 1 }
    let s := runs [.ackTimerRunsOut 2 1, .transmitterTakesFrame 2] s0
    (s.delivery 2).inFlight.map (·.attempt) = [2] ∧ (s.delivery 2).resend = []
      ∧ ((runs [.ack 2 1 [], .ack 2 1 []] s).delivery 2).strayAcks = 1 := by decide

/-- A frame byte by byte is its command (R148, R149). -/
theorem test_bytes_of_a_ping :
    ((runs ((frameBytes 0x03 7 []).map fun b => .receiverTakesByte 1 b) allUp).link 1).replies
      = [⟨7, .ok, [0, 0, 0, 0], .nothing⟩] := by decide

/-- All four links UP, L1 the holder, a record of L0 with L1 as its onward link, and the inactivity of L0 and L1 run out. -/
def twoEnds : State :=
  let silent := { upLink with inactivity := some 1, inactivityDue := true }
  runs [.inactivityTimeout 0, .inactivityTimeout 1]
    (((ruled.setLink 0 silent).setLink 1 silent).setQueue 0
      [⟨⟨.watch 4, some 1, .late, none⟩, 1, [], some 1, 1, 0, none, 0, 0, 0⟩])

/-- R80: both ends on their way. Taken first, L0's moves its record to L1, whose end counts the loss; taken first, L1's
leaves the loss to L0. The LINKLOST of the end taken second does not reach the link of the first. -/
theorem test_two_ends_in_either_order :
    let a := runs [.noticeUnitSessionEnd 0 .whole, .noticeUnitSessionEnd 1 .whole] twoEnds
    let b := runs [.noticeUnitSessionEnd 1 .whole, .noticeUnitSessionEnd 0 .whole] twoEnds
    ((runs [.noticeUnitSessionEnd 0 .whole] twoEnds).queue 1).map (·.key.event) = [.linklost, .late]
      ∧ (a.loss 0, a.loss 1) = (0, 2) ∧ (b.loss 0, b.loss 1) = (2, 0)
      ∧ (a.queue 0, a.queue 1, b.queue 0, b.queue 1) = ([], [], [], []) := by decide

/-- R69: a creation for a link whose end the notice unit has yet to take stands on its queue, and the end deals with it. -/
theorem test_creation_before_the_end :
    let s := runs [.noticeCreation (.watch 4) .whole] (creating twoEnds (aCreation .overdue 1 (.pair 1 (some 2))))
    (s.queue 1).map (·.onward) = [some 2]
      ∧ ((runs [.noticeUnitSessionEnd 1 .whole] s).queue 2).map (fun r => (r.key.event, r.origin))
          = [(.linklost, none), (.overdue, some 1)]
      ∧ ((runs [.noticeUnitSessionEnd 1 .whole, .noticeCreation (.watch 4) .whole]
          (creating twoEnds (aCreation .overdue 1 (.pair 1 (some 2))))).queue 2).map (fun r => (r.key.event, r.origin))
          = [(.linklost, none), (.overdue, none)] := by decide

/-- L3 put in HELD by a claim of `resetter`, W8 with L3 as its primary in stage 1, and then L3's queue and L1's after W8 has
been completed late and its notice taken. -/
def lateAfterReset (s : State) (resetter : Resetter) : List Event × List (Event × Option Link) :=
  let w := { deadline with primary := 3, state := .overdue, stage := 1, count := 1 }
  let t := runs [.complete 0 0 [8], .noticeCreation (.watch 8) .whole] ((takeAssertion 3 resetter s).setWatch 8 w)
  ((t.queue 3).map (·.key.event), (t.queue 1).map fun r => (r.key.event, r.origin))

/-- R44: W8 has reset L3, its primary here; the notice it hands over afterwards goes to the fallback, without the flag,
even while L3's end still waits, and whatever ended L3's session. -/
theorem test_notice_after_the_own_reset :
    lateAfterReset allUp (some (8, 4)) = ([], [(.late, none)])
      ∧ lateAfterReset (endSession 3 .silence allUp) (some (8, 4)) = ([], [(.late, none)]) := by decide

/-- R69: MANUAL, another watch or an earlier watch of the index has reset L3; W8's notice, taken before L3's end, stands on
L3's queue. -/
theorem test_notice_after_another_reset :
    lateAfterReset allUp none = ([.late], []) ∧ lateAfterReset allUp (some (9, 4)) = ([.late], [])
      ∧ lateAfterReset allUp (some (8, 3)) = ([.late], []) := by decide

/-- R43, R45, R119, R127: W8's own pulse of CRST3 is known to L3's waiting end by W8's index and generation. -/
theorem test_the_end_knows_the_watch :
    let s := runs [.tick .ms1 .allBlocks 0, .watchExpiry 8, .takingAClaim (.watch 8), .crstAsserted 3] (watching 8 deadline)
    s.transit.noticeEnds.map (fun e => (e.link, e.resetters)) = [(3, [(8, 4)])] := by decide

/-- R121, R122: the tick that removes W8's claim of SAFE reaches a claim of MANUAL taken before it, and the output does not
change; taken after it, that claim is not counted, and SAFE is released and asserted again. -/
theorem test_a_claim_and_the_expiry_of_another :
    let w8 := ruled.setClaimSet 4 (put (ruled.claimSet 4) (slotOf (.watch 8)) (some (.timed 1)))
    let s0 := runs [.pulse 1 0 [4, 9, 0], .tick .ms1 .allBlocks 0] w8
    let first := runs [.takingAClaim .manual, .claimExpiry 4 (.watch 8)] s0
    let last := runs [.claimExpiry 4 (.watch 8), .takingAClaim .manual] s0
    s0.claimTickDue = true ∧ claimOf (s0.claimSet 4) (.watch 8) = some (.timed 1)
      ∧ claimOf (first.claimSet 4) .manual = some (.timed 8) ∧ claimOf (first.claimSet 4) (.watch 8) = none
      ∧ first.transit.creations = [] ∧ first.claimTickDue = false
      ∧ claimOf (last.claimSet 4) .manual = some (.timed 9) ∧ claimOf (last.claimSet 4) (.watch 8) = none
      ∧ last.transit.creations = [outputNotice 4 false, outputNotice 4 true] := by decide

/-- Log 17: a link down while a copy is taken is struck from the copies that remain, though it opens again before its turn;
one that has opened again before the next copy keeps its place. -/
theorem test_links_between_copies :
    let waiting (l : LinkRec) := (allUp.setLink 2 l).post [aCreation .late 2 (.copies [1, 2, 3])]
    let one : Instr := .noticeCreation (.watch 4) .oneCopy
    let struck := runs [one, one] ((runs [one] (waiting LinkRec.atReset)).setLink 2 upLink)
    let kept := runs [one, one] (runs [one] (waiting upLink))
    (struck.queue 1).length = 1 ∧ struck.queue 2 = [] ∧ (struck.queue 3).length = 1
      ∧ (kept.queue 2).length = 1 ∧ (kept.queue 3).length = 1 := by decide

/-- R132, R133: the end of the holder's session changes the authority before any other command is taken. -/
theorem test_the_authority_changes_at_once :
    twoEnds.transit.authorityEnds = [1] ∧ twoEnds.authority.mode = .held 1
      ∧ (runs [.status 2 7 []] twoEnds).authority.mode = .free
      ∧ ((runs [.status 2 7 []] twoEnds).link 2).replies.map (fun r => (r.items.drop 41).take 2) = [[0, 0xFF]]
      ∧ (runs [.authoritySessionEnd 1] twoEnds).authority.mode = .free := by decide

/-- A RESTART keeps frozen watches and their claims, and frees the rest (R19, R130). -/
theorem test_command_restart :
    let s0 := (ruled.setWatch 8 { deadline with frozen := true }).setWatch 9 activity
    let s := runs [.restart 1 5 [], .transmitterTakesFrame 1, .lastByteSent 1 0] s0
    s.watch 8 = { deadline with frozen := true } ∧ s.watch 9 = Watch.free 2 ∧ s.resetCause = .restart
      ∧ s.authority.mode = .free ∧ (s.link 0).state = .silent ∧ (s.link 0).session = 1 := by decide

/-! ### Each statement's hypotheses are met -/

/-- A link of any state, all else as in `allUp`. -/
def withLink (n : Link) (l : LinkRec) : State := allUp.setLink n l

/-- A link UP with a full reply queue. -/
def fullLink : LinkRec := { upLink with replies := List.replicate 4 ⟨0, .ok, [], .nothing⟩ }

/-- A lawful state in which much goes on: L0 to L2 UP, L3 HELD by a held claim of a LATCHED watch, a frozen watch RUNNING
with its last tick due, a record unsent and one in flight, a LINE notice in the pool, L1 the holder and L2 waiting. -/
def busy : State :=
  let lineRec : Notice := ⟨⟨.line 4, none, .line, none⟩, 0, [1], none, 1, 0, none, 3, 3, 3⟩
  { ((((((((allUp.setLink 3 { upLink with state := .held }).setWatch 0
      { w3 with frozen := true, count := 1 }).setWatchTickDue 0 (some .ms100)).setWatch 31
      { deadline with state := .latched, stage := 2, count := 0, strikes := 2 }).setClaimSet 3
      (put (Vector.replicate 33 none) 31 (some .held))).setAuthority ⟨.held 1, [2], false⟩).setDelivery 2
      { Delivery.atReset with window := 1, inFlight := [aFlight 1 (some 10) false], nextNumber := 1 }).setQueue 2
      [aNotice .late 1 2, lineRec]).setLine 4 { LineRec.atReset false with mode := .both, notify := true, pending := true }
    with stamp := 4, pending := [.watchExpiry 0] }

theorem witness_StepRunsTheFrontCommand : busy.pending = .watchExpiry 0 :: [] := by decide

theorem witness_FramesArriveOrAreDiscarded :
    (State.reset.link 0).state ≠ .up ∧ (allUp.link 3).state = .up
      ∧ (Instr.ping 0 7 []).request = some (0, 7, pingBody 0 [])
      ∧ (after (exec .resetHeld allUp)).resetIsHeld = true
      ∧ (0x00 : Byte) ∉ requestKinds ∧ (0x80 : Byte) ∉ requestKinds
      ∧ (withLink 0 { upLink with state := .held }).runs ∧ ((withLink 0 { upLink with state := .held }).link 0).state = .held
      ∧ (withLink 0 { upLink with closing := .close }).runs
      ∧ ((withLink 0 { upLink with closing := .close }).link 0).closing ≠ .nothing
      ∧ (withLink 0 fullLink).runs ∧ ((withLink 0 fullLink).link 0).state ≠ .held
      ∧ ((withLink 0 fullLink).link 0).closing = .nothing ∧ 4 ≤ ((withLink 0 fullLink).link 0).replies.length := by
  refine ⟨?_, ?_, rfl, ?_, ?_, ?_, ?_, ?_, ?_, ?_, ?_, ?_, ?_, ?_⟩ <;> decide

theorem witness_KindThenShapeThenSession :
    State.reset.answers 0 ∧ (0x00 : Byte) ∉ requestKinds ∧ (0xFF : Byte) ∉ requestKinds
      ∧ (Instr.ping 0 7 [1]).request = some (0, 7, pingBody 0 [1]) ∧ (Instr.ping 0 7 [1]).shaped = false
      ∧ (Instr.define 0 7 (List.replicate 14 0)).request = some (0, 7, defineBody 0 (List.replicate 14 0))
      ∧ (Instr.define 0 7 (List.replicate 14 0)).shaped = false
      ∧ (Instr.ping 0 7 []).shaped = true ∧ (Instr.ping 0 7 []).isOpen = false
      ∧ (State.reset.link 0).state = .silent := by
  refine ⟨?_, ?_, ?_, rfl, ?_, rfl, ?_, ?_, ?_, ?_⟩ <;> decide

theorem witness_RefusedRequestsChangeNothing :
    (Instr.ping 0 7 [1]).request = some (0, 7, pingBody 0 [1]) ∧ State.reset.answers 0
      ∧ (pingBody 0 [1] (State.reset.heard 0)).1.result ≠ .ok := by
  refine ⟨rfl, ?_, ?_⟩ <;> decide

theorem witness_WatchRequestsAreCheckedInOrder :
    (Instr.start 0 7 [32]).request = some (0, 7, startBody 0 [32]) ∧ (Instr.start 0 7 [32]).watchIndex = some 32
      ∧ (Instr.start 0 7 [32]).shaped = true ∧ allUp.serves 0 ∧ 31 < (32 : Byte).toNat
      ∧ (Instr.clear 0 7 [0]).request = some (0, 7, clearBody 0 [0]) ∧ (Instr.clear 0 7 [0]).watchIndex = some 0
      ∧ (allUp.watch 0).state = .free
      ∧ (Instr.stop 0 7 [31]).request = some (0, 7, stopBody 0 [31]) ∧ (Instr.stop 0 7 [31]).ownerTypeIndex = some 31
      ∧ (watching 31 w3).serves 0 ∧ ((watching 31 w3).watch 31).state ≠ .free ∧ ¬ (watching 31 w3).mayAct 0 31 := by
  refine ⟨rfl, ?_, ?_, ?_, ?_, rfl, ?_, ?_, rfl, ?_, ?_, ?_, ?_⟩ <;> decide

theorem witness_PrivilegedRequestsNeedTheHolder :
    (offering.setWatch 31 w3).serves 2 ∧ (offering.setWatch 31 w3).authority.mode ≠ .held 2
      ∧ ((offering.setWatch 31 w3).watch 31).state ≠ .free
      ∧ ([15, 5, 255, 1, 3, 3, 0xFF] : List Byte).length = 7
      ∧ (readLineSet [15, 5, 255, 1, 3, 3, 0xFF]).isSome = true
      ∧ ((1 : Byte) ≠ 0 ∨ (0 : Byte) ≠ 0) ∧ ((0 : Byte) ≠ 0 ∨ (1 : Byte) ≠ 0) := by
  decide

theorem witness_WireFrameIsItsCommand :
    (Instr.ping 1 7 []).frame = some (1, 0x03, 7, []) ∧ (Instr.ping 1 7 []).wellFormed = true
      ∧ (Instr.unknownRequest 1 0x80 7 (List.replicate 58 0xC3)).frame = some (1, 0x80, 7, List.replicate 58 0xC3)
      ∧ (Instr.unknownRequest 1 0x80 7 (List.replicate 58 0xC3)).wellFormed = true
      ∧ (allUp.receiver 1).collected = none := by
  refine ⟨rfl, ?_, rfl, ?_, ?_⟩ <;> decide

theorem witness_CheckIsTheCrcOfTheFrame :
    let body : List Byte := BitVec.ofNat 8 ([] : List Byte).length :: 3 :: 7 :: []
    let nearly := State.reset.setReceiver 0 ⟨some (body ++ [0]), 6, false⟩
    State.reset.runs ∧ (State.reset.link 0).state ≠ .held ∧ (State.reset.link 0).closing = .nothing
      ∧ (0 : Half) ≠ crc body
      ∧ (nearly.runs ∧ (nearly.receiver 0).collected = some (body ++ [0]) ∧ (0 : Byte) ≠ (crc body).setWidth 8)
      ∧ ((withLink 0 { upLink with state := .held }).runs
          ∧ ((withLink 0 { upLink with state := .held }).link 0).state = .held)
      ∧ ((withLink 0 { upLink with closing := .restart }).runs
          ∧ ((withLink 0 { upLink with closing := .restart }).link 0).closing ≠ .nothing) := by decide

theorem witness_OpenOpensASession :
    State.reset.answers 0 ∧ (State.reset.link 0).state = .silent
      ∧ (∀ e ∈ State.reset.transit.noticeEnds, e.link ≠ 0) ∧ 0 ∉ State.reset.transit.authorityEnds
      ∧ openInRange [9, 1, 1, 0, 0, 0] ∧ (byteAt [9, 1, 1, 0, 0, 0] 5).toNat = (0 : Level).val
      ∧ openInRange [9, 4, 255, 0x58, 2, 3] ∧ (byteAt [9, 4, 255, 0x58, 2, 3] 5).toNat = (3 : Level).val
      ∧ ([9, 0, 1, 0, 0, 0] : List Byte).length = 6 ∧ ¬ openInRange [9, 0, 1, 0, 0, 0]
      ∧ ¬ openInRange [9, 5, 1, 0, 0, 0] ∧ ¬ openInRange [9, 1, 0, 0, 0, 0] ∧ ¬ openInRange [9, 1, 1, 0x59, 2, 0]
      ∧ ¬ openInRange [9, 1, 1, 0, 0, 4] := by decide

theorem witness_ReopeningGivesEverythingUp :
    busy.answers 2 ∧ (busy.link 2).state = .up ∧ openInRange [9, 1, 1, 0, 0, 3]
      ∧ (byteAt [9, 1, 1, 0, 0, 3] 5).toNat = (3 : Level).val ∧ busy.endsLaw ∧ busy.authorityLaw ∧ busy.silentQueueLaw
      ∧ busy.windowLaw
      ∧ (2 ∈ (endSession 2 .reopened busy).transit.authorityEnds ∧ 2 ∉ busy.transit.authorityEnds
          ∧ ∀ e ∈ busy.transit.noticeEnds, e.link ≠ 2) := by decide

theorem witness_CloseFloorAndReadingRequests :
    ruled.serves 1 ∧ ruled.authority.mode = .held 1 ∧ 3 < (4 : Byte).toNat ∧ 31 < (32 : Byte).toNat := by decide

theorem witness_ReplyAndNoticeLayouts :
    w3.lawful ∧ deadline.lawful ∧ (Watch.free 255).lawful ∧ deadline.ladder[1]? = some ⟨0, .hold, 3, 0, 3⟩
      ∧ busy.counterLaw ∧ busy.poolLaw
      ∧ (aFlight 3 none false).notice.repeats ≤ 255 ∧ (aFlight 3 none false).loss ≤ 255
      ∧ (aFlight 3 none false).notice.detail.length ≤ 3 ∧ 3 < 4
      ∧ ∀ k ∈ (aFlight 3 none false).notice.key.stage, k ≤ 255 := by decide

theorem witness_AcksAreTaken :
    (after (exec .resetHeld allUp)).resetIsHeld = true
      ∧ (withLink 0 { upLink with state := .held }).runs ∧ ((withLink 0 { upLink with state := .held }).link 0).state = .held
      ∧ (withLink 0 { upLink with closing := .restart }).runs
      ∧ ((withLink 0 { upLink with closing := .restart }).link 0).closing ≠ .nothing
      ∧ (State.reset.runs ∧ (State.reset.link 0).state = .silent ∧ (State.reset.link 0).closing = .nothing)
      ∧ busy.runs ∧ (busy.link 2).state = .up ∧ (busy.link 2).closing = .nothing
      ∧ aFlight 1 (some 10) false ∈ (busy.delivery 2).inFlight ∧ (aFlight 1 (some 10) false).number = 0
      ∧ ((busy.delivery 2).inFlight.map (·.number)).Nodup
      ∧ ∀ f ∈ (busy.delivery 2).inFlight, f.number ≠ 255 := by decide

theorem witness_DefineReadsItsItems :
    allUp.serves 2 ∧ (Instr.define 2 1 (defineW3 32 0xFE 0xFF)).shaped = true
      ∧ ¬ (defineInRange (defineW3 32 0xFE 0xFF) ∧ defineAgrees 2 (defineW3 32 0xFE 0xFF))
      ∧ ¬ (defineInRange (defineW3 254 0xFE 0xFF) ∧ defineAgrees 2 (defineW3 254 0xFE 0xFF))
      ∧ ¬ (defineInRange (defineW3 0 0xFE 2) ∧ defineAgrees 2 (defineW3 0 0xFE 2))
      ∧ (Instr.define 2 0 (defineW3 31 0 3)).shaped = true ∧ defineInRange (defineW3 31 0 3)
      ∧ defineAgrees 2 (defineW3 31 0 3) ∧ defineInRange (defineW3 255 0xFE 0xFF)
      ∧ defineAgrees 2 (defineW3 255 0xFE 0xFF) := by decide

theorem witness_DefineWritesTheEntry :
    allUp.serves 2 ∧ (Instr.define 2 1 (defineW3 31 0xFE 0xFF)).shaped = true
      ∧ (readDefine 2 (defineW3 31 0xFE 0xFF)).map (·.index) = some 31 ∧ (allUp.watch 31).state = .free
      ∧ (readDefine 2 (defineW3 255 0xFE 0xFF)).map (·.index) = some 255
      ∧ (∀ j < (0 : WatchIx), (allUp.watch j).state ≠ .free)
      ∧ ({ allUp with watches := Vector.replicate 32 w3 }.serves 2
          ∧ ∀ i, ({ allUp with watches := Vector.replicate 32 w3 }.watch i).state ≠ .free)
      ∧ (readDefine 0 (defineW3 31 0xFE 0xFF)).map (·.index) = some 31
      ∧ ((watching 31 w3).serves 0 ∧ ¬ (watching 31 w3).mayAct 0 31)
      ∧ ((watching 31 { w3 with frozen := true }).mayAct 2 31
          ∧ ((watching 31 { w3 with frozen := true }).watch 31).frozen = true)
      ∧ ((watching 31 w3).mayAct 2 31 ∧ ((watching 31 w3).watch 31).frozen = false
          ∧ ((watching 31 w3).watch 31).state ≠ .stopped)
      ∧ ((watching 31 w3.halt).mayAct 2 31 ∧ ((watching 31 w3.halt).watch 31).frozen = false
          ∧ ((watching 31 w3.halt).watch 31).state = .stopped) := by decide

theorem witness_DeleteAndFreeze :
    allUp.serves 2 ∧ 31 < (32 : Byte).toNat ∧ (allUp.watch 31).state = .free ∧ (allUp.watch 31).freeLaw
      ∧ ((watching 31 w3).serves 0 ∧ ((watching 31 w3).watch 31).state ≠ .free ∧ ¬ (watching 31 w3).mayAct 0 31)
      ∧ (watching 0 { w3 with frozen := true }).serves 2 ∧ (watching 0 { w3 with frozen := true }).mayAct 2 0
      ∧ ((watching 0 { w3 with frozen := true }).watch 0).frozen = true
      ∧ ((ruled.setWatch 31 (deadline.latchOn 2)).serves 1 ∧ (ruled.setWatch 31 (deadline.latchOn 2)).mayAct 1 31
          ∧ ((ruled.setWatch 31 (deadline.latchOn 2)).watch 31).frozen = false
          ∧ ((ruled.setWatch 31 (deadline.latchOn 2)).watch 31).state = .latched)
      ∧ ((watching 0 w3).mayAct 2 0 ∧ ((watching 0 w3).watch 0).frozen = false
          ∧ ((watching 0 w3).watch 0).state ≠ .latched)
      ∧ ((watching 0 w3).watch 0).owner ≠ 1 ∧ ((watching 0 w3).watch 0).owner = 2 := by decide

theorem witness_StartStopPauseResume :
    let has (w : Watch) (p : Watch → Bool) : Prop :=
      (watching 31 w).serves 2 ∧ ((watching 31 w).watch 31).state ≠ .free ∧ (watching 31 w).mayAct 2 31
        ∧ p ((watching 31 w).watch 31) = true
    has w3.halt (fun w => w.state = .stopped) ∧ has w3 (fun w => w.state ≠ .stopped)
      ∧ has { w3 with frozen := true } (fun w => w.frozen)
      ∧ has w3.halt (fun w => !w.frozen && (w.state = .stopped || w.state = .latched))
      ∧ has w3 (fun w => !w.frozen && w.state ≠ .stopped && w.state ≠ .latched)
      ∧ has w3.halt (fun w => !w.frozen && w.state ≠ .running) ∧ has w3 (fun w => !w.frozen && w.state = .running)
      ∧ has { w3 with state := .paused } (fun w => w.state = .paused) ∧ has w3 (fun w => w.state ≠ .paused) := by
  decide

theorem witness_FeedInSequence :
    (watching 0 deadline).serves 0 ∧ (watching 0 deadline).mayAct 0 0 ∧ deadline.kind = .deadline
      ∧ ((watching 3 w3).serves 2 ∧ (watching 3 w3).mayAct 2 3 ∧ w3.lastSeq = some 8 ∧ (9 : Byte) = 8 + 1
          ∧ w3.kind = .heartbeat ∧ w3.state = .running)
      ∧ ((watching 3 { w3 with state := .overdue, stage := 1, lastSeq := some 255 }).serves 2 ∧ (0 : Byte) = 255 + 1)
      ∧ ((watching 31 { activity with state := .quiet, count := 0 }).serves 3
          ∧ (watching 31 { activity with state := .quiet, count := 0 }).mayAct 3 31 ∧ activity.kind = .activity) := by
  decide

theorem witness_SequenceFaultsAdvance :
    ((watching 3 w3).serves 2 ∧ (watching 3 w3).mayAct 2 3 ∧ w3.kind = .heartbeat ∧ w3.seqcheck = true
      ∧ w3.lastSeq = some 8 ∧ (10 : Byte) ≠ 8 + 1 ∧ w3.state = .running ∧ w3.strikeLimit = 0)
      ∧ ((watching 3 { w3 with strikeLimit := 1 }).serves 2 ∧ 1 ≤ min 255 (w3.strikes + 1))
      ∧ ((watching 3 { w3 with strikeLimit := 2 }).serves 2 ∧ min 255 (w3.strikes + 1) < 2)
      ∧ ((watching 3 { w3 with state := .overdue, stage := 1 }).serves 2 ∧ 1 < w3.ladder.length)
      ∧ ((watching 3 { w3 with state := .overdue, stage := 2 }).serves 2 ∧ w3.ladder.length ≤ 2) := by decide

theorem witness_CompleteAndClear :
    (watching 8 deadline).serves 0 ∧ (watching 8 deadline).mayAct 0 8 ∧ deadline.kind = .deadline
      ∧ deadline.state = .running
      ∧ ((watching 8 { deadline with state := .overdue, stage := 1 }).serves 0
          ∧ (watching 8 { deadline with state := .overdue, stage := 1 }).mayAct 0 8)
      ∧ ((watching 3 w3).serves 2 ∧ (watching 3 w3).mayAct 2 3 ∧ w3.kind ≠ .deadline)
      ∧ ((ruled.setWatch 8 (deadline.latchOn 2)).serves 1 ∧ (ruled.setWatch 8 (deadline.latchOn 2)).authority.mode = .held 1
          ∧ (deadline.latchOn 2).state = .latched ∧ deadline.state ≠ .overdue ∧ deadline.state ≠ .latched) := by decide

theorem witness_LineSetAndLineQuery :
    ruled.serves 1 ∧ ruled.authority.mode = .held 1 ∧ (none : Option Link) ≠ some 0 ∧ (some 3 : Option Link) ≠ some 0
      ∧ 15 < (16 : Byte).toNat ∧ 5 < (6 : Byte).toNat ∧ 3 < (4 : Byte).toNat ∧ (4 : Byte) ≠ 0xFF
      ∧ ∀ c ∈ ruled.transit.creations, c.key.source ≠ .line 15 := by decide

theorem witness_PulseAndHold :
    ruled.serves 1 ∧ ruled.authority.mode = .held 1 ∧ ((1 : Byte) ≠ 0 ∨ (0 : Byte) ≠ 0)
      ∧ ((0 : Byte) ≠ 0 ∨ (255 : Byte) ≠ 0) ∧ 4 < (5 : Byte).toNat := by decide

theorem witness_UnholdRemovesTheManualClaim :
    let one := ruled.setClaimSet 4 (put (ruled.claimSet 4) (slotOf .manual) (some .held))
    let two := one.setClaimSet 4 (put (one.claimSet 4) (slotOf (.watch 31)) (some .held))
    let coming := ruled.sendOutput [.claim .manual 4 none none]
    let left (s : State) := put ((settleManual 4 (s.heard 1)).claimSet 4) (slotOf .manual) none
    ruled.serves 1 ∧ ruled.authority.mode = .held 1 ∧ ruled.transit.outputWords = []
      ∧ claimOf (ruled.claimSetForManual 4) .manual = none
      ∧ (one.serves 1 ∧ claimOf (one.claimSetForManual 4) .manual ≠ none ∧ (left one).toList.any Option.isSome = false)
      ∧ (two.serves 1 ∧ claimOf (two.claimSetForManual 4) .manual ≠ none ∧ (left two).toList.any Option.isSome = true)
      ∧ (coming.serves 1 ∧ claimOf (coming.claimSetForManual 4) .manual ≠ none
          ∧ (left coming).toList.any Option.isSome = false) := by decide

theorem witness_ClaimInFreeOrHeld :
    (allUp.serves 0 ∧ allUp.authority.mode = .free) ∧ (ruled.serves 1 ∧ ruled.authority.mode = .held 1)
      ∧ (busy.serves 2 ∧ busy.authority.mode = .held 1 ∧ (1 : Link) ≠ 2 ∧ 2 ∈ busy.authority.claimList)
      ∧ (busy.serves 0 ∧ busy.authority.mode = .held 1 ∧ (1 : Link) ≠ 0 ∧ 0 ∉ busy.authority.claimList)
      ∧ busy.authorityLaw ∧ allUp.authorityLaw := by decide

theorem witness_ClaimInOffering :
    offering.authority.mode = .offering 2 3000 ∧ offering.serves 2
      ∧ (offering.serves 1 ∧ (2 : Link) ≠ 1 ∧ 1 ∉ offering.authority.claimList)
      ∧ (offering.serves 3 ∧ (2 : Link) ≠ 3 ∧ 3 ∈ offering.authority.claimList) := by decide

theorem witness_YieldPassesTheAuthorityOn :
    ruled.serves 1 ∧ ([0] : List Byte) ≠ [] ∧ (ruled.serves 0 ∧ ruled.authority.mode ≠ .held 0)
      ∧ (ruled.authority.mode = .held 1 ∧ ruled.authority.claimList = [])
      ∧ (busy.serves 1 ∧ busy.authority.mode = .held 1 ∧ busy.authority.claimList = 2 :: []) := by decide

theorem witness_AcceptMakesTheHolder :
    offering.serves 2 ∧ ([0] : List Byte) ≠ [] ∧ (offering.serves 3 ∧ offering.authority.mode.offered ≠ some 3)
      ∧ offering.authority.mode.offered = some 2 := by decide

theorem witness_OffersEnd :
    let last := offering.setAuthority ⟨.offering 2 1, [], true⟩
    let next := offering.setAuthority ⟨.offering 2 1, [3], true⟩
    let more := offering.setAuthority ⟨.offering 2 2, [3], true⟩
    offering.serves 2 ∧ ([0] : List Byte) ≠ [] ∧ (offering.serves 0 ∧ offering.authority.mode.offered ≠ some 0)
      ∧ (last.serves 2 ∧ last.authority.mode.offered = some 2 ∧ last.authority.claimList = [])
      ∧ (offering.authority.mode.offered = some 2 ∧ offering.authority.claimList = 3 :: [])
      ∧ (last.runs ∧ last.authority.mode = .offering 2 1 ∧ last.authority.offerDue = true)
      ∧ (next.authority.mode = .offering 2 1 ∧ next.authority.offerDue = true ∧ next.authority.claimList = 3 :: [])
      ∧ (more.authority.mode = .offering 2 2 ∧ more.authority.offerDue = true ∧ 1 < 2) := by decide

theorem witness_ReceiverBuildsFrames :
    let started := allUp.setReceiver 1 ⟨some [], 6, false⟩
    let reading := allUp.setReceiver 1 ⟨some [58, 3], 1, true⟩
    allUp.runs ∧ ((withLink 1 { upLink with state := .held }).link 1).state = .held
      ∧ ((allUp.link 1).state ≠ .held ∧ (allUp.link 1).closing = .nothing ∧ (allUp.receiver 1).collected = none)
      ∧ ((started.receiver 1).collected = some [] ∧ 58 < (59 : Byte).toNat ∧ (58 : Byte).toNat ≤ 58)
      ∧ ((reading.receiver 1).collected = some (58 :: [3]) ∧ [(3 : Byte)].length + 1 < (58 : Byte).toNat + 4)
      ∧ ((reading.receiver 1).gapDue = true ∧ (reading.receiver 1).gap ≤ 1)
      ∧ ((allUp.setReceiver 1 ⟨some [], 2, true⟩).receiver 1).gapDue = true := by decide

theorem witness_ATickReachesOneBlock :
    let owing := { allUp with uptime := 1000, owedTicks := portsAt 1000 }
    let last := owing.setClaimSet 4 (put (owing.claimSet 4) (slotOf .manual) (some (.timed 1)))
    owing.runs ∧ owing.owedTicks.Nodup ∧ TickPort.watches .ms1 ∈ owing.owedTicks
      ∧ TickPort.watches .s1 ∈ owing.owedTicks ∧ .lines ∈ owing.owedTicks ∧ .outputs ∈ owing.owedTicks
      ∧ .ackTimers ∈ owing.owedTicks ∧ .inactivityTimers ∈ owing.owedTicks ∧ .offerTimer ∈ owing.owedTicks
      ∧ .gapTimers ∈ owing.owedTicks ∧ (last.runs ∧ claimOf (last.claimSet 4) .manual = some (.timed 1))
      ∧ ∀ o : OutputIx, ∀ k : Fin 33, (owing.claimSet o)[k] = none := by decide

theorem witness_TheUptimeAndItsTicks :
    (after (exec .resetHeld allUp)).resetIsHeld = true ∧ portsOf .ms10 (.only .lines) = []
      ∧ (∃ p ∈ { allUp with owedTicks := portsAt 1 }.owedTicks, p ∈ portsOf .ms1 .allBlocks)
      ∧ ({ allUp with uptime := 4294967295 }.runs
          ∧ (∀ p ∈ { allUp with uptime := 4294967295 }.owedTicks, p ∉ portsOf .s1 .allBlocks)
          ∧ (({ allUp with uptime := 4294967295 } : State).uptime + 1).toNat % period .s1 = 0
          ∧ portsOf .s1 .allBlocks ≠ [])
      ∧ (allUp.uptime + 1).toNat % period .ms10 ≠ 0
      ∧ ({ allUp with uptime := 4294967295 }.owedTicks = [] ∧ { allUp with uptime := 4294967295 }.noneDue
          ∧ { allUp with uptime := 4294967295 }.transit.authorityEnds = [])
      ∧ (busy.runs ∧ ¬ busy.noneDue
          ∧ (∀ n, ((busy.delivery n).inFlight.map (·.number)).Nodup
            ∧ ∀ f ∈ (busy.delivery n).inFlight, f.timerDue = true → f.timer ≠ none)
          ∧ (portsAt 1000).Nodup)
      ∧ Base.s1 ≠ .ms1 := by decide

theorem witness_WatchesRunOut :
    let due (w : Watch) := (watching 8 w).setWatchTickDue 8 (some w.base)
    (due w3).runs ∧ (due w3).watchTickDue 8 = some ((due w3).watch 8).base ∧ 1 < w3.count
      ∧ ((due activity).watchTickDue 8 = some activity.base ∧ activity.count ≤ 1 ∧ activity.kind = .activity)
      ∧ (deadline.count ≤ 1 ∧ deadline.kind ≠ .activity ∧ min 255 (deadline.strikes + 1) < deadline.strikeLimit)
      ∧ ({ deadline with strikes := 1 }.strikeLimit ≠ 0 ∧ deadline.strikeLimit ≤ min 255 (1 + 1))
      ∧ ((due { deadline with state := .overdue, stage := 1 }).watch 8).stage < deadline.ladder.length
      ∧ w3.ladder.length ≤ ((due { w3 with state := .overdue, stage := 2, count := 1 }).watch 8).stage
      ∧ ((due w3).setWatch 8 activity).watchTickDue 8 = some .ms100 ∧ Base.ms100 ≠ activity.base
      ∧ (allUp.watchTickDue 8 = none ∧ (allUp.watch 8).state ≠ .running) := by decide

theorem witness_StageEntryIsExplicit :
    (deadline.stageRec 1).action = .pulse ∧ (deadline.stageRec 2).action = .hold ∧ deadline.ladder.length = 2
      ∧ deadline.ladder[1 - 1]? = some ⟨20, .pulse, 3, 500, 1⟩ ∧ deadline.ladder ≠ []
      ∧ (w3.stageRec 2).action = .notify ∧ ({ (w3.stageRec 2) with action := .safe } : StageRec).action = .safe := by
  decide

theorem witness_DueSamplesAreTaken :
    let at4 (r : LineRec) := (watching 8 activity).setLine 4 r
    let r : LineRec := { LineRec.atReset false with mode := .rising, notify := true, dueSample := some true }
    (allUp.runs ∧ (allUp.line 15).dueSample = none)
      ∧ ((at4 { r with accepted := true }).line 4).accepted = true
      ∧ ((at4 { r with filter := 255 }).line 4).disagreement ≠ 255
      ∧ (((at4 { r with mode := .falling }).line 4).accepted ≠ true
          ∧ ((at4 { r with mode := .falling }).line 4).disagreement = ((at4 { r with mode := .falling }).line 4).filter)
      ∧ ((at4 r).line 4).mode = .rising ∧ ((at4 { r with notify := false }).line 4).notify = false
      ∧ ((drainChannel (.line 4) (triggerWatches 4 (at4 { r with pending := true, accepted := true }))).line 4).pending
          = true
      ∧ ((drainChannel (.line 4) (triggerWatches 4 (at4 { r with accepted := true }))).line 4).pending = false
      ∧ ∀ c ∈ (at4 r).transit.creations, c.key.source ≠ .line 4 := by decide

theorem witness_LineReportsAreTaken :
    let told (how : Departure) :=
      (allUp.setLine 0 { LineRec.atReset false with pending := true, overrun := 255 }).setTransit
        { Transit.empty with lineReports := [(1, .evicted), (0, how)] }
    (told .evicted).runs ∧ (∀ w ∈ (told .evicted).transit.lineReports, w.1 ≠ 15)
      ∧ (told .evicted).transit.lineReports = [(1, .evicted)] ++ (0, .evicted) :: [] ∧ Departure.evicted ≠ .acknowledged
      ∧ (∀ w ∈ [((1 : LineIx), Departure.evicted)], w.1 ≠ 0)
      ∧ ((told .acknowledged).transit.lineReports = [(1, .evicted)] ++ (0, .acknowledged) :: []
          ∧ ((told .acknowledged).line 0).overrun ≠ 0) := by decide

/-- Link 3 of `allUp` put in HELD by W8's claim, the notice unit not having taken its session's end. -/
def lost3 : State :=
  let s := (takeAssertion 3 (some (8, 4)) allUp).setWatch 8 { deadline with state := .overdue, stage := 1, count := 5 }
  s.setTransit { s.transit with authorityEnds := [] }

theorem witness_NoticesAreRouted :
    let c (r : Route) := aCreation .late 2 r
    let on (s : State) (r : Route) := (s.post [authOffer 1]).post [c r]
    let up (s : State) (reset : List (Link × Byte)) (n : Link) : Prop :=
      (s.link n).state = .up ∨ ((n, (s.link n).session) ∉ reset ∧ ∃ d ∈ s.transit.noticeEnds, d.link = n)
    (on allUp (.pair 0 none)).runs
      ∧ (on allUp (.pair 0 none)).transit.creations = [authOffer 1] ++ c (.pair 0 none) :: []
      ∧ (∀ d ∈ [authOffer 1], d.channel ≠ (c (.pair 0 none)).channel) ∧ up (on allUp (.pair 0 none)) [] 0
      ∧ (¬ up (on busy (.pair 3 (some 0))) [] 3 ∧ up (on busy (.pair 3 (some 0))) [] 0)
      ∧ (¬ up (on State.reset (.pair 3 (some 0))) [] 3
          ∧ ∀ g ∈ some (0 : Link), ¬ up (on State.reset (.pair 3 (some 0))) [] g)
      ∧ ((on lost3 (.pairAfter 3 (some 0) [(3, 1)])).runs ∧ up (on lost3 (.pair 3 (some 0))) [] 3
          ∧ ¬ up (on lost3 (.pairAfter 3 (some 0) [(3, 1)])) [(3, 1)] 3
          ∧ up (on lost3 (.pairAfter 3 (some 0) [(3, 1)])) [(3, 1)] 0
          ∧ up (on lost3 (.pairAfter 3 (some 0) [(3, 0)])) [(3, 0)] 3)
      ∧ up (on allUp (.target 3)) [] 3 ∧ ¬ up (on busy (.target 3)) [] 3
      ∧ lost3.resetBy 8 4 = [(3, 1)] ∧ lost3.resetBy 8 5 = [] ∧ allUp.resetBy 8 4 = [] := by decide

theorem witness_BroadcastsAreCopied :
    let c (r : Route) := aCreation .late 2 r
    let s (r : Route) := busy.post [c r]
    let up (s : State) (n : Link) : Bool := s.isUp n || s.transit.noticeEnds.any fun d => d.link = n
    (s (.broadcast (some 0))).runs
      ∧ (s (.broadcast (some 0))).transit.creations = [] ++ c (.broadcast (some 0)) :: []
      ∧ ((List.finRange 4).filter fun n =>
          up (s (.broadcast (some 0))) n && decide (some (0 : Link) ≠ some n)) = [1, 2]
      ∧ ((List.finRange 4).filter fun n => up State.reset n && decide ((none : Option Link) ≠ some n)) = []
      ∧ [(2 : Link), 3].filter (up (s (.copies [2, 3]))) = [2]
      ∧ ((List.finRange 4).filter fun n => up lost3 n && decide (some (0 : Link) ≠ some n)) = [1, 2, 3] := by decide

theorem witness_PlacesInThePool :
    let one := allUp.setQueue 2 [aNotice .late 1 0]
    let many (lv : Level) :=
      ((allUp.setQueue 1 (List.replicate 8 ⟨⟨.authority, none, .authchange, none⟩, lv, [], none, 1, 0, none, 0, 0, 0⟩)))
    (one.queueLaw ∧ one.queue 2 = [] ++ aNotice .late 1 0 :: [] ∧ (aNotice .late 1 0).key = (aCreation .late 3 (.target 2)).key)
      ∧ (∀ r ∈ one.queue 2, r.key ≠ (aCreation .overdue 3 (.target 2)).key) ∧ one.poolInUse < 64 ∧ one.poolInUse < 56
      ∧ (many 0).poolInUse = 8 := by decide

/-- A queue of `k` notices of one level about watches' generations, all different. -/
def backlog (k : Nat) (lv : Level) : List Notice :=
  (List.range k).map fun j => ⟨⟨.watch 7, some (BitVec.ofNat 8 j), .late, none⟩, lv, [], none, 1, 0, none, j, j, j⟩

theorem witness_PlacesInThePool_full :
    let full (lv : Level) := allUp.setQueue 1 (backlog 56 lv)
    (full 0).poolInUse = 56 ∧ ¬ (full 0).poolInUse < 56 ∧ (full 0).queueLaw
      ∧ (∀ r ∈ (full 0).queue 2, r.key ≠ (aCreation .late 0 (.target 2)).key)
      ∧ (∀ m, ∀ r ∈ (full 0).queue m, (0 : Level) ≤ r.level) ∧ ∃ r ∈ (full 0).queue 1, r.level < (1 : Level) := by decide

theorem witness_SessionEndsReachTheNotices :
    let e (why : EndReason) : NoticeEnd := ⟨3, why, 9, [], []⟩
    let ending (why : EndReason) := busy.setTransit { Transit.empty with noticeEnds := [e why] }
    (ending .closed).runs ∧ (ending .closed).transit.noticeEnds = [] ++ e .closed :: []
      ∧ EndReason.silence ≠ .closed
      ∧ (∀ m ∈ (aNotice .late 1 0).onward, m = 0 ∨ ¬ (busy.link m).state = .up)
      ∧ ((lost3.link 3).state ≠ .up ∧ ∃ d ∈ lost3.transit.noticeEnds, d.link = 3)
      ∧ ({ aNotice .late 1 0 with onward := some 2 }.onward = some 2 ∧ (2 : Link) ≠ 0 ∧ (busy.link 2).state = .up
          ∧ (∀ w ∈ busy.queue 2, w.key ≠ (aNotice .latched 1 0).key)
          ∧ busy.queue 2 = [] ++ aNotice .late 1 2 :: (busy.queue 2).drop 1
          ∧ (aNotice .late 1 2).key = (aNotice .late 1 0).key)
      ∧ ∀ d ∈ busy.transit.noticeEnds, d.link ≠ 3 := by decide

theorem witness_SessionEndsReachTheAuthority :
    let ending (s : State) (n : Link) := s.setTransit { Transit.empty with authorityEnds := [3, n] }
    (ending ruled 1).resetIsHeld = false ∧ (ending ruled 1).transit.authorityEnds = [3] ++ 1 :: [] ∧ 1 ∉ [(3 : Link)]
      ∧ ((ending ruled 1).authority.mode.holder = some 1 ∧ (ending ruled 1).authority.claimList = [])
      ∧ ((ending busy 1).authority.mode.holder = some 1 ∧ (ending busy 1).authority.claimList = 2 :: [])
      ∧ (¬ ((ending busy 2).authority.mode.holder = some 2 ∨ (ending busy 2).authority.mode.offered = some 2)
          ∧ (ending busy 2).authority.mode ≠ .free)
      ∧ (ending allUp 0).authority.mode = .free ∧ 0 ∉ allUp.transit.authorityEnds
      ∧ (ending ruled 1).transit.authorityEnds = 3 :: [1] ∧ ∀ n, Instr.status 0 7 [] ≠ .authoritySessionEnd n := by
  refine ⟨?_, ?_, ?_, ?_, ?_, ?_, ?_, ?_, ?_, fun n h => by cases h⟩ <;> decide

theorem witness_TimersEndSessions :
    let timed (k : Nat) := withLink 1 { upLink with inactivity := some k, inactivityDue := true }
    (State.reset.link 0).state ≠ .up ∧ (allUp.link 0).state = .up
      ∧ (allUp.runs ∧ (allUp.link 1).inactivityDue = false)
      ∧ (((timed 2).link 1).inactivity = some 2 ∧ ((timed 1).link 1).inactivity = some 1
          ∧ ((timed 1).link 1).inactivityDue = true)
      ∧ ((withLink 1 { upLink with inactivityDue := true }).link 1).inactivity = none
      ∧ (aFlight 1 (some 1) true ∈ ((flying (aFlight 1 (some 1) true)).delivery 2).inFlight
          ∧ (((flying (aFlight 1 (some 1) true)).delivery 2).inFlight.map (·.number)).Nodup
          ∧ (aFlight 1 (some 1) true).attempt < 3 ∧ 3 ≤ (aFlight 3 (some 1) true).attempt)
      ∧ (aFlight 1 none false).timer = none ∧ 1 < 2
      ∧ ∀ f ∈ ((flying (aFlight 1 (some 2) true)).delivery 2).inFlight, f.number ≠ 255 := by decide

theorem witness_ClientResetsMoveTheLink :
    let told (l : LinkRec) (v : CrstChange) :=
      (withLink 0 l).setTransit { Transit.empty with crstWords := [(3, v), (0, v)] }
    let on : CrstChange := .asserted (some (31, 255))
    let off : CrstChange := .released
    (told upLink on).runs ∧ (told upLink on).transit.crstWords = [(3, on)] ++ (0, on) :: []
      ∧ (∀ w ∈ [((3 : Link), on)], w.1 ≠ 0)
      ∧ (told { upLink with state := .held } off).transit.crstWords = [(3, off)] ++ (0, off) :: []
      ∧ ((told { upLink with state := .held } off).link 0).state = .held
      ∧ ((told LinkRec.atReset off).link 0).state ≠ .held
      ∧ ∀ w ∈ (told upLink on).transit.crstWords, w.1 ≠ 2 := by decide

theorem witness_ClaimsComeAndGo :
    let w : OutputWord := .claim (.watch 31) 4 (some 65535) (some 255)
    let mine : OutputWord := .claim .manual 0 none none
    let told (s : State) (x : OutputWord) := s.sendOutput [mine, x]
    let timed (k : Nat) := allUp.setClaimSet 4 (put (allUp.claimSet 4) (slotOf (.watch 31)) (some (.timed k)))
    (told allUp w).runs ∧ (told allUp w).transit.outputWords = [mine] ++ w :: []
      ∧ (∀ x ∈ [mine], x.claimant ≠ .watch 31)
      ∧ (claimOf ((told busy w).claimSet 3) (.watch 31) = some .held ∧ claimOf (allUp.claimSet 4) (.watch 31) = none
          ∧ claimOf ((timed 1).claimSet 4) (.watch 31) = some (.timed 1))
      ∧ (∀ x ∈ allUp.transit.outputWords, x.claimant ≠ .manual)
      ∧ ((timed 1).runs ∧ (timed 1).claimTickDue = false ∧ ((timed 1).setClaimTickDue true).claimTickDue = true)
      ∧ (∀ k ≤ 1, claimOf (((timed 2).setClaimTickDue true).claimSet 4) (.watch 31) ≠ some (.timed k))
      ∧ (told allUp (.removeAll 0)).transit.outputWords = [mine] ++ .removeAll 0 :: [] := by decide

theorem witness_TransmittersTakeTheNextFrame :
    let d : Delivery := { Delivery.atReset with window := 4, floor := 2, inFlight := [aFlight 1 none false] }
    let waiting (lv : Level) := (allUp.setDelivery 2 d).setQueue 2 [aNotice .late lv 1]
    allUp.runs ∧ (allUp.setTransmitter 0 (some ⟨[], .reply .nothing⟩)).transmitter 0 ≠ none
      ∧ (((withLink 0 fullLink).link 0).replies.length = 4 ∧ (withLink 0 fullLink).transmitter 0 = none)
      ∧ ((State.reset.link 0).replies = [] ∧ (State.reset.link 0).state ≠ .up)
      ∧ (((allUp.setDelivery 2 { d with resend := [0] }).delivery 2).resend = 0 :: []
          ∧ aFlight 1 none false ∈ d.inFlight ∧ (d.inFlight.map (·.number)).Nodup)
      ∧ ((busy.delivery 2).resend = [] ∧ (busy.delivery 2).window ≤ (busy.delivery 2).inFlight.length)
      ∧ allUp.queue 2 = [] ∧ (1 : Level) < d.floor
      ∧ ((waiting 2).queue 2 = aNotice .late 2 1 :: [] ∧ d.floor ≤ 2 ∧ d.inFlight.length < d.window
          ∧ d.inFlight.length ≤ 3) := by decide

theorem witness_LastBytes :
    let sending (l : LinkRec) (c : Carried) := (withLink 1 l).setTransmitter 1 (some ⟨[0xC3], c⟩)
    allUp.runs ∧ allUp.transmitter 1 = none
      ∧ (sending upLink (.notice 255)).transmitter 1 = some ⟨[0xC3], .notice 255⟩
      ∧ (sending upLink (.reply .nothing)).transmitter 1 = some ⟨[0xC3], .reply .nothing⟩
      ∧ ((sending { upLink with closing := .close } (.reply .close)).link 1).closing = .close
      ∧ ((sending upLink (.reply .close)).link 1).closing ≠ .close
      ∧ ((sending upLink (.reply .restart)).link 1).closing ≠ .restart := by decide

theorem witness_TheCommandRestart :
    let s := (busy.setLink 1 { upLink with closing := .restart }).setTransmitter 1 (some ⟨[0xC3], .reply .restart⟩)
    s.runs ∧ s.transmitter 1 = some ⟨[0xC3], .reply .restart⟩ ∧ (s.link 1).closing = .restart
      ∧ (s.watch 0).frozen = true ∧ (s.watch 31).frozen = false := by decide

theorem witness_ResetsStartAfresh :
    (after (exec .resetHeld busy)).resetIsHeld = true ∧ busy.runs ∧ (Instr.watchExpiry 0).resets = false
      ∧ ∀ pins straps, Instr.watchExpiry 0 ≠ .resetReleased pins straps := by
  refine ⟨?_, ?_, ?_, ?_⟩
  · decide
  · decide
  · decide
  · intro pins straps h; cases h

/-- `busy` is lawful, and a step leads on from it; its front command is neither a reset nor a DEFINE nor a TICK. -/
theorem busy_is_lawful : busy.lawful := by decide

theorem busy_steps : ∃ t, step busy = .next t := ⟨_, rfl⟩

theorem witness_WatchesStayLawful : busy.watchesLawful ∧ ∃ t, step busy = .next t := ⟨by decide, busy_steps⟩

theorem witness_FrozenWatchesStayAsTheyAre :
    busy.watchesLawful ∧ (∃ t, step busy = .next t) ∧ (∀ c ∈ busy.pending.head?, c.resets = false)
      ∧ (busy.watch 0).frozen = true := ⟨by decide, busy_steps, by decide, by decide⟩

theorem witness_OnlyTicksAndDefines :
    busy.pending = .watchExpiry 0 :: [] ∧ (∃ t, step busy = .next t) ∧ (Instr.watchExpiry 0).resets = false :=
  ⟨by decide, busy_steps, by decide⟩

theorem witness_ThePoolIsBounded : busy.poolLaw ∧ ∃ t, step busy = .next t := ⟨by decide, busy_steps⟩

theorem witness_QueuesStayInOrder : (busy.queueLaw ∧ busy.silentQueueLaw) ∧ ∃ t, step busy = .next t :=
  ⟨by decide, busy_steps⟩

theorem witness_FlightsStayInTheWindow : (busy.windowLaw ∧ busy.resendLaw) ∧ ∃ t, step busy = .next t :=
  ⟨by decide, busy_steps⟩

theorem witness_PendingMeansANotice : (busy.lineLaw ∧ busy.windowLaw ∧ busy.resendLaw) ∧ ∃ t, step busy = .next t :=
  ⟨by decide, busy_steps⟩

theorem witness_HeldMeansClientReset : busy.crstLaw ∧ ∃ t, step busy = .next t := ⟨by decide, busy_steps⟩

theorem witness_TheAuthorityIsWellHeld : (busy.authorityLaw ∧ busy.endsLaw) ∧ ∃ t, step busy = .next t :=
  ⟨by decide, busy_steps⟩

theorem witness_LinksKeepTheirBounds :
    (busy.linkLaw ∧ busy.closingLaw ∧ busy.receiverLaw ∧ busy.counterLaw) ∧ ∃ t, step busy = .next t :=
  ⟨by decide, busy_steps⟩

theorem witness_HeldClaimsAreOfLatchedWatches :
    (busy.watchesLawful ∧ busy.claimLaw ∧ busy.heldLaw) ∧ ∃ t, step busy = .next t := ⟨by decide, busy_steps⟩

end Sys2Proof.Tests
end

/-!
PROOF. Requests that name a watch, DELETE and FREEZE, and the events that pass a FREE entry by (R6, R13, R16).
-/

namespace Sys2Proof.Machine

/-! ### What a request's block answers, and the reply it leaves -/

/-- A request whose block refuses it leaves the bare result (R163). -/
theorem exec_of_refuse (c : Instr) (n : Link) (tag : Byte) (body : State → Answer × State) (s : State) (r : Result)
    (hc : c.request = some (n, tag, body)) (hs : s.answers n) (hb : body (s.heard n) = refuse r (s.heard n)) :
    exec c s = .next ((s.heard n).replied n tag r []) := by
  rw [exec_request_answers c n tag body s hc hs, hb]
  rfl

/-- A request whose block accepts it leaves the block's state, with OK and its items queued. -/
theorem exec_of_accept (c : Instr) (n : Link) (tag : Byte) (body : State → Answer × State) (s t : State)
    (items : List Byte) (hc : c.request = some (n, tag, body)) (hs : s.answers n)
    (hb : body (s.heard n) = accept items t) : exec c s = .next (t.replied n tag .ok items) := by
  rw [exec_request_answers c n tag body s hc hs, hb]
  rfl

/-! ### The checks of a request that names a watch (R6) -/

theorem withWatch_of_big (b : Byte) (s : State) (rest : WatchIx → Watch → Answer × State) (h : 31 < b.toNat) :
    withWatch b s rest = refuse .badValue s := by
  simp [withWatch, readWatchIx_of_big b h]

theorem withWatch_of_free (b : Byte) (i : WatchIx) (s : State) (rest : WatchIx → Watch → Answer × State)
    (h : readWatchIx b = some i) (hf : (s.watch i).state = .free) : withWatch b s rest = refuse .noEntry s := by
  simp [withWatch, h, hf]

/-- With a session open and one byte of payload, DELETE goes on to the checks of R6. -/
theorem deleteBody_of_up (n : Link) (b : Byte) (s : State) (hu : s.isUp n = true) :
    deleteBody n [b] s = withWatch b s fun i w =>
      if ownerOrHolder n w s then
        if w.frozen then refuse .frozen s
        else if w.state = .latched then refuse .badState s
        else accept [] (s.setWatch i (Watch.free w.generation))
      else refuse .notAuthority s :=
  checkShapeAndOpen_of_up n s _ hu

/-- With a session open and one byte of payload, FREEZE goes on to the checks of R16. -/
theorem freezeBody_of_up (n : Link) (b : Byte) (s : State) (hu : s.isUp n = true) :
    freezeBody n [b] s = withWatch b s fun i w =>
      if w.owner ≠ n then refuse .notOwner s
      else accept [w.generation] (s.setWatch i { w with frozen := true }) :=
  checkShapeAndOpen_of_up n s _ hu

/-- DELETE of a defined entry, in the order of its checks (R6, R13). -/
theorem deleteBody_of_defined (n : Link) (i : WatchIx) (s : State) (hu : s.isUp n = true)
    (hf : (s.watch i).state ≠ .free) :
    deleteBody n [byteOf i] s =
      if s.mayAct n i then
        if (s.watch i).frozen then refuse .frozen s
        else if (s.watch i).state = .latched then refuse .badState s
        else accept [] (s.setWatch i (Watch.free (s.watch i).generation))
      else refuse .notAuthority s := by
  rw [deleteBody_of_up n _ s hu, withWatch_of_defined _ i s _ (readWatchIx_byteOf i) hf, ownerOrHolder_eq]
  simp only [decide_eq_true_eq]

/-- FREEZE of a defined entry (R16). -/
theorem freezeBody_of_defined (n : Link) (i : WatchIx) (s : State) (hu : s.isUp n = true)
    (hf : (s.watch i).state ≠ .free) :
    freezeBody n [byteOf i] s =
      if (s.watch i).owner ≠ n then refuse .notOwner s
      else accept [(s.watch i).generation] (s.setWatch i { s.watch i with frozen := true }) := by
  rw [freezeBody_of_up n _ s hu, withWatch_of_defined _ i s _ (readWatchIx_byteOf i) hf]

/-! ### A FREE entry (R13) -/

/-- A trigger does nothing at a FREE entry, whatever its kind. -/
theorem triggerStep_of_free (i : WatchIx) (w : Watch) (h : w.state = .free) : triggerStep i w = .quiet w := by
  unfold triggerStep
  cases hk : w.kind with
  | heartbeat => simp [feedStep, hk, h]
  | deadline => simp [completeStep, h]
  | activity => simp [feedStep, hk, h]

theorem watch_triggerWatches_of_free (l : LineIx) (i : WatchIx) (s : State) (h : (s.watch i).state = .free) :
    (triggerWatches l s).watch i = s.watch i := by
  rw [(triggerWatches_spec l s).1 i, triggerStep_of_free i _ h]
  exact ite_self _

/-- WATCH_EXPIRY is an event of a RUNNING watch only (R23). -/
theorem exec_watchExpiry_of_notRunning (i : WatchIx) (s : State) (hr : s.runs) (h : (s.watch i).state ≠ .running) :
    exec (.watchExpiry i) s = .next s := by
  change Host.Outcome.next (unlessReset _ s) = _
  rw [unlessReset_of_prompt _ s hr.1 hr.2, if_neg h]

/-- GRACE_RUNS_OUT is an event of an OVERDUE watch only (R46). -/
theorem exec_graceRunsOut_of_notOverdue (i : WatchIx) (s : State) (hr : s.runs) (h : (s.watch i).state ≠ .overdue) :
    exec (.graceRunsOut i) s = .next s := by
  change Host.Outcome.next (unlessReset _ s) = _
  rw [unlessReset_of_prompt _ s hr.1 hr.2, if_neg h]

/-! ### DELETE and FREEZE (R13, R16) -/

theorem mayAct_heard (s : State) (n m : Link) (i : WatchIx) : (s.heard n).mayAct m i ↔ s.mayAct m i := by
  unfold State.mayAct
  simp only [watch_heard, authority_heard]

theorem isUp_heard_of_serves {s : State} {n : Link} (hs : s.serves n) : (s.heard n).isUp n = true :=
  (isUp_heard s n n).trans (isUp_of_serves hs)

/-- DELETE and FREEZE of an index out of range (R6). -/
theorem exec_deleteOrFreeze_of_big (s : State) (n : Link) (tag b : Byte) (hs : s.serves n) (hb : 31 < b.toNat) :
    exec (.delete n tag [b]) s = .next ((s.heard n).replied n tag .badValue [])
    ∧ exec (.freeze n tag [b]) s = .next ((s.heard n).replied n tag .badValue []) := by
  constructor
  · refine exec_of_refuse _ n tag _ s _ rfl hs.1 ?_
    rw [deleteBody_of_up n b _ (isUp_heard_of_serves hs), withWatch_of_big b _ _ hb]
  · refine exec_of_refuse _ n tag _ s _ rfl hs.1 ?_
    rw [freezeBody_of_up n b _ (isUp_heard_of_serves hs), withWatch_of_big b _ _ hb]

/-- DELETE and FREEZE of a FREE entry (R6). -/
theorem exec_deleteOrFreeze_of_free (s : State) (n : Link) (tag : Byte) (i : WatchIx) (hs : s.serves n)
    (hf : (s.watch i).state = .free) :
    exec (.delete n tag [byteOf i]) s = .next ((s.heard n).replied n tag .noEntry [])
    ∧ exec (.freeze n tag [byteOf i]) s = .next ((s.heard n).replied n tag .noEntry []) := by
  have hf' : ((s.heard n).watch i).state = .free := by rw [watch_heard, hf]
  constructor
  · refine exec_of_refuse _ n tag _ s _ rfl hs.1 ?_
    rw [deleteBody_of_up n _ _ (isUp_heard_of_serves hs), withWatch_of_free _ i _ _ (readWatchIx_byteOf i) hf']
  · refine exec_of_refuse _ n tag _ s _ rfl hs.1 ?_
    rw [freezeBody_of_up n _ _ (isUp_heard_of_serves hs), withWatch_of_free _ i _ _ (readWatchIx_byteOf i) hf']

section
variable {s : State} {n : Link} (tag : Byte) {i : WatchIx} (hs : s.serves n) (hf : (s.watch i).state ≠ .free)
include hs hf

/-- What DELETE's block answers once its frame has arrived, in the terms of the state before. -/
theorem deleteBody_heard :
    deleteBody n [byteOf i] (s.heard n) =
      if s.mayAct n i then
        if (s.watch i).frozen then refuse .frozen (s.heard n)
        else if (s.watch i).state = .latched then refuse .badState (s.heard n)
        else accept [] ((s.heard n).setWatch i (Watch.free (s.watch i).generation))
      else refuse .notAuthority (s.heard n) := by
  rw [deleteBody_of_defined n i _ (isUp_heard_of_serves hs) (by rwa [watch_heard])]
  simp only [watch_heard, mayAct_heard]

/-- What FREEZE's block answers once its frame has arrived, in the terms of the state before. -/
theorem freezeBody_heard :
    freezeBody n [byteOf i] (s.heard n) =
      if (s.watch i).owner ≠ n then refuse .notOwner (s.heard n)
      else accept [(s.watch i).generation] ((s.heard n).setWatch i { s.watch i with frozen := true }) := by
  rw [freezeBody_of_defined n i _ (isUp_heard_of_serves hs) (by rwa [watch_heard])]
  simp only [watch_heard]

theorem exec_delete_of_notMayAct (ha : ¬ s.mayAct n i) :
    exec (.delete n tag [byteOf i]) s = .next ((s.heard n).replied n tag .notAuthority []) :=
  exec_of_refuse _ n tag _ s _ rfl hs.1 (by rw [deleteBody_heard hs hf, if_neg ha])

theorem exec_delete_of_frozen (ha : s.mayAct n i) (hz : (s.watch i).frozen = true) :
    exec (.delete n tag [byteOf i]) s = .next ((s.heard n).replied n tag .frozen []) :=
  exec_of_refuse _ n tag _ s _ rfl hs.1 (by rw [deleteBody_heard hs hf, if_pos ha, if_pos hz])

theorem exec_delete_of_latched (ha : s.mayAct n i) (hz : (s.watch i).frozen = false)
    (hl : (s.watch i).state = .latched) :
    exec (.delete n tag [byteOf i]) s = .next ((s.heard n).replied n tag .badState []) :=
  exec_of_refuse _ n tag _ s _ rfl hs.1
    (by rw [deleteBody_heard hs hf, if_pos ha, if_neg (Bool.eq_false_iff.mp hz), if_pos hl])

theorem exec_delete_of_accepted (ha : s.mayAct n i) (hz : (s.watch i).frozen = false)
    (hl : (s.watch i).state ≠ .latched) :
    exec (.delete n tag [byteOf i]) s = .next
      (((s.heard n).setWatch i (Watch.free (s.watch i).generation)).replied n tag .ok []) :=
  exec_of_accept _ n tag _ s _ _ rfl hs.1
    (by rw [deleteBody_heard hs hf, if_pos ha, if_neg (Bool.eq_false_iff.mp hz), if_neg hl])

theorem exec_freeze_of_notOwner (ho : (s.watch i).owner ≠ n) :
    exec (.freeze n tag [byteOf i]) s = .next ((s.heard n).replied n tag .notOwner []) :=
  exec_of_refuse _ n tag _ s _ rfl hs.1 (by rw [freezeBody_heard hs hf, if_pos ho])

theorem exec_freeze_of_owner (ho : (s.watch i).owner = n) :
    exec (.freeze n tag [byteOf i]) s = .next
      (((s.heard n).setWatch i { s.watch i with frozen := true }).replied n tag .ok [(s.watch i).generation]) :=
  exec_of_accept _ n tag _ s _ _ rfl hs.1 (by rw [freezeBody_heard hs hf, if_neg (not_not_intro ho)])

end

/-- Settles O16: DELETE and FREEZE check by check, and the events that find a FREE entry as it is. -/
theorem deleteAndFreeze : Obligations.DeleteAndFreeze := by
  intro s n tag hs
  refine ⟨fun b hb => exec_deleteOrFreeze_of_big s n tag b hs hb, fun i => ⟨?free, ?defined, ?events⟩⟩
  case free => exact exec_deleteOrFreeze_of_free s n tag i hs
  case defined =>
    exact fun hf =>
      ⟨exec_delete_of_notMayAct tag hs hf, exec_delete_of_frozen tag hs hf, exec_delete_of_latched tag hs hf,
        exec_delete_of_accepted tag hs hf, exec_freeze_of_notOwner tag hs hf, exec_freeze_of_owner tag hs hf⟩
  case events =>
    intro hf _
    exact ⟨exec_watchExpiry_of_notRunning i s hs.1.1 (by simp [hf]),
      exec_graceRunsOut_of_notOverdue i s hs.1.1 (by simp [hf]), fun l => watch_triggerWatches_of_free l i s hf⟩

end Sys2Proof.Machine

/-!
PROOF. How a DEFINE payload is read: each reader is the inverse of its codes and answers exactly in range (R8), and the
consistency check is R9 on the bytes.
-/

namespace Sys2Proof.Machine

/-! ### Each item is read as the value with its code (Tables 10-2, 10-5, 10-6) -/

theorem readLink_eq_some {b : Byte} {n : Link} : readLink b = some n ↔ n.val = b.toNat := by
  have hn := n.isLt
  unfold readLink
  split
  · simp [Fin.ext_iff, eq_comm]
  · simp; omega

theorem readLevel_eq_some {b : Byte} {lv : Level} : readLevel b = some lv ↔ lv.val = b.toNat := readLink_eq_some

theorem readKind_eq_some {b : Byte} {x : WatchKind} : readKind b = some x ↔ x.code = b := by
  cases x <;> simp only [readKind, WatchKind.code] <;> grind

theorem readBase_eq_some {b : Byte} {x : Base} : readBase b = some x ↔ baseCode x = b := by
  cases x <;> simp only [readBase, baseCode] <;> grind

theorem readAction_eq_some {b : Byte} {x : Action} : readAction b = some x ↔ x.code = b := by
  cases x <;> simp only [readAction, Action.code] <;> grind

theorem readPrimary_eq_some {n m : Link} {b : Byte} :
    readPrimary n b = some m ↔ m.val = if b = 0xFE then n.val else b.toNat := by
  unfold readPrimary
  split
  · simp [Fin.ext_iff, eq_comm]
  · exact readLink_eq_some

/-- A link number is below the NONE code. -/
theorem linkOrNone_some_eq_iff {m : Link} {b : Byte} : linkOrNone (some m) = b ↔ m.val = b.toNat := by
  have hm := m.isLt
  rw [linkOrNone, ← BitVec.toNat_inj, toNat_byteOf, Nat.mod_eq_of_lt (by omega)]

theorem readFallback_eq_some {b : Byte} {f : Option Link} : readFallback b = some f ↔ linkOrNone f = b := by
  unfold readFallback
  split
  · next hb =>
    subst hb
    cases f with
    | none => simp [linkOrNone]
    | some m => have := m.isLt; simp [linkOrNone_some_eq_iff]; omega
  · next hb =>
    cases f with
    | none => simpa [linkOrNone] using Ne.symm hb
    | some m => simp [linkOrNone_some_eq_iff, readLink_eq_some]

/-- The lines of a set, low byte first, are the bits of its number (Table 10-6). -/
theorem inLines_append (p : List Byte) (k : Nat) (l : LineIx) :
    inLines (byteAt p (k + 1) ++ byteAt p k) l = (halfAt p k).testBit l.val := by
  have low := (byteAt p k).isLt
  have number : (byteAt p (k + 1) ++ byteAt p k).toNat = halfAt p k := by
    rw [BitVec.toNat_append, ← Nat.shiftLeft_add_eq_or_of_lt low, Nat.shiftLeft_eq, halfAt]
    omega
  rw [← number]
  rfl

/-! ### An item is read exactly when its byte is in range (R8) -/

theorem exists_readLink {b : Byte} : (∃ n, readLink b = some n) ↔ b.toNat ≤ 3 := by
  simp only [readLink_eq_some]
  exact ⟨fun ⟨n, h⟩ => by omega, fun h => ⟨⟨b.toNat, by omega⟩, rfl⟩⟩

theorem exists_readLevel {b : Byte} : (∃ lv, readLevel b = some lv) ↔ b.toNat ≤ 3 := exists_readLink

theorem exists_readKind {b : Byte} : (∃ x, readKind b = some x) ↔ b.toNat ≤ 2 := by
  simp only [readKind_eq_some]
  constructor
  · rintro ⟨x, rfl⟩
    cases x <;> decide
  · intro h
    obtain rfl | rfl | rfl : b = 0 ∨ b = 1 ∨ b = 2 := by bv_omega
    exacts [⟨.heartbeat, rfl⟩, ⟨.deadline, rfl⟩, ⟨.activity, rfl⟩]

theorem exists_readBase {b : Byte} : (∃ x, readBase b = some x) ↔ b.toNat ≤ 3 := by
  simp only [readBase_eq_some]
  constructor
  · rintro ⟨x, rfl⟩
    cases x <;> decide
  · intro h
    obtain rfl | rfl | rfl | rfl : b = 0 ∨ b = 1 ∨ b = 2 ∨ b = 3 := by bv_omega
    exacts [⟨.ms1, rfl⟩, ⟨.ms10, rfl⟩, ⟨.ms100, rfl⟩, ⟨.s1, rfl⟩]

theorem exists_readAction {b : Byte} : (∃ x, readAction b = some x) ↔ b.toNat ≤ 3 := by
  simp only [readAction_eq_some]
  constructor
  · rintro ⟨x, rfl⟩
    cases x <;> decide
  · intro h
    obtain rfl | rfl | rfl | rfl : b = 0 ∨ b = 1 ∨ b = 2 ∨ b = 3 := by bv_omega
    exacts [⟨.notify, rfl⟩, ⟨.pulse, rfl⟩, ⟨.hold, rfl⟩, ⟨.safe, rfl⟩]

theorem exists_readPrimary {n : Link} {b : Byte} : (∃ m, readPrimary n b = some m) ↔ b.toNat ≤ 3 ∨ b = 0xFE := by
  unfold readPrimary
  split
  · next hb => simp [hb]
  · next hb => rw [or_iff_left hb]; exact exists_readLink

theorem exists_readFallback {b : Byte} : (∃ f, readFallback b = some f) ↔ b.toNat ≤ 3 ∨ b = 0xFF := by
  unfold readFallback
  split
  · next hb => simp [hb]
  · next hb => rw [or_iff_left hb]; simpa using exists_readLink

/-! ### A stage record (R4, R8) -/

/-- The stage record `r` is what the seven bytes at offset `k` give, the fields that are not examined stored as 0
(Table 10-6, R4). Tied to the model by `readsAs_of_readStage`. -/
structure StageRec.ReadsAs (r : StageRec) (p : List Byte) (k : Nat) : Prop where
  action : r.action.code = byteAt p k
  level : r.level.val = (byteAt p (k + 6)).toNat
  grace : r.grace = if r.action.latching then 0 else halfAt p (k + 4)
  target : r.target.val = if r.action = .pulse ∨ r.action = .hold then (byteAt p (k + 1)).toNat else 0
  duration : r.duration = if r.action = .pulse then halfAt p (k + 2) else 0

/-- The stage record at offset `k` of a payload is in range as its action asks (R8). -/
theorem stageInRange_iff_of_action {p : List Byte} {k : Nat} {a : Action} (h : a.code = byteAt p k) :
    stageInRange p k ↔ (byteAt p (k + 6)).toNat ≤ 3 ∧ (a.latching = false → halfAt p (k + 4) ≠ 0)
      ∧ ((a = .pulse ∨ a = .hold) → (byteAt p (k + 1)).toNat ≤ 3) ∧ (a = .pulse → halfAt p (k + 2) ≠ 0) := by
  unfold stageInRange
  rw [← h]
  cases a <;> simp [Action.code, Action.latching]

/-- A stage record is read only where its action and its level are. -/
theorem readStage_header {p : List Byte} {k : Nat} {r : StageRec} (h : readStage p k = some r) :
    (∃ a, readAction (byteAt p k) = some a) ∧ ∃ lv, readLevel (byteAt p (k + 6)) = some lv := by
  unfold readStage at h
  split at h
  case h_5 => cases h
  all_goals exact ⟨⟨_, by assumption⟩, ⟨_, by assumption⟩⟩

/-- A stage record that is read is in range, and every field is as its bytes give it: one case per action. -/
theorem readsAs_of_readStage {p : List Byte} {k : Nat} {r : StageRec} (h : readStage p k = some r) :
    stageInRange p k ∧ r.ReadsAs p k := by
  obtain ⟨⟨a, ha⟩, lv, hl⟩ := readStage_header h
  have code := readAction_eq_some.mp ha
  have level := readLevel_eq_some.mp hl
  have levelInRange := exists_readLevel.mp ⟨lv, hl⟩
  rw [stageInRange_iff_of_action code]
  unfold readStage at h
  rw [ha, hl] at h
  cases a with
  | notify =>
    obtain ⟨grace, rfl⟩ : halfAt p (k + 4) ≠ 0 ∧ _ = r := by simpa using h
    exact ⟨⟨levelInRange, by simp [grace]⟩, code, level, rfl, rfl, rfl⟩
  | pulse =>
    cases ht : readLink (byteAt p (k + 1)) with
    | none => simp [ht] at h
    | some t =>
      obtain ⟨grace, duration, rfl⟩ : halfAt p (k + 4) ≠ 0 ∧ halfAt p (k + 2) ≠ 0 ∧ _ = r := by simpa [ht] using h
      exact ⟨⟨levelInRange, fun _ => grace, fun _ => exists_readLink.mp ⟨t, ht⟩, fun _ => duration⟩,
        code, level, rfl, readLink_eq_some.mp ht, rfl⟩
  | hold =>
    cases ht : readLink (byteAt p (k + 1)) with
    | none => simp [ht] at h
    | some t =>
      obtain rfl : _ = r := by simpa [ht] using h
      exact ⟨⟨levelInRange, by simp [Action.latching], fun _ => exists_readLink.mp ⟨t, ht⟩, by simp⟩,
        code, level, rfl, readLink_eq_some.mp ht, rfl⟩
  | safe =>
    obtain rfl : _ = r := by simpa using h
    exact ⟨⟨levelInRange, by simp [Action.latching]⟩, code, level, rfl, rfl, rfl⟩

/-- A stage record in range is read. -/
theorem exists_readStage {p : List Byte} {k : Nat} (h : stageInRange p k) : ∃ r, readStage p k = some r := by
  obtain ⟨a, ha⟩ := exists_readAction.mpr h.1
  obtain ⟨level, grace, target, duration⟩ := (stageInRange_iff_of_action (readAction_eq_some.mp ha)).mp h
  obtain ⟨lv, hl⟩ := exists_readLevel.mpr level
  unfold readStage
  rw [ha, hl]
  cases a with
  | notify => simp [grace rfl]
  | pulse =>
    obtain ⟨t, ht⟩ := exists_readLink.mpr (target (by decide))
    simp [ht, grace rfl, duration rfl]
  | hold =>
    obtain ⟨t, ht⟩ := exists_readLink.mpr (target (by decide))
    simp [ht]
  | safe => simp

/-! ### The ladder (R4, Table 10-6) -/

/-- The stage records of a payload are read one after another, seven bytes apart. -/
theorem readStage_of_readStages {p : List Byte} {c k : Nat} {rs : List StageRec} (h : readStages p c k = some rs) :
    rs.length = c ∧ ∀ j, ∀ r ∈ rs[j]?, readStage p (k + 7 * j) = some r := by
  induction c generalizing k rs with
  | zero =>
    cases h
    simp
  | succ c ih =>
    unfold readStages at h
    split at h
    · next r rest hr hrest =>
      cases h
      obtain ⟨length, stages⟩ := ih hrest
      refine ⟨congrArg (· + 1) length, fun j x hx => ?_⟩
      cases j with
      | zero =>
        cases hx
        exact hr
      | succ j => rw [show k + 7 * (j + 1) = k + 7 + 7 * j by ring]; exact stages j x hx
    · cases h

/-- A ladder whose stage records are all in range is read. -/
theorem exists_readStages {p : List Byte} {c k : Nat} (h : ∀ j < c, stageInRange p (k + 7 * j)) :
    ∃ rs, readStages p c k = some rs := by
  induction c generalizing k with
  | zero => exact ⟨[], rfl⟩
  | succ c ih =>
    have later : ∀ j < c, stageInRange p (k + 7 + 7 * j) := fun j hj => by
      rw [show k + 7 + 7 * j = k + 7 * (j + 1) by ring]
      exact h (j + 1) (by omega)
    obtain ⟨r, hr⟩ := exists_readStage (h 0 (by omega))
    obtain ⟨rs, hrs⟩ := ih later
    rw [Nat.mul_zero, Nat.add_zero] at hr
    exact ⟨r :: rs, by simp only [readStages, hr, hrs]⟩

/-! ### The items of a DEFINE (R8) -/

/-- The items `d` are what the bytes of a DEFINE payload on link `n` give (Table 10-6, R11). Tied to the model by
`readsAs_of_readDefineItems`. -/
structure DefineItems.ReadsAs (d : DefineItems) (n : Link) (p : List Byte) : Prop where
  index : d.index = byteAt p 0
  kind : d.kind.code = byteAt p 1
  base : baseCode d.base = byteAt p 2
  reload : d.reload = halfAt p 3
  seqcheck : d.seqcheck = decide (byteAt p 5 ≠ 0)
  strikeLimit : d.strikeLimit = (byteAt p 6).toNat
  lineSet : ∀ l : LineIx, inLines d.lineSet l = (halfAt p 7).testBit l.val
  primary : d.primary.val = if byteAt p 9 = 0xFE then n.val else (byteAt p 9).toNat
  fallback : linkOrNone d.fallback = byteAt p 10
  activityLevel : d.activityLevel.val = (byteAt p 11).toNat
  length : d.ladder.length = (byteAt p 12).toNat
  stages : ∀ k, ∀ r ∈ d.ladder[k]?, StageRec.ReadsAs r p (13 + 7 * k)

/-- Items that are read are in range, and every one is as its bytes give it. -/
theorem readsAs_of_readDefineItems {n : Link} {p : List Byte} {d : DefineItems} (h : readDefineItems n p = some d) :
    defineInRange p ∧ d.ReadsAs n p := by
  unfold readDefineItems at h
  split_ifs at h with index reload strikes
  split at h
  · next kind base primary fallback level ladder hk hb hp hf hl hs =>
    cases h
    obtain ⟨length, stages⟩ := readStage_of_readStages hs
    have inRange : ∀ k < (byteAt p 12).toNat, stageInRange p (13 + 7 * k) := fun k hk =>
      (readsAs_of_readStage (stages k _ (List.getElem?_eq_getElem (length ▸ hk)))).1
    refine ⟨⟨?index, exists_readKind.mp ⟨_, hk⟩, exists_readBase.mp ⟨_, hb⟩, reload, by omega,
        exists_readPrimary.mp ⟨_, hp⟩, exists_readFallback.mp ⟨_, hf⟩, exists_readLevel.mp ⟨_, hl⟩, inRange⟩,
      rfl, readKind_eq_some.mp hk, readBase_eq_some.mp hb, rfl, rfl, rfl, inLines_append p 7,
      readPrimary_eq_some.mp hp, readFallback_eq_some.mp hf, readLevel_eq_some.mp hl, length,
      fun k r hr => (readsAs_of_readStage (stages k r hr)).2⟩
    bv_omega
  · cases h

/-- A DEFINE payload in range is read. -/
theorem exists_readDefineItems {n : Link} {p : List Byte} (h : defineInRange p) :
    ∃ d, readDefineItems n p = some d := by
  obtain ⟨index, kind, base, reload, strikes, primary, fallback, level, stages⟩ := h
  obtain ⟨k, hk⟩ := exists_readKind.mpr kind
  obtain ⟨b, hb⟩ := exists_readBase.mpr base
  obtain ⟨m, hm⟩ := exists_readPrimary (n := n).mpr primary
  obtain ⟨f, hf⟩ := exists_readFallback.mpr fallback
  obtain ⟨lv, hl⟩ := exists_readLevel.mpr level
  obtain ⟨rs, hrs⟩ := exists_readStages stages
  have hi : ¬ (31 < (byteAt p 0).toNat ∧ byteAt p 0 ≠ 255) := by bv_omega
  simp only [readDefineItems, if_neg hi, if_neg reload, if_neg (Nat.not_lt.mpr strikes), hk, hb, hm, hf, hl, hrs]
  exact ⟨_, rfl⟩

/-! ### Items that agree (R9) -/

theorem latching_eq_false_iff (a : Action) : a.latching = false ↔ a.code.toNat ≤ 1 := by
  cases a <;> decide

theorem kind_eq_activity_iff (x : WatchKind) : x = .activity ↔ x.code.toNat = 2 := by
  cases x <;> decide

theorem kind_eq_heartbeat_iff (x : WatchKind) : x = .heartbeat ↔ x.code.toNat = 0 := by
  cases x <;> decide

/-- No stage before the last latches. -/
theorem dropLast_any_latching_eq_false_iff (rs : List StageRec) :
    (rs.dropLast.any fun r => r.action.latching) = false ↔
      ∀ k < rs.length - 1, ∀ r ∈ rs[k]?, r.action.latching = false := by
  simp only [List.any_eq_false, List.mem_iff_getElem?, List.getElem?_dropLast, Bool.not_eq_true]
  constructor
  · intro h k hk r hr
    exact h r ⟨k, by rw [if_pos hk]; exact hr⟩
  · rintro h r ⟨k, hk⟩
    split at hk
    · next hlt => exact h k hlt r hk
    · cases hk

/-- The seven points of R9, one for each bullet. -/
theorem consistent_iff (d : DefineItems) :
    d.consistent = true ↔
      (d.kind ≠ .activity → d.ladder.length ≠ 0) ∧ (d.kind = .activity → d.ladder.length = 0)
      ∧ (d.seqcheck = true → d.kind = .heartbeat) ∧ (d.kind = .activity → d.strikeLimit = 0)
      ∧ (d.kind ≠ .activity → d.activityLevel = 0)
      ∧ (∀ k < d.ladder.length - 1, ∀ r ∈ d.ladder[k]?, r.action.latching = false)
      ∧ d.fallback ≠ some d.primary := by
  rw [← dropLast_any_latching_eq_false_iff]
  simp [DefineItems.consistent, and_assoc, imp_iff_not_or]

/-- That only the last stage may latch, read off the action bytes. -/
theorem latching_eq_false_of_readsAs_iff {n : Link} {p : List Byte} {d : DefineItems} (h : d.ReadsAs n p) :
    (∀ k < d.ladder.length - 1, ∀ r ∈ d.ladder[k]?, r.action.latching = false) ↔
      ∀ k < (byteAt p 12).toNat - 1, (byteAt p (13 + 7 * k)).toNat ≤ 1 := by
  rw [h.length]
  refine forall₂_congr fun k hk => ?_
  have hr : d.ladder[k]? = some (d.ladder[k]'(by have := h.length; omega)) := List.getElem?_eq_getElem _
  have code := (h.stages k _ hr).action
  simp only [hr, Option.mem_def, Option.some.injEq, forall_eq', latching_eq_false_iff, code]

/-- The fallback is the primary exactly when the two bytes name one link, OWNER being the link of the request. -/
theorem fallback_eq_primary_iff {n : Link} {p : List Byte} {d : DefineItems} (h : d.ReadsAs n p) :
    d.fallback = some d.primary ↔
      (byteAt p 10).toNat = if byteAt p 9 = 0xFE then n.val else (byteAt p 9).toNat := by
  rw [← h.primary, ← h.fallback]
  cases d.fallback with
  | none =>
    have := d.primary.isLt
    simp [linkOrNone]; omega
  | some m =>
    have := m.isLt
    simp [linkOrNone, Fin.ext_iff]; omega

/-- The consistency check on the items read is R9 on the bytes. -/
theorem consistent_iff_agrees {n : Link} {p : List Byte} {d : DefineItems} (h : d.ReadsAs n p) :
    d.consistent = true ↔ defineAgrees n p := by
  have atMost : d.fallback = some d.primary → (byteAt p 10).toNat ≤ 3 := fun hf => by
    rw [fallback_eq_primary_iff h] at hf
    have := h.primary
    omega
  have fallback : d.fallback ≠ some d.primary ↔ ((byteAt p 10).toNat ≤ 3 →
        (byteAt p 10).toNat ≠ if byteAt p 9 = 0xFE then n.val else (byteAt p 9).toNat) := by
    rw [ne_eq, ne_eq, ← fallback_eq_primary_iff h]
    exact ⟨fun hn _ => hn, fun hn hf => hn (atMost hf) hf⟩
  rw [consistent_iff, latching_eq_false_of_readsAs_iff h, fallback, ne_eq d.kind, kind_eq_activity_iff,
    kind_eq_heartbeat_iff, h.kind, h.length, h.strikeLimit, h.seqcheck, decide_eq_true_eq, Fin.ext_iff,
    h.activityLevel]
  rfl

/-! ### DEFINE (R8, R9) -/

/-- A DEFINE that is read lies in range and agrees, and every item is as its bytes give it. -/
theorem readsAs_of_readDefine {n : Link} {p : List Byte} {d : DefineItems} (h : readDefine n p = some d) :
    (defineInRange p ∧ defineAgrees n p) ∧ d.ReadsAs n p := by
  obtain ⟨items, consistent⟩ := Option.filter_eq_some_iff.mp h
  obtain ⟨inRange, reads⟩ := readsAs_of_readDefineItems items
  exact ⟨⟨inRange, (consistent_iff_agrees reads).mp consistent⟩, reads⟩

/-- A DEFINE in range whose items agree is read. -/
theorem exists_readDefine {n : Link} {p : List Byte} (hr : defineInRange p) (ha : defineAgrees n p) :
    ∃ d, readDefine n p = some d := by
  obtain ⟨d, hd⟩ := exists_readDefineItems (n := n) hr
  have reads := (readsAs_of_readDefineItems hd).2
  exact ⟨d, Option.filter_eq_some_iff.mpr ⟨hd, (consistent_iff_agrees reads).mpr ha⟩⟩

/-- DEFINE refuses a payload that is not read (R163). -/
theorem defineBody_of_notRead {n : Link} {p : List Byte} {s : State} (shape : defineShape p = true)
    (hu : s.isUp n = true) (h : readDefine n p = none) : defineBody n p s = refuse .badValue s := by
  unfold defineBody
  rw [shape, checkShapeAndOpen_of_up n s _ hu, h]

/-- Settles O14: a payload is read exactly when R8 and R9 pass it, and then field by field. -/
theorem defineReadsItsItems : Obligations.DefineReadsItsItems := by
  constructor
  · intro s n tag p hs shape hbad
    have notRead : readDefine n p = none :=
      Option.eq_none_iff_forall_ne_some.mpr fun d hd => hbad (readsAs_of_readDefine hd).1
    exact exec_of_refuse _ n tag _ s _ rfl hs.1 (defineBody_of_notRead shape (isUp_heard_of_serves hs) notRead)
  · intro n p _ hr ha
    obtain ⟨d, hd⟩ := exists_readDefine hr ha
    have reads := (readsAs_of_readDefine hd).2
    refine ⟨d, hd, reads.index, reads.kind, reads.base, reads.reload, reads.seqcheck, reads.strikeLimit, reads.lineSet,
      reads.primary, reads.fallback, reads.activityLevel, reads.length, fun k r hk => ?_⟩
    have stage := reads.stages k r hk
    exact ⟨stage.action, stage.level, stage.grace, stage.target, stage.duration⟩

end Sys2Proof.Machine

/-!
PROOF. The requests of the control authority: CLAIM in every state, YIELD, and ACCEPT (R134 to R138).
-/

namespace Sys2Proof.Machine

/-! ### The empty payload of an authority request (Table 10-4) -/

theorem checkShapeAndOpen_of_payload (n : Link) {p : List Byte} (s : State) (rest : Answer × State) (h : p ≠ []) :
    checkShapeAndOpen p.isEmpty n s rest = refuse .malformed s := by
  rw [List.isEmpty_eq_false_iff.mpr h, checkShapeAndOpen_of_malformed]

/-- Without a payload, a request of a link that is served goes on to its own checks. -/
theorem checkShapeAndOpen_heard_of_serves {s : State} {n : Link} (rest : Answer × State) (hs : s.serves n) :
    checkShapeAndOpen ([] : List Byte).isEmpty n (s.heard n) rest = rest :=
  checkShapeAndOpen_of_up n _ rest (isUp_heard_of_serves hs)

/-! ### Who holds the authority, and whom it is offered to (Table 8-1) -/

theorem isHolder_iff (s : State) (n : Link) : s.isHolder n = true ↔ s.authority.mode = .held n := decide_eq_true_iff

theorem isOffered_iff (s : State) (n : Link) : s.isOffered n = true ↔ s.authority.mode.offered = some n := by
  unfold State.isOffered AuthorityMode.offered
  cases s.authority.mode <;> simp

/-! ### How the authority changes hands once a frame has arrived (R134 to R138) -/

theorem becomeHolder_heard (s : State) (n : Link) :
    becomeHolder n (s.heard n) =
      ((s.heard n).setAuthority { s.authority with mode := .held n }).post [authChange (some n) none] := by
  rw [becomeHolder, authority_heard]

theorem joinClaimList_heard (s : State) (n : Link) :
    joinClaimList n (s.heard n) =
      (s.heard n).setAuthority { s.authority with claimList := s.authority.claimList ++ [n] } := by
  rw [joinClaimList, authority_heard]

theorem passOn_heard_of_nil {s : State} (n : Link) (ended : Option Link) (h : s.authority.claimList = []) :
    passOn ended (s.heard n) =
      ((s.heard n).setAuthority { s.authority with mode := .free }).post [authChange none ended] := by
  rw [passOn, authority_heard, h]

theorem passOn_heard_of_cons {s : State} (n : Link) (ended : Option Link) {m : Link} {ms : List Link}
    (h : s.authority.claimList = m :: ms) :
    passOn ended (s.heard n) =
      ((s.heard n).setAuthority { s.authority with mode := .offering m 3000, claimList := ms }).post [authOffer m] := by
  rw [passOn, authority_heard, h]
  rfl

/-! ### What the authority unit answers to a CLAIM (R134, R135) -/

theorem takeClaimRequest_of_granted {s : State} {n : Link}
    (h : s.authority.mode = .free ∨ s.authority.mode.offered = some n) :
    takeClaimRequest n s = accept [0, 0] (becomeHolder n s) := by
  unfold takeClaimRequest
  cases hm : s.authority.mode with
  | free => rfl
  | held m => simp [hm, AuthorityMode.offered] at h
  | offering o t =>
    obtain rfl : o = n := by simpa [hm, AuthorityMode.offered] using h
    simp

theorem takeClaimRequest_of_holder {s : State} {n : Link} (h : s.authority.mode = .held n) :
    takeClaimRequest n s = accept [2, 0] s := by
  simp [takeClaimRequest, h]

/-- A link that waits already keeps its place, whoever holds the authority or is offered it. -/
theorem takeClaimRequest_of_listed {s : State} {n : Link} (hf : s.authority.mode ≠ .free)
    (hh : s.authority.mode ≠ .held n) (ho : s.authority.mode.offered ≠ some n) (hl : n ∈ s.authority.claimList) :
    takeClaimRequest n s = accept [1, byteOf (s.authority.claimList.idxOf n + 1)] s := by
  unfold takeClaimRequest
  cases hm : s.authority.mode with
  | free => exact absurd hm hf
  | held h =>
    have : h ≠ n := fun e => hh (e ▸ hm)
    simp [this, hl, queuedItems, positionIn]
  | offering o t =>
    have : o ≠ n := by simpa [hm, AuthorityMode.offered] using ho
    simp [this, hl, queuedItems, positionIn]

/-- The place told to a link that joins the list is the last. -/
theorem queuedItems_append_self {ls : List Link} {n : Link} (h : n ∉ ls) :
    queuedItems (ls ++ [n]) n = [1, byteOf (ls.length + 1)] := by
  simp [queuedItems, positionIn, List.idxOf_append_of_notMem h]

theorem takeClaimRequest_of_held_of_unlisted {s : State} {n h : Link} (hm : s.authority.mode = .held h) (hn : h ≠ n)
    (hl : n ∉ s.authority.claimList) :
    takeClaimRequest n s =
      accept [1, byteOf (s.authority.claimList.length + 1)] ((joinClaimList n s).post [authWanted n h]) := by
  simp [takeClaimRequest, hm, hn, hl, queuedItems_append_self hl]

theorem takeClaimRequest_of_offering_of_unlisted {s : State} {n o : Link} {t : Nat}
    (hm : s.authority.mode = .offering o t) (hn : o ≠ n) (hl : n ∉ s.authority.claimList) :
    takeClaimRequest n s = accept [1, byteOf (s.authority.claimList.length + 1)] (joinClaimList n s) := by
  simp [takeClaimRequest, hm, hn, hl, queuedItems_append_self hl]

/-! ### CLAIM (R134, R135) -/

section
variable {s : State} {n : Link} (tag : Byte) (hs : s.serves n)
include hs

theorem exec_claim_of_accept {items : List Byte} {t : State} (h : takeClaimRequest n (s.heard n) = accept items t) :
    exec (.claim n tag []) s = .next (t.replied n tag .ok items) :=
  exec_of_accept _ n tag _ s t items rfl hs.1 ((checkShapeAndOpen_heard_of_serves _ hs).trans h)

theorem exec_claim_of_granted (h : s.authority.mode = .free ∨ s.authority.mode.offered = some n) :
    exec (.claim n tag []) s = .next
      ((((s.heard n).setAuthority { s.authority with mode := .held n }).post
        [authChange (some n) none]).replied n tag .ok [0, 0]) :=
  exec_claim_of_accept tag hs (by rw [takeClaimRequest_of_granted (by rwa [authority_heard]), becomeHolder_heard])

theorem exec_claim_of_holder (h : s.authority.mode = .held n) :
    exec (.claim n tag []) s = .next ((s.heard n).replied n tag .ok [2, 0]) :=
  exec_claim_of_accept tag hs (takeClaimRequest_of_holder (by rwa [authority_heard]))

theorem exec_claim_of_listed (hf : s.authority.mode ≠ .free) (hh : s.authority.mode ≠ .held n)
    (ho : s.authority.mode.offered ≠ some n) (hl : n ∈ s.authority.claimList) :
    exec (.claim n tag []) s =
      .next ((s.heard n).replied n tag .ok [1, byteOf (s.authority.claimList.idxOf n + 1)]) :=
  exec_claim_of_accept tag hs (by
    rw [takeClaimRequest_of_listed (by rwa [authority_heard]) (by rwa [authority_heard]) (by rwa [authority_heard])
      (by rwa [authority_heard]), authority_heard])

theorem exec_claim_of_held_of_unlisted {h : Link} (hm : s.authority.mode = .held h) (hn : h ≠ n)
    (hl : n ∉ s.authority.claimList) :
    exec (.claim n tag []) s = .next
      ((((s.heard n).setAuthority { s.authority with claimList := s.authority.claimList ++ [n] }).post
        [authWanted n h]).replied n tag .ok [1, byteOf (s.authority.claimList.length + 1)]) :=
  exec_claim_of_accept tag hs (by
    rw [takeClaimRequest_of_held_of_unlisted (by rwa [authority_heard]) hn (by rwa [authority_heard]),
      joinClaimList_heard, authority_heard])

theorem exec_claim_of_offering_of_unlisted {o : Link} {t : Nat} (hm : s.authority.mode = .offering o t) (hn : o ≠ n)
    (hl : n ∉ s.authority.claimList) :
    exec (.claim n tag []) s = .next
      (((s.heard n).setAuthority { s.authority with claimList := s.authority.claimList ++ [n] }).replied n tag .ok
        [1, byteOf (s.authority.claimList.length + 1)]) :=
  exec_claim_of_accept tag hs (by
    rw [takeClaimRequest_of_offering_of_unlisted (by rwa [authority_heard]) hn (by rwa [authority_heard]),
      joinClaimList_heard, authority_heard])

end

theorem claimList_eq_nil_of_free {s : State} (law : s.authorityLaw) (hm : s.authority.mode = .free) :
    s.authority.claimList = [] := by
  obtain ⟨-, -, empty, -⟩ := law
  exact empty hm

/-- The list has room for a newcomer: it, the holder and the links that wait are distinct links, and there are four
(R133). -/
theorem claimList_length_lt_of_unlisted {s : State} {n h : Link} (law : s.authorityLaw)
    (hm : s.authority.mode = .held h) (hn : h ≠ n) (hl : n ∉ s.authority.claimList) :
    s.authority.claimList.length < 3 := by
  obtain ⟨nodup, -, -, holder, -⟩ := law
  have holderUnlisted : h ∉ s.authority.claimList := (holder h (by rw [hm]; rfl)).2
  have distinct : (n :: h :: s.authority.claimList).Nodup := by simp [nodup, holderUnlisted, hl, hn.symm]
  have atMostFour := distinct.length_le_card
  simp only [List.length_cons, Fintype.card_fin] at atMostFour
  omega

/-- Settles O24: CLAIM in FREE and HELD, case by case, and the room in the list. -/
theorem claimInFreeOrHeld : Obligations.ClaimInFreeOrHeld := by
  refine ⟨fun s n tag hs => ⟨fun hm => exec_claim_of_granted tag hs (.inl hm), exec_claim_of_holder tag hs,
      fun h hm hn => ⟨fun hl => ?listed, exec_claim_of_held_of_unlisted tag hs hm hn⟩⟩,
    fun s law => ⟨claimList_eq_nil_of_free law, fun n h => claimList_length_lt_of_unlisted law⟩⟩
  case listed =>
    have notOffered : s.authority.mode.offered ≠ some n := by simp [hm, AuthorityMode.offered]
    exact exec_claim_of_listed tag hs (by simp [hm]) (by simp [hm, hn]) notOffered hl

/-- Settles O25: CLAIM in OFFERING, from the offered link, from a newcomer and from a link that waits. -/
theorem claimInOffering : Obligations.ClaimInOffering := by
  intro s n o t tag hs hm
  have offered : s.authority.mode.offered = some o := by rw [hm]; rfl
  refine ⟨fun hn => exec_claim_of_granted tag hs (.inr (hn ▸ offered)), exec_claim_of_offering_of_unlisted tag hs hm,
    fun hn hl => ?listed⟩
  case listed =>
    exact exec_claim_of_listed tag hs (by simp [hm]) (by simp [hm]) (by simp [offered, hn]) hl

/-! ### YIELD (R136, R137) -/

section
variable {s : State} {n : Link} (tag : Byte) (hs : s.serves n)
include hs

theorem exec_yieldReq_of_payload {p : List Byte} (hp : p ≠ []) :
    exec (.yieldReq n tag p) s = .next ((s.heard n).replied n tag .malformed []) :=
  exec_of_refuse _ n tag _ s _ rfl hs.1 (checkShapeAndOpen_of_payload n _ _ hp)

/-- What YIELD's block answers once its frame has arrived, in the terms of the state before. -/
theorem yieldBody_heard :
    yieldBody n [] (s.heard n) =
      if s.isHolder n then accept [] (passOn none (s.heard n)) else refuse .notAuthority (s.heard n) := by
  rw [yieldBody, checkShapeAndOpen_heard_of_serves _ hs, privileged, isHolder_heard]

theorem exec_yieldReq_of_notHolder (h : s.authority.mode ≠ .held n) :
    exec (.yieldReq n tag []) s = .next ((s.heard n).replied n tag .notAuthority []) :=
  exec_of_refuse _ n tag _ s _ rfl hs.1 (by rw [yieldBody_heard hs, if_neg (mt (isHolder_iff s n).mp h)])

theorem exec_yieldReq_of_holder (h : s.authority.mode = .held n) :
    exec (.yieldReq n tag []) s = .next ((passOn none (s.heard n)).replied n tag .ok []) :=
  exec_of_accept _ n tag _ s _ _ rfl hs.1 (by rw [yieldBody_heard hs, if_pos ((isHolder_iff s n).mpr h)])

/-! ### ACCEPT (R138) -/

theorem exec_acceptReq_of_payload {p : List Byte} (hp : p ≠ []) :
    exec (.acceptReq n tag p) s = .next ((s.heard n).replied n tag .malformed []) :=
  exec_of_refuse _ n tag _ s _ rfl hs.1 (checkShapeAndOpen_of_payload n _ _ hp)

/-- What ACCEPT's block answers once its frame has arrived, in the terms of the state before. -/
theorem acceptBody_heard :
    acceptBody n [] (s.heard n) =
      if s.isOffered n then accept [] (becomeHolder n (s.heard n)) else refuse .badState (s.heard n) := by
  rw [acceptBody, checkShapeAndOpen_heard_of_serves _ hs, isOffered_heard]

theorem exec_acceptReq_of_notOffered (h : s.authority.mode.offered ≠ some n) :
    exec (.acceptReq n tag []) s = .next ((s.heard n).replied n tag .badState []) :=
  exec_of_refuse _ n tag _ s _ rfl hs.1 (by rw [acceptBody_heard hs, if_neg (mt (isOffered_iff s n).mp h)])

theorem exec_acceptReq_of_offered (h : s.authority.mode.offered = some n) :
    exec (.acceptReq n tag []) s = .next
      ((((s.heard n).setAuthority { s.authority with mode := .held n }).post
        [authChange (some n) none]).replied n tag .ok []) :=
  exec_of_accept _ n tag _ s _ _ rfl hs.1
    (by rw [acceptBody_heard hs, if_pos ((isOffered_iff s n).mpr h), becomeHolder_heard])

end

/-- Settles O26: YIELD by its checks, and the two shapes of the list it passes the authority on with. -/
theorem yieldPassesTheAuthorityOn : Obligations.YieldPassesTheAuthorityOn := by
  intro s n tag hs
  refine ⟨fun p => exec_yieldReq_of_payload tag hs, exec_yieldReq_of_notHolder tag hs, fun hm => ⟨?nobody, ?next⟩⟩
  case nobody =>
    intro hl
    rw [exec_yieldReq_of_holder tag hs hm, passOn_heard_of_nil n none hl]
  case next =>
    intro m ms hl
    rw [exec_yieldReq_of_holder tag hs hm, passOn_heard_of_cons n none hl]

/-- Settles O27: ACCEPT by its checks, and from the offered link. -/
theorem acceptMakesTheHolder : Obligations.AcceptMakesTheHolder := fun _ _ tag hs =>
  ⟨fun _ => exec_acceptReq_of_payload tag hs, exec_acceptReq_of_notOffered tag hs, exec_acceptReq_of_offered tag hs⟩

end Sys2Proof.Machine

/-!
PROOF. The CHECK of a frame: how it is computed, where the receiver finds it, and what is done with a frame whose CHECK
disagrees (R147, R149, R150).
-/

namespace Sys2Proof.Machine

/-! ### The check register (R147) -/

theorem crc_append_singleton (bs : List Byte) (b : Byte) : crc (bs ++ [b]) = crcByte (crc bs) b := by
  simp only [crc, List.foldl_append, List.foldl_cons, List.foldl_nil]

theorem crcByte_eq_crcShift_eight (r : Half) (b : Byte) :
    crcByte r b =
      (crcShift ∘ crcShift ∘ crcShift ∘ crcShift ∘ crcShift ∘ crcShift ∘ crcShift ∘ crcShift) (r ^^^ (b ++ 0#8)) := rfl

theorem crcShift_eq (r : Half) : crcShift r = if r.getLsbD 15 then (r <<< 1) ^^^ 0x1021 else r <<< 1 := by
  rw [crcShift, BitVec.msb_eq_getLsbD_last]
  rfl

/-- The check value of R147, by the register after each of the characters "1" to "9". -/
theorem crc_of_nine_characters :
    crc [0x31, 0x32, 0x33, 0x34, 0x35, 0x36, 0x37, 0x38, 0x39] = 0x29B1 := by
  have after1 : crcByte 0xFFFF 0x31 = 0xC782 := by decide
  have after2 : crcByte 0xC782 0x32 = 0x3DBA := by decide
  have after3 : crcByte 0x3DBA 0x33 = 0x5BCE := by decide
  have after4 : crcByte 0x5BCE 0x34 = 0x5349 := by decide
  have after5 : crcByte 0x5349 0x35 = 0x4560 := by decide
  have after6 : crcByte 0x4560 0x36 = 0x2EF4 := by decide
  have after7 : crcByte 0x2EF4 0x37 = 0x7718 := by decide
  have after8 : crcByte 0x7718 0x38 = 0xA12B := by decide
  have after9 : crcByte 0xA12B 0x39 = 0x29B1 := by decide
  simp only [crc, List.foldl_cons, List.foldl_nil,
    after1, after2, after3, after4, after5, after6, after7, after8, after9]

/-- A CHECK sent low byte first agrees with `c` exactly when each of its two bytes does. -/
theorem append_eq_half_iff (hi lo : Byte) (c : Half) :
    hi ++ lo = c ↔ lo = c.setWidth 8 ∧ hi = (c >>> 8).setWidth 8 := by
  have joined : (hi ++ lo).toNat = hi.toNat * 256 + lo.toNat := by
    rw [BitVec.toNat_append, ← Nat.shiftLeft_add_eq_or_of_lt lo.isLt, Nat.shiftLeft_eq]
  simp only [← BitVec.toNat_inj, joined, BitVec.toNat_setWidth, BitVec.toNat_ushiftRight, Nat.shiftRight_eq_div_pow]
  omega

/-! ### The bytes of a frame as the receiver has collected them (R148, Table 9-2) -/

theorem carriedCheck_append_pair (body : List Byte) (lo hi : Byte) : carriedCheck (body ++ [lo, hi]) = hi ++ lo := by
  simp [carriedCheck, byteAt]

theorem frameFields_frameBody_append (k tag lo hi : Byte) {p : List Byte} (hp : p.length ≤ 58) :
    frameFields (frameBody k tag p ++ [lo, hi]) = (k, tag, p) := by
  have hlen : p.length % 256 = p.length := Nat.mod_eq_of_lt (by omega)
  simp [frameFields, frameBody, hlen]

/-- A frame of a payload that fits is taken when the CHECK it carries is that of its body, and counted otherwise. -/
theorem completeFrame_frameBody_append (s : State) (n : Link) (k tag lo hi : Byte) {p : List Byte}
    (hp : p.length ≤ 58) :
    completeFrame n (frameBody k tag p ++ [lo, hi]) s =
      if hi ++ lo = crc (frameBody k tag p) then dispatchFrame n k tag p s else countCheckError n s := by
  simp only [completeFrame, carriedCheck_append_pair, frameFields_frameBody_append k tag lo hi hp]

/-! ### A receiver that takes what arrives (R150) -/

theorem deaf_iff (s : State) (n : Link) :
    s.deaf n = true ↔ (s.link n).state = .held ∨ (s.link n).closing ≠ .nothing := by
  simp [State.deaf]

theorem deaf_eq_false {s : State} {n : Link} (hh : (s.link n).state ≠ .held) (hc : (s.link n).closing = .nothing) :
    s.deaf n = false := by
  simp [State.deaf, hh, hc]

/-- The byte that ends a frame, its CHECK's high byte, completes it. -/
theorem takeByte_of_last {s : State} {n : Link} {k tag lo : Byte} {p : List Byte} (hi : Byte) (hd : s.deaf n = false)
    (hp : p.length ≤ 58) (hgot : (s.receiver n).collected = some (frameBody k tag p ++ [lo])) :
    takeByte n hi s = completeFrame n (frameBody k tag p ++ [lo, hi]) s := by
  have hlen : p.length % 256 = p.length := Nat.mod_eq_of_lt (by omega)
  simp [takeByte, hd, hgot, frameBody, hlen]

/-! ### A CHECK that disagrees (R149) -/

theorem exec_checkError (n : Link) (k tag : Byte) (p : List Byte) (check : Half) {s : State} (hs : s.runs) :
    exec (.checkError n k tag p check) s = .next
      (if s.deaf n ∨ check = crc (frameBody k tag p) then s else countCheckError n s) := by
  change Host.Outcome.next (unlessReset _ s) = _
  rw [unlessReset_of_prompt _ s hs.1 hs.2]

theorem exec_receiverTakesByte (n : Link) (b : Byte) {s : State} (hs : s.runs) :
    exec (.receiverTakesByte n b) s = .next (takeByte n b s) := by
  change Host.Outcome.next (unlessReset _ s) = _
  rw [unlessReset_of_prompt _ s hs.1 hs.2]

theorem exec_checkError_of_disagrees {s : State} {n : Link} {k tag : Byte} {p : List Byte} {check : Half}
    (hs : s.runs) (hd : s.deaf n = false) (hne : check ≠ crc (frameBody k tag p)) :
    exec (.checkError n k tag p check) s = .next (countCheckError n s) := by
  rw [exec_checkError n k tag p check hs, if_neg (by simp [hd, hne])]

theorem exec_checkError_of_deaf {s : State} {n : Link} (k tag : Byte) (p : List Byte) (check : Half)
    (hs : s.runs) (hd : s.deaf n = true) : exec (.checkError n k tag p check) s = .next s := by
  rw [exec_checkError n k tag p check hs, if_pos (Or.inl hd)]

theorem exec_receiverTakesByte_of_disagrees {s : State} {n : Link} {k tag lo hi : Byte} {p : List Byte}
    (hs : s.runs) (hd : s.deaf n = false) (hp : p.length ≤ 58)
    (hgot : (s.receiver n).collected = some (frameBody k tag p ++ [lo]))
    (hne : hi ++ lo ≠ crc (frameBody k tag p)) :
    exec (.receiverTakesByte n hi) s = .next (countCheckError n s) := by
  rw [exec_receiverTakesByte n hi hs, takeByte_of_last hi hd hp hgot,
    completeFrame_frameBody_append s n k tag lo hi hp, if_neg hne]

/-- Settles O8: the register byte by byte, and a CHECK that disagrees, as a command, as a frame's last byte and on a link
that takes nothing. -/
theorem checkIsTheCrcOfTheFrame : Obligations.CheckIsTheCrcOfTheFrame := by
  refine ⟨rfl, fun bs b => ?byte, crcShift_eq, crc_of_nine_characters, fun _ _ _ => rfl, fun s n k tag p hs =>
    ⟨fun hheld hclosing => ⟨fun check hne => ?command, fun lo hi hp hgot hne => ?lastByte⟩, fun check hdeaf => ?deaf⟩⟩
  case byte => rw [crc_append_singleton, crcByte_eq_crcShift_eight]
  case command => exact exec_checkError_of_disagrees hs (deaf_eq_false hheld hclosing) hne
  case lastByte =>
    have hcheck : hi ++ lo ≠ crc (frameBody k tag p) := fun h =>
      have ⟨hlo, hhi⟩ := (append_eq_half_iff hi lo _).mp h
      hne.elim (· hlo) (· hhi)
    exact exec_receiverTakesByte_of_disagrees hs (deaf_eq_false hheld hclosing) hp hgot hcheck
  case deaf => exact exec_checkError_of_deaf k tag p check hs ((deaf_iff s n).mpr hdeaf)

end Sys2Proof.Machine

/-!
PROOF. Every command but a reset is a chain of moves: the single things the part does, each with what must hold for it to
happen. A law that every move and every reset keeps is kept by every step.
-/

namespace Sys2Proof.Machine

/-! ### The moves -/

/-- One thing the part does. `defines` and `advances` say whether it may write a DEFINE and move the uptime. -/
inductive Move (defines advances : Bool) : State → State → Prop
  | settle (s : State) : Move defines advances s (settleAuthority s)
  | heard (s : State) (n : Link) (ears : s.deaf n = false) : Move defines advances s (s.heard n)
  | discard (s : State) (n : Link) (ears : s.deaf n = false) :
      Move defines advances s (s.setLink n { s.link n with discarded := min 255 ((s.link n).discarded + 1) })
  | reply (s : State) (n : Link) (tag : Byte) (r : Result) (items : List Byte) (ears : s.deaf n = false)
      (room : (s.link n).replies.length < 4) : Move defines advances s (s.replied n tag r items)
  | pend (s : State) (n : Link) (tag : Byte) (c : Closing) (up : s.isUp n = true) (ears : s.deaf n = false)
      (room : (s.link n).replies.length < 4) (some : c ≠ .nothing) :
      Move defines advances s ((pendClosing n c s).2.queueReply n ⟨tag, .ok, [], c⟩)
  | endSession (s : State) (n : Link) (why : EndReason) (prompt : s.transit.authorityEnds = []) :
      Move defines advances s (endSession n why s)
  | openSession (s : State) (n : Link) (p : List Byte) (o : OpenItems) (silent : (s.link n).state = .silent)
      (ears : s.deaf n = false) (alone : ∀ m ∈ s.transit.authorityEnds, m = n) (read : readOpen p = some o) :
      Move defines advances s (openSession n o (settleEnds n s))
  | floor (s : State) (n : Link) (f : Level) :
      Move defines advances s (s.setDelivery n { s.delivery n with floor := f })
  | define (s : State) (n : Link) (p : List Byte) (d : DefineItems) (i : WatchIx) (may : defines = true)
      (shape : defineShape p = true) (read : readDefine n p = some d)
      (open_ : (s.watch i).state = .free ∨ (s.watch i).frozen = false ∧ (s.watch i).state = .stopped) :
      Move defines advances s (s.setWatch i (d.entry n ((s.watch i).generation + 1)))
  | delete (s : State) (i : WatchIx) (soft : (s.watch i).frozen = false) (some : (s.watch i).state ≠ .free)
      (loose : (s.watch i).state ≠ .latched) :
      Move defines advances s (s.setWatch i (Watch.free (s.watch i).generation))
  | start (s : State) (i : WatchIx) (stopped : (s.watch i).state = .stopped) :
      Move defines advances s
        (s.setWatch i { s.watch i with state := .running, count := (s.watch i).reload, stage := 0, lastSeq := none })
  | stop (s : State) (i : WatchIx) (some : (s.watch i).state ≠ .free) (loose : (s.watch i).state ≠ .latched) :
      Move defines advances s (s.setWatch i (s.watch i).halt)
  | pause (s : State) (i : WatchIx) (running : (s.watch i).state = .running) :
      Move defines advances s (s.setWatch i { s.watch i with state := .paused })
  | resume (s : State) (i : WatchIx) (paused : (s.watch i).state = .paused) :
      Move defines advances s (s.setWatch i { s.watch i with state := .running })
  | freeze (s : State) (i : WatchIx) (some : (s.watch i).state ≠ .free) :
      Move defines advances s (s.setWatch i { s.watch i with frozen := true })
  | feed (s : State) (i : WatchIx) (v : Byte) (takes : (s.watch i).takesFeed = true) :
      Move defines advances s (applyStep i (feedRequest i (s.watch i) v).2 s)
  | complete (s : State) (i : WatchIx) (kind : (s.watch i).kind = .deadline) :
      Move defines advances s (applyStep i (completeStep i (s.watch i)) s)
  | clear (s : State) (i : WatchIx) (late : (s.watch i).state = .overdue ∨ (s.watch i).state = .latched) :
      Move defines advances s ((s.setWatch i { (s.watch i).halt with strikes := 0 }).sendOutput [.removeAll i])
  | lineSet (s : State) (p : List Byte) (d : LineItems) (read : readLineSet p = some d) :
      Move defines advances s (s.setLine d.line (d.apply (s.line d.line)))
  | drain (s : State) (l : LineIx) : Move defines advances s (drainChannel (.line l) s)
  | manual (s : State) (o : OutputIx) (d : Option Nat) (time : durationLaw d) :
      Move defines advances s (s.sendOutput [.claim .manual o d none])
  | unhold (s : State) (o : OutputIx) : Move defines advances s (dropClaim .manual o (settleManual o s))
  | claim (s : State) (n : Link) (prompt : s.transit.authorityEnds = []) (up : s.isUp n = true) :
      Move defines advances s (takeClaimRequest n s).2
  | becomeHolder (s : State) (n : Link) (prompt : s.transit.authorityEnds = []) (up : s.isUp n = true)
      (offered : s.isOffered n = true) : Move defines advances s (becomeHolder n s)
  | passOn (s : State) : Move defines advances s (passOn none s)
  | ack (s : State) (n : Link) (k : Byte) (up : s.isUp n = true) : Move defines advances s (takeAck n k s)
  | checkError (s : State) (n : Link) (ears : s.deaf n = false) : Move defines advances s (countCheckError n s)
  | hunt (s : State) (n : Link) (b : Byte) (ears : s.deaf n = false) : Move defines advances s (huntByte n b s)
  | abandon (s : State) (n : Link) (b : Byte) (ears : s.deaf n = false) : Move defines advances s (abandonStart n b s)
  | firstByte (s : State) (n : Link) (b : Byte) (ears : s.deaf n = false) (fits : b.toNat ≤ 58) :
      Move defines advances s (s.setReceiver n ⟨some [b], Config.gapTime, (s.receiver n).gapDue⟩)
  | nextByte (s : State) (n : Link) (len b : Byte) (rest : List Byte) (ears : s.deaf n = false)
      (got : (s.receiver n).collected = some (len :: rest)) (short : (len :: rest ++ [b]).length < len.toNat + 5) :
      Move defines advances s (s.setReceiver n ⟨some (len :: rest ++ [b]), Config.gapTime, (s.receiver n).gapDue⟩)
  | gapTick (s : State) (n : Link) : Move defines advances s (takeGapTick n s)
  | pins (s : State) (p : Half) : Move defines advances s (s.setPins p)
  | owe (s : State) (ports : List TickPort) : Move defines advances s (s.setOwedTicks ports)
  | advance (s : State) (may : advances = true) : Move defines advances s (advanceUptime s)
  | deliver (s : State) (p : TickPort) : Move defines advances s (deliverTick s p)
  | watchTick (s : State) (i : WatchIx) : Move defines advances s (takeWatchTick i s)
  | sample (s : State) (l : LineIx) : Move defines advances s (takeSample l s)
  | claimTick (s : State) : Move defines advances s (takeClaimTick s)
  | ackTick (s : State) (n : Link) (k : Byte) (prompt : s.transit.authorityEnds = []) :
      Move defines advances s (takeAckTick n k s)
  | inactivityTick (s : State) (n : Link) (prompt : s.transit.authorityEnds = []) :
      Move defines advances s (takeInactivityTick n s)
  | offerTick (s : State) : Move defines advances s (takeOfferTick s)
  | lineReport (s : State) (l : LineIx) : Move defines advances s (takeLineReport l s)
  | channel (s : State) (ch : Channel) (e : Extent) : Move defines advances s (takeChannel ch e s)
  | noticeEnd (s : State) (n : Link) (x : Extent) : Move defines advances s (noticeShare n x s)
  | authorityEnd (s : State) (n : Link) : Move defines advances s (authorityShare n s)
  | frame (s : State) (n : Link) : Move defines advances s (takeFrame n s)
  | lastByte (s : State) (n : Link) (prompt : s.transit.authorityEnds = []) :
      Move defines advances s (finishFrame n s)
  | claimWord (s : State) (c : Claimant) : Move defines advances s (takeClaimWord c s)
  | removalWord (s : State) (i : WatchIx) : Move defines advances s (takeRemovalWord i s)
  | asserted (s : State) (n : Link) (prompt : s.transit.authorityEnds = []) :
      Move defines advances s (takeAssertedWord n s)
  | released (s : State) (n : Link) : Move defines advances s (takeReleasedWord n s)

/-- A chain of moves. -/
abbrev Moves (defines advances : Bool) : State → State → Prop := Relation.ReflTransGen (Move defines advances)

theorem Move.one {d a : Bool} {s t : State} (h : Move d a s t) : Moves d a s t := .single h

/-- What every move keeps, a chain of moves keeps. -/
theorem Moves.keeps {d a : Bool} {P : State → Prop} (kept : ∀ s t, Move d a s t → P s → P t) {s t : State}
    (h : Moves d a s t) (hs : P s) : P t := by
  induction h with
  | refl => exact hs
  | tail _ hm ih => exact kept _ _ hm ih

theorem Moves.foldl {d a : Bool} {α : Type} (f : State → α → State) (l : List α) (h : ∀ t x, Moves d a t (f t x))
    (s : State) : Moves d a s (l.foldl f s) := by
  induction l generalizing s with
  | nil => exact .refl
  | cons x l ih => exact (h s x).trans (ih (f s x))

/-! ### What the end of a session and an OPEN leave at the link -/

theorem link_endSession (n m : Link) (why : EndReason) (s : State) :
    (endSession n why s).link m =
      if m = n ∧ s.isUp n = true then
        { s.link n with
          state := .silent, inactivity := none, closing := .nothing
          replies := (s.link n).replies.map fun r => { r with closing := .nothing } }
      else s.link m := by
  cases h : s.isUp n with
  | false => simp [endSession_of_not_up n why s h]
  | true =>
    rw [endSession_of_up n why s h]
    simp [link_setLink]

theorem link_settleEnds (n m : Link) (s : State) : (settleEnds n s).link m = s.link m := by
  rw [onlyShares_settleEnds n s]; rfl

theorem replies_endSession_length (n m : Link) (why : EndReason) (s : State) :
    ((endSession n why s).link m).replies.length = (s.link m).replies.length := by
  rw [link_endSession]
  split
  · next h => simp [h.1]
  · rfl

theorem deaf_eq_false_iff (s : State) (n : Link) :
    s.deaf n = false ↔ (s.link n).state ≠ .held ∧ (s.link n).closing = .nothing := by
  simp [State.deaf]

theorem link_openSession_same (n : Link) (o : OpenItems) (s : State) :
    (openSession n o s).link n =
      { s.link n with
        state := .up, session := (s.link n).session + 1, client := o.client
        inactivityTimeout := o.inactivity }.loadInactivity := by
  simp [openSession]

/-- A link that takes frames is SILENT once its session has ended, and takes them still. -/
theorem link_endSession_silent (n : Link) (why : EndReason) (s : State) (ears : s.deaf n = false) :
    ((endSession n why s).link n).state = .silent ∧ (endSession n why s).deaf n = false := by
  obtain ⟨notHeld, open_⟩ := (deaf_eq_false_iff s n).mp ears
  rw [deaf_eq_false_iff, link_endSession]
  by_cases h : s.isUp n = true
  · simp [h]
  · have : (s.link n).state = .silent := by
      cases hs : (s.link n).state with
      | silent => rfl
      | up => simp [State.isUp, hs] at h
      | held => exact absurd hs notHeld
    simp [h, this, open_]

theorem authorityEnds_endSession (n : Link) (why : EndReason) (s : State) (prompt : s.transit.authorityEnds = []) :
    ∀ m ∈ (endSession n why s).transit.authorityEnds, m = n := by
  cases h : s.isUp n with
  | false => simp [endSession_of_not_up n why s h, prompt]
  | true => simp [endSession_of_up n why s h, prompt]

/-! ### What a request's block answers -/

/-- What a request's block can answer: a refusal that changes nothing, an acceptance reached by moves that leave the link's
reply queue as long as it was, or a CLOSE or RESTART that becomes pending (R163, R144, R156). -/
inductive Answered (defines : Bool) (n : Link) (s : State) : Answer × State → Prop
  | refused (r : Result) (h : r ≠ .ok) : Answered defines n s (refuse r s)
  | accepted (items : List Byte) (t : State) (moves : ∀ a, Moves defines a s t)
      (room : (t.link n).replies.length = (s.link n).replies.length) (ears : t.deaf n = s.deaf n) :
      Answered defines n s (accept items t)
  | pending (c : Closing) (some : c ≠ .nothing) (up : s.isUp n = true) : Answered defines n s (pendClosing n c s)

section
variable {d : Bool} {n : Link} {s : State}

/-- An acceptance by one move that leaves the links alone. -/
theorem Answered.of_move {items : List Byte} {t : State} (move : ∀ a, Move d a s t) (links : t.links = s.links) :
    Answered d n s (accept items t) :=
  .accepted items t (fun a => (move a).one) (by unfold State.link; rw [links])
    (by unfold State.deaf State.link; rw [links])

/-- An acceptance that changes nothing. -/
theorem Answered.of_read {items : List Byte} : Answered d n s (accept items s) :=
  .accepted items s (fun _ => .refl) rfl rfl

theorem answered_checkShapeAndOpen {shape : Bool} {rest : Answer × State}
    (h : shape = true → s.isUp n = true → Answered d n s rest) : Answered d n s (checkShapeAndOpen shape n s rest) := by
  unfold checkShapeAndOpen
  split
  · exact .refused _ (by decide)
  · split
    · exact .refused _ (by decide)
    · next h1 h2 => exact h (by simpa using h1) (by simpa using h2)

theorem answered_withWatch {b : Byte} {rest : WatchIx → Watch → Answer × State}
    (h : ∀ i, (s.watch i).state ≠ .free → Answered d n s (rest i (s.watch i))) :
    Answered d n s (withWatch b s rest) := by
  unfold withWatch
  split
  · exact .refused _ (by decide)
  · split
    · exact .refused _ (by decide)
    · next hf => exact h _ hf

theorem answered_ownerRequest {len : Nat} {p : List Byte} {rest : WatchIx → Watch → Answer × State}
    (h : ∀ i, (s.watch i).state ≠ .free → Answered d n s (rest i (s.watch i))) :
    Answered d n s (ownerRequest len n p s rest) := by
  refine answered_checkShapeAndOpen fun _ _ => answered_withWatch fun i hf => ?_
  split
  · exact h i hf
  · exact .refused _ (by decide)

theorem answered_privileged {rest : Answer × State} (h : Answered d n s rest) :
    Answered d n s (privileged n s rest) := by
  unfold privileged
  split
  · exact h
  · exact .refused _ (by decide)

/-! ### Each request's block -/

theorem openBody_answered (p : List Byte) (prompt : s.transit.authorityEnds = []) (ears : s.deaf n = false) :
    Answered d n s (openBody n p s) := by
  unfold openBody
  split
  · exact .refused _ (by decide)
  · split
    · exact .refused _ (by decide)
    · next o ho =>
      obtain ⟨silent, ears'⟩ := link_endSession_silent n .reopened s ears
      refine .accepted _ _ (fun a => ?_) ?_ ?_
      · exact (Move.endSession s n .reopened prompt).one.trans
          (Move.openSession _ n p o silent ears' (authorityEnds_endSession n .reopened s prompt) ho).one
      · rw [link_openSession_same, link_settleEnds]
        exact replies_endSession_length n n .reopened s
      · rw [ears, deaf_eq_false_iff, link_openSession_same, link_settleEnds]
        exact ⟨by simp [LinkRec.loadInactivity], ((deaf_eq_false_iff _ n).mp ears').2⟩

theorem closeBody_answered (p : List Byte) : Answered d n s (closeBody n p s) :=
  answered_checkShapeAndOpen fun _ up => .pending .close (by decide) up

theorem pingBody_answered (p : List Byte) : Answered d n s (pingBody n p s) :=
  answered_checkShapeAndOpen fun _ _ => .of_read

theorem statusBody_answered (p : List Byte) : Answered d n s (statusBody n p s) :=
  answered_checkShapeAndOpen fun _ _ => .of_read

theorem floorBody_answered (p : List Byte) : Answered d n s (floorBody n p s) := by
  refine answered_checkShapeAndOpen fun _ _ => ?_
  split
  · exact .of_move (fun _ => .floor s n _) rfl
  · exact .refused _ (by decide)

theorem restartBody_answered (p : List Byte) : Answered d n s (restartBody n p s) := by
  refine answered_checkShapeAndOpen fun _ up => ?_
  split
  · exact .pending .restart (by decide) up
  · exact .refused _ (by decide)

theorem defineBody_answered (p : List Byte) : Answered true n s (defineBody n p s) := by
  refine answered_checkShapeAndOpen fun shape _ => ?_
  split
  · exact .refused _ (by decide)
  · next d read =>
    have written : ∀ i, (s.watch i).state = .free ∨ (s.watch i).frozen = false ∧ (s.watch i).state = .stopped →
        Answered true n s (defineEntry n d i s) := fun i hi =>
      .of_move (fun _ => .define s n p d i rfl shape read hi) rfl
    split
    · exact .refused _ (by decide)
    · next i _ =>
      simp only
      split
      · next hf => exact written i (.inl hf)
      · split
        · exact .refused _ (by decide)
        · split
          · exact .refused _ (by decide)
          · split
            · exact .refused _ (by decide)
            · next hz hs => exact written i (.inr ⟨by simpa using hz, by simpa using hs⟩)

theorem deleteBody_answered (p : List Byte) : Answered d n s (deleteBody n p s) := by
  refine answered_ownerRequest fun i hf => ?_
  split
  · exact .refused _ (by decide)
  · split
    · exact .refused _ (by decide)
    · next hz hl => exact .of_move (fun _ => .delete s i (by simpa using hz) hf hl) rfl

theorem startBody_answered (p : List Byte) : Answered d n s (startBody n p s) := by
  refine answered_ownerRequest fun i _ => ?_
  split
  · exact .refused _ (by decide)
  · next h => exact .of_move (fun _ => .start s i (by simpa using h)) rfl

theorem stopBody_answered (p : List Byte) : Answered d n s (stopBody n p s) := by
  refine answered_ownerRequest fun i hf => ?_
  split
  · exact .refused _ (by decide)
  · split
    · exact .refused _ (by decide)
    · next h => exact .of_move (fun _ => .stop s i hf fun e => h (.inr e)) rfl

theorem pauseBody_answered (p : List Byte) : Answered d n s (pauseBody n p s) := by
  refine answered_ownerRequest fun i _ => ?_
  split
  · exact .refused _ (by decide)
  · split
    · exact .refused _ (by decide)
    · next h => exact .of_move (fun _ => .pause s i (by simpa using h)) rfl

theorem resumeBody_answered (p : List Byte) : Answered d n s (resumeBody n p s) := by
  refine answered_ownerRequest fun i _ => ?_
  split
  · exact .refused _ (by decide)
  · next h => exact .of_move (fun _ => .resume s i (by simpa using h)) rfl

theorem feedBody_answered (p : List Byte) : Answered d n s (feedBody n p s) := by
  refine answered_ownerRequest fun i _ => ?_
  split
  · exact .refused _ (by decide)
  · next h => exact .of_move (fun _ => .feed s i _ (by simpa using h)) rfl

theorem completeBody_answered (p : List Byte) : Answered d n s (completeBody n p s) := by
  refine answered_ownerRequest fun i _ => ?_
  split
  · exact .refused _ (by decide)
  · split
    · next h _ => exact .of_move (fun _ => .complete s i (by simpa using h)) rfl
    · exact .refused _ (by decide)

theorem freezeBody_answered (p : List Byte) : Answered d n s (freezeBody n p s) := by
  refine answered_checkShapeAndOpen fun _ _ => answered_withWatch fun i hf => ?_
  split
  · exact .refused _ (by decide)
  · exact .of_move (fun _ => .freeze s i hf) rfl

theorem clearBody_answered (p : List Byte) : Answered d n s (clearBody n p s) := by
  refine answered_checkShapeAndOpen fun _ _ => answered_withWatch fun i _ => ?_
  split
  · exact .refused _ (by decide)
  · split
    · next h => exact .of_move (fun _ => .clear s i h) rfl
    · exact .refused _ (by decide)

theorem queryBody_answered (p : List Byte) : Answered d n s (queryBody n p s) := by
  refine answered_checkShapeAndOpen fun _ _ => ?_
  split
  · exact .refused _ (by decide)
  · exact .of_read

theorem lineSetBody_answered (p : List Byte) : Answered d n s (lineSetBody n p s) := by
  refine answered_checkShapeAndOpen fun _ _ => ?_
  split
  · exact .refused _ (by decide)
  · next items read => exact answered_privileged (.of_move (fun _ => .lineSet s p items read) rfl)

theorem lineQueryBody_answered (p : List Byte) : Answered d n s (lineQueryBody n p s) := by
  refine answered_checkShapeAndOpen fun _ _ => ?_
  split
  · exact .refused _ (by decide)
  · next l _ =>
    refine .of_move (fun _ => .drain s l) ?_
    rw [onlyNotices_drainChannel (.line l) s]

theorem halfAt_le (p : List Byte) (k : Nat) : halfAt p k ≤ 65535 := by
  unfold halfAt
  have := (byteAt p k).isLt
  have := (byteAt p (k + 1)).isLt
  omega

theorem manualClaim_answered (o : OutputIx) (t : Option Nat) (time : durationLaw t) :
    Answered d n s (manualClaim o t s) :=
  .of_move (fun _ => .manual s o t time) rfl

theorem pulseBody_answered (p : List Byte) : Answered d n s (pulseBody n p s) := by
  refine answered_checkShapeAndOpen fun _ _ => ?_
  split
  · exact .refused _ (by decide)
  · split
    · exact .refused _ (by decide)
    · next h =>
      refine answered_privileged (manualClaim_answered _ _ ?_)
      rintro k ⟨⟩
      exact ⟨Nat.one_le_iff_ne_zero.mpr h, halfAt_le p 1⟩

theorem holdBody_answered (p : List Byte) : Answered d n s (holdBody n p s) := by
  refine answered_checkShapeAndOpen fun _ _ => ?_
  split
  · exact .refused _ (by decide)
  · exact answered_privileged (manualClaim_answered _ _ (by simp [durationLaw]))

end

/-- What settling the claims of MANUAL on their way to an output may change: what `OnlyClaims` names, and the words. -/
theorem settleManual_leaves (o : OutputIx) (s : State) :
    OnlyClaims (s.withOutputWords (s.transit.outputWords.filter fun w => !w.isManual o)) (settleManual o s) := by
  unfold settleManual
  generalize s.withOutputWords (s.transit.outputWords.filter fun w => !w.isManual o) = t
  generalize s.manualWords o = ws
  induction ws generalizing t with
  | nil => rfl
  | cons w ws ih => exact (onlyClaims_changeClaims _ _ _ _).trans (ih _)

theorem links_unhold (o : OutputIx) (s : State) : (dropClaim .manual o (settleManual o s)).links = s.links := by
  have dropped := onlyClaims_changeClaims o (put ((settleManual o s).claimSet o) (slotOf .manual) none) none
    (settleManual o s)
  unfold dropClaim
  rw [dropped, settleManual_leaves o s]
  rfl

section
variable {d : Bool} {n : Link} {s : State}

theorem unholdBody_answered (p : List Byte) : Answered d n s (unholdBody n p s) := by
  refine answered_checkShapeAndOpen fun _ _ => ?_
  split
  · exact .refused _ (by decide)
  · next o _ =>
    refine answered_privileged ?_
    split
    · exact .refused _ (by decide)
    · exact .of_move (fun _ => .unhold s o) (links_unhold o s)

/-- The reply to a CLAIM carries items alone, and the claim changes no link. -/
theorem takeClaimRequest_accepts (n : Link) (s : State) :
    (∃ items, takeClaimRequest n s = accept items (takeClaimRequest n s).2)
    ∧ (takeClaimRequest n s).2.links = s.links := by
  unfold takeClaimRequest
  simp only
  split
  · exact ⟨⟨_, rfl⟩, rfl⟩
  · split
    · exact ⟨⟨_, rfl⟩, rfl⟩
    · split
      · exact ⟨⟨_, rfl⟩, rfl⟩
      · exact ⟨⟨_, rfl⟩, rfl⟩
  · split
    · exact ⟨⟨_, rfl⟩, rfl⟩
    · split
      · exact ⟨⟨_, rfl⟩, rfl⟩
      · exact ⟨⟨_, rfl⟩, rfl⟩

theorem claimBody_answered (p : List Byte) (prompt : s.transit.authorityEnds = []) :
    Answered d n s (claimBody n p s) := by
  refine answered_checkShapeAndOpen fun _ up => ?_
  obtain ⟨⟨items, e⟩, links⟩ := takeClaimRequest_accepts n s
  rw [e]
  exact .of_move (fun _ => .claim s n prompt up) links

theorem links_passOn (ended : Option Link) (s : State) : (passOn ended s).links = s.links := by
  rw [onlyAuthority_passOn ended s]

theorem yieldBody_answered (p : List Byte) : Answered d n s (yieldBody n p s) :=
  answered_checkShapeAndOpen fun _ _ =>
    answered_privileged (.of_move (fun _ => .passOn s) (links_passOn none s))

theorem acceptBody_answered (p : List Byte) (prompt : s.transit.authorityEnds = []) :
    Answered d n s (acceptBody n p s) := by
  refine answered_checkShapeAndOpen fun _ up => ?_
  split
  · next h => exact .of_move (fun _ => .becomeHolder s n prompt up h) rfl
  · exact .refused _ (by decide)

theorem declineBody_answered (p : List Byte) : Answered d n s (declineBody n p s) := by
  refine answered_checkShapeAndOpen fun _ _ => ?_
  split
  · exact .of_move (fun _ => .passOn s) (links_passOn none s)
  · exact .refused _ (by decide)

end

/-- Every request's block refuses without a change, accepts by moves, or makes an end pending. -/
theorem request_answered (c : Instr) (n : Link) (tag : Byte) (body : State → Answer × State) (s : State)
    (h : c.request = some (n, tag, body)) (prompt : s.transit.authorityEnds = []) (ears : s.deaf n = false) :
    Answered c.mayDefine n s (body s) := by
  cases c <;> simp only [Instr.request, Option.some.injEq, Prod.mk.injEq, reduceCtorEq] at h <;>
    obtain ⟨rfl, rfl, rfl⟩ := h
  case openReq => exact openBody_answered _ prompt ears
  case closeReq => exact closeBody_answered _
  case ping => exact pingBody_answered _
  case status => exact statusBody_answered _
  case floor => exact floorBody_answered _
  case define => exact defineBody_answered _
  case delete => exact deleteBody_answered _
  case start => exact startBody_answered _
  case stop => exact stopBody_answered _
  case feed => exact feedBody_answered _
  case complete => exact completeBody_answered _
  case pause => exact pauseBody_answered _
  case resume => exact resumeBody_answered _
  case freeze => exact freezeBody_answered _
  case clear => exact clearBody_answered _
  case query => exact queryBody_answered _
  case lineSet => exact lineSetBody_answered _
  case lineQuery => exact lineQueryBody_answered _
  case pulse => exact pulseBody_answered _
  case hold => exact holdBody_answered _
  case unhold => exact unholdBody_answered _
  case claim => exact claimBody_answered _ prompt
  case yieldReq => exact yieldBody_answered _
  case acceptReq => exact acceptBody_answered _ prompt
  case decline => exact declineBody_answered _
  case restart => exact restartBody_answered _

end Sys2Proof.Machine

/-!
PROOF. The meaning of every command but a reset, as a chain of moves.
-/

namespace Sys2Proof.Machine

/-! ### Requests -/

/-- A request is discarded, counted, or answered: in each case by moves. -/
theorem moves_takeRequest {d : Bool} (a : Bool) (n : Link) (tag : Byte) (body : State → Answer × State) (s : State)
    (answered : ∀ s, s.transit.authorityEnds = [] → s.deaf n = false → Answered d n s (body s)) :
    Moves d a s (takeRequest n tag body s) := by
  cases held : s.resetIsHeld with
  | true => rw [takeRequest_of_held n tag body s held]
  | false =>
    refine (Move.settle s).one.trans ?_
    rw [← takeRequest_settleAuthority n tag body s held]
    have runs : (settleAuthority s).runs := ⟨by rwa [resetIsHeld_settleAuthority], authorityEnds_settleAuthority s⟩
    generalize settleAuthority s = s at runs
    rcases takeRequest_cases n tag body s runs with ⟨_, e⟩ | ⟨_, ears, e⟩ | ⟨ans, e⟩
    · rw [e]
    · rw [e]
      have ears' : (s.heard n).deaf n = false := by
        rw [deaf_eq_false_iff, link_heard_same, state_heardRec, closing_heardRec]
        exact (deaf_eq_false_iff s n).mp ears
      have count := (Move.discard (defines := d) (advances := a) (s.heard n) n ears').one
      rw [link_heard_same, discarded_heardRec] at count
      rw [link_heard_same]
      exact (Move.heard s n ears).one.trans count
    · have ears : s.deaf n = false := deaf_eq_false ans.2.1 ans.2.2.1
      have ears' : (s.heard n).deaf n = false := by
        rw [deaf_eq_false_iff, link_heard_same, state_heardRec, closing_heardRec]
        exact (deaf_eq_false_iff s n).mp ears
      have room : ((s.heard n).link n).replies.length < 4 := by
        rw [link_heard_same, replies_heardRec]
        exact ans.2.2.2
      rw [e]
      refine (Move.heard s n ears).one.trans ?_
      have h := answered (s.heard n) (by rw [transit_heard]; exact runs.2) ears'
      generalize body (s.heard n) = r at h
      cases h with
      | refused r _ => exact (Move.reply _ n tag r [] ears' room).one
      | accepted items t moves same deaf =>
        exact (moves a).trans (Move.reply t n tag .ok items (deaf.trans ears') (same ▸ room)).one
      | pending c some up => exact (Move.pend _ n tag c up ears' room some).one

theorem moves_unknown (d a : Bool) (n : Link) (tag : Byte) (s : State) :
    Moves d a s (takeRequest n tag unknownBody s) :=
  moves_takeRequest a n tag _ s fun _ _ _ => .refused .unknown (by decide)

/-- An event of a part that takes events, by moves once the authority is settled. -/
theorem moves_unlessReset {d a : Bool} (f : State → State) (s : State)
    (h : ∀ t, t.resetIsHeld = false → t.transit.authorityEnds = [] → Moves d a t (f t)) :
    Moves d a s (unlessReset f s) := by
  cases held : s.resetIsHeld with
  | true => rw [unlessReset_of_held f s held]
  | false =>
    rw [unlessReset_of_running f s held]
    exact (Move.settle s).one.trans
      (h _ (by rwa [resetIsHeld_settleAuthority]) (authorityEnds_settleAuthority s))

theorem moves_ackFrame (d a : Bool) (n : Link) (k : Byte) (s : State) : Moves d a s (ackFrame n k s) := by
  refine moves_unlessReset _ s fun t _ _ => ?_
  split
  · exact .refl
  · next ears =>
    have ears' : t.deaf n = false := by simpa using ears
    refine (Move.heard t n ears').one.trans ?_
    simp only
    split
    · next up => exact (Move.ack _ n k (by rw [isUp_heard]; exact up)).one
    · exact .refl

/-! ### Received bytes -/

/-- A kind that names no request has no block (R162). -/
theorem requestBody_of_unknown {kind : Byte} (n : Link) (p : List Byte) (h : kind ∉ requestKinds) :
    requestBody kind n p = none := by
  simp only [requestKinds, List.mem_cons, List.not_mem_nil, or_false, not_or] at h
  simp only [requestBody, h, if_false]

/-- The block of a kind that has one is that of a request command whose frame is of the kind (Table 10-1). -/
theorem requestBody_eq_some {kind : Byte} {n : Link} {p : List Byte} {body : State → Answer × State} (tag : Byte)
    (h : requestBody kind n p = some body) :
    ∃ c : Instr, c.request = some (n, tag, body) ∧ c.frame = some (n, kind, tag, p) := by
  have named : kind ∈ requestKinds := by
    by_contra unnamed
    rw [requestBody_of_unknown n p unnamed] at h
    cases h
  have request := congrArg (Option.map fun body => (n, tag, body)) h
  simp only [requestKinds, List.mem_cons, List.not_mem_nil, or_false] at named
  rcases named with rfl | rfl | rfl | rfl | rfl | rfl | rfl | rfl | rfl | rfl | rfl | rfl | rfl | rfl | rfl | rfl |
    rfl | rfl | rfl | rfl | rfl | rfl | rfl | rfl | rfl | rfl | rfl
  · exact ⟨.openReq n tag p, request, rfl⟩
  · exact ⟨.closeReq n tag p, request, rfl⟩
  · exact ⟨.ping n tag p, request, rfl⟩
  · exact ⟨.status n tag p, request, rfl⟩
  · exact ⟨.floor n tag p, request, rfl⟩
  · exact absurd h (by simp [requestBody])
  · exact ⟨.define n tag p, request, rfl⟩
  · exact ⟨.delete n tag p, request, rfl⟩
  · exact ⟨.start n tag p, request, rfl⟩
  · exact ⟨.stop n tag p, request, rfl⟩
  · exact ⟨.feed n tag p, request, rfl⟩
  · exact ⟨.complete n tag p, request, rfl⟩
  · exact ⟨.pause n tag p, request, rfl⟩
  · exact ⟨.resume n tag p, request, rfl⟩
  · exact ⟨.freeze n tag p, request, rfl⟩
  · exact ⟨.clear n tag p, request, rfl⟩
  · exact ⟨.query n tag p, request, rfl⟩
  · exact ⟨.lineSet n tag p, request, rfl⟩
  · exact ⟨.lineQuery n tag p, request, rfl⟩
  · exact ⟨.pulse n tag p, request, rfl⟩
  · exact ⟨.hold n tag p, request, rfl⟩
  · exact ⟨.unhold n tag p, request, rfl⟩
  · exact ⟨.claim n tag p, request, rfl⟩
  · exact ⟨.yieldReq n tag p, request, rfl⟩
  · exact ⟨.acceptReq n tag p, request, rfl⟩
  · exact ⟨.decline n tag p, request, rfl⟩
  · exact ⟨.restart n tag p, request, rfl⟩

/-- A valid frame is taken as the command it stands for: an ACK, a request, or a frame of unknown kind. -/
theorem exec_frame {c : Instr} {n : Link} {k tag : Byte} {p : List Byte} (h : c.frame = some (n, k, tag, p))
    (known : ∀ n k tag p, c = .unknownRequest n k tag p → k ∉ requestKinds) (s : State) (running : s.resetIsHeld = false)
    (prompt : s.transit.authorityEnds = []) : exec c s = .next (dispatchFrame n k tag p s) := by
  cases c <;> simp only [Instr.frame, Option.some.injEq, Prod.mk.injEq, reduceCtorEq] at h <;>
    obtain ⟨rfl, rfl, rfl, rfl⟩ := h
  case unknownRequest n k tag p =>
    have unnamed := known n k tag p rfl
    have notAck : k ≠ 0x06 := fun e => unnamed (by rw [e]; decide)
    have noBody := requestBody_of_unknown n p unnamed
    change Host.Outcome.next (unlessReset _ s) = _
    rw [unlessReset_of_prompt _ s running prompt]
    simp only [dispatchFrame, notAck, noBody, if_false, Option.isSome_none, Bool.false_eq_true, or_self]
  all_goals rfl

/-- What a valid frame stands for, taken as a command. -/
theorem dispatchFrame_cases (n : Link) (kind tag : Byte) (p : List Byte) (s : State) :
    dispatchFrame n kind tag p s = ackFrame n tag s
    ∨ dispatchFrame n kind tag p s = takeRequest n tag unknownBody s
    ∨ ∃ (c : Instr) (body : State → Answer × State), c.request = some (n, tag, body) ∧ c.frame = some (n, kind, tag, p)
        ∧ dispatchFrame n kind tag p s = takeRequest n tag body s := by
  unfold dispatchFrame
  split
  · exact .inl rfl
  · split
    · next body h =>
      obtain ⟨c, request, frame⟩ := requestBody_eq_some tag h
      exact .inr (.inr ⟨c, body, request, frame, rfl⟩)
    · exact .inr (.inl rfl)

theorem Move.mono {d a : Bool} {s t : State} (h : Move d a s t) : Move true a s t := by
  cases h <;> constructor <;> first | assumption | rfl

theorem Moves.mono {d a : Bool} {s t : State} (h : Moves d a s t) : Moves true a s t := by
  induction h with
  | refl => exact .refl
  | tail _ m ih => exact ih.tail m.mono

theorem moves_dispatchFrame (a : Bool) (n : Link) (kind tag : Byte) (p : List Byte) (s : State) :
    Moves true a s (dispatchFrame n kind tag p s) := by
  rcases dispatchFrame_cases n kind tag p s with e | e | ⟨c, body, request, _, e⟩ <;> rw [e]
  · exact moves_ackFrame _ _ _ _ _
  · exact moves_unknown _ _ _ _ _
  · exact (moves_takeRequest a n tag body s fun s prompt ears =>
      request_answered c n tag body s request prompt ears).mono

/-- Everything a byte can do at a receiver: nothing, a step of the receiver, a CHECK that disagrees, or the completion of a
frame (R148 to R150). -/
theorem takeByte_cases (n : Link) (b : Byte) (s : State) :
    Moves false false s (takeByte n b s) ∨ ∃ k tag p, takeByte n b s = dispatchFrame n k tag p s := by
  unfold takeByte
  split
  · exact .inl .refl
  · next ears =>
    have ears' : s.deaf n = false := by simpa using ears
    split
    · exact .inl (Move.hunt s n b ears').one
    · split
      · exact .inl (Move.abandon s n b ears').one
      · next fits => exact .inl (Move.firstByte s n b ears' (Nat.not_lt.mp fits)).one
    · next len rest got =>
      simp only
      split
      · unfold completeFrame
        simp only
        split
        · exact .inr ⟨_, _, _, rfl⟩
        · exact .inl (Move.checkError s n ears').one
      · next short => exact .inl (Move.nextByte s n len b rest ears' got (Nat.not_le.mp short)).one

/-! ### Words about CRSTn -/

/-- The oldest word about CRSTn, if there is one, and the others (log 1). -/
theorem firstCrstWord_cases (n : Link) (s : State) :
    (firstCrstWord n s = none ∧ ∀ w ∈ s.transit.crstWords, w.1 ≠ n)
    ∨ ∃ change pre post, s.transit.crstWords = pre ++ (n, change) :: post ∧ (∀ w ∈ pre, w.1 ≠ n)
        ∧ firstCrstWord n s = some (change, s.setTransit { s.transit with crstWords := pre ++ post }) := by
  unfold firstCrstWord
  rcases takeFirst_cases (fun w : Link × CrstChange => decide (w.1 = n)) s.transit.crstWords with
    ⟨e, none⟩ | ⟨pre, ⟨m, change⟩, post, words, other, own, e⟩
  · exact .inl ⟨by rw [e]; rfl, by simpa using none⟩
  · obtain rfl : m = n := by simpa using own
    exact .inr ⟨change, pre, post, words, by simpa using other, by rw [e]; rfl⟩

/-- The assertion of CRSTn is taken only where it is the oldest word to the link. -/
theorem takeAssertedWord_cases (n : Link) (s : State) :
    takeAssertedWord n s = s
    ∨ ∃ r pre post, s.transit.crstWords = pre ++ (n, .asserted r) :: post ∧ (∀ w ∈ pre, w.1 ≠ n)
        ∧ takeAssertedWord n s = takeAssertion n r (s.setTransit { s.transit with crstWords := pre ++ post }) := by
  unfold takeAssertedWord
  rcases firstCrstWord_cases n s with ⟨e, _⟩ | ⟨change, pre, post, words, other, e⟩ <;> rw [e]
  · exact .inl rfl
  · cases change with
    | asserted r => exact .inr ⟨r, pre, post, words, other, rfl⟩
    | released => exact .inl rfl

/-- The release of CRSTn is taken only where it is the oldest word to the link. -/
theorem takeReleasedWord_cases (n : Link) (s : State) :
    takeReleasedWord n s = s
    ∨ ∃ pre post, s.transit.crstWords = pre ++ (n, .released) :: post ∧ (∀ w ∈ pre, w.1 ≠ n)
        ∧ takeReleasedWord n s = takeRelease n (s.setTransit { s.transit with crstWords := pre ++ post }) := by
  unfold takeReleasedWord
  rcases firstCrstWord_cases n s with ⟨e, _⟩ | ⟨change, pre, post, words, other, e⟩ <;> rw [e]
  · exact .inl rfl
  · cases change with
    | asserted r => exact .inl rfl
    | released => exact .inr ⟨pre, post, words, other, rfl⟩

/-! ### Ticks -/

theorem moves_deliverTicks (d a : Bool) (ports : List TickPort) (s : State) : Moves d a s (deliverTicks ports s) :=
  (Move.owe s _).one.trans (Moves.foldl deliverTick _ (fun t p => (Move.deliver t p).one) _)

theorem moves_taking {d a : Bool} {f : State → State}
    (h : ∀ t, t.transit.authorityEnds = [] → Move d a t (f t)) (s : State) : Moves d a s (taking f s) :=
  (Move.settle s).one.tail (h _ (authorityEnds_settleAuthority s))

theorem moves_takeDueTicks (d a : Bool) (s : State) : Moves d a s (takeDueTicks s) := by
  have acks : ∀ (n : Link) (l : List Byte) (t : State),
      Moves d a t (l.foldl (fun t k => taking (takeAckTick n k) t) t) := fun n l =>
    Moves.foldl _ l fun t k => moves_taking (fun t prompt => .ackTick t n k prompt) t
  unfold takeDueTicks
  refine (Moves.foldl _ (List.finRange 32) (fun t i => moves_taking (fun t _ => .watchTick t i) t) s).trans ?_
  refine (Moves.foldl _ (List.finRange 16) (fun t l => moves_taking (fun t _ => .sample t l) t) _).trans ?_
  refine (moves_taking (fun t _ => .claimTick t) _).trans ?_
  refine (Moves.foldl _ (List.finRange 4) (fun t n => acks n ((t.delivery n).inFlight.map (·.number)) t) _).trans ?_
  refine (Moves.foldl _ (List.finRange 4)
    (fun t n => moves_taking (fun t prompt => .inactivityTick t n prompt) t) _).trans ?_
  refine (moves_taking (fun t _ => .offerTick t) _).trans ?_
  exact Moves.foldl _ (List.finRange 4) (fun t n => moves_taking (fun t _ => .gapTick t n) t) _

theorem moves_finishMillisecond (d a : Bool) (s : State) : Moves d a s (finishMillisecond s) :=
  (moves_deliverTicks d a _ s).trans (moves_takeDueTicks d a _)

theorem moves_timeTick (d : Bool) (b : Base) (r : TickReach) (pins : Half) (s : State) :
    Moves d true s (timeTick b r pins s) := by
  unfold timeTick
  split
  · exact (Move.pins s pins).one.trans (moves_deliverTicks _ _ _ _)
  · split
    · refine (moves_finishMillisecond _ _ s).trans ?_
      refine ((Move.advance _ rfl).one.trans (Move.pins _ pins).one).trans (moves_deliverTicks _ _ _ _)
    · exact .refl

/-! ### Commands -/

/-- A command that is not a reset acts by moves, RESET not held or held; it defines only where it may, and moves the uptime
only if it is a TICK. -/
theorem exec_moves (c : Instr) (s t : State) (h : exec c s = .next t) (noReset : c.resets = false)
    (noRelease : ∀ pins straps, c = .resetReleased pins straps → s.resetIsHeld = false) :
    Moves c.mayDefine c.isTick s t := by
  have request : ∀ n tag body, c.request = some (n, tag, body) → Moves c.mayDefine c.isTick s t := by
    intro n tag body hc
    rw [exec_request c n tag body s hc] at h
    cases h
    exact moves_takeRequest _ n tag body s fun s prompt ears => request_answered c n tag body s hc prompt ears
  cases c
  case ack n tag p => cases h; exact moves_ackFrame _ _ _ _ _
  case unknownRequest n k tag p =>
    cases h
    refine moves_unlessReset _ s fun t _ _ => ?_
    split
    · exact .refl
    · exact moves_unknown _ _ _ _ _
  case checkError n k tag p check =>
    cases h
    refine moves_unlessReset _ s fun t _ _ => ?_
    split
    · exact .refl
    · next ears => exact (Move.checkError t n (by simpa using fun e => ears (.inl e))).one
  case frameStartAbandoned n len =>
    cases h
    refine moves_unlessReset _ s fun t _ _ => ?_
    split
    · exact .refl
    · next ears => exact (Move.abandon t n len (by simpa using fun e => ears (.inl e))).one
  case gapTimerExpiry n => cases h; exact moves_unlessReset _ s fun t _ _ => (Move.gapTick t n).one
  case tick b r pins => cases h; exact moves_unlessReset _ s fun t _ _ => moves_timeTick _ b r pins t
  case watchExpiry i =>
    cases h
    refine moves_unlessReset _ s fun t _ _ => ?_
    split
    · exact (Move.watchTick t i).one
    · exact .refl
  case graceRunsOut i =>
    cases h
    refine moves_unlessReset _ s fun t _ _ => ?_
    split
    · exact (Move.watchTick t i).one
    · exact .refl
  case acceptedChange l => cases h; exact moves_unlessReset _ s fun t _ _ => (Move.sample t l).one
  case lineNoticeLeftPool l => cases h; exact moves_unlessReset _ s fun t _ _ => (Move.lineReport t l).one
  case noticeCreation ch e => cases h; exact moves_unlessReset _ s fun t _ _ => (Move.channel t ch e).one
  case noticeUnitSessionEnd n e => cases h; exact moves_unlessReset _ s fun t _ _ => (Move.noticeEnd t n e).one
  case authoritySessionEnd n =>
    cases h
    split
    · exact .refl
    · exact (Move.authorityEnd s n).one
  case offerTimerRunsOut => cases h; exact moves_unlessReset _ s fun t _ _ => (Move.offerTick t).one
  case inactivityTimeout n =>
    cases h; exact moves_unlessReset _ s fun t _ prompt => (Move.inactivityTick t n prompt).one
  case ackTimerRunsOut n k => cases h; exact moves_unlessReset _ s fun t _ prompt => (Move.ackTick t n k prompt).one
  case transmitterTakesFrame n => cases h; exact moves_unlessReset _ s fun t _ _ => (Move.frame t n).one
  case lastByteSent n pins =>
    cases h
    exact moves_unlessReset _ s fun t _ prompt => (Move.pins t pins).one.tail (.lastByte _ n prompt)
  case takingAClaim c => cases h; exact moves_unlessReset _ s fun t _ _ => (Move.claimWord t c).one
  case claimExpiry o c =>
    cases h
    refine moves_unlessReset _ s fun t _ _ => ?_
    unfold takeClaimExpiry
    split
    · exact (Move.claimTick t).one
    · exact .refl
  case clearClaimsRemoval i => cases h; exact moves_unlessReset _ s fun t _ _ => (Move.removalWord t i).one
  case crstAsserted n => cases h; exact moves_unlessReset _ s fun t _ prompt => (Move.asserted t n prompt).one
  case crstReleased n => cases h; exact moves_unlessReset _ s fun t _ _ => (Move.released t n).one
  case receiverTakesByte n b =>
    cases h
    refine moves_unlessReset _ s fun t _ _ => ?_
    rcases takeByte_cases n b t with h | ⟨k, tag, p, e⟩
    · exact h.mono
    · rw [e]; exact moves_dispatchFrame _ n k tag p t
  case powerOnReset => cases noReset
  case resetHeld => cases noReset
  case resetReleased pins straps =>
    cases h
    rw [if_neg (by simp [noRelease pins straps rfl])]
    exact (Move.settle s).one
  all_goals exact request _ _ _ rfl

/-- A law that every move keeps, that holds after a power-on reset and while RESET is held, and that a release of RESET keeps,
is kept by every step. -/
theorem step_keeps_of_moves (P : State → Prop) (shorter : ∀ (s : State) (q : List Instr), P s → P { s with pending := q })
    (move : ∀ {d a : Bool} {s t : State}, Move d a s t → P s → P t)
    (power : ∀ pins straps s, P (endReset pins straps (reinitialise .power s)))
    (held : ∀ s, P { reinitialise .pin s with resetIsHeld := true })
    (released : ∀ pins straps s, P s → P { endReset pins straps s with resetIsHeld := false, resetCause := .pin })
    (s t : State) (hs : P s) (h : step s = .next t) : P t := by
  refine step_keeps P shorter (fun c s t hs he => ?_) s t hs h
  have moves := exec_moves c s t he
  cases c
  case powerOnReset pins straps => cases he; exact power pins straps s
  case resetHeld => cases he; exact held s
  case resetReleased pins straps =>
    cases hh : s.resetIsHeld with
    | true =>
      cases he
      rw [if_pos hh]
      exact released pins straps s hs
    | false => exact (moves rfl fun _ _ _ => hh).keeps (fun _ _ => move) hs
  all_goals exact (moves rfl (by simp)).keeps (fun _ _ => move) hs

end Sys2Proof.Machine

/-!
PROOF. The watch table through every step: what a move can make of an entry, and that each such change keeps the laws of a
watch and, of a frozen one, its configuration (R1, R2, R4, R17, R19, R42, R46, R50).
-/

namespace Sys2Proof.Machine

/-! ### What a move can make of an entry -/

/-- What a move makes of the entry of watch `i`; `defines` says whether it may be a DEFINE. -/
inductive WatchChange (defines : Bool) (i : WatchIx) : Watch → Watch → Prop
  | define (w : Watch) (n : Link) (p : List Byte) (d : DefineItems) (may : defines = true)
      (shape : defineShape p = true) (read : readDefine n p = some d)
      (open_ : w.state = .free ∨ w.frozen = false ∧ w.state = .stopped) :
      WatchChange defines i w (d.entry n (w.generation + 1))
  | delete (w : Watch) (soft : w.frozen = false) (some : w.state ≠ .free) (loose : w.state ≠ .latched) :
      WatchChange defines i w (Watch.free w.generation)
  | start (w : Watch) (stopped : w.state = .stopped) :
      WatchChange defines i w { w with state := .running, count := w.reload, stage := 0, lastSeq := none }
  | stop (w : Watch) (some : w.state ≠ .free) (loose : w.state ≠ .latched) : WatchChange defines i w w.halt
  | pause (w : Watch) (running : w.state = .running) : WatchChange defines i w { w with state := .paused }
  | resume (w : Watch) (paused : w.state = .paused) : WatchChange defines i w { w with state := .running }
  | freeze (w : Watch) (some : w.state ≠ .free) : WatchChange defines i w { w with frozen := true }
  | feed (w : Watch) (v : Byte) (takes : w.takesFeed = true) : WatchChange defines i w (feedRequest i w v).2.watch
  | trigger (w : Watch) : WatchChange defines i w (triggerStep i w).watch
  | clear (w : Watch) (late : w.state = .overdue ∨ w.state = .latched) :
      WatchChange defines i w { w.halt with strikes := 0 }
  | countDown (w : Watch) : WatchChange defines i w (countDown i w).watch
  | tick (w : Watch) (b : Base) : WatchChange defines i w (w.tick b)
  | restart (w : Watch) : WatchChange defines i w w.restarted

/-- The entries change one by one, each by a change of its own or not at all. -/
abbrev WatchesChange (defines : Bool) (s t : State) : Prop :=
  ∀ i, t.watch i = s.watch i ∨ WatchChange defines i (s.watch i) (t.watch i)

section
variable {d : Bool}

theorem WatchesChange.of_watches {s t : State} (h : t.watches = s.watches) : WatchesChange d s t := by
  intro i
  left
  unfold State.watch
  rw [h]

theorem WatchesChange.of_one {s t : State} (i : WatchIx) {w : Watch} (change : WatchChange d i (s.watch i) w)
    (h : ∀ j, t.watch j = if j = i then w else s.watch j) : WatchesChange d s t := by
  intro j
  rw [h j]
  split
  · next e => subst e; exact .inr change
  · exact .inl rfl

theorem WatchesChange.setWatch (s : State) (i : WatchIx) {w : Watch} (change : WatchChange d i (s.watch i) w) :
    WatchesChange d s (s.setWatch i w) :=
  .of_one i change fun j => watch_setWatch s i w j

theorem WatchesChange.applyStep (s : State) (i : WatchIx) {r : WatchStep}
    (change : WatchChange d i (s.watch i) r.watch) : WatchesChange d s (applyStep i r s) :=
  .of_one i change fun j => watch_applyStep i j r s

theorem watchesChange_takeWatchTick (i : WatchIx) (s : State) : WatchesChange d s (takeWatchTick i s) := by
  unfold takeWatchTick
  split
  · exact .of_watches rfl
  · simp only
    split
    · exact WatchesChange.applyStep (s.setWatchTickDue i none) i (.countDown _)
    · exact .of_watches rfl

theorem watchesChange_triggerWatches (l : LineIx) (s : State) : WatchesChange d s (triggerWatches l s) := by
  intro i
  rw [(triggerWatches_spec l s).1 i]
  split
  · exact .inr (.trigger _)
  · exact .inl rfl

theorem watches_notifyTrigger (l : LineIx) (level : Bool) (s : State) :
    (notifyTrigger l level s).watches = s.watches := by
  have drained : (drainChannel (.line l) s).watches = s.watches := by rw [onlyNotices_drainChannel]
  unfold notifyTrigger
  split
  · simp only
    split <;> exact drained
  · rfl

theorem watchesChange_takeSample (l : LineIx) (s : State) : WatchesChange d s (takeSample l s) := by
  unfold takeSample
  split
  · exact .of_watches rfl
  · simp only
    split
    · intro i
      have e : ∀ t, (trigger l ‹Bool› t).watch i = (triggerWatches l t).watch i := by
        intro t
        unfold trigger State.watch
        rw [watches_notifyTrigger]
      rw [e]
      exact watchesChange_triggerWatches l _ i
    · exact .of_watches rfl

theorem watchesChange_deliverTick (p : TickPort) (s : State) : WatchesChange d s (deliverTick s p) := by
  cases p with
  | watches b =>
    intro i
    right
    have e : (deliverTick s (.watches b)).watch i = (s.watch i).tick b := get_remap _ _ _
    rw [e]
    exact .tick _ b
  | outputs =>
    refine .of_watches ?_
    simp only [deliverTick, tickClaims_eq]
    split <;> rfl
  | offerTimer =>
    refine .of_watches ?_
    simp only [deliverTick, tickOffer]
    split
    · split <;> rfl
    · rfl
    · rfl
  | lines => exact .of_watches rfl
  | ackTimers => exact .of_watches rfl
  | inactivityTimers => exact .of_watches rfl
  | gapTimers => exact .of_watches rfl

theorem watches_takeAuthority (n : Link) (s : State) : (takeClaimRequest n s).2.watches = s.watches := by
  unfold takeClaimRequest
  simp only
  split
  · rfl
  · split
    · rfl
    · split <;> rfl
  · split
    · rfl
    · split <;> rfl

theorem watches_takeFrame (n : Link) (s : State) : (takeFrame n s).watches = s.watches := by
  unfold takeFrame
  split
  · rfl
  · split
    · rfl
    · split
      · rfl
      · split
        · unfold resendFirst
          simp only
          split <;> rfl
        · split
          · split <;> rfl
          · rfl

theorem watchesChange_finishFrame (n : Link) (s : State) : WatchesChange d s (finishFrame n s) := by
  unfold finishFrame
  split
  · exact .of_watches rfl
  · simp only
    split
    · exact .of_watches rfl
    · exact .of_watches rfl
    · split
      · refine .of_watches ?_
        rw [onlyEnds_endSession]; rfl
      · exact .of_watches rfl
    · split
      · intro i
        right
        have e : (commandRestart (s.setTransmitter n none)).watch i = (s.watch i).restarted := get_remap _ _ _
        rw [e]
        exact .restart _
      · exact .of_watches rfl

theorem watches_takeGapTick (n : Link) (s : State) : (takeGapTick n s).watches = s.watches := by
  unfold takeGapTick
  simp only
  split
  · split
    · split <;> rfl
    · rfl
  · rfl

theorem watches_takeInactivityTick (n : Link) (s : State) : (takeInactivityTick n s).watches = s.watches := by
  unfold takeInactivityTick
  simp only
  split
  · split
    · split
      · rw [onlyEnds_endSession]; rfl
      · rfl
    · rfl
  · rfl

theorem watches_takeOfferTick (s : State) : (takeOfferTick s).watches = s.watches := by
  unfold takeOfferTick
  simp only
  split
  · split
    · split
      · rw [onlyAuthority_passOn]; rfl
      · rfl
    · rfl
    · rfl
  · rfl

theorem watches_takeAck (n : Link) (k : Byte) (s : State) : (takeAck n k s).watches = s.watches := by
  unfold takeAck
  simp only
  split
  · rw [reportDeparture_eq]; rfl
  · rfl

theorem watches_takeClaimWord (c : Claimant) (s : State) : (takeClaimWord c s).watches = s.watches := by
  unfold takeClaimWord
  split
  · unfold takeClaim
    rw [onlyClaims_changeClaims]; rfl
  · rfl

theorem watches_takeRemovalWord (i : WatchIx) (s : State) : (takeRemovalWord i s).watches = s.watches := by
  unfold takeRemovalWord
  split
  · rw [onlyClaims_dropAllClaims]; rfl
  · rfl

theorem watches_takeAssertedWord (n : Link) (s : State) : (takeAssertedWord n s).watches = s.watches := by
  rcases takeAssertedWord_cases n s with e | ⟨r, pre, post, _, _, e⟩ <;> rw [e]
  unfold takeAssertion
  rw [onlyEnds_endSession]
  rfl

theorem watches_takeReleasedWord (n : Link) (s : State) : (takeReleasedWord n s).watches = s.watches := by
  rcases takeReleasedWord_cases n s with e | ⟨pre, post, _, _, e⟩ <;> rw [e]
  unfold takeRelease
  split <;> rfl

/-- A move changes the watch table entry by entry. -/
theorem Move.watchesChange {a : Bool} {s t : State} (h : Move d a s t) : WatchesChange d s t := by
  cases h
  case settle => exact .of_watches (by rw [settleAuthority_leaves])
  case heard n _ => exact .of_watches (watches_heard s n)
  case endSession n why _ => exact .of_watches (by rw [onlyEnds_endSession])
  case openSession n p o _ _ _ _ =>
    refine .of_watches ?_
    have settled : (settleEnds n s).watches = s.watches := by rw [onlyShares_settleEnds]
    exact settled
  case define n p d i may shape read hw => exact .setWatch s i (.define _ n p d may shape read hw)
  case delete i soft some loose => exact .setWatch s i (.delete _ soft some loose)
  case start i stopped => exact .setWatch s i (.start _ stopped)
  case stop i some loose => exact .setWatch s i (.stop _ some loose)
  case pause i running => exact .setWatch s i (.pause _ running)
  case resume i paused => exact .setWatch s i (.resume _ paused)
  case freeze i some => exact .setWatch s i (.freeze _ some)
  case feed i v takes => exact .applyStep s i (.feed _ v takes)
  case complete i kind =>
    have e : triggerStep i (s.watch i) = completeStep i (s.watch i) := by simp only [triggerStep, kind]
    exact .applyStep s i (e ▸ .trigger _)
  case clear i late => exact WatchesChange.setWatch s i (.clear _ late)
  case drain l => exact .of_watches (by rw [onlyNotices_drainChannel])
  case unhold o =>
    refine .of_watches ?_
    have h := onlyClaims_changeClaims o (put ((settleManual o s).claimSet o) (slotOf .manual) none) none
      (settleManual o s)
    unfold dropClaim
    rw [h, settleManual_leaves]
    rfl
  case claim n _ _ => exact .of_watches (watches_takeAuthority n s)
  case passOn => exact .of_watches (by rw [onlyAuthority_passOn])
  case ack n k _ => exact .of_watches (watches_takeAck n k s)
  case hunt n b _ =>
    refine .of_watches ?_
    unfold huntByte
    split <;> rfl
  case abandon n b _ =>
    refine .of_watches ?_
    unfold abandonStart huntByte
    split <;> rfl
  case gapTick n => exact .of_watches (watches_takeGapTick n s)
  case deliver p => exact watchesChange_deliverTick p s
  case watchTick i => exact watchesChange_takeWatchTick i s
  case sample l => exact watchesChange_takeSample l s
  case claimTick =>
    exact .of_watches (by rw [onlyClaims_takeClaimTick]; rfl)
  case ackTick n k _ => exact .of_watches (by rw [onlyEnds_takeAckTick])
  case inactivityTick n _ => exact .of_watches (watches_takeInactivityTick n s)
  case offerTick => exact .of_watches (watches_takeOfferTick s)
  case lineReport l =>
    refine .of_watches ?_
    unfold takeLineReport takeDeparture
    split
    · rfl
    · split
      · simp only
        split <;> rfl
      · rfl
      · rfl
  case channel ch e => exact .of_watches (by rw [onlyNotices_takeChannel])
  case noticeEnd n x => exact .of_watches (by rw [onlyShares_noticeShare])
  case authorityEnd n => exact .of_watches (by rw [onlyShares_authorityShare])
  case frame n => exact .of_watches (watches_takeFrame n s)
  case lastByte n _ => exact watchesChange_finishFrame n s
  case claimWord c => exact .of_watches (watches_takeClaimWord c s)
  case removalWord i => exact .of_watches (watches_takeRemovalWord i s)
  case asserted n _ => exact .of_watches (watches_takeAssertedWord n s)
  case released n => exact .of_watches (watches_takeReleasedWord n s)
  all_goals exact .of_watches rfl

end

end Sys2Proof.Machine

/-!
PROOF. Every change of a watch entry keeps its laws (R1, R2, R4, R42, R46, R50) and leaves a frozen entry's configuration
(R17, R19).
-/

namespace Sys2Proof.Machine

/-! ### The laws of an entry that stands in the ladder -/

/-- Every stage record a watch can name is lawful, beyond the ladder too. -/
theorem lawful_stageRec {w : Watch} (h : w.ladderLaw) (k : Nat) : (w.stageRec k).lawful := by
  unfold Watch.stageRec
  rw [List.getD_eq_getElem?_getD]
  cases hr : w.ladder[k - 1]? with
  | none => simp [StageRec.lawful, Action.latching]
  | some r => exact h.2.1 r (List.mem_of_getElem? hr)

theorem stageLaw_of_lawful {w : Watch} (h : w.lawful) : w.stageLaw := by
  obtain ⟨_, _, _, stage, _⟩ := h
  exact stage

theorem counts_of_lawful {w : Watch} (h : w.lawful) (counts : w.state = .running ∨ w.state = .paused) :
    1 ≤ w.count ∧ w.count ≤ w.reload := by
  obtain ⟨_, _, _, _, ⟨count, _⟩, _⟩ := h
  exact count counts

theorem reload_pos_of_lawful {w : Watch} (h : w.lawful) (defined : w.state ≠ .free) : 1 ≤ w.reload := by
  obtain ⟨_, _, _, _, _, _, _, _, reload, _⟩ := h
  exact reload defined

theorem strikes_le_of_lawful {w : Watch} (h : w.lawful) : w.strikes ≤ 255 := by
  obtain ⟨_, _, _, _, _, _, strikes, _⟩ := h
  exact strikes

/-- What a HEARTBEAT or DEADLINE watch keeps whatever its state, stage and count are (R2, R4, R35). -/
structure Watch.Laddered (w : Watch) : Prop where
  kind : w.kind ≠ .activity
  heartbeat : w.kind = .heartbeat → w.seqcheck = false → w.lastSeq = none
  deadline : w.kind = .deadline → w.seqcheck = false ∧ w.lastSeq = none
  activityLevel : w.activityLevel = 0
  length : 1 ≤ w.ladder.length
  ladder : w.ladderLaw
  limit : w.strikeLimit ≤ 15
  strikes : w.strikes ≤ 255
  reload : 1 ≤ w.reload ∧ w.reload ≤ 65535

theorem laddered_of_lawful {w : Watch} (h : w.lawful) (defined : w.state ≠ .free) (kind : w.kind ≠ .activity) :
    w.Laddered := by
  obtain ⟨-, hkind, hladder, -, -, limit, strikes, reload, reload', -⟩ := h
  obtain ⟨heartbeat, deadline, -⟩ := hkind defined
  refine ⟨kind, fun e => (heartbeat e).1, fun e => ⟨(deadline e).1, (deadline e).2.1⟩, ?_, ?_, hladder, limit, strikes,
    reload' defined, reload⟩
  · cases hk : w.kind with
    | heartbeat => obtain ⟨_, level, _⟩ := heartbeat hk; exact level
    | deadline => obtain ⟨_, _, level, _⟩ := deadline hk; exact level
    | activity => exact absurd hk kind
  · cases hk : w.kind with
    | heartbeat => obtain ⟨_, _, length, _⟩ := heartbeat hk; exact length
    | deadline => obtain ⟨_, _, _, length, _⟩ := deadline hk; exact length
    | activity => exact absurd hk kind

/-- A watch in the ladder, latched on one of its stages, is lawful (R47, R48, R50). -/
theorem lawful_latchOn {w : Watch} (h : w.Laddered) {k : Nat} (low : 1 ≤ k) (high : k ≤ w.ladder.length) :
    (w.latchOn k).lawful := by
  obtain ⟨kind, heartbeat, deadline, level, length, ladder, limit, strikes, reload⟩ := h
  refine ⟨by simp [Watch.latchOn], ?_, ladder, ?_, ?_, ?_⟩
  · intro _
    exact ⟨fun e => ⟨heartbeat e, level, length, by simp [Watch.latchOn]⟩,
      fun e => ⟨(deadline e).1, (deadline e).2, level, length, by simp [Watch.latchOn]⟩, fun e => absurd e kind⟩
  · simp [Watch.stageLaw, Watch.latchOn, low, high]
  · simp [Watch.latchOn, Watch.countLaw]
  · exact ⟨limit, strikes, reload.2, fun _ => reload.1, fun _ _ => rfl⟩

/-- A watch in the ladder that enters one of its stages with its strikes below the limit is lawful (R43, R48). -/
theorem lawful_enterStage (i : WatchIx) {w : Watch} (h : w.Laddered) {k : Nat} (fault : Option (Byte × Byte)) (low : 1 ≤ k)
    (high : k ≤ w.ladder.length) (below : w.strikeLimit ≠ 0 → w.strikes < w.strikeLimit) :
    (enterStage i w k fault).watch.lawful := by
  have stage := (lawful_stageRec h.ladder k).1
  unfold enterStage
  simp only
  split
  · exact lawful_latchOn h low high
  · next soft =>
    simp only [soft, Bool.false_eq_true, if_false] at stage
    obtain ⟨kind, heartbeat, deadline, level, length, ladder, limit, strikes, reload⟩ := h
    refine ⟨by simp, ?_, ladder, ?_, ?_, ?_⟩
    · intro _
      exact ⟨fun e => ⟨heartbeat e, level, length, by simp⟩,
        fun e => ⟨(deadline e).1, (deadline e).2, level, length, by simp⟩, fun e => absurd e kind⟩
    · simp [Watch.stageLaw, low, high]
    · refine ⟨by simp, fun _ => ⟨stage.1, ?_⟩, by simp⟩
      simp [Watch.stageRec]
    · exact ⟨limit, strikes, reload.2, fun _ => reload.1, fun some reached => absurd (below some) (by
        simpa using reached)⟩

theorem laddered_strike {w : Watch} (h : w.Laddered) : w.strike.Laddered :=
  ⟨h.kind, h.heartbeat, h.deadline, h.activityLevel, h.length, h.ladder, h.limit, Nat.min_le_left _ _, h.reload⟩

/-- A lapse of a watch in the ladder leaves it lawful: at the strike limit it is LATCHED (R35, R50). -/
theorem lawful_lapse (i : WatchIx) {w : Watch} (h : w.Laddered) (fault : Option (Byte × Byte)) :
    (lapse i w fault).watch.lawful := by
  have struck := laddered_strike h
  unfold lapse
  simp only
  split
  · exact lawful_latchOn struck struck.length (le_refl _)
  · next below => exact lawful_enterStage i struck fault (le_refl _) struck.length (by omega)

/-! ### Each change of an entry -/

theorem lawful_free (g : Byte) : (Watch.free g).lawful := by
  simp [Watch.lawful, Watch.freeLaw, Watch.kindLaw, Watch.ladderLaw, Watch.stageLaw, Watch.countLaw, Watch.strikeLaw,
    Watch.free]

/-- A stage record that is read is lawful (R4, R8). -/
theorem lawful_of_readStage {p : List Byte} {k : Nat} {r : StageRec} (h : readStage p k = some r) : r.lawful := by
  obtain ⟨inRange, reads⟩ := readsAs_of_readStage h
  obtain ⟨-, grace, -, duration⟩ := (stageInRange_iff_of_action reads.action).mp inRange
  have target := reads.target
  refine ⟨?_, ?_, fun plain => ?_⟩
  · rw [reads.grace]
    cases hl : r.action.latching with
    | true => simp
    | false => simpa using ⟨Nat.one_le_iff_ne_zero.mpr (grace hl), halfAt_le p _⟩
  · rw [reads.duration]
    by_cases hp : r.action = .pulse
    · simpa [hp] using ⟨Nat.one_le_iff_ne_zero.mpr (duration hp), halfAt_le p _⟩
    · simp [hp]
  · rw [if_neg (by rcases plain with e | e <;> simp [e])] at target
    exact Fin.ext target

/-- The entry a DEFINE writes is lawful (R8, R9, R11). -/
theorem lawful_entry {n m : Link} {p : List Byte} {d : DefineItems} (shape : defineShape p = true)
    (h : readDefine n p = some d) (g : Byte) : (d.entry m g).lawful := by
  obtain ⟨⟨inRange, -⟩, reads⟩ := readsAs_of_readDefine h
  obtain ⟨items, consistent⟩ := Option.filter_eq_some_iff.mp h
  obtain ⟨laddered, plain, seq, unlimited, level, loose, -⟩ := (consistent_iff d).mp consistent
  obtain ⟨-, -, -, reload, limit, -⟩ := inRange
  have few : (byteAt p 12).toNat ≤ 4 := by
    simp only [defineShape, Bool.and_eq_true, decide_eq_true_eq] at shape
    exact shape.1.2
  have stages : ∀ r ∈ d.ladder, r.lawful := by
    unfold readDefineItems at items
    split_ifs at items
    split at items
    · next kind base primary fallback lv ladder hk hb hp hf hl hs =>
      cases items
      intro r hr
      obtain ⟨j, hj⟩ := List.mem_iff_getElem?.mp hr
      exact lawful_of_readStage ((readStage_of_readStages hs).2 j r hj)
    · cases items
  refine ⟨by simp [DefineItems.entry], ?_, ⟨?_, stages, ?_⟩, ?_, ?_, ?_⟩
  · intro _
    refine ⟨fun e => ⟨fun _ => rfl, level ?_, Nat.one_le_iff_ne_zero.mpr (laddered ?_), by simp [DefineItems.entry]⟩,
      fun e => ⟨?_, rfl, level ?_, Nat.one_le_iff_ne_zero.mpr (laddered ?_), by simp [DefineItems.entry]⟩,
      fun e => ⟨?_, rfl, unlimited e, List.length_eq_zero_iff.mp (plain e), by simp [DefineItems.entry]⟩⟩
    · rw [show d.kind = .heartbeat from e]; decide
    · rw [show d.kind = .heartbeat from e]; decide
    · exact Bool.eq_false_iff.mpr fun on => by simpa [show d.kind = .deadline from e] using seq on
    · rw [show d.kind = .deadline from e]; decide
    · rw [show d.kind = .deadline from e]; decide
    · exact Bool.eq_false_iff.mpr fun on => by simpa [show d.kind = .activity from e] using seq on
  · change d.ladder.length ≤ 4
    rw [reads.length]; exact few
  · have none := (dropLast_any_latching_eq_false_iff d.ladder).mpr loose
    intro r hr
    exact Bool.eq_false_iff.mpr (List.any_eq_false.mp none r hr)
  · simp [Watch.stageLaw, DefineItems.entry]
  · simp [Watch.countLaw, DefineItems.entry]
  · have lowLimit := reads.strikeLimit
    have reload' := reads.reload
    have := halfAt_le p 3
    refine ⟨?_, by simp [DefineItems.entry], ?_, fun _ => ?_, fun some reached => absurd reached ?_⟩
    · change d.strikeLimit ≤ 15; omega
    · change d.reload ≤ 65535; omega
    · change 1 ≤ d.reload; omega
    · change ¬ d.strikeLimit ≤ 0
      have : d.strikeLimit ≠ 0 := some
      omega

/-- A watch that is not latched has its strikes below its limit (R50). -/
theorem below_of_lawful {w : Watch} (h : w.lawful) (loose : w.state ≠ .latched) :
    w.strikeLimit ≠ 0 → w.strikes < w.strikeLimit := by
  obtain ⟨-, -, -, -, -, -, -, -, -, reached⟩ := h
  intro some
  by_contra high
  exact loose (reached some (Nat.not_lt.mp high))

section
variable {w : Watch}

/-- A defined watch that is not LATCHED, in RUNNING with its count loaded or PAUSED with a count, at stage 0, is lawful. -/
theorem lawful_counting (h : w.lawful) (defined : w.state ≠ .free) (loose : w.state ≠ .latched) {st : WatchState} {k : Nat}
    (counts : st = .running ∨ st = .paused) (low : 1 ≤ k) (high : k ≤ w.reload) :
    ({ w with state := st, stage := 0, count := k } : Watch).lawful := by
  have below := below_of_lawful h loose
  obtain ⟨-, hkind, ladder, -, -, limit, strikes, reload, reload', -⟩ := h
  obtain ⟨heartbeat, deadline, activity⟩ := hkind defined
  rcases counts with rfl | rfl
  all_goals
    refine ⟨by simp, fun _ => ⟨fun e => ?_, fun e => ?_, fun e => ?_⟩, ladder, by simp [Watch.stageLaw], ?_, ?_⟩
    · obtain ⟨a, b, c, -⟩ := heartbeat e; exact ⟨a, b, c, by simp⟩
    · obtain ⟨a, b, c, d, -⟩ := deadline e; exact ⟨a, b, c, d, by simp⟩
    · obtain ⟨a, b, c, d, -⟩ := activity e; exact ⟨a, b, c, d, by simp⟩
    · simp [Watch.countLaw, low, high]
    · exact ⟨limit, strikes, reload, fun _ => reload' defined, fun some reached =>
        absurd (below some) (by simpa using reached)⟩

/-- A watch refreshed or recovered is lawful. -/
theorem lawful_refresh (h : w.lawful) (defined : w.state ≠ .free) (loose : w.state ≠ .latched) : w.refresh.lawful :=
  lawful_counting h defined loose (.inl rfl) (reload_pos_of_lawful h defined) (le_refl _)

/-- A watch returned to STOPPED with fewer strikes than its limit is lawful, with those it has or with none. -/
theorem lawful_halt (h : w.lawful) (defined : w.state ≠ .free) {k : Nat} (strikes : k ≤ 255)
    (below : w.strikeLimit ≠ 0 → k < w.strikeLimit) : ({ w.halt with strikes := k } : Watch).lawful := by
  obtain ⟨-, hkind, ladder, -, -, limit, -, reload, reload', -⟩ := h
  obtain ⟨heartbeat, deadline, activity⟩ := hkind defined
  refine ⟨by simp [Watch.halt], fun _ => ⟨fun e => ?_, fun e => ?_, fun e => ?_⟩, ladder, by simp [Watch.stageLaw, Watch.halt], ?_, ?_⟩
  · obtain ⟨a, b, c, -⟩ := heartbeat e; exact ⟨a, b, c, by simp [Watch.halt]⟩
  · obtain ⟨a, b, c, d, -⟩ := deadline e; exact ⟨a, b, c, d, by simp [Watch.halt]⟩
  · obtain ⟨a, b, c, d, -⟩ := activity e; exact ⟨a, b, c, d, by simp [Watch.halt]⟩
  · simp [Watch.countLaw, Watch.halt]
  · exact ⟨limit, strikes, reload, fun _ => reload' defined, fun some reached =>
      absurd (below some) (by simpa [Watch.halt] using reached)⟩

theorem lawful_halt_of_loose (h : w.lawful) (defined : w.state ≠ .free) (loose : w.state ≠ .latched) :
    w.halt.lawful :=
  lawful_halt h defined (k := w.strikes) (strikes_le_of_lawful h) (below_of_lawful h loose)

theorem lawful_feedStep (i : WatchIx) (h : w.lawful) : (feedStep i w).watch.lawful := by
  unfold feedStep
  split
  · next hs => exact lawful_refresh h (by simp [hs]) (by simp [hs])
  · next hs => exact lawful_refresh h (by simp [hs]) (by simp [hs])
  · next hs => exact lawful_refresh h (by simp [hs]) (by simp [hs])
  · next hs => exact lawful_refresh h (by simp [hs]) (by simp [hs])
  · exact h

theorem lawful_completeStep (i : WatchIx) (h : w.lawful) : (completeStep i w).watch.lawful := by
  unfold completeStep
  split
  case h_1 hs => exact lawful_halt_of_loose h (by simp [hs]) (by simp [hs])
  case h_2 hs => exact lawful_halt_of_loose h (by simp [hs]) (by simp [hs])
  all_goals exact h

theorem lawful_triggerStep (i : WatchIx) (h : w.lawful) : (triggerStep i w).watch.lawful := by
  unfold triggerStep
  split
  · exact lawful_completeStep i h
  · exact lawful_feedStep i h
  · exact lawful_feedStep i h

/-- The last sequence of a watch whose sequence is examined may be any. -/
theorem lawful_lastSeq (h : w.lawful) (examines : w.examines = true) (v : Option Byte) (defined : w.state ≠ .free) :
    ({ w with lastSeq := v } : Watch).lawful := by
  simp only [Watch.examines, Bool.and_eq_true, decide_eq_true_eq] at examines
  obtain ⟨hfree, hkind, ladder, stage, count, strike⟩ := h
  obtain ⟨heartbeat, deadline, activity⟩ := hkind defined
  refine ⟨fun e => absurd e defined, fun _ => ⟨fun e => ?_, fun e => ?_, fun e => ?_⟩, ladder, stage, count, strike⟩
  · exact ⟨fun off => by simp [show w.seqcheck = false from off] at examines, (heartbeat e).2⟩
  · simp [show w.kind = .deadline from e] at examines
  · simp [show w.kind = .activity from e] at examines

theorem lawful_feedRequest (i : WatchIx) (h : w.lawful) (v : Byte) (takes : w.takesFeed = true) :
    (feedRequest i w v).2.watch.lawful := by
  have defined : w.state ≠ .free := by
    intro e
    cases hk : w.kind <;> simp [Watch.takesFeed, hk, e] at takes
  unfold feedRequest
  split
  · next examines =>
    have fed := lawful_lastSeq h examines (some v) defined
    simp only [Watch.examines, Bool.and_eq_true, decide_eq_true_eq] at examines
    have laddered := laddered_of_lawful fed defined (by simp [examines.1])
    simp only
    split
    · exact lawful_feedStep i fed
    · split
      · exact lawful_lapse i laddered _
      · next notRunning =>
        have overdue : w.state = .overdue := by
          cases hs : w.state <;> simp [Watch.takesFeed, examines.1, hs] at takes notRunning ⊢
        have stage := stageLaw_of_lawful fed
        simp only [Watch.stageLaw, overdue, true_or, if_true] at stage
        unfold faultInOverdue
        split
        · next more =>
          exact lawful_enterStage i laddered _ (by simp) more (below_of_lawful fed (by simp [overdue]))
        · exact lawful_latchOn laddered stage.1 stage.2
  · exact lawful_feedStep i h

/-- A count that is not the last of its RUNNING or OVERDUE may go down by one. -/
theorem lawful_countedDown (h : w.lawful) {st : WatchState} (is : w.state = st) (counts : st = .running ∨ st = .overdue)
    (more : 1 < w.count) : ({ w with state := st, count := w.count - 1 } : Watch).lawful := by
  subst is
  obtain ⟨free, kind, ladder, stage, ⟨counting, grace, -⟩, strike⟩ := h
  refine ⟨fun e => ?_, kind, ladder, stage, ⟨fun e => ?_, fun e => ?_, fun e => ?_⟩, strike⟩
  · rcases counts with c | c <;> exact absurd (c.symm.trans e) (by decide)
  · have := (counting e).2
    exact ⟨by change 1 ≤ w.count - 1; omega, by change w.count - 1 ≤ w.reload; omega⟩
  · have := (grace e).2
    exact ⟨by change 1 ≤ w.count - 1; omega, by change w.count - 1 ≤ (w.stageRec w.stage).grace; omega⟩
  · rcases counts with c | c <;> simp [c] at e

theorem lawful_countDown (i : WatchIx) (h : w.lawful) : (countDown i w).watch.lawful := by
  have h' := h
  obtain ⟨-, hkind, ladder, stage, -, limit, -, reload, reload', -⟩ := h'
  unfold countDown
  split
  case h_1 running =>
    have defined : w.state ≠ .free := by simp [running]
    have loose : w.state ≠ .latched := by simp [running]
    split
    · unfold expire
      split
      · next activity =>
        obtain ⟨a, b, c, d, -⟩ := (hkind defined).2.2 activity
        refine ⟨by simp, fun _ => ⟨fun e => ?_, fun e => ?_, fun _ => ⟨a, b, c, d, by simp⟩⟩, ladder, by simp [Watch.stageLaw], ?_, ?_⟩
        · exact absurd (activity.symm.trans e) (by decide)
        · exact absurd (activity.symm.trans e) (by decide)
        · simp [Watch.countLaw]
        · exact ⟨limit, Nat.min_le_left _ _, reload, fun _ => reload' defined, fun some _ => absurd c some⟩
      · next kind =>
        have kind : w.kind = .heartbeat := kind
        exact lawful_lapse i
          (show Watch.Laddered { w with count := 0 } from
            have l := laddered_of_lawful h defined (by simp [kind])
            ⟨l.kind, l.heartbeat, l.deadline, l.activityLevel, l.length, l.ladder, l.limit, l.strikes, l.reload⟩) _
      · next kind =>
        have kind : w.kind = .deadline := kind
        exact lawful_lapse i
          (show Watch.Laddered { w with count := 0 } from
            have l := laddered_of_lawful h defined (by simp [kind])
            ⟨l.kind, l.heartbeat, l.deadline, l.activityLevel, l.length, l.ladder, l.limit, l.strikes, l.reload⟩) _
    · next more => exact lawful_countedDown h rfl (.inl running) (Nat.not_le.mp more)
  case h_2 overdue =>
    have defined : w.state ≠ .free := by simp [overdue]
    have kind : w.kind ≠ .activity := fun e => by
      obtain ⟨_, _, activity⟩ := hkind defined
      obtain ⟨_, _, _, _, notOverdue, _⟩ := activity e
      exact notOverdue overdue
    have stages : 1 ≤ w.stage ∧ w.stage ≤ w.ladder.length := by simpa [Watch.stageLaw, overdue] using stage
    have laddered : Watch.Laddered { w with count := 0 } :=
      have l := laddered_of_lawful h defined kind
      ⟨l.kind, l.heartbeat, l.deadline, l.activityLevel, l.length, l.ladder, l.limit, l.strikes, l.reload⟩
    have below := below_of_lawful h (by simp [overdue])
    split
    · unfold endGrace
      split
      · next more => exact lawful_enterStage i laddered _ (by simp) more below
      · exact lawful_latchOn laddered stages.1 stages.2
    · next more => exact lawful_countedDown h rfl (.inr overdue) (Nat.not_le.mp more)
  all_goals exact h

/-- A tick counted at an entry is a tick taken there short of the last. -/
theorem lawful_tick (h : w.lawful) (b : Base) : (w.tick b).lawful := by
  unfold Watch.tick
  split
  · next due =>
    obtain ⟨-, counts, more⟩ := due
    exact lawful_countedDown h rfl counts more
  · exact h

end

/-- Every change of an entry keeps its laws. -/
theorem WatchChange.lawful {d : Bool} {i : WatchIx} {w v : Watch} (c : WatchChange d i w v) (h : w.lawful) : v.lawful := by
  cases c with
  | define n p d may shape read open_ => exact lawful_entry shape read _
  | delete soft some loose => exact lawful_free _
  | start stopped =>
    have reload := reload_pos_of_lawful h (by simp [stopped])
    have lawful := lawful_counting h (by simp [stopped]) (by simp [stopped]) (.inl rfl) reload (le_refl _)
    obtain ⟨-, hkind, c⟩ := lawful
    obtain ⟨heartbeat, deadline, activity⟩ := hkind (by simp)
    exact ⟨fun e => absurd e (by simp), fun _ => ⟨fun e => ⟨fun _ => rfl, (heartbeat e).2⟩,
      fun e => ⟨(deadline e).1, rfl, (deadline e).2.2⟩, fun e => ⟨(activity e).1, rfl, (activity e).2.2⟩⟩, c⟩
  | stop some loose => exact lawful_halt_of_loose h some loose
  | pause running =>
    have stage : w.stage = 0 := by simpa [Watch.stageLaw, running] using stageLaw_of_lawful h
    have ⟨positive, fits⟩ := counts_of_lawful h (.inl running)
    have lawful := lawful_counting h (by simp [running]) (by simp [running]) (.inr rfl) positive fits
    rwa [← stage] at lawful
  | resume paused =>
    have stage : w.stage = 0 := by simpa [Watch.stageLaw, paused] using stageLaw_of_lawful h
    have ⟨positive, fits⟩ := counts_of_lawful h (.inr paused)
    have lawful := lawful_counting h (by simp [paused]) (by simp [paused]) (.inl rfl) positive fits
    rwa [← stage] at lawful
  | freeze some => exact ⟨fun e => absurd e some, h.2⟩
  | feed v takes => exact lawful_feedRequest i h v takes
  | trigger => exact lawful_triggerStep i h
  | clear late =>
    refine lawful_halt h ?_ (Nat.zero_le _) fun some => Nat.pos_of_ne_zero some
    rcases late with e | e <;> simp [e]
  | countDown => exact lawful_countDown i h
  | tick b => exact lawful_tick h b
  | restart =>
    unfold Watch.restarted
    split
    · exact h
    · exact lawful_free _

theorem watchesLawful_reset : State.reset.watchesLawful := by
  intro i
  have e : State.reset.watch i = Watch.free 0 := by simp [State.reset, State.watch]
  rw [e]
  exact lawful_free 0

/-- Settles O50: every change that a move makes of an entry keeps its laws. -/
theorem watchesStayLawful : Obligations.WatchesStayLawful := by
  refine step_keeps_of_moves _ (fun _ _ h => h) (fun {d a s t} m h i => ?_) (fun _ _ _ => watchesLawful_reset)
    (fun _ => watchesLawful_reset) (fun _ _ _ h => h)
  rcases m.watchesChange i with e | change
  · rw [e]; exact h i
  · exact change.lawful (h i)

end Sys2Proof.Machine

/-!
PROOF. What the moves of receivers, links and words leave unchanged; and, through every step, the configuration of a watch
entry, the uptime and the command queue (R1, R3, R17, R19, R20).
-/

namespace Sys2Proof.Machine

/-! ### What a move leaves unchanged -/

/-- Only link records and receivers may differ. -/
abbrev OnlyReception (s t : State) : Prop := t = { s with links := t.links, receivers := t.receivers }

theorem onlyReception_heard (n : Link) (s : State) : OnlyReception s (s.heard n) := by
  unfold State.heard State.frameArrived
  simp only
  split <;> rfl

theorem onlyReception_huntByte (n : Link) (b : Byte) (s : State) : OnlyReception s (huntByte n b s) := by
  unfold huntByte
  split <;> rfl

theorem onlyReception_abandonStart (n : Link) (b : Byte) (s : State) : OnlyReception s (abandonStart n b s) := by
  unfold abandonStart huntByte
  split <;> rfl

theorem onlyReception_takeGapTick (n : Link) (s : State) : OnlyReception s (takeGapTick n s) := by
  unfold takeGapTick
  simp only
  split
  · split
    · split <;> rfl
    · rfl
  · rfl

theorem OnlyEnds.trans {s t u : State} (h : OnlyEnds s t) (h' : OnlyEnds t u) : OnlyEnds s u := by
  unfold OnlyEnds at *
  rw [h'] at *
  rw [h]

theorem onlyEnds_takeInactivityTick (n : Link) (s : State) : OnlyEnds s (takeInactivityTick n s) := by
  unfold takeInactivityTick
  simp only
  split
  · split
    · split
      · refine OnlyEnds.trans (t := s.setLink n _) rfl (onlyEnds_endSession n .silence _)
      · rfl
    · rfl
  · rfl

theorem onlyAuthority_takeOfferTick (s : State) : OnlyAuthority s (takeOfferTick s) := by
  unfold takeOfferTick
  simp only
  split
  · split
    · split
      · refine OnlyAuthority.trans (t := s.setAuthority _) rfl (onlyAuthority_passOn none _)
      · rfl
    · rfl
    · rfl
  · rfl

theorem onlyAuthority_takeClaimRequest (n : Link) (s : State) : OnlyAuthority s (takeClaimRequest n s).2 := by
  unfold takeClaimRequest
  simp only
  split
  · rfl
  · split
    · rfl
    · split <;> rfl
  · split
    · rfl
    · split <;> rfl

/-- Only what a transmitter takes from may differ: replies, deliveries, queues and loss counts. -/
abbrev OnlySends (s t : State) : Prop :=
  t = { s with
    links := t.links, transmitters := t.transmitters, deliveries := t.deliveries, queues := t.queues, losses := t.losses }

theorem onlySends_resendFirst (n : Link) (k : Byte) (rest : List Byte) (s : State) :
    OnlySends s (resendFirst n k rest s) := by
  unfold resendFirst
  simp only
  split <;> rfl

theorem onlySends_takeFrame (n : Link) (s : State) : OnlySends s (takeFrame n s) := by
  unfold takeFrame
  split
  · rfl
  · split
    · rfl
    · split
      · rfl
      · split
        · exact onlySends_resendFirst n _ _ s
        · split
          · split <;> rfl
          · rfl

/-- Only deliveries and the reports to the line unit may differ. -/
abbrev OnlyAcks (s t : State) : Prop :=
  t = { s with deliveries := t.deliveries, transit := { s.transit with lineReports := t.transit.lineReports } }

theorem onlyAcks_takeAck (n : Link) (k : Byte) (s : State) : OnlyAcks s (takeAck n k s) := by
  unfold takeAck
  simp only
  split
  · rw [reportDeparture_eq]; rfl
  · rfl

/-- Only claims, the words they came in and what their changes announce may differ. -/
abbrev OnlyOutputs (s t : State) : Prop :=
  t = { s with
    claims := t.claims
    transit := { s.transit with
      creations := t.transit.creations, crstWords := t.transit.crstWords, outputWords := t.transit.outputWords } }

theorem OnlyClaims.onlyOutputs {s t u : State} (h : OnlyClaims s t) (e : s = u.withOutputWords s.transit.outputWords) :
    OnlyOutputs u t := by
  unfold OnlyClaims OnlyOutputs at *
  rw [h, e]
  rfl

theorem onlyOutputs_takeClaimWord (c : Claimant) (s : State) : OnlyOutputs s (takeClaimWord c s) := by
  unfold takeClaimWord
  split
  · exact (onlyClaims_changeClaims _ _ _ _).onlyOutputs rfl
  · rfl

theorem onlyOutputs_takeRemovalWord (i : WatchIx) (s : State) : OnlyOutputs s (takeRemovalWord i s) := by
  unfold takeRemovalWord
  split
  · exact (onlyClaims_dropAllClaims _ _).onlyOutputs rfl
  · rfl

theorem onlyOutputs_unhold (o : OutputIx) (s : State) : OnlyOutputs s (dropClaim .manual o (settleManual o s)) :=
  ((settleManual_leaves o s).trans (onlyClaims_changeClaims _ _ _ _)).onlyOutputs rfl

/-- Only link units, deliveries and the words and ends of sessions may differ. -/
abbrev OnlyClientReset (s t : State) : Prop :=
  t = { s with
    links := t.links, receivers := t.receivers, transmitters := t.transmitters, deliveries := t.deliveries
    transit := { s.transit with
      noticeEnds := t.transit.noticeEnds, authorityEnds := t.transit.authorityEnds, crstWords := t.transit.crstWords } }

theorem onlyClientReset_takeAssertedWord (n : Link) (s : State) : OnlyClientReset s (takeAssertedWord n s) := by
  rcases takeAssertedWord_cases n s with e | ⟨r, pre, post, _, _, e⟩ <;> rw [e]
  unfold takeAssertion
  rw [onlyEnds_endSession]
  rfl

theorem onlyClientReset_takeReleasedWord (n : Link) (s : State) : OnlyClientReset s (takeReleasedWord n s) := by
  rcases takeReleasedWord_cases n s with e | ⟨pre, post, _, _, e⟩ <;> rw [e]
  unfold takeRelease
  split <;> rfl

/-! ### What every move keeps of the whole part -/

/-- No move touches the command queue, and none but that of the time base the uptime. -/
theorem Move.pending_uptime {d a : Bool} {s t : State} (h : Move d a s t) :
    t.pending = s.pending ∧ (a = false → t.uptime = s.uptime) := by
  cases h
  case settle => rw [settleAuthority_leaves]; exact ⟨rfl, fun _ => rfl⟩
  case heard n _ => rw [onlyReception_heard n s]; exact ⟨rfl, fun _ => rfl⟩
  case endSession n why _ => rw [onlyEnds_endSession n why s]; exact ⟨rfl, fun _ => rfl⟩
  case openSession n p o _ _ _ _ =>
    have settled := onlyShares_settleEnds n s
    rw [settled]
    exact ⟨rfl, fun _ => rfl⟩
  case drain l => rw [onlyNotices_drainChannel (.line l) s]; exact ⟨rfl, fun _ => rfl⟩
  case unhold o => rw [onlyOutputs_unhold o s]; exact ⟨rfl, fun _ => rfl⟩
  case claim n _ _ => rw [onlyAuthority_takeClaimRequest n s]; exact ⟨rfl, fun _ => rfl⟩
  case passOn => rw [onlyAuthority_passOn none s]; exact ⟨rfl, fun _ => rfl⟩
  case ack n k _ => rw [onlyAcks_takeAck n k s]; exact ⟨rfl, fun _ => rfl⟩
  case hunt n b _ => rw [onlyReception_huntByte n b s]; exact ⟨rfl, fun _ => rfl⟩
  case abandon n b _ => rw [onlyReception_abandonStart n b s]; exact ⟨rfl, fun _ => rfl⟩
  case gapTick n => rw [onlyReception_takeGapTick n s]; exact ⟨rfl, fun _ => rfl⟩
  case advance may => exact ⟨rfl, fun e => absurd (may.symm.trans e) (by decide)⟩
  case deliver p => obtain ⟨pending, uptime, -⟩ := deliverTick_leaves p s; exact ⟨pending, fun _ => uptime⟩
  case watchTick i => rw [onlyWatches_takeWatchTick i s]; exact ⟨rfl, fun _ => rfl⟩
  case sample l => rw [onlyLines_takeSample l s]; exact ⟨rfl, fun _ => rfl⟩
  case claimTick => rw [onlyClaims_takeClaimTick s]; exact ⟨rfl, fun _ => rfl⟩
  case ackTick n k _ => rw [onlyEnds_takeAckTick n k s]; exact ⟨rfl, fun _ => rfl⟩
  case inactivityTick n _ => rw [onlyEnds_takeInactivityTick n s]; exact ⟨rfl, fun _ => rfl⟩
  case offerTick => rw [onlyAuthority_takeOfferTick s]; exact ⟨rfl, fun _ => rfl⟩
  case lineReport l => rw [onlyLines_takeLineReport l s]; exact ⟨rfl, fun _ => rfl⟩
  case channel ch e => rw [onlyNotices_takeChannel ch e s]; exact ⟨rfl, fun _ => rfl⟩
  case noticeEnd n x => rw [onlyShares_noticeShare n x s]; exact ⟨rfl, fun _ => rfl⟩
  case authorityEnd n => rw [onlyShares_authorityShare n s]; exact ⟨rfl, fun _ => rfl⟩
  case frame n => rw [onlySends_takeFrame n s]; exact ⟨rfl, fun _ => rfl⟩
  case lastByte n _ =>
    unfold finishFrame
    split
    · exact ⟨rfl, fun _ => rfl⟩
    · simp only
      split
      · exact ⟨rfl, fun _ => rfl⟩
      · exact ⟨rfl, fun _ => rfl⟩
      · split
        · rw [onlyEnds_endSession]; exact ⟨rfl, fun _ => rfl⟩
        · exact ⟨rfl, fun _ => rfl⟩
      · split <;> exact ⟨rfl, fun _ => rfl⟩
  case claimWord c => rw [onlyOutputs_takeClaimWord c s]; exact ⟨rfl, fun _ => rfl⟩
  case removalWord i => rw [onlyOutputs_takeRemovalWord i s]; exact ⟨rfl, fun _ => rfl⟩
  case asserted n _ => rw [onlyClientReset_takeAssertedWord n s]; exact ⟨rfl, fun _ => rfl⟩
  case released n => rw [onlyClientReset_takeReleasedWord n s]; exact ⟨rfl, fun _ => rfl⟩
  all_goals exact ⟨rfl, fun _ => rfl⟩

theorem Moves.pending {d a : Bool} {s t : State} (h : Moves d a s t) : t.pending = s.pending :=
  h.keeps (P := fun u => u.pending = s.pending) (fun _ _ m e => m.pending_uptime.1.trans e) rfl

theorem Moves.uptime {d : Bool} {s t : State} (h : Moves d false s t) : t.uptime = s.uptime :=
  h.keeps (P := fun u => u.uptime = s.uptime) (fun _ _ m e => (m.pending_uptime.2 rfl).trans e) rfl

/-! ### What a change of an entry keeps of its configuration -/

theorem sameConfiguration_refl (w : Watch) : w.sameConfiguration w :=
  ⟨rfl, rfl, rfl, rfl, rfl, rfl, rfl, rfl, rfl, rfl, rfl⟩

/-- What an entry keeps through whatever is counted, fed or requested of it, short of a DEFINE, a DELETE, a restart and a
FREEZE. -/
structure Watch.Keeps (w v : Watch) : Prop where
  generation : v.generation = w.generation
  frozen : v.frozen = w.frozen
  free : v.state = .free ↔ w.state = .free
  configuration : w.sameConfiguration v

theorem keeps_refl (w : Watch) : w.Keeps w := ⟨rfl, rfl, .rfl, sameConfiguration_refl w⟩

/-- A defined entry moved to a state in which it is defined, its configuration untouched, is kept. -/
theorem keeps_of_defined {w v : Watch} (defined : w.state ≠ .free) (defined' : v.state ≠ .free)
    (generation : v.generation = w.generation) (frozen : v.frozen = w.frozen) (configuration : w.sameConfiguration v) :
    w.Keeps v :=
  ⟨generation, frozen, iff_of_false defined' defined, configuration⟩

section
variable {w v : Watch} (i : WatchIx)

theorem Watch.Keeps.latchOn (h : w.Keeps v) (defined : w.state ≠ .free) (k : Nat) : w.Keeps (v.latchOn k) :=
  keeps_of_defined defined (by simp [Watch.latchOn]) h.generation h.frozen h.configuration

theorem Watch.Keeps.enterStage (h : w.Keeps v) (defined : w.state ≠ .free) (k : Nat) (fault : Option (Byte × Byte)) :
    w.Keeps (enterStage i v k fault).watch := by
  unfold Machine.enterStage
  simp only
  split
  · exact h.latchOn defined k
  · exact keeps_of_defined defined (by simp) h.generation h.frozen h.configuration

theorem Watch.Keeps.lapse (h : w.Keeps v) (defined : w.state ≠ .free) (fault : Option (Byte × Byte)) :
    w.Keeps (lapse i v fault).watch := by
  have struck : w.Keeps v.strike := ⟨h.generation, h.frozen, h.free, h.configuration⟩
  unfold Machine.lapse
  simp only
  split
  · exact struck.latchOn defined _
  · exact struck.enterStage i defined 1 fault

theorem Watch.Keeps.refresh (h : w.Keeps v) (defined : w.state ≠ .free) : w.Keeps v.refresh :=
  keeps_of_defined defined (by simp [Watch.refresh]) h.generation h.frozen h.configuration

theorem Watch.Keeps.halt (h : w.Keeps v) (defined : w.state ≠ .free) : w.Keeps v.halt :=
  keeps_of_defined defined (by simp [Watch.halt]) h.generation h.frozen h.configuration

theorem Watch.Keeps.feedStep (h : w.Keeps v) : w.Keeps (feedStep i v).watch := by
  unfold Machine.feedStep
  split
  case h_5 => exact h
  all_goals exact h.refresh (fun e => by simp_all [h.free.mpr e])

theorem keeps_completeStep : w.Keeps (completeStep i w).watch := by
  unfold Machine.completeStep
  split
  case h_1 e => exact (keeps_refl w).halt (by simp [e])
  case h_2 e => exact (keeps_refl w).halt (by simp [e])
  all_goals exact keeps_refl w

theorem keeps_triggerStep : w.Keeps (triggerStep i w).watch := by
  unfold triggerStep
  split
  · exact keeps_completeStep i
  · exact (keeps_refl w).feedStep i
  · exact (keeps_refl w).feedStep i

theorem keeps_feedRequest (value : Byte) (defined : w.state ≠ .free) : w.Keeps (feedRequest i w value).2.watch := by
  have seen : w.Keeps { w with lastSeq := some value } := ⟨rfl, rfl, .rfl, sameConfiguration_refl w⟩
  unfold feedRequest
  split
  · simp only
    split
    · exact seen.feedStep i
    · split
      · exact seen.lapse i defined _
      · unfold faultInOverdue
        split
        · exact seen.enterStage i defined _ _
        · exact seen.latchOn defined _
  · exact (keeps_refl w).feedStep i

theorem keeps_countDown : w.Keeps (countDown i w).watch := by
  have down : ∀ k, w.Keeps { w with count := k } := fun k => ⟨rfl, rfl, .rfl, sameConfiguration_refl w⟩
  unfold countDown
  split
  case h_1 running =>
    have defined : w.state ≠ .free := by simp [running]
    split
    · unfold expire
      split
      · exact keeps_of_defined defined (by simp) rfl rfl (sameConfiguration_refl w)
      · exact (down 0).lapse i defined none
      · exact (down 0).lapse i defined none
    · exact down _
  case h_2 overdue =>
    have defined : w.state ≠ .free := by simp [overdue]
    split
    · unfold endGrace
      split
      · exact (down 0).enterStage i defined _ _
      · exact (down 0).latchOn defined _
    · exact down _
  all_goals exact keeps_refl w

theorem keeps_tick (b : Base) : w.Keeps (w.tick b) := by
  unfold Watch.tick
  split
  · exact ⟨rfl, rfl, .rfl, sameConfiguration_refl w⟩
  · exact keeps_refl w

end

/-- A FREE watch takes no feed. -/
theorem defined_of_takesFeed {w : Watch} (h : w.takesFeed = true) : w.state ≠ .free := by
  intro e
  cases hk : w.kind <;> simp [Watch.takesFeed, hk, e] at h

/-- Everything a change makes of an entry: a DEFINE writes it, it is freed, it is frozen, or it keeps its configuration. -/
theorem WatchChange.cases {d : Bool} {i : WatchIx} {w v : Watch} (c : WatchChange d i w v) :
    (d = true ∧ v.generation = w.generation + 1 ∧ (w.state = .free ∨ w.frozen = false))
    ∨ (w.frozen = false ∧ v = Watch.free w.generation)
    ∨ (w.state ≠ .free ∧ v = { w with frozen := true })
    ∨ w.Keeps v := by
  cases c with
  | define n p items may shape read open_ => exact .inl ⟨may, rfl, open_.imp_right And.left⟩
  | delete soft some loose => exact .inr (.inl ⟨soft, rfl⟩)
  | start stopped =>
    exact .inr (.inr (.inr (keeps_of_defined (by simp [stopped]) (by simp) rfl rfl (sameConfiguration_refl w))))
  | stop some loose => exact .inr (.inr (.inr ((keeps_refl w).halt some)))
  | pause running =>
    exact .inr (.inr (.inr (keeps_of_defined (by simp [running]) (by simp) rfl rfl (sameConfiguration_refl w))))
  | resume paused =>
    exact .inr (.inr (.inr (keeps_of_defined (by simp [paused]) (by simp) rfl rfl (sameConfiguration_refl w))))
  | freeze some => exact .inr (.inr (.inl ⟨some, rfl⟩))
  | feed value takes => exact .inr (.inr (.inr (keeps_feedRequest i value (defined_of_takesFeed takes))))
  | trigger => exact .inr (.inr (.inr (keeps_triggerStep i)))
  | clear late =>
    have defined : w.state ≠ .free := by rcases late with e | e <;> simp [e]
    exact .inr (.inr (.inr (keeps_of_defined defined (by simp [Watch.halt]) rfl rfl (sameConfiguration_refl w))))
  | countDown => exact .inr (.inr (.inr (keeps_countDown i)))
  | tick b => exact .inr (.inr (.inr (keeps_tick b)))
  | restart =>
    unfold Watch.restarted
    split
    · exact .inr (.inr (.inr (keeps_refl w)))
    · next soft => exact .inr (.inl ⟨by simpa using soft, rfl⟩)

/-! ### A frozen entry -/

/-- What a frozen, defined entry has kept. -/
structure Watch.Held (w v : Watch) : Prop where
  frozen : v.frozen = true
  defined : v.state ≠ .free
  generation : v.generation = w.generation
  configuration : w.sameConfiguration v

theorem Watch.Held.change {d : Bool} {i : WatchIx} {w v u : Watch} (h : w.Held v) (c : WatchChange d i v u) :
    w.Held u := by
  rcases c.cases with ⟨_, _, open_⟩ | ⟨soft, _⟩ | ⟨_, e⟩ | keeps
  · rcases open_ with free | soft
    · exact absurd free h.defined
    · exact absurd (h.frozen.symm.trans soft) (by decide)
  · exact absurd (h.frozen.symm.trans soft) (by decide)
  · subst e
    exact ⟨rfl, h.defined, h.generation, h.configuration⟩
  · obtain ⟨k, o, b, r, q, l, ls, p, f, a, la⟩ := h.configuration
    obtain ⟨k', o', b', r', q', l', ls', p', f', a', la'⟩ := keeps.configuration
    exact ⟨keeps.frozen.trans h.frozen, fun e => h.defined (keeps.free.mp e), keeps.generation.trans h.generation,
      k'.trans k, o'.trans o, b'.trans b, r'.trans r, q'.trans q, l'.trans l, ls'.trans ls, p'.trans p, f'.trans f,
      a'.trans a, la'.trans la⟩

/-- A move keeps what a frozen entry has kept. -/
theorem Move.held {d a : Bool} {s t : State} (m : Move d a s t) {w : Watch} {i : WatchIx} (h : w.Held (s.watch i)) :
    w.Held (t.watch i) := by
  rcases m.watchesChange i with e | change
  · rwa [e]
  · exact h.change change

/-- A command that is not a reset acts by moves, but for the release of a RESET that is held. -/
theorem exec_moves_or_released (c : Instr) (s t : State) (h : exec c s = .next t) (noReset : c.resets = false) :
    Moves c.mayDefine c.isTick s t
    ∨ ∃ pins straps, t = { endReset pins straps s with resetIsHeld := false, resetCause := .pin } := by
  by_cases release : s.resetIsHeld = true ∧ ∃ pins straps, c = .resetReleased pins straps
  · obtain ⟨held, pins, straps, rfl⟩ := release
    cases h
    rw [if_pos held]
    exact .inr ⟨pins, straps, rfl⟩
  · exact .inl (exec_moves c s t h noReset fun pins straps e =>
      Bool.eq_false_iff.mpr fun held => release ⟨held, pins, straps, e⟩)

/-- Settles O51: a move makes of a frozen entry nothing but a frozen entry of the same configuration. -/
theorem frozenWatchesStayAsTheyAre : Obligations.FrozenWatchesStayAsTheyAre := by
  intro s t lawful h noReset i frozen
  have start : (s.watch i).Held (s.watch i) :=
    by
    refine ⟨frozen, fun free => ?_, rfl, sameConfiguration_refl _⟩
    rw [(lawful i).1 free] at frozen
    cases frozen
  suffices held : (s.watch i).Held (t.watch i) from
    ⟨held.frozen, held.defined, held.generation, held.configuration⟩
  rcases step_cases s t h with ⟨_, rfl⟩ | ⟨c, rest, queue, he⟩
  · exact start
  · rcases exec_moves_or_released c _ t he (noReset c (by simp [queue])) with moves | ⟨pins, straps, rfl⟩
    · exact moves.keeps (P := fun u => (s.watch i).Held (u.watch i)) (fun _ _ m => m.held) start
    · exact start

/-! ### Uptime, generations and configurations -/

/-- What anything but a DEFINE leaves of an entry: its generation, and its configuration unless it is freed. -/
structure Watch.Undefined (w v : Watch) : Prop where
  generation : v.generation = w.generation
  free : w.state = .free → v.state = .free
  configuration : v.state = .free ∨ w.sameConfiguration v

theorem undefined_refl (w : Watch) : w.Undefined w := ⟨rfl, id, .inr (sameConfiguration_refl w)⟩

theorem Watch.Undefined.change {i : WatchIx} {w v u : Watch} (h : w.Undefined v) (c : WatchChange false i v u) :
    w.Undefined u := by
  rcases c.cases with ⟨e, _⟩ | ⟨_, e⟩ | ⟨_, e⟩ | keeps
  · cases e
  · subst e
    exact ⟨h.generation, fun _ => rfl, .inl rfl⟩
  · subst e
    exact ⟨h.generation, h.free, h.configuration⟩
  · refine ⟨keeps.generation.trans h.generation, fun e => keeps.free.mpr (h.free e), ?_⟩
    rcases h.configuration with free | ⟨k, o, b, r, q, l, ls, p, f, a, la⟩
    · exact .inl (keeps.free.mpr free)
    · obtain ⟨k', o', b', r', q', l', ls', p', f', a', la'⟩ := keeps.configuration
      exact .inr ⟨k'.trans k, o'.trans o, b'.trans b, r'.trans r, q'.trans q, l'.trans l, ls'.trans ls, p'.trans p,
        f'.trans f, a'.trans a, la'.trans la⟩

theorem Moves.undefined {a : Bool} {s t : State} (h : Moves false a s t) (i : WatchIx) :
    (s.watch i).Undefined (t.watch i) := by
  refine h.keeps (P := fun u => (s.watch i).Undefined (u.watch i)) (fun u v m kept => ?_) (undefined_refl _)
  rcases m.watchesChange i with e | change
  · rwa [e]
  · exact kept.change change

/-- At most one DEFINE has come between: each entry has its generation and configuration still, or the next generation. -/
abbrev DefinesOnce (s t : State) : Prop :=
  ∀ i, (s.watch i).Undefined (t.watch i) ∨ (t.watch i).generation = (s.watch i).generation + 1

theorem definesOnce_of_watches {s t : State} (h : t.watches = s.watches) : DefinesOnce s t := by
  intro i
  left
  have e : t.watch i = s.watch i := by unfold State.watch; rw [h]
  rw [e]
  exact undefined_refl _

/-- The block of DEFINE writes one entry, with its next generation, or none (R7). -/
theorem definesOnce_defineBody (n : Link) (p : List Byte) (s : State) : DefinesOnce s (defineBody n p s).2 := by
  have h := defineBody_answered (n := n) (s := s) p
  generalize hr : defineBody n p s = r at h
  have written : ∀ d i, DefinesOnce s (defineEntry n d i s).2 := by
    intro d i j
    rw [show (defineEntry n d i s).2 = s.setWatch i (d.entry n ((s.watch i).generation + 1)) from rfl, watch_setWatch]
    split
    · next e => subst e; exact .inr rfl
    · exact .inl (undefined_refl _)
  subst hr
  unfold defineBody checkShapeAndOpen
  split
  · exact definesOnce_of_watches rfl
  · split
    · exact definesOnce_of_watches rfl
    · split
      · exact definesOnce_of_watches rfl
      · split
        · exact definesOnce_of_watches rfl
        · simp only
          split
          · exact written _ _
          · split
            · exact definesOnce_of_watches rfl
            · split
              · exact definesOnce_of_watches rfl
              · split
                · exact definesOnce_of_watches rfl
                · exact written _ _

theorem definesOnce_define (n : Link) (tag : Byte) (p : List Byte) (s : State) :
    DefinesOnce s (takeRequest n tag (defineBody n p) s) := by
  cases held : s.resetIsHeld with
  | true => rw [takeRequest_of_held n tag _ s held]; exact definesOnce_of_watches rfl
  | false =>
    have same : (settleAuthority s).watches = s.watches := by rw [settleAuthority_leaves]
    rw [← takeRequest_settleAuthority n tag _ s held]
    have runs : (settleAuthority s).runs := ⟨by rwa [resetIsHeld_settleAuthority], authorityEnds_settleAuthority s⟩
    generalize settleAuthority s = u at runs same
    rcases takeRequest_cases n tag (defineBody n p) u runs with ⟨_, e⟩ | ⟨_, _, e⟩ | ⟨_, e⟩ <;> rw [e]
    · exact definesOnce_of_watches same
    · exact definesOnce_of_watches ((watches_heard u n).trans same)
    · have heard : ∀ i, (u.heard n).watch i = s.watch i := by
        intro i; unfold State.watch; rw [watches_heard, same]
      intro i
      have once := definesOnce_defineBody n p (u.heard n) i
      rw [heard i] at once
      exact once

/-- A request command that is not a DEFINE, or a frame that is none, does no DEFINE; a DEFINE does one at most. -/
theorem definesOnce_dispatchFrame (n : Link) (kind tag : Byte) (p : List Byte) (s : State) :
    DefinesOnce s (dispatchFrame n kind tag p s) := by
  rcases dispatchFrame_cases n kind tag p s with e | e | ⟨c, body, request, _, e⟩ <;> rw [e]
  · exact fun i => .inl ((moves_ackFrame false false n tag s).undefined i)
  · exact fun i => .inl ((moves_unknown false false n tag s).undefined i)
  · cases may : c.mayDefine with
    | false =>
      refine fun i => .inl (Moves.undefined (a := false) (moves_takeRequest _ n tag body s fun s prompt ears => ?_) i)
      exact may ▸ request_answered c n tag body s request prompt ears
    | true =>
      cases c <;> simp only [Instr.mayDefine, Bool.false_eq_true] at may
      case define =>
        cases request
        exact definesOnce_define n tag _ s
      case receiverTakesByte => cases request

theorem definesOnce_takeByte (n : Link) (b : Byte) (s : State) : DefinesOnce s (takeByte n b s) := by
  rcases takeByte_cases n b s with moves | ⟨k, tag, p, e⟩
  · exact fun i => .inl (moves.undefined i)
  · rw [e]; exact definesOnce_dispatchFrame n k tag p s

/-- A TICK moves the uptime by one at most (R20). -/
theorem uptime_timeTick (b : Base) (r : TickReach) (pins : Half) (s : State) :
    (timeTick b r pins s).uptime = s.uptime ∨ (timeTick b r pins s).uptime = s.uptime + 1 := by
  unfold timeTick
  split
  · exact .inl (deliverTicks_leaves _ _).2.1
  · split
    · right
      rw [(deliverTicks_leaves _ _).2.1]
      change (finishMillisecond s).uptime + 1 = _
      rw [(finishMillisecond_leaves s).2.1]
    · exact .inl rfl

/-- A command that may define defines once at most. -/
theorem exec_definesOnce (c : Instr) (s t : State) (h : exec c s = .next t) (may : c.mayDefine = true) :
    DefinesOnce s t := by
  cases c <;> simp only [Instr.mayDefine, Bool.false_eq_true] at may
  case define n tag p =>
    cases h
    exact definesOnce_define n tag p s
  case receiverTakesByte n b =>
    cases h
    cases held : s.resetIsHeld with
    | true => rw [unlessReset_of_held _ s held]; exact definesOnce_of_watches rfl
    | false =>
      rw [unlessReset_of_running _ s held]
      have same : ∀ i, (settleAuthority s).watch i = s.watch i := by
        intro i; unfold State.watch; rw [settleAuthority_leaves]
      intro i
      have once := definesOnce_takeByte n b (settleAuthority s) i
      rwa [same i] at once

/-- A TICK command moves the uptime by one at most. -/
theorem exec_uptime_of_tick (c : Instr) (s t : State) (h : exec c s = .next t) (is : c.isTick = true) :
    t.uptime = s.uptime ∨ t.uptime = s.uptime + 1 := by
  cases c <;> simp only [Instr.isTick, Bool.false_eq_true] at is
  case tick b r pins =>
    cases h
    cases held : s.resetIsHeld with
    | true => rw [unlessReset_of_held _ s held]; exact .inl rfl
    | false =>
      rw [unlessReset_of_running _ s held]
      have same : (settleAuthority s).uptime = s.uptime := by rw [settleAuthority_leaves]
      rw [← same]
      exact uptime_timeTick b r pins _

theorem resetting_cases {c : Instr} (h : c.resets = true) :
    (∃ pins straps, c = .powerOnReset pins straps) ∨ c = .resetHeld := by
  cases c
  case powerOnReset pins straps => exact .inl ⟨pins, straps, rfl⟩
  case resetHeld => exact .inr rfl
  all_goals cases h

theorem pending_endReset_reinitialise (pins : Half) (straps : Straps) (cause : ResetCause) (s : State) :
    (endReset pins straps (reinitialise cause s)).pending = s.pending := by
  simp only [endReset, reinitialise]

theorem exec_pending (c : Instr) (s t : State) (h : exec c s = .next t) : t.pending = s.pending := by
  cases resets : c.resets with
  | true =>
    rcases resetting_cases resets with ⟨pins, straps, rfl⟩ | rfl
    · rw [← show endReset pins straps (reinitialise .power s) = t from Host.Outcome.next.inj h]
      exact pending_endReset_reinitialise pins straps .power s
    · rw [← show { reinitialise .pin s with resetIsHeld := true } = t from Host.Outcome.next.inj h]
      simp only [reinitialise]
  | false =>
    rcases exec_moves_or_released c s t h resets with moves | ⟨pins, straps, rfl⟩
    · exact moves.pending
    · rfl

/-- Settles O52: the moves of a command that may not define keep generations and configurations, and those of a command
that is not a TICK the uptime. -/
theorem onlyTicksAndDefines : Obligations.OnlyTicksAndDefines := by
  intro s t c rest queue h
  obtain ⟨none, _⟩ | ⟨c', rest', queue', he⟩ := step_cases s t h
  · rw [none] at queue; cases queue
  obtain ⟨rfl, rfl⟩ : c' = c ∧ rest' = rest := by simpa [queue'] using queue
  refine ⟨exec_pending c' _ t he, fun noReset => ⟨?_, fun i => ?_⟩⟩
  · cases is : c'.isTick with
    | true => exact (exec_uptime_of_tick c' _ t he is).imp_right fun e => ⟨rfl, e⟩
    | false =>
      left
      rcases exec_moves_or_released c' _ t he noReset with moves | ⟨pins, straps, rfl⟩
      · rw [is] at moves
        exact moves.uptime
      · rfl
  · cases may : c'.mayDefine with
    | true =>
      rcases exec_definesOnce c' _ t he may i with kept | next
      · exact .inl ⟨kept.generation, kept.configuration⟩
      · exact .inr ⟨rfl, next⟩
    | false =>
      left
      rcases exec_moves_or_released c' _ t he noReset with moves | ⟨pins, straps, rfl⟩
      · rw [may] at moves
        have kept := moves.undefined i
        exact ⟨kept.generation, kept.configuration⟩
      · exact ⟨rfl, .inr (sameConfiguration_refl _)⟩

end Sys2Proof.Machine

/-!
PROOF. What the moves do to the notices: every move is a chain of a few steps at the notice unit, the delivery units, the
transmitters and the lines, or leaves what those hold as it is.
-/

namespace Sys2Proof.Machine

/-! ### What is handed on by others than the lines -/

/-- A source that is no line. -/
def Source.offLine (x : Source) : Prop := ∀ l, x ≠ .line l

/-- The creations handed on between two states are of no line. -/
abbrev HandsOn (s t : State) : Prop :=
  ∃ cs, t.transit.creations = s.transit.creations ++ cs ∧ ∀ c ∈ cs, c.key.source.offLine

theorem handsOn_of_eq {s t : State} (h : t.transit.creations = s.transit.creations) : HandsOn s t :=
  ⟨[], by simp [h], by simp⟩

theorem HandsOn.trans {s t u : State} (h : HandsOn s t) (h' : HandsOn t u) : HandsOn s u := by
  obtain ⟨cs, e, off⟩ := h
  obtain ⟨cs', e', off'⟩ := h'
  refine ⟨cs ++ cs', by rw [e', e, List.append_assoc], fun c hc => ?_⟩
  rcases List.mem_append.mp hc with hc | hc
  · exact off c hc
  · exact off' c hc

theorem handsOn_post {cs : List Creation} (off : ∀ c ∈ cs, c.key.source.offLine) (s : State) : HandsOn s (s.post cs) := by
  refine ⟨cs.map (Creation.handed s), rfl, fun c hc => ?_⟩
  obtain ⟨b, hb, rfl⟩ := List.mem_map.mp hc
  rw [key_handed]
  exact off b hb

theorem HandsOn.lineCreations {s t : State} (h : HandsOn s t) (l : LineIx) : t.lineCreations l = s.lineCreations l := by
  obtain ⟨cs, e, off⟩ := h
  have none : cs.filter (fun c => decide (c.key.source = .line l)) = [] := by
    rw [List.filter_eq_nil_iff]
    intro c hc
    simpa using off c hc l
  unfold State.lineCreations
  rw [e, List.filter_append, none, List.append_nil]

theorem HandsOn.foldl {α : Type} (f : State → α → State) (l : List α) (h : ∀ t x, HandsOn t (f t x)) (s : State) :
    HandsOn s (l.foldl f s) := by
  induction l generalizing s with
  | nil => exact handsOn_of_eq rfl
  | cons x l ih => exact (h s x).trans (ih (f s x))

/-- The notices of what a watch does are about it. -/
abbrev WatchStep.about (i : WatchIx) (r : WatchStep) : Prop := ∀ c ∈ r.notices, c.key.source = .watch i

section
variable (i : WatchIx) (w : Watch)

theorem about_enterStage (k : Nat) (fault : Option (Byte × Byte)) : (enterStage i w k fault).about i := by
  have stage : (stageNotice i w k fault).key.source = .watch i := by unfold stageNotice; split <;> rfl
  unfold enterStage
  simp only
  split
  · simp [WatchStep.about, stage, latchedNotice, watchNotice]
  · simp [WatchStep.about, stage]

theorem about_lapse (fault : Option (Byte × Byte)) : (lapse i w fault).about i := by
  unfold lapse
  simp only
  split
  · simp [WatchStep.about, strikeOut, latchedNotice, watchNotice]
  · exact about_enterStage i _ 1 fault

theorem about_countDown : (countDown i w).about i := by
  unfold countDown
  split
  case h_1 =>
    split
    · unfold expire
      split
      · simp [WatchStep.about, watchNotice]
      · exact about_lapse i _ none
      · exact about_lapse i _ none
    · simp [WatchStep.about, WatchStep.quiet]
  case h_2 =>
    split
    · unfold endGrace
      split
      · exact about_enterStage i _ _ none
      · simp [WatchStep.about, latchedNotice, watchNotice]
    · simp [WatchStep.about, WatchStep.quiet]
  all_goals simp [WatchStep.about, WatchStep.quiet]

theorem about_feedStep : (feedStep i w).about i := by
  unfold feedStep
  split <;> simp [WatchStep.about, WatchStep.quiet, watchNotice]

theorem about_feedRequest (v : Byte) : (feedRequest i w v).2.about i := by
  unfold feedRequest
  split
  · simp only
    split
    · exact about_feedStep i _
    · split
      · exact about_lapse i _ _
      · unfold faultInOverdue
        split
        · exact about_enterStage i _ _ _
        · simp [WatchStep.about, stageNotice, latchedNotice, watchNotice]
  · exact about_feedStep i w

theorem about_completeStep : (completeStep i w).about i := by
  unfold completeStep
  split <;> simp [WatchStep.about, WatchStep.quiet, watchNotice]

theorem about_triggerStep : (triggerStep i w).about i := by
  unfold triggerStep
  split
  · exact about_completeStep i w
  · exact about_feedStep i w
  · exact about_feedStep i w

end

theorem handsOn_applyStep {i : WatchIx} {r : WatchStep} (h : r.about i) (s : State) : HandsOn s (applyStep i r s) :=
  (handsOn_of_eq (t := (s.setWatch i r.watch).sendOutput r.words) rfl).trans
    (handsOn_post (fun c hc l => by rw [h c hc]; simp) _)

theorem handsOn_takeWatchTick (i : WatchIx) (s : State) : HandsOn s (takeWatchTick i s) := by
  unfold takeWatchTick
  split
  · exact handsOn_of_eq rfl
  · simp only
    split
    · exact handsOn_applyStep (s := s.setWatchTickDue i none) (about_countDown i _)
    · exact handsOn_of_eq rfl

theorem handsOn_triggerWatches (l : LineIx) (s : State) : HandsOn s (triggerWatches l s) := by
  refine HandsOn.foldl _ _ (fun t i => ?_) s
  split
  · exact handsOn_applyStep (about_triggerStep i _) t
  · exact handsOn_of_eq rfl

theorem handsOn_passOn (ended : Option Link) (s : State) : HandsOn s (passOn ended s) := by
  unfold passOn
  split
  · exact handsOn_post (s := s.setAuthority _) (by simp [authChange, Source.offLine])
  · exact handsOn_post (s := s.setAuthority _) (by simp [authOffer, Source.offLine])

theorem handsOn_becomeHolder (n : Link) (s : State) : HandsOn s (becomeHolder n s) :=
  handsOn_post (s := s.setAuthority _) (by simp [authChange, Source.offLine])

theorem handsOn_takeClaimRequest (n : Link) (s : State) : HandsOn s (takeClaimRequest n s).2 := by
  unfold takeClaimRequest
  simp only
  split
  · exact handsOn_becomeHolder n s
  · split
    · exact handsOn_of_eq rfl
    · split
      · exact handsOn_of_eq rfl
      · exact handsOn_post (s := joinClaimList n s) (by simp [authWanted, Source.offLine])
  · split
    · exact handsOn_becomeHolder n s
    · split <;> exact handsOn_of_eq rfl

theorem handsOn_takeAuthorityEnd (n : Link) (s : State) : HandsOn s (takeAuthorityEnd n s) := by
  unfold takeAuthorityEnd
  split
  · split
    · exact handsOn_passOn _ s
    · exact handsOn_of_eq rfl
  · split
    · exact handsOn_passOn _ s
    · exact handsOn_of_eq rfl
  · exact handsOn_of_eq rfl

theorem handsOn_settleAuthority (s : State) : HandsOn s (settleAuthority s) :=
  (handsOn_of_eq (t := s.setTransit { s.transit with authorityEnds := [] }) rfl).trans
    (HandsOn.foldl _ _ (fun t n => handsOn_takeAuthorityEnd n t) _)

theorem handsOn_authorityShare (n : Link) (s : State) : HandsOn s (authorityShare n s) := by
  unfold authorityShare
  split
  · exact handsOn_of_eq rfl
  · next m rest _ => exact handsOn_takeAuthorityEnd m (s.setTransit { s.transit with authorityEnds := rest })

theorem handsOn_takeOfferTick (s : State) : HandsOn s (takeOfferTick s) := by
  unfold takeOfferTick
  simp only
  split
  · split
    · split
      · exact handsOn_passOn none (s.setAuthority { s.authority with offerDue := false })
      · exact handsOn_of_eq rfl
    · exact handsOn_of_eq rfl
    · exact handsOn_of_eq rfl
  · exact handsOn_of_eq rfl

theorem handsOn_changeClaims (o : OutputIx) (set : ClaimSet) (r : Resetter) (s : State) :
    HandsOn s (changeClaims o set r s) := by
  rw [changeClaims_eq]
  split
  · exact handsOn_of_eq rfl
  · rw [announce_eq]
    exact ⟨_, rfl, by simp [outputNotice, Source.offLine]⟩

theorem handsOn_dropAllClaims (i : WatchIx) (s : State) : HandsOn s (dropAllClaims i s) := by
  unfold dropAllClaims
  exact HandsOn.foldl (fun t o => dropClaim (.watch i) o t) _ (fun t o => handsOn_changeClaims o _ none t) s

theorem handsOn_countClaims (s : State) : HandsOn s (countClaims s) := by
  unfold countClaims
  exact HandsOn.foldl (fun t o => changeClaims o (ClaimSet.counted (t.claimSet o)) none t) _
    (fun t o => handsOn_changeClaims o _ none t) s

theorem handsOn_takeClaimTick (s : State) : HandsOn s (takeClaimTick s) := by
  unfold takeClaimTick
  split
  · exact handsOn_countClaims (s.setClaimTickDue false)
  · exact handsOn_of_eq rfl

theorem handsOn_takeClaimWord (c : Claimant) (s : State) : HandsOn s (takeClaimWord c s) := by
  unfold takeClaimWord
  split
  · next rest _ => exact handsOn_changeClaims _ _ _ (s.withOutputWords rest)
  · exact handsOn_of_eq rfl

theorem handsOn_takeRemovalWord (i : WatchIx) (s : State) : HandsOn s (takeRemovalWord i s) := by
  unfold takeRemovalWord
  split
  · next rest _ => exact handsOn_dropAllClaims _ (s.withOutputWords rest)
  · exact handsOn_of_eq rfl

theorem handsOn_unhold (o : OutputIx) (s : State) : HandsOn s (dropClaim .manual o (settleManual o s)) := by
  have settled : HandsOn s (settleManual o s) := by
    unfold settleManual
    exact (handsOn_of_eq (t := s.withOutputWords (s.transit.outputWords.filter fun w => !w.isManual o)) rfl).trans
      (HandsOn.foldl (fun t (w : OutputWord) => takeClaim .manual o w.duration none t) _
        (fun t w => handsOn_changeClaims o _ (resetterOf .manual none) t) _)
  exact settled.trans (handsOn_changeClaims o _ none _)

/-! ### What leaves the notices as they are -/

/-- The notices a frame being sent carries are among those `s` sends. -/
abbrev SendsNoMore (s t : State) : Prop :=
  ∀ n, ∀ f ∈ t.transmitter n, ∀ k ∈ f.number, ∃ g ∈ s.transmitter n, k ∈ g.number

/-- A line counts and waits as before. -/
structure LineRec.waitsAs (r q : LineRec) : Prop where
  pending : q.pending = r.pending
  overrun : q.overrun = r.overrun
  filter : r.disagreement ≤ r.filter → q.disagreement ≤ q.filter

/-- The queues, the records in flight, the ends on their way, what the lines wait for and which links are UP are the same. -/
structure SameNotices (s t : State) : Prop where
  queues : t.queues = s.queues
  flights : ∀ n, (t.delivery n).inFlight = (s.delivery n).inFlight
  resends : ∀ n, (t.delivery n).resend = (s.delivery n).resend
  windows : ∀ n, (t.delivery n).window = (s.delivery n).window
  sends : SendsNoMore s t
  ends : t.transit.noticeEnds.map (fun e => (e.link, e.handed)) = s.transit.noticeEnds.map fun e => (e.link, e.handed)
  up : ∀ n, t.isUp n = s.isUp n
  reports : t.transit.lineReports = s.transit.lineReports
  lines : ∀ l, (s.line l).waitsAs (t.line l)
  creations : ∀ l, t.lineCreations l = s.lineCreations l

theorem sendsNoMore_of_eq {s t : State} (h : t.transmitters = s.transmitters) : SendsNoMore s t := by
  intro n f hf k hk
  exact ⟨f, by unfold State.transmitter at *; rwa [← h], hk⟩

theorem waitsAs_refl (r : LineRec) : r.waitsAs r := ⟨rfl, rfl, id⟩

/-- Notices stay as they are where only other parts change and nothing about a line is handed on. -/
theorem sameNotices_of_eq {s t : State} (queues : t.queues = s.queues) (deliveries : t.deliveries = s.deliveries)
    (transmitters : t.transmitters = s.transmitters) (ends : t.transit.noticeEnds = s.transit.noticeEnds)
    (up : ∀ n, t.isUp n = s.isUp n) (reports : t.transit.lineReports = s.transit.lineReports) (lines : t.lines = s.lines)
    (creations : HandsOn s t) : SameNotices s t where
  queues := queues
  flights n := by unfold State.delivery; rw [deliveries]
  resends n := by unfold State.delivery; rw [deliveries]
  windows n := by unfold State.delivery; rw [deliveries]
  sends := sendsNoMore_of_eq transmitters
  ends := by rw [ends]
  up := up
  reports := reports
  lines l := by unfold State.line; rw [lines]; exact waitsAs_refl _
  creations := creations.lineCreations

theorem sameNotices_refl (s : State) : SameNotices s s :=
  sameNotices_of_eq rfl rfl rfl rfl (fun _ => rfl) rfl rfl (handsOn_of_eq rfl)

theorem OnlyAuthority.sameNotices {s t : State} (h : OnlyAuthority s t) (creations : HandsOn s t) : SameNotices s t :=
  sameNotices_of_eq (by rw [h]) (by rw [h]) (by rw [h]) (by rw [h]) (fun n => by rw [h]; rfl) (by rw [h]) (by rw [h])
    creations

theorem OnlyWatches.sameNotices {s t : State} (h : OnlyWatches s t) (creations : HandsOn s t) : SameNotices s t :=
  sameNotices_of_eq (by rw [h]) (by rw [h]) (by rw [h]) (by rw [h]) (fun n => by rw [h]; rfl) (by rw [h]) (by rw [h])
    creations

theorem OnlyOutputs.sameNotices {s t : State} (h : OnlyOutputs s t) (creations : HandsOn s t) : SameNotices s t :=
  sameNotices_of_eq (by rw [h]) (by rw [h]) (by rw [h]) (by rw [h]) (fun n => by rw [h]; rfl) (by rw [h]) (by rw [h])
    creations

theorem OnlyClaims.sameNotices {s t u : State} (h : OnlyClaims s t) (creations : HandsOn u t)
    (due : s = u.setClaimTickDue s.claimTickDue) : SameNotices u t :=
  sameNotices_of_eq (by rw [h, due]; rfl) (by rw [h, due]; rfl) (by rw [h, due]; rfl) (by rw [h, due]; rfl)
    (fun n => by rw [h, due]; rfl) (by rw [h, due]; rfl) (by rw [h, due]; rfl) creations

theorem OnlyReception.sameNotices {s t : State} (h : OnlyReception s t) (up : ∀ n, t.isUp n = s.isUp n) :
    SameNotices s t :=
  sameNotices_of_eq (by rw [h]) (by rw [h]) (by rw [h]) (by rw [h]) up (by rw [h]) (by rw [h])
    (handsOn_of_eq (by rw [h]))

/-- A line record changed without touching what it waits for. -/
theorem sameNotices_setLine {s : State} {l : LineIx} {r : LineRec} (h : (s.line l).waitsAs r) :
    SameNotices s (s.setLine l r) where
  queues := rfl
  flights _ := rfl
  resends _ := rfl
  windows _ := rfl
  sends := sendsNoMore_of_eq rfl
  ends := rfl
  up _ := rfl
  reports := rfl
  lines k := by
    rw [line_setLine]
    split
    · next e => subst e; exact h
    · exact waitsAs_refl _
  creations _ := rfl

/-- A delivery changed in its floor, timeout or counts. -/
theorem sameNotices_setDelivery {s : State} {n : Link} {d : Delivery} (flight : d.inFlight = (s.delivery n).inFlight)
    (resend : d.resend = (s.delivery n).resend) (window : d.window = (s.delivery n).window) :
    SameNotices s (s.setDelivery n d) where
  queues := rfl
  flights m := by rw [delivery_setDelivery]; split <;> simp_all
  resends m := by rw [delivery_setDelivery]; split <;> simp_all
  windows m := by rw [delivery_setDelivery]; split <;> simp_all
  sends := sendsNoMore_of_eq rfl
  ends := rfl
  up _ := rfl
  reports := rfl
  lines l := waitsAs_refl _
  creations _ := rfl

theorem isUp_congr {s t : State} {n : Link} (h : (t.link n).state = (s.link n).state) : t.isUp n = s.isUp n := by
  unfold State.isUp
  rw [h]

/-- A link record changed in anything but whether it is UP. -/
theorem isUp_setLink_of_same {s : State} {n : Link} {l : LinkRec} (h : (l.state = .up) ↔ (s.link n).state = .up)
    (m : Link) : (s.setLink n l).isUp m = s.isUp m := by
  rw [isUp_setLink]
  split
  · next e => subst e; simp [State.isUp, h]
  · rfl

theorem sameNotices_setLink {s : State} {n : Link} {l : LinkRec} (h : (l.state = .up) ↔ (s.link n).state = .up) :
    SameNotices s (s.setLink n l) :=
  sameNotices_of_eq rfl rfl rfl rfl (isUp_setLink_of_same h) rfl rfl (handsOn_of_eq rfl)

/-! ### The steps at the notices -/

/-- One thing done to notices, their ends and reports, or to what carries them. -/
inductive NoticeStep : State → State → Prop
  | same (s t : State) (h : SameNotices s t) : NoticeStep s t
  | ended (s : State) (n : Link) (why : EndReason) : NoticeStep s (endSession n why s)
  | opened (s : State) (n : Link) (p : List Byte) (o : OpenItems) (silent : (s.link n).state = .silent)
      (read : readOpen p = some o) : NoticeStep s (openSession n o s)
  | drained (s : State) (ch : Channel) : NoticeStep s (drainChannel ch s)
  | created (s : State) (ch : Channel) (e : Extent) : NoticeStep s (takeChannel ch e s)
  | share (s : State) (n : Link) (x : Extent) : NoticeStep s (noticeShare n x s)
  | acked (s : State) (n : Link) (k : Byte) : NoticeStep s (takeAck n k s)
  | aged (s : State) : NoticeStep s (tickAckTimers s)
  | counted (s : State) (n : Link) (k : Byte) (f : InFlight) (t : Nat)
      (flight : flightOf (s.delivery n).inFlight k = some f) (timer : f.timer = some t) :
      NoticeStep s (s.setDelivery n { s.delivery n with
        inFlight := reviseFlight (s.delivery n).inFlight k fun f => { f with timer := some (t - 1), timerDue := false } })
  | stopped (s : State) (n : Link) (k : Byte) :
      NoticeStep s (s.setDelivery n { s.delivery n with
        inFlight := reviseFlight (s.delivery n).inFlight k fun f => { f with timer := none, timerDue := false } })
  | listed (s : State) (n : Link) (k : Byte) (f : InFlight) (t : Nat)
      (flight : flightOf (s.delivery n).inFlight k = some f) (timer : f.timer = some t)
      (few : f.attempt < Config.maxAttempts) :
      NoticeStep s (s.setDelivery n { s.delivery n with
        inFlight := reviseFlight (s.delivery n).inFlight k fun f => { f with timer := none, timerDue := false }
        resend := (s.delivery n).resend ++ [k] })
  | sent (s : State) (n : Link) : NoticeStep s (takeFrame n s)
  | timed (s : State) (n : Link) (k : Byte) (f : TxFrame) (sending : s.transmitter n = some f)
      (carried : f.carried = .notice k) : NoticeStep s (startAckTimer n k (s.setTransmitter n none))
  | reported (s : State) (l : LineIx) : NoticeStep s (takeLineReport l s)
  | overran (s : State) (l : LineIx) (pending : (s.line l).pending = true) :
      NoticeStep s (s.setLine l { s.line l with overrun := satAdd 255 (s.line l).overrun 1 })
  | noticed (s : State) (l : LineIx) (level : Bool) (pending : (s.line l).pending = false)
      (none : s.lineCreations l = []) : NoticeStep s (s.post [lineNotice l (s.line l) level])
  | restart (s : State) : NoticeStep s (commandRestart s)

/-- A chain of such steps. -/
abbrev NoticeSteps : State → State → Prop := Relation.ReflTransGen NoticeStep

theorem SameNotices.steps {s t : State} (h : SameNotices s t) : NoticeSteps s t := .single (.same s t h)

theorem sameNotices_authorityShare (n : Link) (s : State) : SameNotices s (authorityShare n s) := by
  have creations := handsOn_authorityShare n s
  unfold authorityShare at *
  split
  · exact sameNotices_refl s
  · next m rest _ =>
    have h := onlyAuthority_takeAuthorityEnd m (s.setTransit { s.transit with authorityEnds := rest })
    exact sameNotices_of_eq (by rw [h]; rfl) (by rw [h]; rfl) (by rw [h]; rfl) (by rw [h]; rfl)
      (fun _ => by rw [h]; rfl) (by rw [h]; rfl) (by rw [h]; rfl)
      (handsOn_takeAuthorityEnd m (s.setTransit { s.transit with authorityEnds := rest }))

theorem noticeSteps_settleEnds (n : Link) (s : State) : NoticeSteps s (settleEnds n s) := by
  have authority : ∀ t, NoticeSteps t (authorityShare n t) := fun t => (sameNotices_authorityShare n t).steps
  unfold settleEnds
  split
  · have counted : NoticeSteps s { s with choices := s.choices + 1 } :=
      (sameNotices_of_eq (s := s) (t := { s with choices := s.choices + 1 }) rfl rfl rfl rfl (fun _ => rfl) rfl rfl
        (handsOn_of_eq rfl)).steps
    simp only
    split
    · exact ((counted.trans (authority _)).tail (.drained _ _)).tail (.share _ _ _)
    · exact (counted.tail (.share _ _ _)).trans (authority _)
  · exact .refl

theorem waitsAs_sampled (r : LineRec) (b : Bool) : r.waitsAs (r.sampled b) := by
  unfold LineRec.sampled
  split
  · exact ⟨rfl, rfl, fun _ => Nat.zero_le _⟩
  · split
    · exact ⟨rfl, rfl, fun _ => Nat.zero_le _⟩
    · next ne => exact ⟨rfl, rfl, fun h => by change r.disagreement + 1 ≤ r.filter; omega⟩

theorem creations_noteOutcome (c : Creation) (o : NoticeOutcome) (s : State) :
    (noteOutcome c o s).transit.creations = s.transit.creations := by
  unfold noteOutcome
  split
  · split <;> rfl
  · rfl

/-- A creation taken whole leaves the creations on their way as they are. -/
theorem creations_takeCreation_whole (c : Creation) (s : State) :
    (takeCreation c .whole s).transit.creations = s.transit.creations := by
  unfold takeCreation
  split
  · next p f _ => unfold takePair; rw [creations_noteOutcome, onlyPool_placePair p f [] c s]
  · next p f reset _ => unfold takePair; rw [creations_noteOutcome, onlyPool_placePair p f reset c s]
  · split
    · next n _ _ => rw [onlyPool_place n none c s]
    · rfl
  · exact congrArg (·.transit.creations) (onlyPool_placeCopies c _ s)
  · exact congrArg (·.transit.creations) (onlyPool_placeCopies c _ s)

theorem lineCreations_drainChannel (l : LineIx) (s : State) : (drainChannel (.line l) s).lineCreations l = [] := by
  have left : ∀ (cs : List Creation) (t : State),
      (cs.foldl (fun t c => takeCreation c .whole t) t).transit.creations = t.transit.creations := by
    intro cs
    induction cs with
    | nil => intro t; rfl
    | cons c cs ih => intro t; rw [List.foldl_cons, ih, creations_takeCreation_whole]
  unfold State.lineCreations drainChannel
  rw [left]
  simp [List.filter_filter, channel_eq_line_iff]

theorem noticeSteps_notifyTrigger (l : LineIx) (level : Bool) (s : State) : NoticeSteps s (notifyTrigger l level s) := by
  unfold notifyTrigger
  split
  · have drained : NoticeSteps s (drainChannel (.line l) s) := .single (.drained s _)
    simp only
    split
    · next pending => exact drained.tail (.overran _ l pending)
    · next idle =>
      exact drained.tail (.noticed _ l level (by simpa using idle) (lineCreations_drainChannel l s))
  · exact .refl

theorem noticeSteps_takeSample (l : LineIx) (s : State) : NoticeSteps s (takeSample l s) := by
  unfold takeSample
  split
  · exact .refl
  · next sample _ =>
    have same : (s.line l).waitsAs { (s.line l).sampled sample with dueSample := none } :=
      have w := waitsAs_sampled (s.line l) sample
      ⟨w.pending, w.overrun, w.filter⟩
    have sampled := (sameNotices_setLine same).steps
    simp only
    split
    · refine sampled.trans (Relation.ReflTransGen.trans ?_ (noticeSteps_notifyTrigger l sample _))
      exact ((onlyWatches_triggerWatches l _).sameNotices (handsOn_triggerWatches l _)).steps
    · exact sampled

theorem noticeSteps_takeAckTick (n : Link) (k : Byte) (s : State) : NoticeSteps s (takeAckTick n k s) := by
  unfold takeAckTick
  simp only
  split
  · next f flight =>
    split
    · next t timer _ =>
      split
      · exact .single (.counted s n k f t flight timer)
      · split
        · next few => exact .single (.listed s n k f t flight timer few)
        · exact (Relation.ReflTransGen.single (.stopped s n k)).tail (.ended _ n .noAck)
    · exact .refl
  · exact .refl

theorem noticeSteps_takeInactivityTick (n : Link) (s : State) : NoticeSteps s (takeInactivityTick n s) := by
  have idle := (sameNotices_setLink (s := s) (n := n) (l := { s.link n with inactivityDue := false }) .rfl).steps
  unfold takeInactivityTick
  simp only
  split
  · split
    · split
      · exact idle.tail (.ended _ n .silence)
      · exact idle.trans (sameNotices_setLink (by simp)).steps
    · exact idle
  · exact .refl

theorem sameNotices_noTransmitter (n : Link) (s : State) : SameNotices s (s.setTransmitter n none) where
  queues := rfl
  flights _ := rfl
  resends _ := rfl
  windows _ := rfl
  sends m f hf k hk := by
    rw [transmitter_setTransmitter] at hf
    split at hf
    · cases hf
    · exact ⟨f, hf, hk⟩
  ends := rfl
  up _ := rfl
  reports := rfl
  lines l := waitsAs_refl _
  creations _ := rfl

theorem noticeSteps_finishFrame (n : Link) (s : State) : NoticeSteps s (finishFrame n s) := by
  have idle := (sameNotices_noTransmitter n s).steps
  unfold finishFrame
  split
  · exact .refl
  · next f sending =>
    simp only
    split
    · next k carried => exact .single (.timed s n k f sending carried)
    · exact idle
    · split
      · exact idle.tail (.ended _ n .closed)
      · exact idle
    · split
      · exact idle.tail (.restart _)
      · exact idle

/-- Words to and from link units are no concern of the notices. -/
theorem sameNotices_crstWords (s : State) (ws : List (Link × CrstChange)) :
    SameNotices s (s.setTransit { s.transit with crstWords := ws }) :=
  sameNotices_of_eq rfl rfl rfl rfl (fun _ => rfl) rfl rfl (handsOn_of_eq rfl)

theorem sameNotices_noteResetter (n : Link) (r : Resetter) (s : State) : SameNotices s (noteResetter n r s) where
  queues := rfl
  flights _ := rfl
  resends _ := rfl
  windows _ := rfl
  sends := sendsNoMore_of_eq rfl
  ends := by
    unfold noteResetter
    rw [transit_setTransit, List.map_map]
    refine List.map_congr_left fun e _ => ?_
    simp only [Function.comp]
    split <;> rfl
  up _ := rfl
  reports := rfl
  lines l := waitsAs_refl _
  creations _ := rfl

theorem noticeSteps_takeAssertedWord (n : Link) (s : State) : NoticeSteps s (takeAssertedWord n s) := by
  rcases takeAssertedWord_cases n s with e | ⟨r, pre, post, _, _, e⟩ <;> rw [e]
  · have ended := (sameNotices_crstWords s (pre ++ post)).steps.tail (.ended _ n .resetIssued)
    refine (ended.trans (sameNotices_noteResetter n r _).steps).trans (SameNotices.steps ?_)
    unfold takeAssertion enterHeld
    refine OnlyReception.sameNotices rfl fun m => ?_
    rw [isUp_setReceiver]
    refine isUp_setLink_of_same ?_ m
    have down : (noteResetter n r (endSession n .resetIssued
        (s.setTransit { s.transit with crstWords := pre ++ post }))).isUp n = false := by
      rw [show ∀ t, (noteResetter n r t).isUp n = t.isUp n from fun _ => rfl, isUp_endSession]
      simp
    simp only [State.isUp, decide_eq_false_iff_not] at down
    simp [down]

theorem noticeSteps_takeReleasedWord (n : Link) (s : State) : NoticeSteps s (takeReleasedWord n s) := by
  rcases takeReleasedWord_cases n s with e | ⟨pre, post, _, _, e⟩ <;> rw [e]
  · refine (sameNotices_crstWords s (pre ++ post)).steps.trans ?_
    unfold takeRelease
    split
    · next held =>
      refine SameNotices.steps (OnlyReception.sameNotices rfl fun m => ?_)
      rw [isUp_setReceiver]
      exact isUp_setLink_of_same (l := { (s.setTransit { s.transit with crstWords := pre ++ post }).link n with
        state := .silent }) (by rw [held]; simp) m
    · exact .refl

theorem sameNotices_withLines (s : State) (v : Vector LineRec 16) (h : ∀ l : LineIx, (s.line l).waitsAs v[l]) :
    SameNotices s { s with lines := v } where
  queues := rfl
  flights _ := rfl
  resends _ := rfl
  windows _ := rfl
  sends := sendsNoMore_of_eq rfl
  ends := rfl
  up _ := rfl
  reports := rfl
  lines := h
  creations _ := rfl

theorem sameNotices_withWatches (s : State) (v : Vector Watch 32) (due : Vector (Option Base) 32) :
    SameNotices s { s with watches := v, watchTicksDue := due } :=
  sameNotices_of_eq rfl rfl rfl rfl (fun _ => rfl) rfl rfl (handsOn_of_eq rfl)

theorem sameNotices_withLinks (s : State) (v : Vector LinkRec 4) (h : ∀ n : Link, v[n].state = (s.link n).state) :
    SameNotices s { s with links := v } :=
  sameNotices_of_eq rfl rfl rfl rfl (fun n => isUp_congr (h n)) rfl rfl (handsOn_of_eq rfl)

theorem sameNotices_withReceivers (s : State) (v : Vector Receiver 4) : SameNotices s { s with receivers := v } :=
  sameNotices_of_eq rfl rfl rfl rfl (fun _ => rfl) rfl rfl (handsOn_of_eq rfl)

theorem sameNotices_setAuthority (s : State) (a : Authority) : SameNotices s (s.setAuthority a) :=
  sameNotices_of_eq rfl rfl rfl rfl (fun _ => rfl) rfl rfl (handsOn_of_eq rfl)

theorem waitsAs_tick (r : LineRec) (b : Bool) : r.waitsAs (r.tick b) := by
  unfold LineRec.tick
  split
  · exact ⟨rfl, rfl, id⟩
  · exact waitsAs_sampled r b

theorem state_tick (l : LinkRec) : l.tick.state = l.state := by
  unfold LinkRec.tick
  split
  · split <;> rfl
  · rfl

theorem noticeSteps_deliverTick (p : TickPort) (s : State) : NoticeSteps s (deliverTick s p) := by
  cases p with
  | watches b => exact .single (.same _ _ (sameNotices_withWatches s _ _))
  | lines =>
    refine .single (.same _ _ (sameNotices_withLines s _ fun l => ?_))
    simp only [Fin.getElem_fin, get_remap]
    exact waitsAs_tick _ _
  | outputs =>
    refine .single (.same _ _ ?_)
    unfold deliverTick tickClaims
    simp only
    split
    · exact sameNotices_of_eq rfl rfl rfl rfl (fun _ => rfl) rfl rfl (handsOn_of_eq rfl)
    · exact (onlyClaims_countClaims s).sameNotices (handsOn_countClaims s) rfl
  | ackTimers => exact .single (.aged s)
  | inactivityTimers =>
    refine .single (.same _ _ (sameNotices_withLinks s _ fun n => ?_))
    simp only [Fin.getElem_fin, get_remap]
    exact state_tick _
  | offerTimer =>
    refine .single (.same _ _ ?_)
    unfold deliverTick tickOffer
    simp only
    split
    · split <;> exact sameNotices_setAuthority s _
    · exact sameNotices_refl s
    · exact sameNotices_refl s
  | gapTimers => exact .single (.same _ _ (sameNotices_withReceivers s _))

/-- Every move does to the notices what a chain of these steps does. -/
theorem Move.noticeSteps {d a : Bool} {s t : State} (h : Move d a s t) : NoticeSteps s t := by
  cases h
  case settle =>
    have only := settleAuthority_leaves s
    exact .single (.same _ _ (sameNotices_of_eq (by rw [only]) (by rw [only]) (by rw [only]) (by rw [only])
      (isUp_settleAuthority s) (by rw [only]) (by rw [only]) (handsOn_settleAuthority s)))
  case heard n _ => exact .single (.same _ _ ((onlyReception_heard n s).sameNotices fun m => isUp_heard s n m))
  case discard n _ => exact .single (.same _ _ (sameNotices_setLink .rfl))
  case reply n tag r items _ _ => exact .single (.same _ _ (sameNotices_setLink .rfl))
  case pend n tag c _ _ _ _ =>
    exact (OnlyReception.sameNotices rfl fun m => by
      rw [pendClosing, State.queueReply, isUp_setLink_of_same (by simp) m, isUp_setReceiver,
        isUp_setLink_of_same (by simp) m]).steps
  case endSession n why _ => exact .single (.ended s n why)
  case openSession n p o silent _ _ read =>
    exact (noticeSteps_settleEnds n s).tail (.opened _ n p o (by rw [link_settleEnds]; exact silent) read)
  case floor n f => exact .single (.same _ _ (sameNotices_setDelivery rfl rfl rfl))
  case feed i v _ =>
    exact .single (.same _ _ ((onlyWatches_applyStep i _ s).sameNotices (handsOn_applyStep (about_feedRequest i _ v) s)))
  case complete i _ =>
    exact .single (.same _ _ ((onlyWatches_applyStep i _ s).sameNotices (handsOn_applyStep (about_completeStep i _) s)))
  case lineSet p d _ => exact .single (.same _ _ (sameNotices_setLine ⟨rfl, rfl, fun _ => Nat.zero_le _⟩))
  case drain l => exact .single (.drained s _)
  case unhold o => exact .single (.same _ _ ((onlyOutputs_unhold o s).sameNotices (handsOn_unhold o s)))
  case claim n _ _ => exact .single (.same _ _ ((onlyAuthority_takeClaimRequest n s).sameNotices (handsOn_takeClaimRequest n s)))
  case becomeHolder n _ _ _ =>
    exact .single (.same _ _ ((onlyAuthority_becomeHolder n s).sameNotices (handsOn_becomeHolder n s)))
  case passOn => exact .single (.same _ _ ((onlyAuthority_passOn none s).sameNotices (handsOn_passOn none s)))
  case ack n k _ => exact .single (.acked s n k)
  case checkError n _ =>
    exact (OnlyReception.sameNotices rfl fun m => by
      rw [countCheckError]; exact isUp_setLink_of_same (s := s.setReceiver n .hunting) (by simp) m).steps
  case hunt n b _ =>
    refine ((onlyReception_huntByte n b s).sameNotices fun m => ?_).steps
    unfold huntByte
    split <;> rfl
  case abandon n b _ =>
    refine ((onlyReception_abandonStart n b s).sameNotices fun m => ?_).steps
    unfold abandonStart huntByte
    split <;> rw [isUp_setReceiver, isUp_setLink_of_same (by simp) m]
  case gapTick n =>
    refine ((onlyReception_takeGapTick n s).sameNotices fun m => ?_).steps
    unfold takeGapTick
    simp only
    split
    · split
      · split
        · exact isUp_setLink_of_same (s := s.setReceiver n .hunting) (by simp) m
        · rfl
      · rfl
    · rfl
  case deliver p => exact noticeSteps_deliverTick p s
  case watchTick i => exact .single (.same _ _ ((onlyWatches_takeWatchTick i s).sameNotices (handsOn_takeWatchTick i s)))
  case sample l => exact noticeSteps_takeSample l s
  case claimTick => exact .single (.same _ _ ((onlyClaims_takeClaimTick s).sameNotices (handsOn_takeClaimTick s) rfl))
  case ackTick n k _ => exact noticeSteps_takeAckTick n k s
  case inactivityTick n _ => exact noticeSteps_takeInactivityTick n s
  case offerTick => exact .single (.same _ _ ((onlyAuthority_takeOfferTick s).sameNotices (handsOn_takeOfferTick s)))
  case lineReport l => exact .single (.reported s l)
  case channel ch e => exact .single (.created s ch e)
  case noticeEnd n x => exact .single (.share s n x)
  case authorityEnd n => exact .single (.same _ _ (sameNotices_authorityShare n s))
  case frame n => exact .single (.sent s n)
  case lastByte n _ => exact noticeSteps_finishFrame n s
  case claimWord c => exact .single (.same _ _ ((onlyOutputs_takeClaimWord c s).sameNotices (handsOn_takeClaimWord c s)))
  case removalWord i => exact .single (.same _ _ ((onlyOutputs_takeRemovalWord i s).sameNotices (handsOn_takeRemovalWord i s)))
  case asserted n _ => exact noticeSteps_takeAssertedWord n s
  case released n => exact noticeSteps_takeReleasedWord n s
  all_goals exact .single (.same _ _ (sameNotices_of_eq rfl rfl rfl rfl (fun _ => rfl) rfl rfl (handsOn_of_eq rfl)))

/-- What every step at the notices keeps, every step of the part keeps, if every reset does. -/
theorem Move.keeps_notices {P : State → Prop} (kept : ∀ s t, NoticeStep s t → P s → P t) {d a : Bool} {s t : State}
    (h : Move d a s t) (hs : P s) : P t := by
  have steps := h.noticeSteps
  clear h
  induction steps with
  | refl => exact hs
  | tail _ step ih => exact kept _ _ step ih

end Sys2Proof.Machine

/-!
PROOF. The state after a power-on reset, part by part, and that it is lawful (R18, R86, R87, R106, R131, R132, R160).
-/

namespace Sys2Proof.Machine

/-! ### The parts of the reset state -/

@[simp] theorem watch_reset (i : WatchIx) : State.reset.watch i = Watch.free 0 := by simp [State.reset, State.watch]

@[simp] theorem line_reset (l : LineIx) : State.reset.line l = LineRec.atReset false := by simp [State.reset, State.line]

@[simp] theorem link_reset (n : Link) : State.reset.link n = LinkRec.atReset := by simp [State.reset, State.link]

@[simp] theorem receiver_reset (n : Link) : State.reset.receiver n = .hunting := by simp [State.reset, State.receiver]

@[simp] theorem transmitter_reset (n : Link) : State.reset.transmitter n = none := by
  simp [State.reset, State.transmitter]

@[simp] theorem delivery_reset (n : Link) : State.reset.delivery n = .atReset := by simp [State.reset, State.delivery]

@[simp] theorem queue_reset (n : Link) : State.reset.queue n = [] := by simp [State.reset, State.queue]

@[simp] theorem loss_reset (n : Link) : State.reset.loss n = 0 := by simp [State.reset, State.loss]

@[simp] theorem watchTickDue_reset (i : WatchIx) : State.reset.watchTickDue i = none := by
  simp [State.reset, State.watchTickDue]

@[simp] theorem claimSet_reset (o : OutputIx) : State.reset.claimSet o = Vector.replicate 33 none := by
  simp [State.reset, State.claimSet]

theorem transit_reset : State.reset.transit = Transit.empty := rfl

theorem authority_reset : State.reset.authority = ⟨.free, [], false⟩ := rfl

@[simp] theorem claimOf_none (c : Claimant) : claimOf (Vector.replicate 33 none) c = none := by
  simp [claimOf]

@[simp] theorem asserted_reset (o : OutputIx) : State.reset.asserted o = false := by
  unfold State.asserted
  rw [claimSet_reset, nonEmpty_eq_false_iff]
  exact claimOf_none

@[simp] theorem isUp_reset (n : Link) : State.reset.isUp n = false := by simp [State.isUp, LinkRec.atReset]

@[simp] theorem deaf_reset (n : Link) : State.reset.deaf n = false := by simp [State.deaf, LinkRec.atReset]

theorem poolRecords_reset : State.reset.poolRecords = [] := by
  simp [State.poolRecords, State.reset, Transit.empty, Delivery.atReset]

/-! ### Its laws -/

theorem poolLaw_reset : State.reset.poolLaw := by
  simp [State.poolLaw, State.poolInUse, State.lowRecords, poolRecords_reset]

theorem queueLaws_reset : State.reset.queueLaw ∧ State.reset.silentQueueLaw :=
  ⟨fun n => by simp, fun n _ _ => queue_reset n⟩

theorem deliveryLaws_reset : State.reset.windowLaw ∧ State.reset.resendLaw :=
  ⟨fun n => by simp [Delivery.atReset], fun n => by simp [Delivery.atReset]⟩

theorem crstLaw_reset : State.reset.crstLaw := by
  intro n
  simp [transit_reset, Transit.empty, crstChain, LinkRec.atReset]

theorem claimLaws_reset : State.reset.claimLaw ∧ State.reset.heldLaw := by
  refine ⟨⟨fun o k c hc => ?_, by simp [transit_reset, Transit.empty]⟩, fun o i h => ?_⟩
  · simp at hc
  · simp [State.holds, transit_reset, Transit.empty] at h

theorem authorityLaws_reset : State.reset.authorityLaw ∧ State.reset.endsLaw := by
  simp [State.authorityLaw, State.endsLaw, authority_reset, transit_reset, Transit.empty, AuthorityMode.holder, AuthorityMode.offered, AuthorityMode.timer]

theorem linkLaws_reset :
    State.reset.linkLaw ∧ State.reset.closingLaw ∧ State.reset.receiverLaw ∧ State.reset.counterLaw :=
  ⟨fun n => by simp [LinkRec.atReset], fun n => by simp [State.closings, LinkRec.atReset],
    fun n => by simp [Receiver.hunting], fun n => by simp [LinkRec.atReset, Delivery.atReset]⟩

theorem lineLaw_reset : State.reset.lineLaw := by
  intro l
  simp [State.lineRecords, State.lineReports, State.lineCreations, poolRecords_reset, transit_reset, Transit.empty,
    LineRec.atReset]

theorem noneDue_reset : State.reset.noneDue := by
  refine ⟨watchTickDue_reset, fun l => ?_, rfl, fun n f hf => ?_, fun n => ?_, rfl, fun n => ?_⟩
  · simp [LineRec.atReset]
  · simp [Delivery.atReset] at hf
  · simp [LinkRec.atReset]
  · simp [Receiver.hunting]

/-- Settles O49: each part of the reset state is read off its definition, and its laws follow. -/
theorem theResetStateIsLawful : Obligations.TheResetStateIsLawful := by
  obtain ⟨queue, silent⟩ := queueLaws_reset
  obtain ⟨window, resend⟩ := deliveryLaws_reset
  obtain ⟨claim, held⟩ := claimLaws_reset
  obtain ⟨authority, ends⟩ := authorityLaws_reset
  refine ⟨⟨watchesLawful_reset, poolLaw_reset, queue, silent, window, resend, crstLaw_reset, claim, held, authority, ends,
    linkLaws_reset.1, linkLaws_reset.2.1, linkLaws_reset.2.2.1, linkLaws_reset.2.2.2, lineLaw_reset⟩, noneDue_reset, rfl, rfl,
    watch_reset, line_reset, fun n => ?_, authority_reset, asserted_reset, ?_, rfl⟩
  · exact ⟨link_reset n, delivery_reset n, queue_reset n, loss_reset n, receiver_reset n, transmitter_reset n, by
      simp [State.attention]⟩
  · rw [State.poolInUse, poolRecords_reset, List.length_nil]

end Sys2Proof.Machine

/-!
PROOF. The notice pool: how many records it holds through every step (R71), and the order of its queues (R66 to R69, R75, R76,
R78).
-/

namespace Sys2Proof.Machine

/-! ### Laws of the notice unit, with records in hand -/

theorem upAtNotices_of_upFor {s : State} {reset : List (Link × Byte)} {n : Link} (h : s.upFor reset n = true) :
    s.upAtNotices n = true := by
  unfold State.upFor at h
  split at h
  · simp [State.upAtNotices, h]
  · exact h

/-- A law of the state that holds of the notice unit while it has records of an ended session in hand. -/
structure NoticeLaw (P : List Notice → State → Prop) : Prop where
  place : ∀ n onward c s, s.upAtNotices n = true → P [] s → P [] (place n onward c s).2
  countLoss : ∀ n s, P [] s → P [] (s.countLoss n)
  creations : ∀ cs s, P [] s → P [] (s.setTransit { s.transit with creations := cs })
  pending : ∀ l s, P [] s → P [] (s.setLine l { s.line l with pending := true })
  dealWith : ∀ n r rs s, P (r :: rs) s → P rs (dealWith n s r)
  takeEnd : ∀ s pre e post, s.transit.noticeEnds = pre ++ e :: post → P [] s →
    P (e.handed ++ s.queue e.link)
      ((s.setTransit { s.transit with noticeEnds := pre ++ post }).setQueue e.link [])

namespace NoticeLaw
variable {P : List Notice → State → Prop} (law : NoticeLaw P)
include law

theorem placePair (p : Link) (f : Option Link) (reset : List (Link × Byte)) (c : Creation) {s : State} (h : P [] s) :
    P [] (placePair p f reset c s).2 := by
  unfold Machine.placePair
  split
  · next up => exact law.place p f c s (upAtNotices_of_upFor up) h
  · split
    · split
      · next up => exact law.place _ none c s (upAtNotices_of_upFor up) h
      · exact law.countLoss p s h
    · exact law.countLoss p s h

theorem takePair (p : Link) (f : Option Link) (reset : List (Link × Byte)) (c : Creation) {s : State} (h : P [] s) :
    P [] (takePair p f reset c s) := by
  unfold Machine.takePair noteOutcome
  have placed := law.placePair p f reset c h
  split
  · split
    · exact law.pending _ _ placed
    · exact placed
  · exact placed

theorem placeCopies (c : Creation) (links : List Link) {s : State} (h : P [] s) : P [] (placeCopies c links s) := by
  induction links generalizing s with
  | nil => exact h
  | cons n ns ih =>
    unfold Machine.placeCopies
    split
    · next up => exact ih (law.place n none c s up h)
    · exact ih h

theorem takeCopies (c : Creation) (links : List Link) (e : Extent) {s : State} (h : P [] s) :
    P [] (takeCopies c links e s) := by
  unfold Machine.takeCopies
  split
  · exact law.placeCopies c links h
  · split
    · exact h
    · next n ns _ =>
      simp only
      split
      · exact law.placeCopies c [n] h
      · exact law.creations _ _ (law.placeCopies c [n] h)

theorem takeCreation (c : Creation) (e : Extent) {s : State} (h : P [] s) : P [] (takeCreation c e s) := by
  unfold Machine.takeCreation
  split
  · exact law.takePair _ _ _ c h
  · exact law.takePair _ _ _ c h
  · split
    · next up => exact law.place _ none c s up h
    · exact law.countLoss _ s h
  · exact law.takeCopies c _ e h
  · exact law.takeCopies c _ e h

theorem takeChannel (ch : Channel) (e : Extent) {s : State} (h : P [] s) : P [] (takeChannel ch e s) := by
  unfold Machine.takeChannel
  split
  · exact h
  · exact law.takeCreation _ e (law.creations _ s h)

theorem drainChannel (ch : Channel) {s : State} (h : P [] s) : P [] (drainChannel ch s) := by
  unfold Machine.drainChannel
  simp only
  have drained := law.creations (s.transit.creations.filter fun c => c.channel ≠ ch) s h
  generalize s.setTransit _ = t at drained
  generalize s.transit.creations.filter _ = cs
  induction cs generalizing t with
  | nil => exact drained
  | cons c cs ih => exact ih _ (law.takeCreation c .whole drained)

theorem dealWithAll (n : Link) (rs : List Notice) {s : State} (h : P rs s) : P [] (rs.foldl (Machine.dealWith n) s) := by
  induction rs generalizing s with
  | nil => exact h
  | cons r rs ih => exact ih (law.dealWith n r rs s h)

theorem noticeShare (n : Link) (x : Extent) {s : State} (h : P [] s) : P [] (noticeShare n x s) := by
  unfold Machine.noticeShare
  split
  · exact h
  · next e rest found =>
    obtain ⟨pre, post, ends, rfl, -, -⟩ := takeFirst_eq_some _ _ _ _ found
    have dealt := law.dealWithAll e.link _ (law.takeEnd s pre e post ends h)
    unfold takeNoticeEnd
    simp only
    split
    · exact dealt
    · exact law.takeCreation _ x dealt

end NoticeLaw

/-! ### How many records the pool holds -/

/-- How many records in the pool pass a test. -/
def State.poolCount (p : Notice → Bool) (s : State) : Nat := s.poolRecords.countP p

theorem toList_four {α : Type} (v : Vector α 4) : v.toList = [v[0], v[1], v[2], v[3]] := by
  rcases v with ⟨⟨l⟩, h⟩
  match l, h with
  | [a, b, c, d], _ => rfl

/-- The pool, counted queue by queue, link by link and end by end. -/
theorem poolCount_eq (p : Notice → Bool) (s : State) :
    s.poolCount p = (∑ n : Link, (s.queue n).countP p)
      + (∑ n : Link, ((s.delivery n).inFlight.map (·.notice)).countP p)
      + (s.transit.noticeEnds.map fun e => e.handed.countP p).sum := by
  unfold State.poolCount State.poolRecords
  rw [toList_four s.queues, toList_four s.deliveries, Fin.sum_univ_four, Fin.sum_univ_four]
  simp only [List.countP_append, List.countP_flatMap, List.flatten_cons, List.flatten_nil, List.flatMap_cons,
    List.flatMap_nil, List.append_nil, State.queue, State.delivery]
  simp only [Function.comp_def, Fin.getElem_fin]
  simp [add_assoc]

/-- Two sums over the links that differ at one. -/
theorem sum_links_update {f g : Link → Nat} {n : Link} (h : ∀ m, m ≠ n → g m = f m) :
    (∑ m, g m) + f n = (∑ m, f m) + g n := by
  have f_split : f n + ∑ m ∈ Finset.univ.erase n, f m = ∑ m, f m := Finset.add_sum_erase _ f (Finset.mem_univ n)
  have g_split : g n + ∑ m ∈ Finset.univ.erase n, g m = ∑ m, g m := Finset.add_sum_erase _ g (Finset.mem_univ n)
  have others : ∑ m ∈ Finset.univ.erase n, g m = ∑ m ∈ Finset.univ.erase n, f m :=
    Finset.sum_congr rfl fun m hm => h m (Finset.ne_of_mem_erase hm)
  omega

/-- The pool once a queue is replaced. -/
theorem poolCount_setQueue (p : Notice → Bool) (n : Link) (q : List Notice) (s : State) :
    (s.setQueue n q).poolCount p + (s.queue n).countP p = s.poolCount p + q.countP p := by
  have update := sum_links_update (f := fun m => (s.queue m).countP p)
    (g := fun m => ((s.setQueue n q).queue m).countP p) (n := n) fun m hm => by
      simp only [queue_setQueue, if_neg hm]
  rw [poolCount_eq, poolCount_eq]
  simp only [queue_setQueue, if_true, delivery_setQueue, transit_setQueue] at update ⊢
  omega

/-- The pool once the records in flight on a link are replaced. -/
theorem poolCount_setDelivery (p : Notice → Bool) (n : Link) (d : Delivery) (s : State) {flights : List InFlight}
    (h : d.inFlight = flights) :
    (s.setDelivery n d).poolCount p + ((s.delivery n).inFlight.map (·.notice)).countP p =
      s.poolCount p + (flights.map (·.notice)).countP p := by
  have update := sum_links_update (f := fun m => ((s.delivery m).inFlight.map (·.notice)).countP p)
    (g := fun m => (((s.setDelivery n d).delivery m).inFlight.map (·.notice)).countP p) (n := n) fun m hm => by
      simp only [delivery_setDelivery, if_neg hm]
  rw [poolCount_eq, poolCount_eq]
  simp only [delivery_setDelivery, if_true, queue_setDelivery, transit_setDelivery, h] at update ⊢
  omega

/-- How many records the ends of a list hand back that pass a test. -/
def countEnds (p : Notice → Bool) (ends : List NoticeEnd) : Nat := (ends.map fun e => e.handed.countP p).sum

theorem countEnds_append (p : Notice → Bool) (a b : List NoticeEnd) :
    countEnds p (a ++ b) = countEnds p a + countEnds p b := by simp [countEnds]

theorem countEnds_cons (p : Notice → Bool) (e : NoticeEnd) (ends : List NoticeEnd) :
    countEnds p (e :: ends) = e.handed.countP p + countEnds p ends := by simp [countEnds]

/-- The pool once the ends on their way to the notice unit are replaced. -/
theorem poolCount_setTransit (p : Notice → Bool) (t : Transit) (s : State) {ends : List NoticeEnd}
    (h : t.noticeEnds = ends) :
    (s.setTransit t).poolCount p + countEnds p s.transit.noticeEnds = s.poolCount p + countEnds p ends := by
  rw [poolCount_eq, poolCount_eq]
  simp only [delivery_setTransit, queue_setTransit, transit_setTransit, h, countEnds]
  omega

/-- The pool is counted from the queues, the records in flight and those handed back alone. -/
theorem poolCount_congr {s t : State} (queues : t.queues = s.queues)
    (flights : ∀ n, (t.delivery n).inFlight.map (·.notice) = (s.delivery n).inFlight.map (·.notice))
    (ends : t.transit.noticeEnds.map (·.handed) = s.transit.noticeEnds.map (·.handed)) (p : Notice → Bool) :
    t.poolCount p = s.poolCount p := by
  have handed : ∀ u : State, (u.transit.noticeEnds.map fun e => e.handed.countP p) =
      (u.transit.noticeEnds.map (·.handed)).map (List.countP p) := by simp
  have queue : ∀ n, t.queue n = s.queue n := fun n => by unfold State.queue; rw [queues]
  rw [poolCount_eq, poolCount_eq, handed, handed, ends]
  simp only [queue, flights]

@[simp] theorem poolCount_countLoss (p : Notice → Bool) (s : State) (n : Link) :
    (s.countLoss n).poolCount p = s.poolCount p :=
  poolCount_congr rfl (fun _ => rfl) rfl p

@[simp] theorem poolCount_nextStamp (p : Notice → Bool) (s : State) : s.nextStamp.poolCount p = s.poolCount p :=
  poolCount_congr rfl (fun _ => rfl) rfl p

@[simp] theorem poolCount_setLine (p : Notice → Bool) (s : State) (l : LineIx) (r : LineRec) :
    (s.setLine l r).poolCount p = s.poolCount p :=
  poolCount_congr rfl (fun _ => rfl) rfl p

@[simp] theorem poolCount_setLoss (p : Notice → Bool) (s : State) (n : Link) (k : Nat) :
    (s.setLoss n k).poolCount p = s.poolCount p :=
  poolCount_congr rfl (fun _ => rfl) rfl p

@[simp] theorem poolCount_setLink (p : Notice → Bool) (s : State) (n : Link) (l : LinkRec) :
    (s.setLink n l).poolCount p = s.poolCount p :=
  poolCount_congr rfl (fun _ => rfl) rfl p

@[simp] theorem poolCount_setTransmitter (p : Notice → Bool) (s : State) (n : Link) (f : Option TxFrame) :
    (s.setTransmitter n f).poolCount p = s.poolCount p :=
  poolCount_congr rfl (fun _ => rfl) rfl p

@[simp] theorem poolCount_reportDeparture (p : Notice → Bool) (s : State) (r : Notice) (how : Departure) :
    (s.reportDeparture r how).poolCount p = s.poolCount p := by
  rw [reportDeparture_eq]
  exact poolCount_congr rfl (fun _ => rfl) rfl p

@[simp] theorem poolCount_setCreations (p : Notice → Bool) (s : State) (cs : List Creation) :
    (s.setTransit { s.transit with creations := cs }).poolCount p = s.poolCount p :=
  poolCount_congr rfl (fun _ => rfl) rfl p

theorem SameNotices.poolCount {s t : State} (h : SameNotices s t) (p : Notice → Bool) : t.poolCount p = s.poolCount p := by
  refine poolCount_congr h.queues (fun n => by rw [h.flights n]) ?_ p
  have ends := congrArg (List.map Prod.snd) h.ends
  simpa [List.map_map, Function.comp_def] using ends

/-! ### What each operation of the notice unit adds -/

/-- One record counted. -/
def countOne (p : Notice → Bool) (r : Notice) : Nat := if p r then 1 else 0

theorem countP_cons_countOne (p : Notice → Bool) (r : Notice) (q : List Notice) :
    (r :: q).countP p = q.countP p + countOne p r := List.countP_cons

theorem countP_enqueue (p : Notice → Bool) (r : Notice) (q : List Notice) :
    (enqueue r q).countP p = q.countP p + countOne p r := by
  rw [(perm_enqueue r q).countP_eq p, countP_cons_countOne]

theorem countP_revise (p : Notice → Bool) {w : Notice} (new : Notice) {q : List Notice} (h : findKey w.key q = some w) :
    (revise w new q).countP p + countOne p w = q.countP p + countOne p new := by
  obtain ⟨-, pre, post, rfl, other⟩ := findKey_eq_some _ _ _ h
  rw [revise_of_split w new pre post other]
  split
  · simp only [countP_enqueue, List.countP_append, countP_cons_countOne]; omega
  · simp only [List.countP_append, countP_cons_countOne]; omega

theorem countP_erase (p : Notice → Bool) {r : Notice} {q : List Notice} (h : r ∈ q) :
    (q.erase r).countP p + countOne p r = q.countP p := by
  rw [(List.perm_cons_erase h).countP_eq p, countP_cons_countOne]

theorem findKey_self {k : Key} {q : List Notice} {w : Notice} (h : findKey k q = some w) : findKey w.key q = some w := by
  rw [(findKey_eq_some k q w h).1]; exact h

theorem poolCount_revise (p : Notice → Bool) {s : State} {n : Link} {k : Key} {w : Notice} (new : Notice)
    (h : findKey k (s.queue n) = some w) :
    (s.setQueue n (revise w new (s.queue n))).poolCount p + countOne p w = s.poolCount p + countOne p new := by
  have := poolCount_setQueue p n (revise w new (s.queue n)) s
  have := countP_revise p new (findKey_self h)
  omega

theorem poolCount_createRecord (p : Notice → Bool) (s : State) (n : Link) (onward : Option Link) (c : Creation) :
    (s.createRecord n onward c).poolCount p =
      s.poolCount p + countOne p (c.record onward s.uptime s.stamp) := by
  unfold State.createRecord
  rw [poolCount_nextStamp]
  have := poolCount_setQueue p n (enqueue (c.record onward s.uptime s.stamp) (s.queue n)) s
  rw [countP_enqueue] at this
  omega

theorem poolCount_evict (p : Notice → Bool) {s : State} {n : Link} {r : Notice} (h : r ∈ s.queue n) :
    (s.evict n r).poolCount p + countOne p r = s.poolCount p := by
  unfold State.evict
  rw [poolCount_reportDeparture, poolCount_countLoss]
  have := poolCount_setQueue p n ((s.queue n).erase r) s
  have := countP_erase p h
  omega

theorem poolCount_redirect (p : Notice → Bool) (n m : Link) (r : Notice) (s : State) :
    (redirect n m r s).poolCount p =
      s.poolCount p + countOne p { r with onward := none, origin := some n, joined := s.stamp } := by
  unfold redirect
  simp only
  rw [poolCount_nextStamp]
  have := poolCount_setQueue p m
    (enqueue { r with onward := none, origin := some n, joined := s.stamp } (s.queue m)) s
  rw [countP_enqueue] at this
  omega

theorem poolCount_discardRecord (p : Notice → Bool) (n : Link) (r : Notice) (s : State) :
    (discardRecord n r s).poolCount p = s.poolCount p := by
  unfold discardRecord
  rw [poolCount_reportDeparture, poolCount_countLoss]

/-- An end taken puts the records handed back and the unsent ones in the hand of the notice unit. -/
theorem poolCount_takeEnd (p : Notice → Bool) {s : State} {pre post : List NoticeEnd} {e : NoticeEnd}
    (ends : s.transit.noticeEnds = pre ++ e :: post) :
    ((s.setTransit { s.transit with noticeEnds := pre ++ post }).setQueue e.link []).poolCount p
      + (e.handed ++ s.queue e.link).countP p = s.poolCount p := by
  suffices h : ∀ t : Transit, t.noticeEnds = pre ++ post →
      ((s.setTransit t).setQueue e.link []).poolCount p + (e.handed ++ s.queue e.link).countP p = s.poolCount p from
    h _ rfl
  intro t left
  have queue := poolCount_setQueue p e.link [] (s.setTransit t)
  have transit := poolCount_setTransit p t s left
  rw [ends, countEnds_append, countEnds_append, countEnds_cons] at transit
  rw [queue_setTransit, List.countP_nil] at queue
  rw [List.countP_append]
  omega

/-! ### Everything the end of a session, a send or an acknowledgement does to the count -/

theorem flights_reviseFlight {g : InFlight → InFlight} (same : ∀ f, (g f).notice = f.notice) (set : List InFlight)
    (k : Byte) : (reviseFlight set k g).map (·.notice) = set.map (·.notice) := by
  unfold reviseFlight
  rw [List.map_map]
  refine List.map_congr_left fun f _ => ?_
  simp only [Function.comp]
  split
  · exact same f
  · rfl

theorem poolCount_setFlights (p : Notice → Bool) {s : State} {n : Link} {d : Delivery}
    (same : d.inFlight.map (·.notice) = (s.delivery n).inFlight.map (·.notice)) :
    (s.setDelivery n d).poolCount p = s.poolCount p := by
  have := poolCount_setDelivery p n d s rfl
  rw [same] at this
  omega

theorem poolCount_endSession (p : Notice → Bool) (n : Link) (why : EndReason) (s : State) :
    (endSession n why s).poolCount p = s.poolCount p := by
  cases up : s.isUp n with
  | false => rw [endSession_of_not_up n why s up]
  | true =>
    rw [endSession_of_up n why s up]
    suffices h : ∀ (l : LinkRec) (f : Option TxFrame) (d : Delivery) (t : Transit), d.inFlight = [] →
        t.noticeEnds = s.transit.noticeEnds ++
          [⟨n, why, (s.link n).client, (s.delivery n).inFlight.map (·.notice), []⟩] →
        ((((s.setLink n l).setTransmitter n f).setDelivery n d).setTransit t).poolCount p = s.poolCount p from
      h _ _ _ _ rfl rfl
    intro l f d t flights ends
    have same : ((s.setLink n l).setTransmitter n f).poolCount p = s.poolCount p := by simp
    have delivery := poolCount_setDelivery p n d ((s.setLink n l).setTransmitter n f) flights
    have transit := poolCount_setTransit p t (((s.setLink n l).setTransmitter n f).setDelivery n d) ends
    simp only [delivery_setTransmitter, delivery_setLink, List.map_nil, List.countP_nil] at delivery
    simp only [transit_setDelivery, transit_setTransmitter, transit_setLink, countEnds_append, countEnds_cons] at transit
    have nothing : countEnds p [] = 0 := rfl
    omega

theorem poolCount_openSession (p : Notice → Bool) (n : Link) (o : OpenItems) (s : State) :
    (openSession n o s).poolCount p = s.poolCount p := by
  unfold openSession
  simp only
  rw [poolCount_setFlights p (by simp)]
  rw [poolCount_setLink]

/-- An acknowledged record leaves the pool; a stray number takes none out. -/
theorem poolCount_takeAck (p : Notice → Bool) (n : Link) (k : Byte) (s : State) :
    (takeAck n k s).poolCount p
      + (((s.delivery n).inFlight.filter fun f => f.number = k).map (·.notice)).countP p = s.poolCount p := by
  unfold takeAck
  simp only
  split
  · rw [poolCount_reportDeparture]
    suffices h : ∀ d : Delivery, d.inFlight = (s.delivery n).inFlight.filter (·.number ≠ k) →
        (s.setDelivery n d).poolCount p
          + (((s.delivery n).inFlight.filter fun f => f.number = k).map (·.notice)).countP p = s.poolCount p from h _ rfl
    intro d left
    have removed := poolCount_setDelivery p n d s left
    have parts : ((s.delivery n).inFlight.map (·.notice)).countP p =
        (((s.delivery n).inFlight.filter fun f => f.number = k).map (·.notice)).countP p
          + (((s.delivery n).inFlight.filter fun f => f.number ≠ k).map (·.notice)).countP p := by
      rw [← List.countP_append, ← List.map_append]
      refine (List.Perm.map _ ?_).countP_eq p
      have parted := (List.filter_append_perm (fun f : InFlight => decide (f.number = k)) (s.delivery n).inFlight).symm
      simpa using parted
    omega
  · next none =>
    have nobody : (s.delivery n).inFlight.filter (fun f => decide (f.number = k)) = [] := by
      rw [List.filter_eq_nil_iff]
      simpa [flightOf] using none
    rw [nobody, List.map_nil, List.countP_nil, Nat.add_zero]
    exact poolCount_setFlights p rfl

theorem poolCount_takeFrame (p : Notice → Bool) (n : Link) (s : State) :
    (takeFrame n s).poolCount p = s.poolCount p := by
  unfold takeFrame
  split
  · rfl
  · split
    · exact poolCount_congr rfl (fun _ => rfl) rfl p
    · split
      · rfl
      · split
        · next k rest _ =>
          unfold resendFirst
          simp only
          split
          · rw [poolCount_setTransmitter]
            exact poolCount_setFlights p
              (flights_reviseFlight (g := fun f => { f with attempt := f.attempt + 1 }) (fun _ => rfl) _ k)
          · exact poolCount_setFlights p
              (flights_reviseFlight (g := fun f => { f with attempt := f.attempt + 1 }) (fun _ => rfl) _ k)
        · split
          · split
            · next r rest head =>
              have queue : s.queue n = r :: rest := by
                unfold eligibleHead at head
                split at head
                · cases head
                · next e => split at head <;> cases head; exact e
              unfold firstSend
              simp only
              generalize pickNumber (s.delivery n).inFlight (s.delivery n).nextNumber = k
              suffices h : ∀ (d : Delivery) (f : Option TxFrame),
                  d.inFlight = (s.delivery n).inFlight ++ [⟨r, 1, k, s.loss n, none, false⟩] →
                  ((((s.setQueue n rest).setLoss n 0).setDelivery n d).setTransmitter n f).poolCount p =
                    s.poolCount p from h _ _ rfl
              intro d f flights
              rw [poolCount_setTransmitter]
              have queued := poolCount_setQueue p n rest s
              have flown := poolCount_setDelivery p n d ((s.setQueue n rest).setLoss n 0) flights
              rw [poolCount_setLoss] at flown
              rw [queue, countP_cons_countOne] at queued
              simp only [List.map_append, List.map_cons, List.map_nil, List.countP_append, delivery_setQueue,
                delivery_setLoss, countP_cons_countOne, List.countP_nil] at flown
              omega
            · rfl
          · rfl

theorem poolRecords_commandRestart (s : State) : (commandRestart s).poolRecords = [] := by
  simp [State.poolRecords, commandRestart, Transit.empty, Delivery.atReset]

theorem flights_tickAckTimers (s : State) (n : Link) :
    ((tickAckTimers s).delivery n).inFlight = (s.delivery n).inFlight.map InFlight.tick := by
  have e : (tickAckTimers s).delivery n = { s.delivery n with inFlight := (s.delivery n).inFlight.map InFlight.tick } :=
    get_remap _ _ _
  rw [e]

theorem notice_tick (f : InFlight) : f.tick.notice = f.notice := by
  unfold InFlight.tick
  split
  · split <;> rfl
  · rfl

end Sys2Proof.Machine

/-!
PROOF. The notice pool stays within its limits, and its queues in order (R66 to R69, R71, R75, R76, R78).
-/

namespace Sys2Proof.Machine

/-- What becomes of one record at the end of a session: it merges with one of its key in its onward link's queue, joins that
queue, or is lost (R78, R81 to R83). -/
theorem dealWith_cases (n : Link) (s : State) (r : Notice) :
    (∃ m w, m ≠ n ∧ s.upAtNotices m = true ∧ findKey r.key (s.queue m) = some w
        ∧ dealWith n s r = s.setQueue m (revise w (w.merge r n) (s.queue m)))
    ∨ (∃ m, m ≠ n ∧ s.upAtNotices m = true ∧ findKey r.key (s.queue m) = none ∧ dealWith n s r = redirect n m r s)
    ∨ dealWith n s r = discardRecord n r s := by
  unfold dealWith
  split
  · next m _ =>
    split
    · next way =>
      split
      · next w found => exact .inl ⟨m, w, way.1, way.2, found, rfl⟩
      · next none => exact .inr (.inl ⟨m, way.1, way.2, none, rfl⟩)
    · exact .inr (.inr rfl)
  · exact .inr (.inr rfl)

theorem queues_takeLineReport (l : LineIx) (s : State) : (takeLineReport l s).queues = s.queues := by
  unfold takeLineReport
  split
  · rfl
  · unfold takeDeparture
    split
    · simp only
      split <;> rfl
    · rfl
    · rfl

/-! ### The limits of the pool (R71) -/

/-- A record of levels 0 to 2. -/
def Notice.low (r : Notice) : Bool := r.level < 3

/-- Every record. -/
def anyNotice (_ : Notice) : Bool := true

/-- The pool and the records in hand keep the limits of R71. -/
abbrev State.fits (rs : List Notice) (s : State) : Prop :=
  s.poolCount anyNotice + rs.length ≤ 64 ∧ s.poolCount Notice.low + rs.countP Notice.low ≤ 56

theorem poolCount_any (s : State) : s.poolCount anyNotice = s.poolInUse := by
  unfold State.poolCount State.poolInUse
  exact List.countP_eq_length.mpr fun _ _ => rfl

theorem poolLaw_iff (s : State) : s.poolLaw ↔ s.fits [] := by
  unfold State.poolLaw State.fits State.lowRecords
  rw [poolCount_any, ← List.countP_eq_length_filter]
  rfl

theorem poolCount_low_le (s : State) : s.poolCount Notice.low ≤ s.poolCount anyNotice :=
  List.countP_mono_left fun _ _ _ => rfl

@[simp] theorem countOne_any (r : Notice) : countOne anyNotice r = 1 := rfl

theorem countOne_low (r : Notice) : countOne Notice.low r = if r.level < 3 then 1 else 0 := by
  simp [countOne, Notice.low]

theorem countOne_low_le {r q : Notice} (h : r.level ≤ q.level) : countOne Notice.low q ≤ countOne Notice.low r := by
  rw [countOne_low, countOne_low]
  split
  · next low => rw [if_pos (lt_of_le_of_lt h low)]
  · exact Nat.zero_le _

theorem level_lt_three_of_ne : ∀ l : Level, l ≠ 3 → l < 3 := by decide

theorem level_lt_three_of_lt : ∀ l m : Level, l < m → l < 3 := by decide

theorem countOne_low_of_lt {r : Notice} (h : r.level < 3) : countOne Notice.low r = 1 := by
  rw [countOne_low, if_pos h]

theorem fits_place (n : Link) (onward : Option Link) (c : Creation) {s : State} (h : s.fits []) :
    (place n onward c s).2.fits [] := by
  obtain ⟨all, low⟩ := h
  simp only [List.length_nil, List.countP_nil, Nat.add_zero] at all low
  have record : ∀ now mark, (c.record onward now mark).level = c.level := fun _ _ => rfl
  rcases place_cases n onward c s with ⟨w, found, e⟩ | ⟨_, admitted, e⟩ | ⟨⟨m, r⟩, _, refused, victim, e⟩ | ⟨_, _, _, e⟩ <;>
    rw [e]
  · have allCount := poolCount_revise anyNotice (w.absorb c s.stamp) found
    have lowCount := poolCount_revise Notice.low (w.absorb c s.stamp) found
    have raised := countOne_low_le (r := w) (q := w.absorb c s.stamp) (le_max_left _ _)
    rw [countOne_any, countOne_any] at allCount
    constructor <;> simp only [poolCount_nextStamp, List.length_nil, List.countP_nil] <;> omega
  · have allCount := poolCount_createRecord anyNotice s n onward c
    have lowCount := poolCount_createRecord Notice.low s n onward c
    have lowLe := poolCount_low_le s
    rw [countOne_any] at allCount
    have inUse : if c.level = 3 then s.poolCount anyNotice < 64 else s.poolCount anyNotice < 56 := by
      rw [poolCount_any]
      unfold admits at admitted
      split at admitted
      · next top => rw [if_pos top]; exact of_decide_eq_true admitted
      · next less => rw [if_neg less]; exact of_decide_eq_true admitted
    by_cases top : c.level = 3
    · rw [if_pos top] at inUse
      rw [countOne_low, record, if_neg (by rw [top]; decide)] at lowCount
      constructor <;> simp only [List.length_nil, List.countP_nil] <;> omega
    · rw [if_neg top] at inUse
      have one := countOne_low_of_lt (r := c.record onward s.uptime s.stamp) (level_lt_three_of_ne _ top)
      constructor <;> simp only [List.length_nil, List.countP_nil] <;> omega
  · obtain ⟨mem, lower, -⟩ := victim_eq_some s c.level m r victim
    have allGone := poolCount_evict anyNotice mem
    have lowGone := poolCount_evict Notice.low mem
    have allCount := poolCount_createRecord anyNotice (s.evict m r) n onward c
    have lowCount := poolCount_createRecord Notice.low (s.evict m r) n onward c
    rw [countOne_any] at allGone allCount
    have victimLow : countOne Notice.low r = 1 := countOne_low_of_lt (level_lt_three_of_lt _ _ lower)
    have recordLow : countOne Notice.low (c.record onward (s.evict m r).uptime (s.evict m r).stamp) ≤ 1 := by
      rw [countOne_low]; split <;> omega
    constructor <;> simp only [List.length_nil, List.countP_nil] <;> omega
  · constructor <;> simp only [poolCount_countLoss, List.length_nil, List.countP_nil] <;> omega

theorem fits_dealWith (n : Link) (r : Notice) (rs : List Notice) {s : State} (h : s.fits (r :: rs)) :
    (dealWith n s r).fits rs := by
  obtain ⟨all, low⟩ := h
  rw [List.length_cons] at all
  rw [countP_cons_countOne] at low
  rcases dealWith_cases n s r with ⟨m, w, _, _, found, e⟩ | ⟨m, _, _, _, e⟩ | e <;> rw [e]
  · have allCount := poolCount_revise anyNotice (w.merge r n) found
    have lowCount := poolCount_revise Notice.low (w.merge r n) found
    have raised := countOne_low_le (r := w) (q := w.merge r n) (le_max_left _ _)
    rw [countOne_any, countOne_any] at allCount
    constructor <;> omega
  · have allCount := poolCount_redirect anyNotice n m r s
    have lowCount := poolCount_redirect Notice.low n m r s
    have same := countOne_low_le (r := r) (q := { r with onward := none, origin := some n, joined := s.stamp }) (le_refl _)
    rw [countOne_any] at allCount
    constructor <;> omega
  · rw [State.fits, poolCount_discardRecord, poolCount_discardRecord]
    constructor <;> omega

theorem noticeLaw_fits : NoticeLaw fun rs s => s.fits rs where
  place n onward c _ _ h := fits_place n onward c h
  countLoss n s h := by simpa only [State.fits, poolCount_countLoss] using h
  creations cs s h := by simpa only [State.fits, poolCount_setCreations] using h
  pending l s h := by simpa only [State.fits, poolCount_setLine] using h
  dealWith n r rs _ h := fits_dealWith n r rs h
  takeEnd s pre e post ends h := by
    have allCount := poolCount_takeEnd anyNotice ends
    have lowCount := poolCount_takeEnd Notice.low ends
    have length : (e.handed ++ s.queue e.link).countP anyNotice = (e.handed ++ s.queue e.link).length :=
      List.countP_eq_length.mpr fun _ _ => rfl
    rw [length] at allCount
    obtain ⟨all, low⟩ := h
    simp only [List.length_nil, List.countP_nil, Nat.add_zero] at all low
    constructor <;> omega

/-- A step that adds no record to the pool keeps it within its limits. -/
theorem fits_of_le {s t : State} (le : ∀ p, t.poolCount p ≤ s.poolCount p) (h : s.fits []) : t.fits [] :=
  ⟨le_trans (Nat.add_le_add_right (le _) _) h.1, le_trans (Nat.add_le_add_right (le _) _) h.2⟩

theorem NoticeStep.fits {s t : State} (step : NoticeStep s t) (h : s.fits []) : t.fits [] := by
  cases step with
  | same t same => exact fits_of_le (fun p => (same.poolCount p).le) h
  | ended n why => exact fits_of_le (fun p => (poolCount_endSession p n why s).le) h
  | opened n p o silent read => exact fits_of_le (fun p => (poolCount_openSession p n o s).le) h
  | drained ch => exact noticeLaw_fits.drainChannel ch h
  | created ch e => exact noticeLaw_fits.takeChannel ch e h
  | share n x => exact noticeLaw_fits.noticeShare n x h
  | acked n k => exact fits_of_le (fun p => by have := poolCount_takeAck p n k s; omega) h
  | aged =>
    have same : ∀ p, (tickAckTimers s).poolCount p = s.poolCount p := by
      refine poolCount_congr rfl (fun n => ?_) rfl
      rw [flights_tickAckTimers, List.map_map]
      exact List.map_congr_left fun f _ => notice_tick f
    exact fits_of_le (fun p => (same p).le) h
  | counted n k f t flight timer =>
    exact fits_of_le (fun p => (poolCount_setFlights p (flights_reviseFlight
      (g := fun f => { f with timer := some (t - 1), timerDue := false }) (fun _ => rfl) _ k)).le) h
  | stopped n k =>
    exact fits_of_le (fun p => (poolCount_setFlights p (flights_reviseFlight
      (g := fun f => { f with timer := none, timerDue := false }) (fun _ => rfl) _ k)).le) h
  | listed n k f t flight timer few =>
    exact fits_of_le (fun p => (poolCount_setFlights p (flights_reviseFlight
      (g := fun f => { f with timer := none, timerDue := false }) (fun _ => rfl) _ k)).le) h
  | sent n => exact fits_of_le (fun p => (poolCount_takeFrame p n s).le) h
  | timed n k f sending carried =>
    refine fits_of_le (fun p => ?_) h
    unfold startAckTimer
    simp only
    rw [poolCount_setFlights p (flights_reviseFlight
      (g := fun f => { f with timer := some (((s.setTransmitter n none).delivery n).ackTimeout * 10), timerDue := false })
      (fun _ => rfl) _ k), poolCount_setTransmitter]
  | reported l =>
    have only := onlyLines_takeLineReport l s
    exact fits_of_le (fun p => (poolCount_congr (queues_takeLineReport l s) (fun n => by rw [only]; rfl) (by rw [only])
      p).le) h
  | overran l pending => exact fits_of_le (fun p => (poolCount_setLine p s l _).le) h
  | noticed l level pending none => exact fits_of_le (fun p => (poolCount_setCreations p s _).le) h
  | restart =>
    refine fits_of_le (fun p => ?_) h
    rw [State.poolCount, poolRecords_commandRestart, List.countP_nil]
    exact Nat.zero_le _

/-- Settles O53: only a creation adds a record, and a creation is admitted within the limits or takes the place of a record of
lower level. -/
theorem thePoolIsBounded : Obligations.ThePoolIsBounded := by
  refine step_keeps_of_moves _ (fun _ _ h => h) (fun m h => ?_) (fun _ _ _ => poolLaw_reset) (fun _ => poolLaw_reset)
    (fun _ _ _ h => h)
  rw [poolLaw_iff] at h ⊢
  exact m.keeps_notices (P := fun s => s.fits []) (fun _ _ step h => step.fits h) h

/-! ### One queue -/

/-- A queue that stands by level and holds no two notices of one key. -/
abbrev ordered (q : List Notice) : Prop := byLevel q ∧ (q.map (·.key)).Nodup

theorem ordered_enqueue {r : Notice} {q : List Notice} (h : ordered q) (fresh : findKey r.key q = none) :
    ordered (enqueue r q) := by
  refine ⟨byLevel_enqueue r q h.1, ?_⟩
  rw [((perm_enqueue r q).map _).nodup_iff, List.map_cons, List.nodup_cons]
  refine ⟨fun mem => ?_, h.2⟩
  obtain ⟨x, hx, e⟩ := List.mem_map.mp mem
  exact findKey_eq_none _ _ fresh x hx e

theorem ordered_of_sublist {p q : List Notice} (h : ordered q) (sub : p.Sublist q) : ordered p :=
  ⟨h.1.sublist sub, h.2.sublist (sub.map _)⟩

/-- A waiting record revised, its key kept and its level not lowered, leaves the queue in order (R76, R82). -/
theorem ordered_revise {w new : Notice} {q : List Notice} (h : ordered q) (found : findKey w.key q = some w)
    (key : new.key = w.key) (raised : w.level ≤ new.level) : ordered (revise w new q) := by
  obtain ⟨-, pre, post, rfl, other⟩ := findKey_eq_some _ _ _ found
  rw [revise_of_split w new pre post other]
  split
  · refine ordered_enqueue (ordered_of_sublist h (List.Sublist.append_left (List.sublist_cons_self w post) pre)) ?_
    rw [key]
    refine findKey_of_none _ _ fun r hr e => ?_
    have nodup := h.2
    rw [List.map_append, List.map_cons, List.nodup_append] at nodup
    rcases List.mem_append.mp hr with hr | hr
    · exact other r hr e
    · exact (List.nodup_cons.mp nodup.2.1).1 (e ▸ List.mem_map_of_mem hr)
  · next same =>
    have level : new.level = w.level := le_antisymm (not_lt.mp same) raised
    refine ⟨?_, ?_⟩
    · have before := h.1
      rw [byLevel, List.pairwise_append, List.pairwise_cons] at before ⊢
      obtain ⟨first, ⟨head, rest⟩, across⟩ := before
      refine ⟨first, ⟨fun x hx => level ▸ head x hx, rest⟩, fun a ha b hb => ?_⟩
      rcases List.mem_cons.mp hb with rfl | hb
      · exact level ▸ across a ha w List.mem_cons_self
      · exact across a ha b (List.mem_cons_of_mem w hb)
    · have before := h.2
      rwa [List.map_append, List.map_cons, key, ← List.map_cons (f := fun x : Notice => x.key), ← List.map_append]

/-! ### All queues -/

/-- The laws of the queues together. -/
abbrev State.queuesLaw (s : State) : Prop := s.queueLaw ∧ s.silentQueueLaw

/-- The laws of the queues read nothing but the queues, which links are UP, and whose ends are on their way. -/
theorem queuesLaw_congr {s t : State} (h : s.queuesLaw) (queues : ∀ n, t.queue n = s.queue n)
    (up : ∀ n, t.isUp n = s.isUp n)
    (ends : t.transit.noticeEnds.map (·.link) = s.transit.noticeEnds.map (·.link)) : t.queuesLaw := by
  refine ⟨fun n => by rw [queues]; exact h.1 n, fun n down none => ?_⟩
  rw [queues]
  refine h.2 n (by rw [← up]; exact down) fun e he => ?_
  have mem : e.link ∈ t.transit.noticeEnds.map (·.link) := by rw [ends]; exact List.mem_map_of_mem he
  obtain ⟨e', he', same⟩ := List.mem_map.mp mem
  rw [← same]
  exact none e' he'

/-- The queue of a link that counts as UP replaced by one in order. -/
theorem queuesLaw_setQueue {s : State} {n : Link} {q : List Notice} (h : s.queuesLaw) (up : s.upAtNotices n = true)
    (order : ordered q) : (s.setQueue n q).queuesLaw := by
  refine ⟨fun m => ?_, fun m down none => ?_⟩
  · rw [queue_setQueue]
    split
    · exact order
    · exact h.1 m
  · rw [queue_setQueue]
    split
    · next e =>
      subst e
      rw [upAtNotices_of_noEnd s m none] at up
      exact absurd (up.symm.trans down) (by decide)
    · exact h.2 m down none

theorem queuesLaw_evict {s : State} (h : s.queuesLaw) (m : Link) (r : Notice) : (s.evict m r).queuesLaw := by
  have only := onlyPool_evict s m r
  have up : ∀ n, (s.evict m r).isUp n = s.isUp n := fun n => by rw [only]; rfl
  have ends : (s.evict m r).transit.noticeEnds = s.transit.noticeEnds := by rw [only]
  refine ⟨fun n => ?_, fun n down none => ?_⟩
  · rw [queue_evict]
    split
    · exact ordered_of_sublist (h.1 m) List.erase_sublist
    · exact h.1 n
  · rw [up] at down
    rw [ends] at none
    have empty := h.2 n down none
    rw [queue_evict]
    split
    · next e => subst e; rw [empty]; rfl
    · exact empty

theorem queuesLaw_createRecord {s : State} {n : Link} (onward : Option Link) (c : Creation) (h : s.queuesLaw)
    (up : s.upAtNotices n = true) (fresh : findKey c.key (s.queue n) = none) :
    (s.createRecord n onward c).queuesLaw :=
  queuesLaw_congr (queuesLaw_setQueue h up (ordered_enqueue (r := c.record onward s.uptime s.stamp) (h.1 n) fresh))
    (fun _ => rfl) (fun _ => rfl) rfl

theorem queuesLaw_place (n : Link) (onward : Option Link) (c : Creation) {s : State} (up : s.upAtNotices n = true)
    (h : s.queuesLaw) : (place n onward c s).2.queuesLaw := by
  rcases place_cases n onward c s with ⟨w, found, e⟩ | ⟨fresh, _, e⟩ | ⟨v, fresh, _, _, e⟩ | ⟨_, _, _, e⟩ <;> rw [e]
  · have revised := ordered_revise (h.1 n) (findKey_self found) (new := w.absorb c s.stamp) rfl (le_max_left _ _)
    exact queuesLaw_congr (queuesLaw_setQueue h up revised) (fun _ => rfl) (fun _ => rfl) rfl
  · exact queuesLaw_createRecord onward c h up fresh
  · have only := onlyPool_evict s v.1 v.2
    refine queuesLaw_createRecord onward c (queuesLaw_evict h v.1 v.2) ?_ ?_
    · rw [only]; exact up
    · refine findKey_of_none _ _ fun r hr => findKey_eq_none _ _ fresh r ?_
      rw [queue_evict] at hr
      split at hr
      · next e => subst e; exact List.erase_subset hr
      · exact hr
  · exact queuesLaw_congr h (fun _ => rfl) (fun _ => rfl) rfl

theorem queuesLaw_dealWith (n : Link) (r : Notice) {s : State} (h : s.queuesLaw) : (dealWith n s r).queuesLaw := by
  rcases dealWith_cases n s r with ⟨m, w, _, up, found, e⟩ | ⟨m, _, up, fresh, e⟩ | e <;> rw [e]
  · exact queuesLaw_setQueue h up
      (ordered_revise (h.1 m) (findKey_self found) (new := w.merge r n) rfl (le_max_left _ _))
  · refine queuesLaw_congr (queuesLaw_setQueue h up (ordered_enqueue
      (r := { r with onward := none, origin := some n, joined := s.stamp }) (h.1 m) fresh))
      (fun _ => rfl) (fun _ => rfl) rfl
  · have only := onlyPool_discardRecord n r s
    refine queuesLaw_congr h (fun m => ?_) (fun m => by rw [only]; rfl) (by rw [only])
    unfold discardRecord
    rw [reportDeparture_eq]
    rfl

theorem noticeLaw_queues : NoticeLaw fun _ s => s.queuesLaw where
  place n onward c _ up h := queuesLaw_place n onward c up h
  countLoss _ _ h := queuesLaw_congr h (fun _ => rfl) (fun _ => rfl) rfl
  creations _ _ h := queuesLaw_congr h (fun _ => rfl) (fun _ => rfl) rfl
  pending _ _ h := queuesLaw_congr h (fun _ => rfl) (fun _ => rfl) rfl
  dealWith n r _ _ h := queuesLaw_dealWith n r h
  takeEnd s pre e post ends h := by
    refine ⟨fun n => ?_, fun n down none => ?_⟩
    · rw [queue_setQueue]
      split
      · exact ⟨List.Pairwise.nil, List.nodup_nil⟩
      · exact h.1 n
    · rw [queue_setQueue]
      split
      · rfl
      · next other =>
        refine h.2 n down fun e' he' => ?_
        rw [ends, List.mem_append, List.mem_cons] at he'
        rcases he' with he' | rfl | he'
        · exact none e' (List.mem_append_left _ he')
        · exact fun same => other same.symm
        · exact none e' (List.mem_append_right _ he')

theorem queuesLaw_endSession (n : Link) (why : EndReason) {s : State} (h : s.queuesLaw) :
    (endSession n why s).queuesLaw := by
  cases up : s.isUp n with
  | false => rw [endSession_of_not_up n why s up]; exact h
  | true =>
    have queue : ∀ m, (endSession n why s).queue m = s.queue m := fun m => by rw [onlyEnds_endSession n why s]; rfl
    have ends : (endSession n why s).transit.noticeEnds =
        s.transit.noticeEnds ++ [⟨n, why, (s.link n).client, (s.delivery n).inFlight.map (·.notice), []⟩] := by
      rw [endSession_of_up n why s up]; rfl
    refine ⟨fun m => by rw [queue]; exact h.1 m, fun m down none => ?_⟩
    rw [ends] at none
    rw [isUp_endSession] at down
    rw [queue]
    split at down
    · next e => exact absurd e.symm (none _ (List.mem_append_right _ (List.mem_singleton.mpr rfl)))
    · exact h.2 m down fun e he => none e (List.mem_append_left _ he)

theorem queuesLaw_openSession (n : Link) (o : OpenItems) {s : State} (h : s.queuesLaw) :
    (openSession n o s).queuesLaw := by
  refine ⟨h.1, fun m down none => h.2 m ?_ none⟩
  unfold openSession at down
  simp only [isUp_setDelivery, isUp_setLink] at down
  split at down
  · simp [LinkRec.loadInactivity] at down
  · exact down

/-- A frame is taken from the head of the queue of an UP link, or the queues stay as they are (R88, R92). -/
theorem queuesLaw_takeFrame (n : Link) {s : State} (h : s.queuesLaw) : (takeFrame n s).queuesLaw := by
  unfold takeFrame
  split
  · exact h
  · split
    · exact queuesLaw_congr h (fun _ => rfl) (fun m => isUp_setLink_of_same (by simp) m) rfl
    · split
      · exact h
      · next up =>
        split
        · next k rest _ =>
          unfold resendFirst
          simp only
          split <;> exact queuesLaw_congr h (fun _ => rfl) (fun _ => rfl) rfl
        · split
          · split
            · next r rest head =>
              have queue : s.queue n = r :: rest := by
                unfold eligibleHead at head
                split at head
                · cases head
                · next e => split at head <;> cases head; exact e
              have order := h.1 n
              rw [queue] at order
              have upHere : s.upAtNotices n = true := by
                simp only [Bool.not_eq_true, Bool.not_eq_false'] at up
                simp [State.upAtNotices, up]
              exact queuesLaw_congr (queuesLaw_setQueue h upHere (ordered_of_sublist order (List.sublist_cons_self r rest)))
                (fun _ => rfl) (fun _ => rfl) rfl
            · exact h
          · exact h

theorem NoticeStep.queuesLaw {s t : State} (step : NoticeStep s t) (h : s.queuesLaw) : t.queuesLaw := by
  cases step with
  | same t same =>
    have ends := congrArg (List.map Prod.fst) same.ends
    exact queuesLaw_congr h (fun n => by unfold State.queue; rw [same.queues]) same.up
      (by simpa [List.map_map, Function.comp_def] using ends)
  | ended n why => exact queuesLaw_endSession n why h
  | opened n p o silent read => exact queuesLaw_openSession n o h
  | drained ch => exact noticeLaw_queues.drainChannel ch h
  | created ch e => exact noticeLaw_queues.takeChannel ch e h
  | share n x => exact noticeLaw_queues.noticeShare n x h
  | acked n k =>
    have only := onlyAcks_takeAck n k s
    exact queuesLaw_congr h (fun m => by rw [only]; rfl) (fun m => by rw [only]; rfl) (by rw [only])
  | aged => exact queuesLaw_congr h (fun _ => rfl) (fun _ => rfl) rfl
  | counted n k f t flight timer => exact queuesLaw_congr h (fun _ => rfl) (fun _ => rfl) rfl
  | stopped n k => exact queuesLaw_congr h (fun _ => rfl) (fun _ => rfl) rfl
  | listed n k f t flight timer few => exact queuesLaw_congr h (fun _ => rfl) (fun _ => rfl) rfl
  | sent n => exact queuesLaw_takeFrame n h
  | timed n k f sending carried => exact queuesLaw_congr h (fun _ => rfl) (fun _ => rfl) rfl
  | reported l =>
    have only := onlyLines_takeLineReport l s
    exact queuesLaw_congr h (fun m => by unfold State.queue; rw [queues_takeLineReport l s]) (fun m => by rw [only]; rfl)
      (by rw [only])
  | overran l pending => exact queuesLaw_congr h (fun _ => rfl) (fun _ => rfl) rfl
  | noticed l level pending none => exact queuesLaw_congr h (fun _ => rfl) (fun _ => rfl) rfl
  | restart =>
    have queue : ∀ n, (commandRestart s).queue n = [] := fun n => by simp [commandRestart, State.queue]
    exact ⟨fun n => by rw [queue]; exact ⟨List.Pairwise.nil, List.nodup_nil⟩, fun n _ _ => queue n⟩

/-- Settles O54: every step leaves each queue in order, and puts a record only in the queue of a link that counts as UP. -/
theorem queuesStayInOrder : Obligations.QueuesStayInOrder := by
  refine step_keeps_of_moves _ (fun _ _ h => h) (fun m h => ?_) (fun _ _ _ => queueLaws_reset) (fun _ => queueLaws_reset)
    (fun _ _ _ h => h)
  exact m.keeps_notices (P := State.queuesLaw) (fun _ _ step h => step.queuesLaw h) h

end Sys2Proof.Machine

/-!
PROOF. The records in flight stay within the window, and the resend list and ack timers agree with them (R90, R91, R94, R97,
R98, R102).
-/

namespace Sys2Proof.Machine

/-- The laws of delivery on one link that is UP or not, while its transmitter sends the notice numbered `sending`, if any. -/
structure Delivery.flown (d : Delivery) (up : Bool) (sending : Option Byte) : Prop where
  fits : d.inFlight.length ≤ d.window
  window : d.window ≤ 4
  distinct : (d.inFlight.map (·.number)).Nodup
  attempts : ∀ f ∈ d.inFlight, 1 ≤ f.attempt ∧ f.attempt ≤ 3
  down : up = false → d.inFlight = []
  once : d.resend.Nodup
  waiting : ∀ k ∈ d.resend, ∃ f ∈ d.inFlight, f.number = k ∧ f.timer = none ∧ f.attempt < 3
  sent : ∀ k ∈ sending, k ∉ d.resend ∧ ∀ f ∈ d.inFlight, f.number = k → f.timer = none

/-- The number of the notice that link `n`'s transmitter sends, if it sends one. -/
def State.sending (s : State) (n : Link) : Option Byte := (s.transmitter n).bind TxFrame.number

/-- The laws of delivery on every link. -/
abbrev State.flightsLaw (s : State) : Prop := ∀ n, (s.delivery n).flown (s.isUp n) (s.sending n)

theorem sending_iff {s : State} {n : Link} {k : Byte} :
    k ∈ s.sending n ↔ ∃ f ∈ s.transmitter n, k ∈ f.number := by
  simp [State.sending, Option.bind_eq_some_iff]

theorem flightsLaw_iff (s : State) : s.flightsLaw ↔ s.windowLaw ∧ s.resendLaw := by
  constructor
  · intro h
    refine ⟨fun n => ?_, fun n => ?_⟩
    · exact ⟨(h n).fits, (h n).window, (h n).distinct, (h n).attempts, (h n).down⟩
    · exact ⟨(h n).once, (h n).waiting, fun t ht k hk => (h n).sent k (sending_iff.mpr ⟨t, ht, hk⟩)⟩
  · rintro ⟨window, resend⟩ n
    obtain ⟨fits, four, distinct, attempts, down⟩ := window n
    obtain ⟨once, waiting, sent⟩ := resend n
    refine ⟨fits, four, distinct, attempts, down, once, waiting, fun k hk => ?_⟩
    obtain ⟨t, ht, hk⟩ := sending_iff.mp hk
    exact sent t ht k hk

/-! ### One link -/

theorem mem_reviseFlight {set : List InFlight} {k : Byte} {g : InFlight → InFlight} {x : InFlight} :
    x ∈ reviseFlight set k g ↔ ∃ f ∈ set, (if f.number = k then g f else f) = x := by
  simp [reviseFlight]

section
variable {d : Delivery} {up : Bool} {sending : Option Byte}

/-- With nothing in flight and nothing to resend the laws of delivery hold. -/
theorem flown_of_empty (flights : d.inFlight = []) (resend : d.resend = []) (window : d.window ≤ 4) :
    d.flown up sending where
  fits := by simp [flights]
  window := window
  distinct := by simp [flights]
  attempts := by simp [flights]
  down _ := flights
  once := by simp [resend]
  waiting := by simp [resend]
  sent k _ := by simp [flights, resend]

/-- The laws of delivery read the window, the records in flight and the resend list alone. -/
theorem Delivery.flown.congr {e : Delivery} {sending' : Option Byte} (h : d.flown up sending)
    (flights : e.inFlight = d.inFlight) (resend : e.resend = d.resend) (window : e.window = d.window)
    (less : ∀ k ∈ sending', k ∈ sending) : e.flown up sending' where
  fits := by rw [flights, window]; exact h.fits
  window := by rw [window]; exact h.window
  distinct := by rw [flights]; exact h.distinct
  attempts := by rw [flights]; exact h.attempts
  down e := by rw [flights]; exact h.down e
  once := by rw [resend]; exact h.once
  waiting := by rw [resend, flights]; exact h.waiting
  sent k hk := by rw [resend, flights]; exact h.sent k (less k hk)

/-- Of two records in flight with one number there is one. -/
theorem Delivery.flown.same (h : d.flown up sending) {f g : InFlight} (hf : f ∈ d.inFlight) (hg : g ∈ d.inFlight)
    (e : f.number = g.number) : f = g :=
  List.inj_on_of_nodup_map h.distinct hf hg e

/-- The records with one number revised, and the resend list and what is being sent with them. -/
theorem Delivery.flown.revise {k : Byte} {g : InFlight → InFlight} {resend : List Byte} {sending' : Option Byte}
    (h : d.flown up sending) (number : ∀ f, (g f).number = f.number)
    (attempt : ∀ f ∈ d.inFlight, f.number = k → 1 ≤ (g f).attempt ∧ (g f).attempt ≤ 3) (once : resend.Nodup)
    (waiting : ∀ j ∈ resend, (j ≠ k ∧ j ∈ d.resend)
      ∨ (j = k ∧ ∃ f ∈ d.inFlight, f.number = k ∧ (g f).timer = none ∧ (g f).attempt < 3))
    (sent : ∀ j ∈ sending', j ∉ resend
      ∧ ((j ≠ k ∧ j ∈ sending) ∨ (j = k ∧ ∀ f ∈ d.inFlight, f.number = k → (g f).timer = none))) :
    Delivery.flown { d with inFlight := reviseFlight d.inFlight k g, resend := resend } up sending' where
  fits := by simpa [reviseFlight] using h.fits
  window := h.window
  distinct := by
    rw [show Delivery.inFlight { d with inFlight := reviseFlight d.inFlight k g, resend := resend } =
      reviseFlight d.inFlight k g from rfl, numbers_reviseFlight _ k g number]
    exact h.distinct
  attempts x hx := by
    obtain ⟨f, hf, rfl⟩ := mem_reviseFlight.mp hx
    split
    · next e => exact attempt f hf e
    · exact h.attempts f hf
  down e := by simp [reviseFlight, h.down e]
  once := once
  waiting j hj := by
    rcases waiting j hj with ⟨ne, old⟩ | ⟨rfl, f, hf, e, timer, few⟩
    · obtain ⟨f, hf, e, timer, few⟩ := h.waiting j old
      exact ⟨f, mem_reviseFlight.mpr ⟨f, hf, if_neg (e ▸ ne)⟩, e, timer, few⟩
    · exact ⟨g f, mem_reviseFlight.mpr ⟨f, hf, if_pos e⟩, (number f).trans e, timer, few⟩
  sent j hj := by
    obtain ⟨unlisted, rest⟩ := sent j hj
    refine ⟨unlisted, fun x hx e => ?_⟩
    obtain ⟨f, hf, rfl⟩ := mem_reviseFlight.mp hx
    rcases rest with ⟨ne, old⟩ | ⟨rfl, stopped⟩
    · split at e
      · next hk => rw [number, hk] at e; exact absurd e.symm ne
      · next hk => rw [if_neg hk]; exact (h.sent j old).2 f hf e
    · split at e
      · next hk => rw [if_pos hk]; exact stopped f hf hk
      · next hk => exact absurd e hk

/-- A record whose ack timer runs is neither to be resent nor being sent. -/
theorem Delivery.flown.running (h : d.flown up sending) {k : Byte} {f : InFlight} {t : Nat}
    (flight : flightOf d.inFlight k = some f) (timer : f.timer = some t) : k ∉ d.resend ∧ k ∉ sending := by
  obtain ⟨hf, e⟩ := flightOf_eq_some _ _ _ flight
  refine ⟨fun listed => ?_, fun sent => ?_⟩
  · obtain ⟨x, hx, ex, none, -⟩ := h.waiting k listed
    rw [h.same hx hf (ex.trans e.symm), timer] at none
    cases none
  · have none := (h.sent k sent).2 f hf e
    rw [timer] at none
    cases none

theorem Delivery.flown.counted (h : d.flown up sending) {k : Byte} {f : InFlight} {t : Nat}
    (flight : flightOf d.inFlight k = some f) (timer : f.timer = some t) (left : Option Nat) :
    Delivery.flown { d with
      inFlight := reviseFlight d.inFlight k fun f => { f with timer := left, timerDue := false } } up sending := by
  obtain ⟨unlisted, unsent⟩ := h.running flight timer
  exact h.revise (fun _ => rfl) (fun f hf _ => h.attempts f hf) h.once
    (fun j hj => .inl ⟨fun e => unlisted (e ▸ hj), hj⟩)
    (fun j hj => ⟨(h.sent j hj).1, .inl ⟨fun e => unsent (e ▸ hj), hj⟩⟩)

theorem Delivery.flown.stopped (h : d.flown up sending) (k : Byte) :
    Delivery.flown { d with
      inFlight := reviseFlight d.inFlight k fun f => { f with timer := none, timerDue := false } } up sending := by
  refine h.revise (fun _ => rfl) (fun f hf _ => h.attempts f hf) h.once (fun j hj => ?_) (fun j hj => ⟨(h.sent j hj).1, ?_⟩)
  · by_cases e : j = k
    · obtain ⟨f, hf, ef, -, few⟩ := h.waiting j hj
      exact .inr ⟨e, f, hf, ef.trans e, rfl, few⟩
    · exact .inl ⟨e, hj⟩
  · by_cases e : j = k
    · exact .inr ⟨e, fun _ _ _ => rfl⟩
    · exact .inl ⟨e, hj⟩

theorem Delivery.flown.listed (h : d.flown up sending) {k : Byte} {f : InFlight} {t : Nat}
    (flight : flightOf d.inFlight k = some f) (timer : f.timer = some t) (few : f.attempt < 3) :
    Delivery.flown { d with
      inFlight := reviseFlight d.inFlight k fun f => { f with timer := none, timerDue := false }
      resend := d.resend ++ [k] } up sending := by
  obtain ⟨unlisted, unsent⟩ := h.running flight timer
  obtain ⟨hf, e⟩ := flightOf_eq_some _ _ _ flight
  refine h.revise (fun _ => rfl) (fun f hf _ => h.attempts f hf) ?_ (fun j hj => ?_) (fun j hj => ?_)
  · exact List.nodup_append.mpr ⟨h.once, List.nodup_singleton k, fun a ha b hb e => by
      rw [List.mem_singleton.mp hb] at e; exact unlisted (e ▸ ha)⟩
  · rcases List.mem_append.mp hj with old | new
    · exact .inl ⟨fun e => unlisted (e ▸ old), old⟩
    · exact .inr ⟨List.mem_singleton.mp new, f, hf, e, rfl, few⟩
  · have ne : j ≠ k := fun e => unsent (e ▸ hj)
    refine ⟨fun mem => ?_, .inl ⟨ne, hj⟩⟩
    rcases List.mem_append.mp mem with old | new
    · exact (h.sent j hj).1 old
    · exact ne (List.mem_singleton.mp new)

/-- The first record of the resend list is sent again, its attempt counted (R97). -/
theorem Delivery.flown.resent (h : d.flown up none) {k : Byte} {rest : List Byte} (list : d.resend = k :: rest) :
    Delivery.flown { d with
      inFlight := reviseFlight d.inFlight k fun f => { f with attempt := f.attempt + 1 }, resend := rest } up (some k) := by
  have once := h.once
  rw [list, List.nodup_cons] at once
  obtain ⟨f, hf, e, timer, few⟩ := h.waiting k (by simp [list])
  have only : ∀ x ∈ d.inFlight, x.number = k → x = f := fun x hx ex => h.same hx hf (ex.trans e.symm)
  refine h.revise (fun _ => rfl) (fun x hx ex => ?_) once.2 (fun j hj => .inl ⟨?_, ?_⟩) (fun j hj => ?_)
  · rw [only x hx ex]
    exact ⟨Nat.le_add_left 1 _, few⟩
  · exact fun e => once.1 (e ▸ hj)
  · rw [list]; exact List.mem_cons_of_mem k hj
  · obtain rfl : k = j := by simpa using hj
    refine ⟨once.1, .inr ⟨rfl, fun x hx ex => ?_⟩⟩
    rw [only x hx ex]
    exact timer

theorem Delivery.flown.sentNothing (h : d.flown up sending) : d.flown up none :=
  h.congr rfl rfl rfl (by simp)

/-- A first send puts one more record in flight, under a number that no other carries (R91, R92). -/
theorem Delivery.flown.sentFirst (h : d.flown true none) (room : d.inFlight.length < d.window) (list : d.resend = [])
    (r : Notice) (loss : Nat) (next : Byte) :
    Delivery.flown { d with
      inFlight := d.inFlight ++ [⟨r, 1, pickNumber d.inFlight d.nextNumber, loss, none, false⟩], nextNumber := next }
      true (some (pickNumber d.inFlight d.nextNumber)) := by
  have few : d.inFlight.length ≤ 3 := by have := h.window; omega
  have fresh := (pickNumber_spec d.inFlight d.nextNumber few).1
  generalize pickNumber d.inFlight d.nextNumber = k at fresh
  refine ⟨?_, h.window, ?_, ?_, fun e => absurd e (by decide), by simp [list], by simp [list], ?_⟩
  · simpa using room
  · simp only [List.map_append, List.map_cons, List.map_nil]
    refine List.nodup_append.mpr ⟨h.distinct, List.nodup_singleton k, fun a ha b hb e => ?_⟩
    obtain ⟨f, hf, rfl⟩ := List.mem_map.mp ha
    exact fresh f hf (e.trans (List.mem_singleton.mp hb))
  · intro f hf
    rcases List.mem_append.mp hf with hf | hf
    · exact h.attempts f hf
    · rw [List.mem_singleton.mp hf]; exact ⟨le_refl 1, by simp⟩
  · intro j hj
    obtain rfl : k = j := by simpa using hj
    refine ⟨by simp [list], fun f hf e => ?_⟩
    rcases List.mem_append.mp hf with hf | hf
    · exact absurd e (fresh f hf)
    · rw [List.mem_singleton.mp hf]

/-- The ack timer of the record whose frame has been sent starts (R94). -/
theorem Delivery.flown.timed {k : Byte} (h : d.flown up (some k)) (t : Option Nat) :
    Delivery.flown { d with
      inFlight := reviseFlight d.inFlight k fun f => { f with timer := t, timerDue := false } } up none :=
  h.revise (fun _ => rfl) (fun f hf _ => h.attempts f hf) h.once
    (fun j hj => .inl ⟨fun e => (h.sent k rfl).1 (e ▸ hj), hj⟩) (by simp)

/-- An acknowledged record leaves the set and the resend list (R95). -/
theorem Delivery.flown.acked (h : d.flown up sending) (k : Byte) :
    Delivery.flown { d with
      inFlight := d.inFlight.filter (·.number ≠ k), resend := d.resend.filter (· ≠ k) } up sending where
  fits := le_trans (List.length_filter_le _ _) h.fits
  window := h.window
  distinct := h.distinct.sublist (List.filter_sublist.map _)
  attempts f hf := h.attempts f (List.mem_of_mem_filter hf)
  down e := by simp [h.down e]
  once := h.once.sublist List.filter_sublist
  waiting j hj := by
    obtain ⟨mem, ne⟩ := List.mem_filter.mp hj
    obtain ⟨f, hf, e, rest⟩ := h.waiting j mem
    exact ⟨f, List.mem_filter.mpr ⟨hf, by rw [e]; exact ne⟩, e, rest⟩
  sent j hj :=
    ⟨fun mem => (h.sent j hj).1 (List.mem_of_mem_filter mem), fun f hf => (h.sent j hj).2 f (List.mem_of_mem_filter hf)⟩

theorem tick_keeps (f : InFlight) :
    f.tick.number = f.number ∧ f.tick.attempt = f.attempt ∧ (f.timer = none → f.tick.timer = none) := by
  unfold InFlight.tick
  split
  · next t timer => split <;> simp [timer]
  · simp

/-- A tick at the ack timers starts and stops none (R94). -/
theorem Delivery.flown.aged (h : d.flown up sending) :
    Delivery.flown { d with inFlight := d.inFlight.map InFlight.tick } up sending where
  fits := by simpa using h.fits
  window := h.window
  distinct := by
    have same : (d.inFlight.map InFlight.tick).map (·.number) = d.inFlight.map (·.number) := by
      rw [List.map_map]
      exact List.map_congr_left fun f _ => (tick_keeps f).1
    exact same ▸ h.distinct
  attempts x hx := by
    obtain ⟨f, hf, rfl⟩ := List.mem_map.mp hx
    rw [(tick_keeps f).2.1]
    exact h.attempts f hf
  down e := by simp [h.down e]
  once := h.once
  waiting k hk := by
    obtain ⟨f, hf, e, timer, few⟩ := h.waiting k hk
    obtain ⟨number, attempt, stopped⟩ := tick_keeps f
    exact ⟨f.tick, List.mem_map_of_mem hf, number.trans e, stopped timer, by rw [attempt]; exact few⟩
  sent k hk := by
    refine ⟨(h.sent k hk).1, fun x hx e => ?_⟩
    obtain ⟨f, hf, rfl⟩ := List.mem_map.mp hx
    obtain ⟨number, -, stopped⟩ := tick_keeps f
    exact stopped ((h.sent k hk).2 f hf (number.symm.trans e))

end

/-! ### Every link -/

/-- One link's delivery, transmitter and session changed, the others' not. -/
theorem flightsLaw_of_one {s t : State} (h : s.flightsLaw) (n : Link) (own : (t.delivery n).flown (t.isUp n) (t.sending n))
    (others : ∀ m, m ≠ n → t.delivery m = s.delivery m ∧ t.isUp m = s.isUp m ∧ t.sending m = s.sending m) :
    t.flightsLaw := by
  intro m
  by_cases e : m = n
  · subst e; exact own
  · obtain ⟨delivery, up, sending⟩ := others m e
    rw [delivery, up, sending]
    exact h m

theorem sending_congr {s t : State} {n : Link} (h : t.transmitter n = s.transmitter n) : t.sending n = s.sending n := by
  unfold State.sending; rw [h]

theorem flightsLaw_setDelivery {s : State} (h : s.flightsLaw) (n : Link) {d : Delivery}
    (own : d.flown (s.isUp n) (s.sending n)) : (s.setDelivery n d).flightsLaw :=
  flightsLaw_of_one h n (by rw [delivery_setDelivery, if_pos rfl]; exact own) fun m hm =>
    ⟨by rw [delivery_setDelivery, if_neg hm], rfl, rfl⟩

theorem flightsLaw_of_eq {s t : State} (h : s.flightsLaw) (deliveries : t.deliveries = s.deliveries)
    (links : t.links = s.links) (transmitters : t.transmitters = s.transmitters) : t.flightsLaw := by
  intro n
  have delivery : t.delivery n = s.delivery n := by unfold State.delivery; rw [deliveries]
  have up : t.isUp n = s.isUp n := by unfold State.isUp State.link; rw [links]
  have sending : t.sending n = s.sending n := by unfold State.sending State.transmitter; rw [transmitters]
  rw [delivery, up, sending]
  exact h n

theorem number_plain (f : TxFrame) : TxFrame.number { f with carried := f.carried.plain } = f.number := by
  unfold TxFrame.number Carried.plain
  cases f.carried <;> rfl

theorem flightsLaw_endSession (n : Link) (why : EndReason) {s : State} (h : s.flightsLaw) :
    (endSession n why s).flightsLaw := by
  cases up : s.isUp n with
  | false => rw [endSession_of_not_up n why s up]; exact h
  | true =>
    rw [endSession_of_up n why s up]
    refine flightsLaw_of_one h n ?_ fun m hm => ?_
    · simp only [delivery_setTransit, delivery_setDelivery, if_true]
      exact flown_of_empty rfl rfl (h n).window
    · refine ⟨by simp [hm], by simp [hm], sending_congr ?_⟩
      simp [hm]

theorem window_of_readOpen {p : List Byte} {o : OpenItems} (h : readOpen p = some o) : o.window ≤ 4 := by
  unfold readOpen at h
  split at h
  · split_ifs at h with window _ _
    cases h
    simp only
    omega
  · cases h

theorem flightsLaw_openSession (n : Link) {p : List Byte} {o : OpenItems} {s : State}
    (silent : (s.link n).state = .silent) (read : readOpen p = some o) (h : s.flightsLaw) :
    (openSession n o s).flightsLaw := by
  have flights : (s.delivery n).inFlight = [] := (h n).down (by simp [State.isUp, silent])
  have resend : (s.delivery n).resend = [] := by
    refine List.eq_nil_iff_forall_not_mem.mpr fun k hk => ?_
    obtain ⟨f, hf, -⟩ := (h n).waiting k hk
    rw [flights] at hf
    cases hf
  refine flightsLaw_of_one h n ?_ fun m hm => ?_
  · unfold openSession
    simp only [delivery_setDelivery, if_true, delivery_setLink]
    exact flown_of_empty flights resend (window_of_readOpen read)
  · unfold openSession
    exact ⟨by simp [hm], by simp [hm], rfl⟩

theorem flightsLaw_takeAck (n : Link) (k : Byte) {s : State} (h : s.flightsLaw) : (takeAck n k s).flightsLaw := by
  unfold takeAck
  simp only
  split
  · rw [reportDeparture_eq]
    exact flightsLaw_of_eq (flightsLaw_setDelivery h n ((h n).acked k)) rfl rfl rfl
  · exact flightsLaw_setDelivery h n ((h n).congr rfl rfl rfl fun _ => id)

theorem flightsLaw_takeFrame (n : Link) {s : State} (h : s.flightsLaw) : (takeFrame n s).flightsLaw := by
  unfold takeFrame
  split
  · exact h
  · next idle =>
    have silent : s.sending n = none := by unfold State.sending; rw [idle]; rfl
    have own := h n
    rw [silent] at own
    split
    · next r rest _ =>
      refine flightsLaw_of_one h n ?_ fun m hm => ?_
      · unfold sendReply
        simp only [delivery_setTransmitter, delivery_setLink, isUp_setTransmitter, State.sending,
          transmitter_setTransmitter, if_true]
        rw [isUp_setLink_of_same (by simp) n]
        exact own.congr rfl rfl rfl (by simp [TxFrame.number])
      · unfold sendReply
        exact ⟨rfl, by simp [hm], sending_congr (by simp [hm])⟩
    · split
      · exact h
      · next up =>
        have up : s.isUp n = true := by simpa using up
        rw [up] at own
        split
        · next k rest list =>
          have resent := own.resent list
          unfold resendFirst
          simp only
          split
          · refine flightsLaw_of_one h n ?_ fun m hm => ?_
            · simp only [delivery_setTransmitter, delivery_setDelivery, if_true, isUp_setTransmitter, isUp_setDelivery,
                State.sending, transmitter_setTransmitter, up]
              exact resent
            · exact ⟨by simp [hm], rfl, sending_congr (by simp [hm])⟩
          · refine flightsLaw_setDelivery h n ?_
            rw [up, silent]
            exact resent.sentNothing
        · next list =>
          split
          · next room =>
            split
            · next r rest _ =>
              unfold firstSend
              refine flightsLaw_of_one h n ?_ fun m hm => ?_
              · simp only [delivery_setTransmitter, delivery_setDelivery, if_true, isUp_setTransmitter, isUp_setDelivery,
                  State.sending, transmitter_setTransmitter, isUp_setLoss, isUp_setQueue, up]
                exact own.sentFirst room list r _ _
              · exact ⟨by simp [hm], rfl, sending_congr (by simp [hm])⟩
            · exact h
          · exact h

theorem NoticeStep.flightsLaw {s t : State} (step : NoticeStep s t) (h : s.flightsLaw) : t.flightsLaw := by
  cases step with
  | same t same =>
    intro n
    rw [same.up n]
    refine (h n).congr (same.flights n) (same.resends n) (same.windows n) fun k hk => ?_
    obtain ⟨f, hf, number⟩ := sending_iff.mp hk
    exact sending_iff.mpr (same.sends n f hf k number)
  | ended n why => exact flightsLaw_endSession n why h
  | opened n p o silent read => exact flightsLaw_openSession n silent read h
  | drained ch =>
    have only := onlyNotices_drainChannel ch s
    exact flightsLaw_of_eq h (by rw [only]) (by rw [only]) (by rw [only])
  | created ch e =>
    have only := onlyNotices_takeChannel ch e s
    exact flightsLaw_of_eq h (by rw [only]) (by rw [only]) (by rw [only])
  | share n x =>
    have only := onlyShares_noticeShare n x s
    exact flightsLaw_of_eq h (by rw [only]) (by rw [only]) (by rw [only])
  | acked n k => exact flightsLaw_takeAck n k h
  | aged =>
    intro n
    have delivery : (tickAckTimers s).delivery n =
        { s.delivery n with inFlight := (s.delivery n).inFlight.map InFlight.tick } := get_remap _ _ _
    rw [delivery]
    exact (h n).aged
  | counted n k f t flight timer => exact flightsLaw_setDelivery h n ((h n).counted flight timer _)
  | stopped n k => exact flightsLaw_setDelivery h n ((h n).stopped k)
  | listed n k f t flight timer few => exact flightsLaw_setDelivery h n ((h n).listed flight timer few)
  | sent n => exact flightsLaw_takeFrame n h
  | timed n k f sending carried =>
    have sends : s.sending n = some k := by simp [State.sending, sending, TxFrame.number, carried]
    have own := h n
    rw [sends] at own
    unfold startAckTimer
    refine flightsLaw_of_one h n ?_ fun m hm => ?_
    · simp only [delivery_setDelivery, if_true, delivery_setTransmitter, isUp_setDelivery, isUp_setTransmitter,
        State.sending, transmitter_setDelivery, transmitter_setTransmitter, Option.bind_none]
      exact own.timed _
    · exact ⟨by simp [hm], rfl, sending_congr (by simp [hm])⟩
  | reported l =>
    have only := onlyLines_takeLineReport l s
    exact flightsLaw_of_eq h (by rw [only]) (by rw [only]) (by rw [only])
  | overran l pending => exact flightsLaw_of_eq h rfl rfl rfl
  | noticed l level pending none => exact flightsLaw_of_eq h rfl rfl rfl
  | restart =>
    intro n
    have delivery : (commandRestart s).delivery n = .atReset := by simp [commandRestart, State.delivery]
    rw [delivery]
    exact flown_of_empty rfl rfl (by decide)

/-- Settles O55: a send takes a number that no record in flight carries, only a stopped record is resent, and a session that
ends takes its records out of flight. -/
theorem flightsStayInTheWindow : Obligations.FlightsStayInTheWindow := by
  refine step_keeps_of_moves _ (fun _ _ h => h) (fun m h => ?_) (fun _ _ _ => deliveryLaws_reset)
    (fun _ => deliveryLaws_reset) (fun _ _ _ h => h)
  rw [← flightsLaw_iff] at h ⊢
  exact m.keeps_notices (P := State.flightsLaw) (fun _ _ step h => step.flightsLaw h) h

end Sys2Proof.Machine

/-!
PROOF. A line's pending flag and its notices, refuted: the end of a RESET clears the flag whatever the notice unit still holds
(R106, R109, R117).
-/

namespace Sys2Proof.Machine

theorem line_endReset (pins : Half) (straps : Straps) (s : State) (l : LineIx) :
    (endReset pins straps s).line l = (s.line l).restarted (pinOf pins l) := by
  simp only [State.line, endReset, Fin.getElem_fin, get_remap]

/-- RESET is held and about to be released while line 0 waits for the report that its evicted notice has left the pool. The
law of the lines holds here, and nothing in it says that a part in RESET has an empty pool and no report on its way. -/
def heldWithReport : State :=
  { State.reset with
    pending := [.resetReleased 0 0]
    resetIsHeld := true
    lines := put State.reset.lines 0 { LineRec.atReset false with pending := true }
    transit := { Transit.empty with lineReports := [(0, .evicted)] } }

/-- The same part once RESET is released: the flag of line 0 is clear, the report still on its way. -/
def releasedWithReport : State :=
  { endReset 0 0 { heldWithReport with pending := [] } with resetIsHeld := false, resetCause := .pin }

theorem step_heldWithReport : step heldWithReport = .next releasedWithReport := rfl

theorem poolRecords_heldWithReport : heldWithReport.poolRecords = [] := by
  simp [State.poolRecords, heldWithReport, State.reset, Transit.empty, Delivery.atReset]

theorem line_heldWithReport (l : LineIx) :
    heldWithReport.line l = { LineRec.atReset false with pending := decide (l = 0) } := by
  have e : heldWithReport.line l =
      if l = 0 then { LineRec.atReset false with pending := true } else State.reset.line l :=
    line_setLine State.reset 0 { LineRec.atReset false with pending := true } l
  rw [e, line_reset]
  split
  · next h => simp [h]
  · next h => simp [h, LineRec.atReset]

theorem lineReports_heldWithReport (l : LineIx) :
    heldWithReport.lineReports l = if l = 0 then [(0, .evicted)] else [] := by
  have e : heldWithReport.lineReports l = [((0 : LineIx), Departure.evicted)].filter fun w => w.1 = l := rfl
  rw [e, List.filter_singleton]
  by_cases h : l = 0
  · simp [h]
  · have other : ¬ 0 = l := fun e => h e.symm
    simp [h, other]

theorem lineLaw_heldWithReport : heldWithReport.lineLaw := by
  intro l
  have creations : heldWithReport.lineCreations l = [] := rfl
  have records : heldWithReport.lineRecords l = [] := by
    unfold State.lineRecords; rw [poolRecords_heldWithReport]; rfl
  rw [line_heldWithReport, lineReports_heldWithReport, creations, records]
  by_cases h : l = 0 <;> simp [h, LineRec.atReset]

/-- After the release the flag of line 0 says that no notice of it is out, and the report says that one is. -/
theorem not_lineLaw_releasedWithReport : ¬ releasedWithReport.lineLaw := by
  intro law
  have reports : releasedWithReport.lineReports 0 = [(0, .evicted)] := rfl
  have records : releasedWithReport.lineRecords 0 = [] := by
    unfold State.lineRecords
    rw [show releasedWithReport.poolRecords = heldWithReport.poolRecords from rfl, poolRecords_heldWithReport]
    rfl
  have idle : (releasedWithReport.line 0).pending = false := by
    have e : releasedWithReport.line 0 = (endReset 0 0 { heldWithReport with pending := [] }).line 0 := rfl
    rw [e, line_endReset]
    rfl
  have flag := (law 0).1
  rw [idle, reports, records] at flag
  simp at flag

/-- Refutes O56: `heldWithReport` keeps the laws of lines and deliveries, and its RESET_RELEASED breaks that of the lines. -/
theorem not_pendingMeansANotice : ¬ Obligations.PendingMeansANotice := by
  intro h
  exact not_lineLaw_releasedWithReport
    (h _ _ ⟨lineLaw_heldWithReport, deliveryLaws_reset.1, deliveryLaws_reset.2⟩ step_heldWithReport)

end Sys2Proof.Machine

/-!
PROOF. A link is HELD exactly while its client reset output is asserted, but for the words on their way (R118, R119, R127).
-/

namespace Sys2Proof.Machine

/-! ### Chains of words -/

/-- A word that differs from what the output last stood at lengthens the chain. -/
theorem crstChain_append {final shown : Bool} {ws : List Bool} (w : Bool) (h : crstChain final shown ws = true)
    (ne : w ≠ final) : crstChain w shown (ws ++ [w]) = true := by
  induction ws generalizing shown with
  | nil =>
    have e : shown = final := by simpa [crstChain] using h
    simp [crstChain, e, ne]
  | cons a ws ih =>
    simp only [crstChain, Bool.and_eq_true, List.cons_append] at h ⊢
    exact ⟨h.1, ih h.2⟩

/-- The first word of a chain says what is not shown, and the rest follows it. -/
theorem crstChain_cons {final shown w : Bool} {ws : List Bool} (h : crstChain final shown (w :: ws) = true) :
    w = !shown ∧ crstChain final w ws = true := by
  simp only [crstChain, Bool.and_eq_true, decide_eq_true_eq] at h
  exact ⟨by cases w <;> cases shown <;> simp_all, h.2⟩

/-- The levels link `n`'s link unit has yet to be shown. -/
def State.toldLevels (s : State) (n : Link) : List Bool :=
  (s.transit.crstWords.filter fun w => w.1 = n).map (·.2.level)

/-- What the law of CRSTn reads: the claims, the words and which links are HELD. -/
theorem crstLaw_congr {s t : State} (h : s.crstLaw) (claims : t.claims = s.claims)
    (words : t.transit.crstWords = s.transit.crstWords)
    (held : ∀ n, (t.link n).state = .held ↔ (s.link n).state = .held) : t.crstLaw := by
  intro n
  have asserted : t.asserted (crstOf n) = s.asserted (crstOf n) := by
    unfold State.asserted State.claimSet; rw [claims]
  rw [asserted, words, decide_eq_decide.mpr (held n)]
  exact h n

theorem crstLaw_of_links {s t : State} (h : s.crstLaw) (claims : t.claims = s.claims)
    (words : t.transit.crstWords = s.transit.crstWords) (links : t.links = s.links) : t.crstLaw :=
  crstLaw_congr h claims words fun n => by unfold State.link; rw [links]

theorem crstLaw_withLinks {s : State} {v : Vector LinkRec 4} (h : s.crstLaw)
    (held : ∀ n : Link, v[n].state = .held ↔ (s.link n).state = .held) : State.crstLaw { s with links := v } :=
  crstLaw_congr h rfl rfl held

/-- A link record replaced by one that is HELD when it was. -/
theorem crstLaw_setLink {s : State} {n : Link} {l : LinkRec} (h : s.crstLaw)
    (held : l.state = .held ↔ (s.link n).state = .held) : (s.setLink n l).crstLaw := by
  refine crstLaw_congr h rfl rfl fun m => ?_
  rw [link_setLink]
  split
  · next e => subst e; exact held
  · exact .rfl

/-! ### Changes of claims -/

theorem toldLevels_announce (o : OutputIx) (change : CrstChange) (s : State) (n : Link) :
    (announce o change s).toldLevels n =
      s.toldLevels n ++ if o = crstOf n then [change.level] else [] := by
  rw [announce_eq]
  unfold State.toldLevels
  rw [transit_setTransit, List.filter_append, List.map_append]
  congr 1
  unfold linkOfOutput
  split
  · next lt =>
    by_cases e : o = crstOf n
    · subst e; simp [crstOf]
    · have ne : ¬ (⟨o.val, lt⟩ : Link) = n := fun h => e (by rw [← h]; rfl)
      simp [e, ne]
  · next big =>
    have ne : ¬ o = crstOf n := fun h => big (by rw [h]; exact n.isLt)
    simp [ne]

theorem level_changed (b : Bool) (r : Resetter) :
    CrstChange.level (if b then .asserted r else .released) = b := by
  cases b <;> rfl

theorem toldLevels_changeClaims (o : OutputIx) (set : ClaimSet) (r : Resetter) (s : State) (n : Link) :
    (changeClaims o set r s).toldLevels n =
      s.toldLevels n ++ if o = crstOf n ∧ ClaimSet.nonEmpty set ≠ s.asserted o then [ClaimSet.nonEmpty set] else [] := by
  rw [changeClaims_eq]
  by_cases same : ClaimSet.nonEmpty set = s.asserted o
  · simp only [same, if_true, ne_eq, not_true, and_false, if_false, List.append_nil]
    rfl
  · rw [if_neg same, toldLevels_announce, level_changed]
    simp only [ne_eq, same, not_false_eq_true, and_true]
    rfl

/-- A change of a claim set tells the link unit exactly when the output changes (R119). -/
theorem crstLaw_changeClaims (o : OutputIx) (set : ClaimSet) (r : Resetter) {s : State} (h : s.crstLaw) :
    (changeClaims o set r s).crstLaw := by
  intro n
  have asserted : (changeClaims o set r s).asserted (crstOf n) =
      if crstOf n = o then ClaimSet.nonEmpty set else s.asserted (crstOf n) := by
    unfold State.asserted
    rw [claimSet_changeClaims]
    split <;> rfl
  have link : (changeClaims o set r s).link n = s.link n := by rw [onlyClaims_changeClaims o set r s]; rfl
  rw [asserted, link]
  change crstChain _ _ ((changeClaims o set r s).toldLevels n) = true
  have before : crstChain (s.asserted (crstOf n)) ((s.link n).state = .held) (s.toldLevels n) = true := h n
  rw [toldLevels_changeClaims]
  by_cases own : o = crstOf n
  · subst own
    by_cases same : ClaimSet.nonEmpty set = s.asserted (crstOf n)
    · simpa [same] using before
    · simpa [same] using crstChain_append _ before same
  · rw [if_neg fun e => own e.symm, if_neg fun both => own both.1, List.append_nil]
    exact before

theorem foldl_keeps {α : Type} {P : State → Prop} (f : State → α → State) (l : List α)
    (kept : ∀ t x, P t → P (f t x)) {s : State} (h : P s) : P (l.foldl f s) := by
  induction l generalizing s with
  | nil => exact h
  | cons x l ih => exact ih (kept s x h)

theorem crstLaw_dropAllClaims (i : WatchIx) {s : State} (h : s.crstLaw) : (dropAllClaims i s).crstLaw := by
  unfold dropAllClaims
  exact foldl_keeps (P := State.crstLaw) (fun t o => dropClaim (.watch i) o t) _
    (fun t o ht => crstLaw_changeClaims o _ none ht) h

theorem crstLaw_countClaims {s : State} (h : s.crstLaw) : (countClaims s).crstLaw := by
  unfold countClaims
  exact foldl_keeps (P := State.crstLaw) (fun t o => changeClaims o (ClaimSet.counted (t.claimSet o)) none t) _
    (fun t o ht => crstLaw_changeClaims o _ none ht) h

theorem crstLaw_unhold (o : OutputIx) {s : State} (h : s.crstLaw) :
    (dropClaim .manual o (settleManual o s)).crstLaw := by
  refine crstLaw_changeClaims o _ none ?_
  unfold settleManual
  refine foldl_keeps (P := State.crstLaw) (fun t (w : OutputWord) => takeClaim .manual o w.duration none t) _
    (fun t w ht => crstLaw_changeClaims o _ _ ht) ?_
  exact crstLaw_of_links h rfl rfl rfl

/-! ### Changes of links -/

theorem held_endSession (n : Link) (why : EndReason) (s : State) (m : Link) :
    ((endSession n why s).link m).state = .held ↔ (s.link m).state = .held := by
  rw [link_endSession]
  split
  · next h =>
    have up : (s.link n).state = .up := by simpa [State.isUp] using h.2
    rw [h.1, up]
    simp
  · exact .rfl

theorem crstLaw_endSession (n : Link) (why : EndReason) {s : State} (h : s.crstLaw) : (endSession n why s).crstLaw :=
  crstLaw_congr h (by rw [onlyEnds_endSession n why s]) (by rw [onlyEnds_endSession n why s]) (held_endSession n why s)

/-- The words to the other link units are the same once the oldest of link `n`'s is taken. -/
theorem toldLevels_taken {s t : State} {n m : Link} {change : CrstChange} {pre post : List (Link × CrstChange)}
    (words : s.transit.crstWords = pre ++ (n, change) :: post) (other : ∀ w ∈ pre, w.1 ≠ n)
    (left : t.transit.crstWords = pre ++ post) :
    s.toldLevels m = if m = n then change.level :: t.toldLevels n else t.toldLevels m := by
  have none : pre.filter (fun w => decide (w.1 = n)) = [] := by
    rw [List.filter_eq_nil_iff]
    intro w hw
    simpa using other w hw
  unfold State.toldLevels
  rw [words, left]
  simp only [List.filter_append, List.map_append]
  split
  · next e => subst e; simp [none]
  · next ne =>
    have ne' : ¬ n = m := fun e => ne e.symm
    simp [ne']

/-- A link unit takes the oldest word told to it: what it then shows is what the word says. -/
theorem crstLaw_taken {s t : State} {n : Link} {change : CrstChange} {pre post : List (Link × CrstChange)}
    (words : s.transit.crstWords = pre ++ (n, change) :: post) (other : ∀ w ∈ pre, w.1 ≠ n) (h : s.crstLaw)
    (claims : t.claims = s.claims) (left : t.transit.crstWords = pre ++ post)
    (own : decide ((s.link n).state = .held) = !change.level → decide ((t.link n).state = .held) = change.level)
    (others : ∀ m, m ≠ n → (t.link m).state = (s.link m).state) : t.crstLaw := by
  intro m
  have asserted : t.asserted (crstOf m) = s.asserted (crstOf m) := by
    unfold State.asserted State.claimSet; rw [claims]
  rw [asserted]
  change crstChain _ _ (t.toldLevels m) = true
  have before : crstChain (s.asserted (crstOf m)) ((s.link m).state = .held) (s.toldLevels m) = true := h m
  rw [toldLevels_taken words other left] at before
  split at before
  · next e =>
    subst e
    obtain ⟨first, rest⟩ := crstChain_cons before
    rw [own (by rw [first, Bool.not_not])]
    exact rest
  · next ne => rw [others m ne]; exact before

theorem crstLaw_takeAssertedWord (n : Link) {s : State} (h : s.crstLaw) : (takeAssertedWord n s).crstLaw := by
  rcases takeAssertedWord_cases n s with e | ⟨r, pre, post, words, other, e⟩ <;> rw [e]
  · exact h
  · unfold takeAssertion enterHeld
    generalize hu : endSession n .resetIssued (s.setTransit { s.transit with crstWords := pre ++ post }) = u
    have only : OnlyEnds (s.setTransit { s.transit with crstWords := pre ++ post }) u :=
      hu ▸ onlyEnds_endSession _ _ _
    refine crstLaw_taken words other h (by rw [only]; rfl) (by rw [only]; rfl) (fun _ => ?_) (fun m hm => ?_)
    · simp [CrstChange.level]
    · rw [link_setReceiver, link_setLink, if_neg hm]
      change (u.link m).state = _
      rw [← hu, link_endSession, if_neg fun both => hm both.1]
      rfl

theorem crstLaw_takeReleasedWord (n : Link) {s : State} (h : s.crstLaw) : (takeReleasedWord n s).crstLaw := by
  rcases takeReleasedWord_cases n s with e | ⟨pre, post, words, other, e⟩ <;> rw [e]
  · exact h
  · unfold takeRelease
    split
    · refine crstLaw_taken words other h rfl rfl (fun _ => ?_) (fun m hm => ?_)
      · simp [CrstChange.level]
      · rw [link_setReceiver, link_setLink, if_neg hm]
        rfl
    · next free =>
      refine crstLaw_taken words other h rfl rfl (fun shown => ?_) (fun _ _ => rfl)
      have held : (s.link n).state = .held := by simpa [CrstChange.level] using shown
      exact absurd held free

theorem crstLaw_commandRestart (s : State) : (commandRestart s).crstLaw := by
  intro n
  have asserted : (commandRestart s).asserted (crstOf n) =
      ClaimSet.nonEmpty (remap s.claims fun _ set => restartedClaims s set)[crstOf n] := rfl
  have link : (commandRestart s).link n = (s.link n).restarted ((commandRestart s).asserted (crstOf n)) := by
    rw [asserted]
    simp only [commandRestart, State.link, Fin.getElem_fin, get_remap]
  have words : (commandRestart s).transit.crstWords = [] := rfl
  rw [words, link]
  generalize (commandRestart s).asserted (crstOf n) = a
  cases a <;> simp [LinkRec.restarted, crstChain]

theorem crstLaw_finishFrame (n : Link) {s : State} (h : s.crstLaw) : (finishFrame n s).crstLaw := by
  have idle : (s.setTransmitter n none).crstLaw := crstLaw_of_links h rfl rfl rfl
  unfold finishFrame
  split
  · exact h
  · simp only
    split
    · exact crstLaw_of_links h rfl rfl rfl
    · exact idle
    · split
      · exact crstLaw_endSession n .closed idle
      · exact idle
    · split
      · exact crstLaw_commandRestart _
      · exact idle

theorem crstLaw_takeInactivityTick (n : Link) {s : State} (h : s.crstLaw) : (takeInactivityTick n s).crstLaw := by
  have idle : (s.setLink n { s.link n with inactivityDue := false }).crstLaw := crstLaw_setLink h .rfl
  unfold takeInactivityTick
  simp only
  split
  · split
    · split
      · exact crstLaw_endSession n .silence idle
      · exact crstLaw_setLink idle (by simp)
    · exact idle
  · exact h

theorem crstLaw_takeAckTick (n : Link) (k : Byte) {s : State} (h : s.crstLaw) : (takeAckTick n k s).crstLaw := by
  unfold takeAckTick
  simp only
  split
  · split
    · split
      · exact crstLaw_of_links h rfl rfl rfl
      · split
        · exact crstLaw_of_links h rfl rfl rfl
        · exact crstLaw_endSession n .noAck (crstLaw_of_links h rfl rfl rfl)
    · exact h
  · exact h

theorem state_heard (n m : Link) (s : State) : ((s.heard n).link m).state = (s.link m).state := by
  by_cases e : m = n
  · subst e; rw [link_heard_same, state_heardRec]
  · rw [heard_eq, link_setLink, if_neg e]; rfl

theorem state_takeFrame (n m : Link) (s : State) : ((takeFrame n s).link m).state = (s.link m).state := by
  unfold takeFrame
  split
  · rfl
  · split
    · unfold sendReply
      simp only [link_setTransmitter, link_setLink]
      split
      · next e => rw [e]
      · rfl
    · split
      · rfl
      · split
        · unfold resendFirst
          simp only
          split <;> rfl
        · split
          · split <;> rfl
          · rfl

theorem crstLaw_deliverTick (p : TickPort) {s : State} (h : s.crstLaw) : (deliverTick s p).crstLaw := by
  cases p with
  | watches b =>
    unfold deliverTick tickWatches
    exact crstLaw_of_links h rfl rfl rfl
  | lines =>
    unfold deliverTick tickLines
    exact crstLaw_of_links h rfl rfl rfl
  | outputs =>
    unfold deliverTick tickClaims
    simp only
    split
    · exact crstLaw_of_links h rfl rfl rfl
    · exact crstLaw_countClaims h
  | ackTimers =>
    unfold deliverTick tickAckTimers
    exact crstLaw_of_links h rfl rfl rfl
  | inactivityTimers =>
    refine crstLaw_withLinks h fun n => ?_
    simp only [Fin.getElem_fin, get_remap, state_tick]
    rfl
  | offerTimer =>
    unfold deliverTick tickOffer
    simp only
    split
    · split <;> exact crstLaw_of_links h rfl rfl rfl
    · exact h
    · exact h
  | gapTimers =>
    unfold deliverTick tickGaps
    exact crstLaw_of_links h rfl rfl rfl

theorem Move.crstLaw {d a : Bool} {s t : State} (m : Move d a s t) (h : s.crstLaw) : t.crstLaw := by
  cases m
  case settle => rw [settleAuthority_leaves s]; exact crstLaw_of_links h rfl rfl rfl
  case heard n _ =>
    exact crstLaw_congr h (by rw [onlyReception_heard n s]) (by rw [onlyReception_heard n s]) fun k => by
      rw [state_heard]
  case discard n _ => exact crstLaw_setLink h .rfl
  case reply n tag r items _ _ => exact crstLaw_setLink h .rfl
  case pend n tag c _ _ _ _ =>
    have pended : (s.setLink n { s.link n with closing := c, inactivity := none }).crstLaw := crstLaw_setLink h .rfl
    have deafened := crstLaw_of_links (t := (s.setLink n _).setReceiver n .hunting) pended rfl rfl rfl
    exact crstLaw_setLink deafened .rfl
  case endSession n why _ => exact crstLaw_endSession n why h
  case openSession n p o silent _ _ _ =>
    have only := onlyShares_settleEnds n s
    have settled : (settleEnds n s).crstLaw :=
      crstLaw_of_links h (by rw [only]) (by rw [only]) (by rw [only])
    have opened := crstLaw_setLink (l := { (settleEnds n s).link n with
      state := .up, session := ((settleEnds n s).link n).session + 1, client := o.client
      inactivityTimeout := o.inactivity }.loadInactivity) settled (by
        rw [link_settleEnds, silent]; simp [LinkRec.loadInactivity])
    exact crstLaw_of_links opened rfl rfl rfl
  case drain l => rw [onlyNotices_drainChannel (.line l) s]; exact crstLaw_of_links h rfl rfl rfl
  case unhold o => exact crstLaw_unhold o h
  case claim n _ _ => rw [onlyAuthority_takeClaimRequest n s]; exact crstLaw_of_links h rfl rfl rfl
  case passOn => rw [onlyAuthority_passOn none s]; exact crstLaw_of_links h rfl rfl rfl
  case ack n k _ => rw [onlyAcks_takeAck n k s]; exact crstLaw_of_links h rfl rfl rfl
  case checkError n _ =>
    have hunting : (s.setReceiver n .hunting).crstLaw := crstLaw_of_links h rfl rfl rfl
    exact crstLaw_setLink hunting .rfl
  case hunt n b _ =>
    unfold huntByte
    split <;> exact crstLaw_of_links h rfl rfl rfl
  case abandon n b _ =>
    have counted : (s.setLink n { s.link n with
        framingErrors := satAdd 65535 (s.link n).framingErrors 1 }).crstLaw := crstLaw_setLink h .rfl
    unfold abandonStart huntByte
    split <;> exact crstLaw_of_links counted rfl rfl rfl
  case gapTick n =>
    unfold takeGapTick
    simp only
    split
    · split
      · split
        · have hunting : (s.setReceiver n .hunting).crstLaw := crstLaw_of_links h rfl rfl rfl
          exact crstLaw_setLink hunting .rfl
        · exact crstLaw_of_links h rfl rfl rfl
      · exact crstLaw_of_links h rfl rfl rfl
    · exact h
  case deliver p => exact crstLaw_deliverTick p h
  case watchTick i => rw [onlyWatches_takeWatchTick i s]; exact crstLaw_of_links h rfl rfl rfl
  case sample l => rw [onlyLines_takeSample l s]; exact crstLaw_of_links h rfl rfl rfl
  case claimTick =>
    unfold takeClaimTick
    split
    · exact crstLaw_countClaims (crstLaw_of_links h rfl rfl rfl)
    · exact h
  case ackTick n k _ => exact crstLaw_takeAckTick n k h
  case inactivityTick n _ => exact crstLaw_takeInactivityTick n h
  case offerTick => rw [onlyAuthority_takeOfferTick s]; exact crstLaw_of_links h rfl rfl rfl
  case lineReport l => rw [onlyLines_takeLineReport l s]; exact crstLaw_of_links h rfl rfl rfl
  case channel ch e => rw [onlyNotices_takeChannel ch e s]; exact crstLaw_of_links h rfl rfl rfl
  case noticeEnd n x => rw [onlyShares_noticeShare n x s]; exact crstLaw_of_links h rfl rfl rfl
  case authorityEnd n => rw [onlyShares_authorityShare n s]; exact crstLaw_of_links h rfl rfl rfl
  case frame n =>
    have only := onlySends_takeFrame n s
    refine crstLaw_congr h (by rw [only]) (by rw [only]) fun m => ?_
    rw [state_takeFrame]
  case lastByte n _ => exact crstLaw_finishFrame n h
  case claimWord c =>
    unfold takeClaimWord
    split
    · exact crstLaw_changeClaims _ _ _ (crstLaw_of_links h rfl rfl rfl)
    · exact h
  case removalWord i =>
    unfold takeRemovalWord
    split
    · exact crstLaw_dropAllClaims _ (crstLaw_of_links h rfl rfl rfl)
    · exact h
  case asserted n _ => exact crstLaw_takeAssertedWord n h
  case released n => exact crstLaw_takeReleasedWord n h
  all_goals exact crstLaw_of_links h rfl rfl rfl

/-- Settles O57: an output that changes says so to its link unit, and a link unit goes to HELD or leaves it only on such a
word. -/
theorem heldMeansClientReset : Obligations.HeldMeansClientReset :=
  step_keeps_of_moves _ (fun _ _ h => h) (fun m h => m.crstLaw h) (fun _ _ _ => crstLaw_reset) (fun _ => crstLaw_reset)
    (fun _ _ _ h => h)

end Sys2Proof.Machine

/-!
PROOF. Every timed claim has time left, and held claims are those of LATCHED watches (R14, R49, Table 7-2).
-/

namespace Sys2Proof.Machine

/-! ### What the laws of the claims read -/

/-- The words of watch `i` on their way to the output unit. -/
def State.wordsOf (s : State) (i : WatchIx) : List OutputWord :=
  s.transit.outputWords.filter fun w => w.claimant = .watch i

/-- Watch `i` has a held claim, taken, on output `o`. -/
def State.holdsNow (s : State) (o : OutputIx) (i : WatchIx) : Bool :=
  claimOf (s.claimSet o) (.watch i) = some .held

theorem holds_eq (s : State) (o : OutputIx) (i : WatchIx) :
    s.holds o i = (s.wordsOf i).foldl (OutputWord.holdsAfter o) (s.holdsNow o i) := rfl

/-- The laws of the claims, taken and on their way. -/
abbrev State.claimsLaw (s : State) : Prop := s.claimLaw ∧ s.heldLaw

/-- The claims of a set, claimant by claimant, have time left. -/
abbrev ClaimSet.timed (set : ClaimSet) : Prop := ∀ c, ∀ x ∈ claimOf set c, durationLaw x.remaining

theorem claimLaw_iff (s : State) :
    s.claimLaw ↔ (∀ o, ClaimSet.timed (s.claimSet o)) ∧ ∀ w ∈ s.transit.outputWords, durationLaw w.duration := by
  refine and_congr_left fun _ => forall_congr' fun o => ⟨fun h c => h (slotOf c), fun h k => ?_⟩
  obtain ⟨c, rfl⟩ := slotOf_surj k
  exact h c

/-- A held claim comes to be only by a word that orders one. -/
theorem holdsAfter_foldl {o : OutputIx} {ws : List OutputWord} {b : Bool}
    (h : ws.foldl (OutputWord.holdsAfter o) b = true) : b = true ∨ ∃ w ∈ ws, w.duration = none := by
  induction ws generalizing b with
  | nil => exact .inl h
  | cons w ws ih =>
    rcases ih h with after | ⟨x, hx, none⟩
    · unfold OutputWord.holdsAfter at after
      split at after
      · exact .inr ⟨_, List.mem_cons_self, rfl⟩
      · exact .inl after
      · cases after
    · exact .inr ⟨x, List.mem_cons_of_mem w hx, none⟩

/-- The laws of the claims hold where claims and words are the same and LATCHED watches stay so. -/
theorem claimsLaw_congr {s t : State} (h : s.claimsLaw) (claims : t.claims = s.claims)
    (words : t.transit.outputWords = s.transit.outputWords)
    (latched : ∀ i, (s.watch i).state = .latched → (t.watch i).state = .latched) : t.claimsLaw := by
  have sets : ∀ o, t.claimSet o = s.claimSet o := fun o => by unfold State.claimSet; rw [claims]
  refine ⟨?_, fun o i holds => latched i (h.2 o i ?_)⟩
  · rw [claimLaw_iff, words]
    simp only [sets]
    exact (claimLaw_iff s).mp h.1
  · unfold State.holds at *
    rwa [words, sets] at holds

theorem claimsLaw_of_eq {s t : State} (h : s.claimsLaw) (claims : t.claims = s.claims)
    (words : t.transit.outputWords = s.transit.outputWords) (watches : t.watches = s.watches) : t.claimsLaw :=
  claimsLaw_congr h claims words fun i e => by unfold State.watch at *; rwa [watches]

theorem claimsLaw_setWatch {s : State} {i : WatchIx} {w : Watch} (h : s.claimsLaw)
    (latched : (s.watch i).state = .latched → w.state = .latched) : (s.setWatch i w).claimsLaw := by
  refine claimsLaw_congr h rfl rfl fun j e => ?_
  rw [watch_setWatch]
  split
  · next same => subst same; exact latched e
  · exact e

/-! ### What a watch does to the outputs -/

/-- The words of what a watch does are its own, have time left, and order a held claim only when it is LATCHED. -/
abbrev WatchStep.orders (i : WatchIx) (r : WatchStep) : Prop :=
  ∀ x ∈ r.words, x.claimant = .watch i ∧ durationLaw x.duration ∧ (x.duration = none → r.watch.state = .latched)

theorem orders_of_none {i : WatchIx} {r : WatchStep} (h : r.words = []) : r.orders i := by
  intro x hx
  rw [h] at hx
  cases hx

/-- A stage's claim is the watch's, timed within bounds, and held only for a latching action (R45, Table 3-1). -/
theorem stageClaim_orders {i : WatchIx} {g : Byte} {r : StageRec} (lawful : r.lawful) {x : OutputWord}
    (hx : x ∈ stageClaim i g r) :
    x.claimant = .watch i ∧ durationLaw x.duration ∧ (x.duration = none → r.action.latching = true) := by
  unfold stageClaim at hx
  split at hx
  · cases hx
  · next pulse =>
    obtain rfl := List.mem_singleton.mp hx
    have duration := lawful.2.1
    rw [if_pos pulse] at duration
    refine ⟨rfl, fun k hk => ?_, fun none => by cases none⟩
    obtain rfl : r.duration = k := by simpa [OutputWord.duration] using hk
    exact duration
  · next hold =>
    obtain rfl := List.mem_singleton.mp hx
    refine ⟨rfl, ?_, fun _ => by rw [hold]; rfl⟩
    intro k hk
    cases hk
  · next safe =>
    obtain rfl := List.mem_singleton.mp hx
    refine ⟨rfl, ?_, fun _ => by rw [safe]; rfl⟩
    intro k hk
    cases hk

section
variable (i : WatchIx) {w : Watch}

theorem orders_enterStage (h : w.ladderLaw) (k : Nat) (fault : Option (Byte × Byte)) : (enterStage i w k fault).orders i := by
  have stage : ∀ x ∈ stageClaim i w.generation (w.stageRec k), _ := fun x hx =>
    stageClaim_orders (lawful_stageRec h k) hx
  unfold enterStage
  simp only
  split
  · exact fun x hx => ⟨(stage x hx).1, (stage x hx).2.1, fun _ => rfl⟩
  · next loose => exact fun x hx => ⟨(stage x hx).1, (stage x hx).2.1, fun none => absurd ((stage x hx).2.2 none) loose⟩

theorem orders_lapse (h : w.ladderLaw) (fault : Option (Byte × Byte)) : (lapse i w fault).orders i := by
  unfold lapse
  simp only
  split
  · intro x hx
    obtain ⟨own, time, -⟩ := stageClaim_orders (lawful_stageRec (w := w.strike) h _) hx
    exact ⟨own, time, fun _ => rfl⟩
  · exact orders_enterStage i (w := w.strike) h 1 fault

theorem orders_countDown (h : w.ladderLaw) : (countDown i w).orders i := by
  unfold countDown
  split
  case h_1 =>
    split
    · unfold expire
      split
      · exact orders_of_none rfl
      · exact orders_lapse i (w := { w with count := 0 }) h none
      · exact orders_lapse i (w := { w with count := 0 }) h none
    · exact orders_of_none rfl
  case h_2 =>
    split
    · unfold endGrace
      split
      · exact orders_enterStage i (w := { w with count := 0 }) h _ none
      · exact orders_of_none rfl
    · exact orders_of_none rfl
  all_goals exact orders_of_none rfl

theorem words_feedStep (w : Watch) : (feedStep i w).words = [] := by
  unfold feedStep
  split <;> rfl

theorem words_completeStep (w : Watch) : (completeStep i w).words = [] := by
  unfold completeStep
  split <;> rfl

theorem orders_feedRequest (h : w.ladderLaw) (v : Byte) : (feedRequest i w v).2.orders i := by
  unfold feedRequest
  split
  · simp only
    split
    · exact orders_of_none (words_feedStep i _)
    · split
      · exact orders_lapse i (w := { w with lastSeq := some v }) h _
      · unfold faultInOverdue
        split
        · exact orders_enterStage i (w := { w with lastSeq := some v }) h _ _
        · exact orders_of_none rfl
  · exact orders_of_none (words_feedStep i w)

/-! ### A LATCHED watch stays so -/

theorem feedStep_latched (h : w.state = .latched) : (feedStep i w).watch.state = .latched := by
  unfold feedStep
  split
  case h_5 => exact h
  all_goals simp_all

theorem completeStep_latched (h : w.state = .latched) : (completeStep i w).watch.state = .latched := by
  unfold completeStep
  rw [h]
  exact h

theorem triggerStep_latched (h : w.state = .latched) : (triggerStep i w).watch.state = .latched := by
  unfold triggerStep
  split
  · exact completeStep_latched i h
  · exact feedStep_latched i h
  · exact feedStep_latched i h

theorem countDown_latched (h : w.state = .latched) : (countDown i w).watch.state = .latched := by
  unfold countDown
  rw [h]
  exact h

theorem tick_state (w : Watch) (b : Base) : (w.tick b).state = w.state := by
  unfold Watch.tick
  split <;> rfl

theorem not_latched_of_takesFeed (h : w.takesFeed = true) : w.state ≠ .latched := by
  intro e
  cases hk : w.kind <;> simp [Watch.takesFeed, hk, e] at h

end

/-- What a watch does keeps the laws of the claims, if it stays LATCHED when it was. -/
theorem claimsLaw_applyStep {s : State} {i : WatchIx} {r : WatchStep} (h : s.claimsLaw) (orders : r.orders i)
    (latched : (s.watch i).state = .latched → r.watch.state = .latched) : (applyStep i r s).claimsLaw := by
  have words : (applyStep i r s).transit.outputWords = s.transit.outputWords ++ r.words := rfl
  refine ⟨?_, fun o j holds => ?_⟩
  · rw [claimLaw_iff, words]
    obtain ⟨sets, old⟩ := (claimLaw_iff s).mp h.1
    refine ⟨sets, fun x hx => ?_⟩
    rcases List.mem_append.mp hx with hx | hx
    · exact old x hx
    · exact (orders x hx).2.1
  · rw [watch_applyStep]
    have now : (applyStep i r s).holdsNow o j = s.holdsNow o j := rfl
    have all : (applyStep i r s).wordsOf j = s.wordsOf j ++ r.words.filter fun x => x.claimant = .watch j := by
      unfold State.wordsOf
      rw [words, List.filter_append]
    rw [holds_eq, now, all, List.foldl_append, ← holds_eq] at holds
    rcases holdsAfter_foldl holds with before | ⟨x, hx, none⟩
    · split
      · next e => subst e; exact latched (h.2 o j before)
      · exact h.2 o j before
    · obtain ⟨mem, own⟩ := List.mem_filter.mp hx
      obtain ⟨claimant, -, held⟩ := orders x mem
      have e : j = i := by
        rw [claimant] at own
        simpa using (of_decide_eq_true own).symm
      rw [if_pos e]
      exact held none

theorem claimsLaw_triggerWatches (l : LineIx) {s : State} (h : s.claimsLaw) : (triggerWatches l s).claimsLaw := by
  unfold triggerWatches
  refine foldl_keeps (P := State.claimsLaw)
    (fun t i => if inLines (t.watch i).lineSet l then applyStep i (triggerStep i (t.watch i)) t else t) _
    (fun t i ht => ?_) h
  split
  · exact claimsLaw_applyStep ht (orders_of_none (words_triggerStep i _)) (triggerStep_latched i)
  · exact ht

theorem claimsLaw_notifyTrigger (l : LineIx) (level : Bool) {s : State} (h : s.claimsLaw) :
    (notifyTrigger l level s).claimsLaw := by
  have only := onlyNotices_drainChannel (.line l) s
  have drained : (drainChannel (.line l) s).claimsLaw :=
    claimsLaw_of_eq h (by rw [only]) (by rw [only]) (by rw [only])
  unfold notifyTrigger
  split
  · simp only
    split <;> exact claimsLaw_of_eq drained rfl rfl rfl
  · exact h

/-! ### What the output unit does -/

/-- The claims change, and what each watch holds once its words are taken does not. -/
theorem claimsLaw_of_holds {s t : State} (h : s.claimsLaw) (sets : ∀ o, ClaimSet.timed (t.claimSet o))
    (words : ∀ w ∈ t.transit.outputWords, w ∈ s.transit.outputWords) (holds : ∀ o i, t.holds o i = s.holds o i)
    (watches : t.watches = s.watches) : t.claimsLaw := by
  refine ⟨(claimLaw_iff t).mpr ⟨sets, fun w hw => ((claimLaw_iff s).mp h.1).2 w (words w hw)⟩, fun o i on => ?_⟩
  have watch : t.watch i = s.watch i := by unfold State.watch; rw [watches]
  rw [watch]
  exact h.2 o i (by rw [← holds]; exact on)

theorem remaining_replaceClaim {x : Option Claim} {d : Option Nat} (time : durationLaw d) :
    durationLaw (replaceClaim x d).remaining := by
  unfold replaceClaim
  split
  · simp [Claim.remaining, durationLaw]
  · exact time
  · simp [Claim.remaining, durationLaw]

theorem timed_claimInto {set : ClaimSet} (h : ClaimSet.timed set) (c : Claimant) {d : Option Nat} (time : durationLaw d) :
    ClaimSet.timed (claimInto c d set) := by
  intro b x hx
  unfold claimInto at hx
  rw [claimOf_put] at hx
  split at hx
  · obtain rfl := Option.some.inj hx
    exact remaining_replaceClaim time
  · exact h b x hx

theorem timed_dropped {set : ClaimSet} (h : ClaimSet.timed set) (c : Claimant) :
    ClaimSet.timed (put set (slotOf c) none) := by
  intro b x hx
  rw [claimOf_put] at hx
  split at hx
  · cases hx
  · exact h b x hx

theorem timed_counted {set : ClaimSet} (h : ClaimSet.timed set) : ClaimSet.timed (ClaimSet.counted set) := by
  intro c x hx
  rw [claimOf_counted, Option.mem_def, Option.bind_eq_some_iff] at hx
  obtain ⟨y, hy, e⟩ := hx
  have before := h c y hy
  rw [counted_eq] at e
  split at e
  · next r =>
    split at e
    · cases e
    · next more =>
      obtain rfl := Option.some.inj e
      have := before r rfl
      intro k hk
      obtain rfl : r - 1 = k := by simpa [Claim.remaining] using hk
      omega
  · obtain rfl := Option.some.inj e
    exact before

/-- A held claim is counted as it is, and no other becomes one (R121). -/
theorem held_counted (x : Option Claim) : x.bind Claim.counted = some .held ↔ x = some .held := by
  cases x with
  | none => simp
  | some c =>
    rw [Option.bind_some, counted_eq]
    cases c with
    | timed r => by_cases h : r ≤ 1 <;> simp [h]
    | held => simp

/-- Claims of one output of a claimant that is no watch change what no watch holds. -/
theorem holds_of_manual {s t : State} (words : ∀ i, t.wordsOf i = s.wordsOf i)
    (claims : ∀ o i, claimOf (t.claimSet o) (.watch i) = claimOf (s.claimSet o) (.watch i)) (o : OutputIx) (i : WatchIx) :
    t.holds o i = s.holds o i := by
  rw [holds_eq, holds_eq, words]
  unfold State.holdsNow
  rw [claims]

theorem claimsLaw_countClaims {s : State} (h : s.claimsLaw) : (countClaims s).claimsLaw := by
  have only := onlyClaims_countClaims s
  have words : (countClaims s).transit.outputWords = s.transit.outputWords := by rw [only]
  refine claimsLaw_of_holds h (fun o => ?_) (fun w hw => by rwa [words] at hw) (fun o i => ?_) (by rw [only])
  · rw [claimSet_countClaims]
    exact timed_counted (((claimLaw_iff s).mp h.1).1 o)
  · unfold State.holds
    rw [words, claimSet_countClaims, claimOf_counted]
    simp only [held_counted]

/-- Once the oldest word of a claimant is taken, its own words are the rest and the others' are the same. -/
theorem wordsOf_taken {s : State} {c : Claimant} {w : OutputWord} {rest : List OutputWord}
    (first : firstWord c s = some (w, rest)) :
    w.claimant = c ∧ (∀ x ∈ rest, x ∈ s.transit.outputWords) ∧ w ∈ s.transit.outputWords
    ∧ ∀ i, s.wordsOf i = if c = .watch i then w :: (s.withOutputWords rest).wordsOf i
        else (s.withOutputWords rest).wordsOf i := by
  obtain ⟨pre, post, words, rfl, other, own⟩ := takeFirst_eq_some _ _ _ _ first
  have own : w.claimant = c := of_decide_eq_true own
  refine ⟨own, fun x hx => ?_, by rw [words]; simp, fun i => ?_⟩
  · rw [words]
    rcases List.mem_append.mp hx with hx | hx
    · exact List.mem_append_left _ hx
    · exact List.mem_append_right _ (List.mem_cons_of_mem w hx)
  · have left : (s.withOutputWords (pre ++ post)).wordsOf i =
        pre.filter (fun x => decide (x.claimant = .watch i)) ++ post.filter fun x => decide (x.claimant = .watch i) := by
      unfold State.wordsOf
      rw [show (s.withOutputWords (pre ++ post)).transit.outputWords = pre ++ post from rfl, List.filter_append]
    have all : s.wordsOf i = pre.filter (fun x => decide (x.claimant = .watch i)) ++
        (w :: post).filter fun x => decide (x.claimant = .watch i) := by
      unfold State.wordsOf
      rw [words, List.filter_append]
    rw [left, all, List.filter_cons, own]
    by_cases e : c = .watch i
    · have none : pre.filter (fun x => decide (x.claimant = .watch i)) = [] := by
        rw [List.filter_eq_nil_iff]
        intro x hx
        have := other x hx
        rw [e] at this
        simpa using this
      simp [e, none]
    · simp [e]

/-- A claim taken puts into the set what its word ordered (R120, Table 7-3). -/
theorem claimsLaw_takeClaimWord (c : Claimant) {s : State} (h : s.claimsLaw) : (takeClaimWord c s).claimsLaw := by
  unfold takeClaimWord
  split
  · next c' o d g rest first =>
    obtain ⟨own, fewer, mem, all⟩ := wordsOf_taken first
    obtain rfl : c' = c := own
    obtain ⟨sets, times⟩ := (claimLaw_iff s).mp h.1
    have time : durationLaw d := times _ mem
    have only : OnlyClaims (s.withOutputWords rest) (takeClaim c' o d g (s.withOutputWords rest)) :=
      onlyClaims_changeClaims _ _ _ _
    have words : (takeClaim c' o d g (s.withOutputWords rest)).transit.outputWords = rest := by rw [only]; rfl
    refine claimsLaw_of_holds h (fun p => ?_) (fun x hx => fewer x (by rwa [words] at hx)) (fun p i => ?_)
      (by rw [only]; rfl)
    · rw [claimSet_takeClaim]
      split
      · exact timed_claimInto (sets o) c' time
      · exact sets p
    · have left : (takeClaim c' o d g (s.withOutputWords rest)).wordsOf i = (s.withOutputWords rest).wordsOf i := by
        unfold State.wordsOf; rw [words]; rfl
      rw [holds_eq, holds_eq, left, all i]
      unfold State.holdsNow
      rw [claimSet_takeClaim]
      by_cases watch : c' = .watch i
      · rw [if_pos watch, List.foldl_cons]
        subst watch
        congr 1
        by_cases here : p = o
        · subst here
          rw [if_pos rfl]
          unfold claimInto
          rw [claimOf_put, if_pos rfl]
          change decide (some (replaceClaim (claimOf (s.claimSet p) (.watch i)) d) = some .held) = _
          generalize claimOf (s.claimSet p) (.watch i) = x
          cases d <;> rcases x with _ | ⟨r⟩ | _ <;> simp [replaceClaim, OutputWord.holdsAfter]
        · rw [if_neg here]
          have there : ¬ o = p := fun e => here e.symm
          cases d with
          | none => simp only [OutputWord.holdsAfter, there, decide_false, Bool.or_false]; rfl
          | some k => rfl
      · rw [if_neg watch]
        congr 1
        split
        · next e =>
          subst e
          unfold claimInto
          rw [claimOf_put, if_neg fun e => watch e.symm]
          rfl
        · rfl
  · exact h

/-- The removal a CLEAR orders leaves a watch no claim (R49, R126). -/
theorem claimsLaw_takeRemovalWord (i : WatchIx) {s : State} (h : s.claimsLaw) : (takeRemovalWord i s).claimsLaw := by
  unfold takeRemovalWord
  split
  · next i' rest first =>
    obtain ⟨own, fewer, -, all⟩ := wordsOf_taken first
    obtain rfl : i' = i := by simpa [OutputWord.claimant] using own
    obtain ⟨sets, -⟩ := (claimLaw_iff s).mp h.1
    have only := onlyClaims_dropAllClaims i' (s.withOutputWords rest)
    have words : (dropAllClaims i' (s.withOutputWords rest)).transit.outputWords = rest := by rw [only]; rfl
    refine claimsLaw_of_holds h (fun p => ?_) (fun x hx => fewer x (by rwa [words] at hx)) (fun p j => ?_)
      (by rw [only]; rfl)
    · rw [claimSet_dropAllClaims]
      exact timed_dropped (sets p) _
    · have left : (dropAllClaims i' (s.withOutputWords rest)).wordsOf j = (s.withOutputWords rest).wordsOf j := by
        unfold State.wordsOf; rw [words]; rfl
      rw [holds_eq, holds_eq, left, all j]
      unfold State.holdsNow
      rw [claimSet_dropAllClaims, claimOf_put]
      by_cases e : j = i'
      · subst e
        rw [if_pos rfl, if_pos rfl, List.foldl_cons]
        rfl
      · have ne : ¬ Claimant.watch j = .watch i' := fun h => e (by simpa using h)
        have ne' : ¬ Claimant.watch i' = .watch j := fun h => ne h.symm
        rw [if_neg ne, if_neg ne']
        rfl
  · exact h

theorem claimOf_claimInto_manual (set : ClaimSet) (d : Option Nat) (i : WatchIx) :
    claimOf (claimInto .manual d set) (.watch i) = claimOf set (.watch i) := by
  unfold claimInto
  rw [claimOf_put, if_neg (by simp)]

/-- UNHOLD takes and removes claims of MANUAL alone (R125). -/
theorem claimsLaw_unhold (o : OutputIx) {s : State} (h : s.claimsLaw) :
    (dropClaim .manual o (settleManual o s)).claimsLaw := by
  obtain ⟨sets, times⟩ := (claimLaw_iff s).mp h.1
  have settled : ∀ (ws : List OutputWord) (t : State), (∀ w ∈ ws, durationLaw w.duration) →
      (∀ p, ClaimSet.timed (t.claimSet p)) →
      let u := ws.foldl (fun t w => takeClaim .manual o w.duration none t) t
      (∀ p, ClaimSet.timed (u.claimSet p))
      ∧ ∀ p i, claimOf (u.claimSet p) (.watch i) = claimOf (t.claimSet p) (.watch i) := by
    intro ws
    induction ws with
    | nil => exact fun t _ ht => ⟨ht, fun _ _ => rfl⟩
    | cons w ws ih =>
      intro t time ht
      obtain ⟨timed, same⟩ := ih (takeClaim .manual o w.duration none t)
        (fun x hx => time x (List.mem_cons_of_mem w hx)) (fun p => by
          rw [claimSet_takeClaim]
          split
          · exact timed_claimInto (ht o) _ (time w List.mem_cons_self)
          · exact ht p)
      refine ⟨timed, fun p i => (same p i).trans ?_⟩
      rw [claimSet_takeClaim]
      split
      · next e => rw [claimOf_claimInto_manual, e]
      · rfl
  obtain ⟨timed, same⟩ := settled (s.manualWords o)
    (s.withOutputWords (s.transit.outputWords.filter fun w => !w.isManual o))
    (fun w hw => times w (List.mem_of_mem_filter hw)) sets
  have only := (settleManual_leaves o s).trans
    (onlyClaims_changeClaims o (put ((settleManual o s).claimSet o) (slotOf .manual) none) none _)
  have words : (dropClaim .manual o (settleManual o s)).transit.outputWords =
      s.transit.outputWords.filter fun w => !w.isManual o := by unfold dropClaim; rw [only]; rfl
  refine claimsLaw_of_holds h (fun p => ?_) (fun w hw => List.mem_of_mem_filter (words ▸ hw)) ?_
    (by unfold dropClaim; rw [only]; rfl)
  · rw [claimSet_dropClaim]
    split
    · exact timed_dropped (timed o) _
    · exact timed p
  · refine holds_of_manual (fun i => ?_) (fun p i => ?_)
    · unfold State.wordsOf
      rw [words, List.filter_filter]
      refine List.filter_congr fun w _ => ?_
      cases w with
      | claim c p d g => cases c <;> simp [OutputWord.claimant, OutputWord.isManual]
      | removeAll j => simp [OutputWord.isManual]
    · rw [claimSet_dropClaim]
      split
      · next e =>
        subst e
        rw [claimOf_put, if_neg (by simp)]
        exact same p i
      · exact same p i

/-- A claim of MANUAL handed over is timed within bounds, and no watch's. -/
theorem claimsLaw_manual (o : OutputIx) {d : Option Nat} (time : durationLaw d) {s : State} (h : s.claimsLaw) :
    (s.sendOutput [.claim .manual o d none]).claimsLaw := by
  have words : (s.sendOutput [.claim .manual o d none]).transit.outputWords =
      s.transit.outputWords ++ [.claim .manual o d none] := rfl
  obtain ⟨sets, times⟩ := (claimLaw_iff s).mp h.1
  refine ⟨(claimLaw_iff _).mpr ⟨sets, fun w hw => ?_⟩, fun p i holds => h.2 p i ?_⟩
  · rw [words] at hw
    rcases List.mem_append.mp hw with hw | hw
    · exact times w hw
    · rw [List.mem_singleton.mp hw]; exact time
  · rw [← holds]
    refine (holds_of_manual (s := s) (t := s.sendOutput [.claim .manual o d none]) (fun j => ?_) (fun _ _ => rfl) p i).symm
    unfold State.wordsOf
    rw [words, List.filter_append]
    simp [OutputWord.claimant]

/-- A CLEAR orders the removal of every claim of its watch, which holds none once the order is taken (R49). -/
theorem claimsLaw_clear {s : State} (i : WatchIx) (w : Watch) (h : s.claimsLaw) :
    ((s.setWatch i w).sendOutput [.removeAll i]).claimsLaw := by
  have words : ((s.setWatch i w).sendOutput [.removeAll i]).transit.outputWords =
      s.transit.outputWords ++ [.removeAll i] := rfl
  obtain ⟨sets, times⟩ := (claimLaw_iff s).mp h.1
  refine ⟨(claimLaw_iff _).mpr ⟨sets, fun x hx => ?_⟩, fun p j holds => ?_⟩
  · rw [words] at hx
    rcases List.mem_append.mp hx with hx | hx
    · exact times x hx
    · rw [List.mem_singleton.mp hx]
      exact fun k hk => by cases hk
  · have all : ((s.setWatch i w).sendOutput [.removeAll i]).wordsOf j =
        s.wordsOf j ++ if i = j then [.removeAll i] else [] := by
      unfold State.wordsOf
      rw [words, List.filter_append, List.filter_singleton]
      by_cases e : i = j <;> simp [OutputWord.claimant, e]
    have now : ((s.setWatch i w).sendOutput [.removeAll i]).holdsNow p j = s.holdsNow p j := rfl
    rw [holds_eq, all, now, List.foldl_append, ← holds_eq] at holds
    by_cases e : i = j
    · rw [if_pos e] at holds
      cases holds
    · rw [if_neg e] at holds
      have watch : ((s.setWatch i w).sendOutput [.removeAll i]).watch j = s.watch j := by
        rw [watch_sendOutput, watch_setWatch, if_neg fun e' => e e'.symm]
      rw [watch]
      exact h.2 p j holds

/-! ### The command restart -/

theorem claimOf_restartedClaims (s : State) (set : ClaimSet) (i : WatchIx) :
    claimOf (restartedClaims s set) (.watch i) = if (s.watch i).frozen then claimOf set (.watch i) else none := by
  unfold claimOf restartedClaims
  simp only [Fin.getElem_fin, get_remap]
  rw [dif_pos (show (slotOf (.watch i)).val < 32 from i.isLt)]
  rfl

theorem claimOf_restartedClaims_manual (s : State) (set : ClaimSet) : claimOf (restartedClaims s set) .manual = none := by
  unfold claimOf restartedClaims
  simp only [Fin.getElem_fin, get_remap]
  simp [slotOf]

/-- A command restart keeps the claims and words of frozen watches, which it leaves as they are, and no others (R19,
R130). -/
theorem claimsLaw_commandRestart {s : State} (h : s.claimsLaw) : (commandRestart s).claimsLaw := by
  obtain ⟨sets, times⟩ := (claimLaw_iff s).mp h.1
  have set : ∀ o, (commandRestart s).claimSet o = restartedClaims s (s.claimSet o) := fun o => by
    simp only [commandRestart, State.claimSet, Fin.getElem_fin, get_remap]
  have words : (commandRestart s).transit.outputWords = s.transit.outputWords.filter (OutputWord.survives s) := rfl
  have watch : ∀ i, (commandRestart s).watch i = (s.watch i).restarted := fun i => by
    simp only [commandRestart, State.watch, Fin.getElem_fin, get_remap]
  refine ⟨(claimLaw_iff _).mpr ⟨fun o c x hx => ?_, fun w hw => ?_⟩, fun o i holds => ?_⟩
  · rw [set] at hx
    cases c with
    | watch i =>
      rw [claimOf_restartedClaims] at hx
      split at hx
      · exact sets o _ x hx
      · cases hx
    | manual => rw [claimOf_restartedClaims_manual] at hx; cases hx
  · rw [words] at hw
    exact times w (List.mem_of_mem_filter hw)
  · have own : (commandRestart s).wordsOf i = if (s.watch i).frozen then s.wordsOf i else [] := by
      unfold State.wordsOf
      rw [words, List.filter_filter]
      split
      · next frozen =>
        refine List.filter_congr fun w _ => ?_
        by_cases e : w.claimant = .watch i
        · simp [e, OutputWord.survives, frozen]
        · simp [e]
      · next soft =>
        rw [List.filter_eq_nil_iff]
        intro w _
        by_cases e : w.claimant = .watch i
        · simp [e, OutputWord.survives, soft]
        · simp [e]
    rw [holds_eq, own] at holds
    unfold State.holdsNow at holds
    rw [set, claimOf_restartedClaims] at holds
    rw [watch]
    unfold Watch.restarted
    split
    · next frozen =>
      rw [if_pos frozen, if_pos frozen] at holds
      exact h.2 o i holds
    · next soft =>
      rw [if_neg soft, if_neg soft] at holds
      cases holds

/-! ### Every move -/

theorem claimsLaw_finishFrame (n : Link) {s : State} (h : s.claimsLaw) : (finishFrame n s).claimsLaw := by
  have idle : (s.setTransmitter n none).claimsLaw := claimsLaw_of_eq h rfl rfl rfl
  unfold finishFrame
  split
  · exact h
  · simp only
    split
    · exact claimsLaw_of_eq h rfl rfl rfl
    · exact idle
    · split
      · have only := onlyEnds_endSession n .closed (s.setTransmitter n none)
        exact claimsLaw_of_eq idle (by rw [only]) (by rw [only]) (by rw [only])
      · exact idle
    · split
      · exact claimsLaw_commandRestart idle
      · exact idle

theorem claimsLaw_deliverTick (p : TickPort) {s : State} (h : s.claimsLaw) : (deliverTick s p).claimsLaw := by
  cases p with
  | watches b =>
    unfold deliverTick tickWatches
    refine claimsLaw_congr h rfl rfl fun i latched => ?_
    simp only [State.watch, Fin.getElem_fin, get_remap, tick_state]
    exact latched
  | lines =>
    unfold deliverTick tickLines
    exact claimsLaw_of_eq h rfl rfl rfl
  | outputs =>
    unfold deliverTick tickClaims
    simp only
    split
    · exact claimsLaw_of_eq h rfl rfl rfl
    · exact claimsLaw_countClaims h
  | ackTimers =>
    unfold deliverTick tickAckTimers
    exact claimsLaw_of_eq h rfl rfl rfl
  | inactivityTimers =>
    unfold deliverTick tickInactivity
    exact claimsLaw_of_eq h rfl rfl rfl
  | offerTimer =>
    unfold deliverTick tickOffer
    simp only
    split
    · split <;> exact claimsLaw_of_eq h rfl rfl rfl
    · exact h
    · exact h
  | gapTimers =>
    unfold deliverTick tickGaps
    exact claimsLaw_of_eq h rfl rfl rfl

theorem claimsLaw_takeWatchTick (i : WatchIx) {s : State} (lawful : s.watchesLawful) (h : s.claimsLaw) :
    (takeWatchTick i s).claimsLaw := by
  unfold takeWatchTick
  split
  · exact h
  · have due : (s.setWatchTickDue i none).claimsLaw := claimsLaw_of_eq h rfl rfl rfl
    simp only
    split
    · exact claimsLaw_applyStep due (orders_countDown i (lawful i).2.2.1) (countDown_latched i)
    · exact due

theorem claimsLaw_takeSample (l : LineIx) {s : State} (h : s.claimsLaw) : (takeSample l s).claimsLaw := by
  unfold takeSample
  split
  · exact h
  · next sample _ =>
    have sampled : (s.setLine l { (s.line l).sampled sample with dueSample := none }).claimsLaw :=
      claimsLaw_of_eq h rfl rfl rfl
    simp only
    split
    · exact claimsLaw_notifyTrigger l sample (claimsLaw_triggerWatches l sampled)
    · exact sampled

theorem Move.claimsLaw {d a : Bool} {s t : State} (m : Move d a s t) (lawful : s.watchesLawful) (h : s.claimsLaw) :
    t.claimsLaw := by
  cases m
  case settle => rw [settleAuthority_leaves s]; exact claimsLaw_of_eq h rfl rfl rfl
  case heard n _ => rw [onlyReception_heard n s]; exact claimsLaw_of_eq h rfl rfl rfl
  case endSession n why _ => rw [onlyEnds_endSession n why s]; exact claimsLaw_of_eq h rfl rfl rfl
  case openSession n p o _ _ _ _ =>
    have only := onlyShares_settleEnds n s
    have settled : (settleEnds n s).claimsLaw := claimsLaw_of_eq h (by rw [only]) (by rw [only]) (by rw [only])
    exact claimsLaw_of_eq settled rfl rfl rfl
  case define n p items i _ _ _ open_ =>
    refine claimsLaw_setWatch h fun latched => ?_
    rcases open_ with free | ⟨_, stopped⟩
    · simp [free] at latched
    · simp [stopped] at latched
  case delete i _ _ loose => exact claimsLaw_setWatch h fun latched => absurd latched loose
  case start i stopped => exact claimsLaw_setWatch h fun latched => by simp [stopped] at latched
  case stop i _ loose => exact claimsLaw_setWatch h fun latched => absurd latched loose
  case pause i running => exact claimsLaw_setWatch h fun latched => by simp [running] at latched
  case resume i paused => exact claimsLaw_setWatch h fun latched => by simp [paused] at latched
  case freeze i _ => exact claimsLaw_setWatch h id
  case feed i v takes =>
    exact claimsLaw_applyStep h (orders_feedRequest i (lawful i).2.2.1 v) fun latched =>
      absurd latched (not_latched_of_takesFeed takes)
  case complete i _ =>
    exact claimsLaw_applyStep h (orders_of_none (words_completeStep i _)) (completeStep_latched i)
  case clear i _ => exact claimsLaw_clear i _ h
  case drain l => rw [onlyNotices_drainChannel (.line l) s]; exact claimsLaw_of_eq h rfl rfl rfl
  case manual o d time => exact claimsLaw_manual o time h
  case unhold o => exact claimsLaw_unhold o h
  case claim n _ _ => rw [onlyAuthority_takeClaimRequest n s]; exact claimsLaw_of_eq h rfl rfl rfl
  case passOn => rw [onlyAuthority_passOn none s]; exact claimsLaw_of_eq h rfl rfl rfl
  case ack n k _ => rw [onlyAcks_takeAck n k s]; exact claimsLaw_of_eq h rfl rfl rfl
  case hunt n b _ => rw [onlyReception_huntByte n b s]; exact claimsLaw_of_eq h rfl rfl rfl
  case abandon n b _ => rw [onlyReception_abandonStart n b s]; exact claimsLaw_of_eq h rfl rfl rfl
  case gapTick n => rw [onlyReception_takeGapTick n s]; exact claimsLaw_of_eq h rfl rfl rfl
  case deliver p => exact claimsLaw_deliverTick p h
  case watchTick i => exact claimsLaw_takeWatchTick i lawful h
  case sample l => exact claimsLaw_takeSample l h
  case claimTick =>
    unfold takeClaimTick
    split
    · exact claimsLaw_countClaims (claimsLaw_of_eq h rfl rfl rfl)
    · exact h
  case ackTick n k _ => rw [onlyEnds_takeAckTick n k s]; exact claimsLaw_of_eq h rfl rfl rfl
  case inactivityTick n _ => rw [onlyEnds_takeInactivityTick n s]; exact claimsLaw_of_eq h rfl rfl rfl
  case offerTick => rw [onlyAuthority_takeOfferTick s]; exact claimsLaw_of_eq h rfl rfl rfl
  case lineReport l =>
    unfold takeLineReport takeDeparture
    split
    · exact h
    · split
      · simp only
        split <;> exact claimsLaw_of_eq h rfl rfl rfl
      · exact claimsLaw_of_eq h rfl rfl rfl
      · exact claimsLaw_of_eq h rfl rfl rfl
  case channel ch e => rw [onlyNotices_takeChannel ch e s]; exact claimsLaw_of_eq h rfl rfl rfl
  case noticeEnd n x => rw [onlyShares_noticeShare n x s]; exact claimsLaw_of_eq h rfl rfl rfl
  case authorityEnd n => rw [onlyShares_authorityShare n s]; exact claimsLaw_of_eq h rfl rfl rfl
  case frame n => rw [onlySends_takeFrame n s]; exact claimsLaw_of_eq h rfl rfl rfl
  case lastByte n _ => exact claimsLaw_finishFrame n h
  case claimWord c => exact claimsLaw_takeClaimWord c h
  case removalWord i => exact claimsLaw_takeRemovalWord i h
  case asserted n _ => rw [onlyClientReset_takeAssertedWord n s]; exact claimsLaw_of_eq h rfl rfl rfl
  case released n => rw [onlyClientReset_takeReleasedWord n s]; exact claimsLaw_of_eq h rfl rfl rfl
  all_goals exact claimsLaw_of_eq h rfl rfl rfl

theorem Move.watchesLawful {d a : Bool} {s t : State} (m : Move d a s t) (h : s.watchesLawful) : t.watchesLawful := by
  intro i
  rcases m.watchesChange i with e | change
  · rw [e]; exact h i
  · exact change.lawful (h i)

/-- Settles O60: a held claim is ordered only by a watch that latches, and a watch leaves LATCHED only when a CLEAR orders the
removal of its claims or a restart drops them. -/
theorem heldClaimsAreOfLatchedWatches : Obligations.HeldClaimsAreOfLatchedWatches := by
  intro s t laws step
  refine (step_keeps_of_moves (fun s => s.watchesLawful ∧ s.claimsLaw) (fun _ _ h => h)
    (fun m h => ⟨m.watchesLawful h.1, m.claimsLaw h.1 h.2⟩) (fun _ _ _ => ⟨watchesLawful_reset, claimLaws_reset⟩)
    (fun _ => ⟨watchesLawful_reset, claimLaws_reset⟩) (fun _ _ _ h => h) s t ⟨laws.1, laws.2⟩ step).2

end Sys2Proof.Machine

/-!
PROOF. The authority is held by, offered to and awaited by UP links alone, but for ends on their way (R132, R133, R137, R140).
-/

namespace Sys2Proof.Machine

/-! ### An authority record -/

/-- The laws of an authority record, for links that may hold, be offered or await the authority. -/
structure Authority.sound (a : Authority) (ok : Link → Prop) : Prop where
  once : a.claimList.Nodup
  waiting : ∀ n ∈ a.claimList, ok n
  free : a.mode = .free → a.claimList = []
  holder : ∀ h ∈ a.mode.holder, ok h ∧ h ∉ a.claimList
  offered : ∀ o ∈ a.mode.offered, ok o ∧ o ∉ a.claimList
  timer : ∀ t ∈ a.mode.timer, 1 ≤ t ∧ t ≤ 3000

section
variable {a : Authority} {ok ok' : Link → Prop}

theorem Authority.sound.mono (h : a.sound ok) (imp : ∀ n, ok n → ok' n) : a.sound ok' :=
  ⟨h.once, fun n hn => imp n (h.waiting n hn), h.free, fun n hn => ⟨imp n (h.holder n hn).1, (h.holder n hn).2⟩,
    fun n hn => ⟨imp n (h.offered n hn).1, (h.offered n hn).2⟩, h.timer⟩

theorem sound_free (due : Bool) : Authority.sound ⟨.free, [], due⟩ ok :=
  ⟨List.nodup_nil, by simp, fun _ => rfl, by simp [AuthorityMode.holder], by simp [AuthorityMode.offered],
    by simp [AuthorityMode.timer]⟩

/-- A link that does not wait may hold the authority. -/
theorem Authority.sound.held (h : a.sound ok) {n : Link} (up : ok n) (out : n ∉ a.claimList) :
    Authority.sound { a with mode := .held n } ok := by
  refine ⟨h.once, h.waiting, fun e => (by cases e), fun m hm => ?_, by simp [AuthorityMode.offered],
    by simp [AuthorityMode.timer]⟩
  obtain rfl : n = m := by simpa [AuthorityMode.holder] using hm
  exact ⟨up, out⟩

/-- A link that neither waits nor holds the authority nor is offered it may join the claim list. -/
theorem Authority.sound.joined (h : a.sound ok) {n : Link} (up : ok n) (out : n ∉ a.claimList)
    (taken : a.mode ≠ .free) (holder : n ∉ a.mode.holder) (offered : n ∉ a.mode.offered) :
    Authority.sound { a with claimList := a.claimList ++ [n] } ok := by
  have apart : ∀ m, m ∉ a.claimList → m ≠ n → m ∉ a.claimList ++ [n] := by
    intro m hm ne
    simp [hm, ne]
  refine ⟨?_, fun m hm => ?_, fun e => absurd e taken, fun m hm => ?_, fun m hm => ?_, h.timer⟩
  · refine List.nodup_append.mpr ⟨h.once, List.nodup_singleton n, fun x hx y hy e => ?_⟩
    rw [List.mem_singleton.mp hy] at e
    exact out (e ▸ hx)
  · rcases List.mem_append.mp hm with hm | hm
    · exact h.waiting m hm
    · rw [List.mem_singleton.mp hm]; exact up
  · exact ⟨(h.holder m hm).1, apart m (h.holder m hm).2 fun e => holder (e ▸ hm)⟩
  · exact ⟨(h.offered m hm).1, apart m (h.offered m hm).2 fun e => offered (e ▸ hm)⟩

/-- The offer timer counted down, short of its end. -/
theorem Authority.sound.counted (h : a.sound ok) {o : Link} {k : Nat} (mode : a.mode = .offering o k) (more : ¬ k ≤ 1)
    (due : Bool) : Authority.sound { a with mode := .offering o (k - 1), offerDue := due } ok := by
  refine ⟨h.once, h.waiting, fun e => (by cases e), by simp [AuthorityMode.holder], fun m hm => ?_, fun t ht => ?_⟩
  · exact h.offered m (by rw [mode]; exact hm)
  · have before := h.timer k (by rw [mode]; rfl)
    obtain rfl : k - 1 = t := by simpa [AuthorityMode.timer] using ht
    omega

theorem Authority.sound.due (h : a.sound ok) (due : Bool) : Authority.sound { a with offerDue := due } ok :=
  ⟨h.once, h.waiting, h.free, h.holder, h.offered, h.timer⟩

end

/-- The authority passed on goes to the head of the claim list, which waits no more, or becomes FREE (R136, R137). -/
theorem sound_passOn (ended : Option Link) {s : State} {ok : Link → Prop} (once : s.authority.claimList.Nodup)
    (waiting : ∀ n ∈ s.authority.claimList, ok n) : (passOn ended s).authority.sound ok := by
  unfold passOn
  split
  · next none =>
    change Authority.sound { s.authority with mode := .free } ok
    rw [show ({ s.authority with mode := .free } : Authority) = ⟨.free, [], s.authority.offerDue⟩ by rw [← none]]
    exact sound_free _
  · next m ms list =>
    rw [list] at once waiting
    obtain ⟨out, rest⟩ := List.nodup_cons.mp once
    refine ⟨rest, fun n hn => waiting n (List.mem_cons_of_mem m hn), fun e => (by cases e),
      by simp [State.setAuthority, State.post, State.setTransit, AuthorityMode.holder], fun o ho => ?_, fun t ht => ?_⟩
    · obtain rfl : m = o := by simpa [State.setAuthority, State.post, State.setTransit, AuthorityMode.offered] using ho
      exact ⟨waiting m List.mem_cons_self, out⟩
    · obtain rfl : Config.offerTime = t := by
        simpa [State.setAuthority, State.post, State.setTransit, AuthorityMode.timer] using ht
      exact ⟨by decide, by decide⟩

/-- The end of link `n`'s session takes it out of the authority (R140, Table 8-2). -/
theorem sound_takeAuthorityEnd (n : Link) {s : State} {ok ok' : Link → Prop} (h : s.authority.sound ok)
    (others : ∀ m, m ≠ n → ok m → ok' m) : (takeAuthorityEnd n s).authority.sound ok' := by
  have left : ∀ m ∈ s.authority.claimList.filter (· ≠ n), ok' m ∧ m ∈ s.authority.claimList := by
    intro m hm
    obtain ⟨mem, ne⟩ := List.mem_filter.mp hm
    exact ⟨others m (by simpa using ne) (h.waiting m mem), mem⟩
  have gone : ∀ o, ok o ∧ o ∉ s.authority.claimList → o = n → ∀ m ∈ s.authority.claimList, ok' m := by
    rintro o ⟨-, out⟩ rfl m hm
    exact others m (fun e => out (e ▸ hm)) (h.waiting m hm)
  have stays : ∀ o, ok o ∧ o ∉ s.authority.claimList → o ≠ n →
      ok' o ∧ o ∉ s.authority.claimList.filter (· ≠ n) := fun o ho ne =>
    ⟨others o ne ho.1, fun mem => ho.2 (left o mem).2⟩
  have filtered : s.authority.mode ≠ .free → (∀ o ∈ s.authority.mode.holder, o ≠ n) →
      (∀ o ∈ s.authority.mode.offered, o ≠ n) →
      Authority.sound { s.authority with claimList := s.authority.claimList.filter (· ≠ n) } ok' := by
    intro taken holder offered
    exact ⟨h.once.sublist List.filter_sublist, fun m hm => (left m hm).1, fun e => absurd e taken,
      fun o ho => stays o (h.holder o ho) (holder o ho), fun o ho => stays o (h.offered o ho) (offered o ho), h.timer⟩
  unfold takeAuthorityEnd
  split
  · next o mode =>
    have held := h.holder o (by rw [mode]; rfl)
    split
    · next e => exact sound_passOn _ h.once (gone o held e)
    · next ne =>
      exact filtered (by simp [mode]) (by simpa [mode, AuthorityMode.holder] using ne)
        (by simp [mode, AuthorityMode.offered])
  · next o k mode =>
    have offered := h.offered o (by rw [mode]; rfl)
    split
    · next e => exact sound_passOn _ h.once (gone o offered e)
    · next ne =>
      exact filtered (by simp [mode]) (by simp [mode, AuthorityMode.holder])
        (by simpa [mode, AuthorityMode.offered] using ne)
  · next mode =>
    have empty := h.free mode
    exact ⟨h.once, by simp [empty], h.free, by simp [mode, AuthorityMode.holder], by simp [mode, AuthorityMode.offered],
      h.timer⟩

/-! ### The part -/

/-- The laws of the authority and of the ends on their way. -/
abbrev State.authorityLaws (s : State) : Prop := s.authorityLaw ∧ s.endsLaw

theorem authorityLaw_iff (s : State) : s.authorityLaw ↔ s.authority.sound s.present :=
  ⟨fun ⟨once, waiting, free, holder, offered, timer⟩ => ⟨once, waiting, free, holder, offered, timer⟩,
    fun ⟨once, waiting, free, holder, offered, timer⟩ => ⟨once, waiting, free, holder, offered, timer⟩⟩

/-- The laws read the authority record, which links are UP, and whose ends are on their way. -/
theorem authorityLaws_congr {s t : State} (h : s.authorityLaws) (authority : t.authority.sound s.present)
    (waiting : t.transit.authorityEnds = s.transit.authorityEnds)
    (ends : t.transit.noticeEnds.map (·.link) = s.transit.noticeEnds.map (·.link))
    (up : ∀ n, t.isUp n = s.isUp n) : t.authorityLaws := by
  obtain ⟨-, one, once, down, downEnds⟩ := h
  have present : ∀ n, s.present n → t.present n := fun n hn => by
    unfold State.present at *
    rwa [up, waiting]
  refine ⟨(authorityLaw_iff t).mpr (authority.mono present), ?_, ?_, ?_, ?_⟩
  · rwa [waiting]
  · rwa [ends]
  · rw [waiting]; exact fun n hn => by rw [up]; exact down n hn
  · intro e he
    have mem : e.link ∈ s.transit.noticeEnds.map (·.link) := by rw [← ends]; exact List.mem_map_of_mem he
    obtain ⟨e', he', same⟩ := List.mem_map.mp mem
    rw [up, ← same]
    exact downEnds e' he'

/-- Other parts may change. -/
theorem authorityLaws_of_eq {s t : State} (h : s.authorityLaws) (authority : t.authority = s.authority)
    (waiting : t.transit.authorityEnds = s.transit.authorityEnds) (ends : t.transit.noticeEnds = s.transit.noticeEnds)
    (up : ∀ n, t.isUp n = s.isUp n) : t.authorityLaws :=
  authorityLaws_congr h (by rw [authority]; exact (authorityLaw_iff s).mp h.1) waiting (by rw [ends]) up

/-- The authority record may change to any sound one. -/
theorem authorityLaws_of_authority {s t : State} (h : s.authorityLaws) (only : OnlyAuthority s t)
    (authority : t.authority.sound s.present) : t.authorityLaws :=
  authorityLaws_congr h authority (by rw [only]) (by rw [only]) (fun n => by rw [only]; rfl)

/-- With no end waiting at the authority unit a link is present exactly when it is UP. -/
theorem present_of_prompt {s : State} (prompt : s.transit.authorityEnds = []) (n : Link) :
    s.present n ↔ s.isUp n = true := by
  simp [State.present, prompt]

/-- The end that waits at the authority unit is taken. -/
theorem authorityLaws_takeEnd {s : State} (h : s.authorityLaws) {n : Link} (waits : s.transit.authorityEnds = [n]) :
    (takeAuthorityEnd n (s.setTransit { s.transit with authorityEnds := [] })).authorityLaws := by
  obtain ⟨-, -, once, -, downEnds⟩ := id h
  have only := onlyAuthority_takeAuthorityEnd n (s.setTransit { s.transit with authorityEnds := [] })
  generalize hu : takeAuthorityEnd n (s.setTransit { s.transit with authorityEnds := [] }) = u at only
  have prompt : u.transit.authorityEnds = [] := by rw [only]; rfl
  have ends : u.transit.noticeEnds = s.transit.noticeEnds := by rw [only]; rfl
  have up : ∀ m, u.isUp m = s.isUp m := fun m => by rw [only]; rfl
  refine ⟨(authorityLaw_iff u).mpr ?_, by simp [prompt], by rwa [ends], by simp [prompt], fun e he => ?_⟩
  · rw [← hu]
    refine sound_takeAuthorityEnd n (ok := s.present) ((authorityLaw_iff s).mp h.1) fun m ne hm => ?_
    rw [hu, present_of_prompt prompt, up]
    rcases hm with hm | hm
    · exact hm
    · rw [waits] at hm
      exact absurd (List.mem_singleton.mp hm) ne
  · rw [ends] at he
    rw [up]
    exact downEnds e he

/-- At most one end waits at the authority unit. -/
theorem oneEnd {s : State} (h : s.authorityLaws) :
    s.transit.authorityEnds = [] ∨ ∃ n, s.transit.authorityEnds = [n] := by
  have one := h.2.1
  rcases hl : s.transit.authorityEnds with _ | ⟨n, rest⟩
  · exact .inl rfl
  · rw [hl] at one
    have : rest = [] := List.length_eq_zero_iff.mp (by simpa using one)
    exact .inr ⟨n, by rw [this]⟩

theorem authorityLaws_settle {s : State} (h : s.authorityLaws) : (settleAuthority s).authorityLaws := by
  rcases oneEnd h with none | ⟨n, waits⟩
  · rwa [settleAuthority_of_prompt s none]
  · have taken := authorityLaws_takeEnd h waits
    unfold settleAuthority
    rwa [waits]

theorem authorityLaws_authorityShare (n : Link) {s : State} (h : s.authorityLaws) : (authorityShare n s).authorityLaws := by
  rcases oneEnd h with none | ⟨m, waits⟩
  · unfold authorityShare
    rw [none]
    exact h
  · by_cases e : m = n
    · subst e
      rw [← settleAuthority_of_one s m waits]
      exact authorityLaws_settle h
    · unfold authorityShare
      rw [waits]
      simpa [takeFirst, e] using h

theorem authorityLaws_endSession (n : Link) (why : EndReason) {s : State} (prompt : s.transit.authorityEnds = [])
    (h : s.authorityLaws) : (endSession n why s).authorityLaws := by
  cases up : s.isUp n with
  | false => rw [endSession_of_not_up n why s up]; exact h
  | true =>
    obtain ⟨law, -, once, -, downEnds⟩ := h
    have authority : (endSession n why s).authority = s.authority := by rw [onlyEnds_endSession n why s]
    have waiting : (endSession n why s).transit.authorityEnds = [n] := by
      rw [endSession_of_up n why s up]
      change s.transit.authorityEnds ++ [n] = [n]
      rw [prompt]; rfl
    have ends : (endSession n why s).transit.noticeEnds =
        s.transit.noticeEnds ++ [⟨n, why, (s.link n).client, (s.delivery n).inFlight.map (·.notice), []⟩] := by
      rw [endSession_of_up n why s up]; rfl
    refine ⟨(authorityLaw_iff _).mpr ?_, by simp [waiting], ?_, ?_, ?_⟩
    · rw [authority]
      refine ((authorityLaw_iff s).mp law).mono fun m hm => ?_
      rw [State.present, waiting, isUp_endSession]
      by_cases e : m = n
      · exact .inr (by simp [e])
      · rw [if_neg e]
        exact .inl ((present_of_prompt prompt m).mp hm)
    · rw [ends, List.map_append]
      refine List.nodup_append.mpr ⟨once, List.nodup_singleton n, fun x hx y hy e => ?_⟩
      obtain ⟨end_, mem, rfl⟩ := List.mem_map.mp hx
      rw [List.mem_singleton.mp hy] at e
      exact absurd (up.symm.trans (e ▸ downEnds end_ mem)) (by decide)
    · rw [waiting]
      intro m hm
      rw [isUp_endSession, if_pos (List.mem_singleton.mp hm)]
    · rw [ends]
      intro e he
      rw [isUp_endSession]
      split
      · rfl
      · next ne =>
        rcases List.mem_append.mp he with he | he
        · exact downEnds e he
        · rw [List.mem_singleton.mp he] at ne
          exact absurd rfl ne

/-- The notice unit takes the only end of link `n`'s session on its way to it. -/
theorem noticeShare_ends (n : Link) (x : Extent) (s : State) (once : (s.transit.noticeEnds.map (·.link)).Nodup) :
    (noticeShare n x s).transit.noticeEnds = s.transit.noticeEnds.filter (fun e => e.link ≠ n) := by
  unfold noticeShare
  split
  · next none =>
    have no := takeFirst_eq_none _ _ none
    rw [List.filter_eq_self.mpr]
    intro e he
    simpa using no e he
  · next e rest found =>
    obtain ⟨pre, post, ends, rfl, other, own⟩ := takeFirst_eq_some _ _ _ _ found
    have own : e.link = n := of_decide_eq_true own
    rw [onlyNotices_takeNoticeEnd]
    change pre ++ post = _
    rw [ends, List.map_append, List.map_cons, List.nodup_append] at once
    obtain ⟨-, tail, -⟩ := once
    have out := (List.nodup_cons.mp tail).1
    rw [ends, List.filter_append, List.filter_cons, if_neg (by simp [own])]
    congr 1
    · rw [List.filter_eq_self.mpr]
      intro a ha
      simpa using other a ha
    · rw [List.filter_eq_self.mpr]
      intro a ha
      simp only [ne_eq, decide_not, Bool.not_eq_eq_eq_not, Bool.not_true, decide_eq_false_iff_not]
      intro e'
      exact out (own ▸ e' ▸ List.mem_map_of_mem ha)

theorem authority_noticeShare (n : Link) (x : Extent) (s : State) :
    (noticeShare n x s).authority = s.authority
    ∧ (noticeShare n x s).transit.authorityEnds = s.transit.authorityEnds := by
  unfold noticeShare
  split
  · exact ⟨rfl, rfl⟩
  · rw [onlyNotices_takeNoticeEnd]
    exact ⟨rfl, rfl⟩

theorem authorityLaws_noticeShare (n : Link) (x : Extent) {s : State} (h : s.authorityLaws) :
    (noticeShare n x s).authorityLaws := by
  obtain ⟨law, one, once, down, downEnds⟩ := h
  have ends := noticeShare_ends n x s once
  have authority : (noticeShare n x s).authority = s.authority :=
    (authority_noticeShare n x s).1
  have waiting : (noticeShare n x s).transit.authorityEnds = s.transit.authorityEnds :=
    (authority_noticeShare n x s).2
  have up : ∀ m, (noticeShare n x s).isUp m = s.isUp m := fun m => by rw [onlyShares_noticeShare n x s]; rfl
  refine ⟨(authorityLaw_iff _).mpr ?_, by rwa [waiting], ?_, ?_, ?_⟩
  · rw [authority]
    refine ((authorityLaw_iff s).mp law).mono fun m hm => ?_
    rwa [State.present, up, waiting]
  · rw [ends]
    exact once.sublist (List.filter_sublist.map _)
  · rw [waiting]
    exact fun m hm => by rw [up]; exact down m hm
  · rw [ends]
    exact fun e he => by rw [up]; exact downEnds e (List.mem_of_mem_filter he)

/-- Once the ends of link `n`'s session are settled none is on its way, and the laws hold. -/
theorem authorityLaws_settleEnds (n : Link) {s : State} (alone : ∀ m ∈ s.transit.authorityEnds, m = n)
    (h : s.authorityLaws) :
    (settleEnds n s).authorityLaws ∧ (settleEnds n s).transit.authorityEnds = []
    ∧ ∀ e ∈ (settleEnds n s).transit.noticeEnds, e.link ≠ n := by
  have share : ∀ t : State, t.authorityLaws → (∀ m ∈ t.transit.authorityEnds, m = n) →
      (authorityShare n t).transit.authorityEnds = []
      ∧ (authorityShare n t).transit.noticeEnds = t.transit.noticeEnds := by
    intro t ht only
    rcases oneEnd ht with none | ⟨m, waits⟩
    · unfold authorityShare
      rw [none]
      exact ⟨none, rfl⟩
    · obtain rfl : m = n := only m (by simp [waits])
      rw [← settleAuthority_of_one t m waits]
      exact ⟨authorityEnds_settleAuthority t, by rw [settleAuthority_leaves]⟩
  have gone : ∀ t : State, t.authorityLaws → ∀ e ∈ (noticeShare n .whole t).transit.noticeEnds, e.link ≠ n := by
    intro t ht e he
    rw [noticeShare_ends n .whole t ht.2.2.1] at he
    simpa using (List.mem_filter.mp he).2
  unfold settleEnds
  split
  · have counted : State.authorityLaws { s with choices := s.choices + 1 } :=
      authorityLaws_of_eq h rfl rfl rfl fun _ => rfl
    simp only
    split
    · have taken := authorityLaws_authorityShare n counted
      obtain ⟨prompt, -⟩ := share _ counted alone
      have only := onlyNotices_drainChannel .authority (authorityShare n { s with choices := s.choices + 1 })
      have drained : (drainChannel .authority (authorityShare n { s with choices := s.choices + 1 })).authorityLaws :=
        authorityLaws_of_eq taken (by rw [only]) (by rw [only]) (by rw [only]) fun m => by rw [only]; rfl
      refine ⟨authorityLaws_noticeShare n .whole drained, ?_, gone _ drained⟩
      rw [(authority_noticeShare _ _ _).2, only]
      exact prompt
    · have taken := authorityLaws_noticeShare n .whole counted
      obtain ⟨prompt, same⟩ := share _ taken fun m hm => alone m (by
        rw [(authority_noticeShare _ _ _).2] at hm; exact hm)
      exact ⟨authorityLaws_authorityShare n taken, prompt, fun e he => gone _ counted e (same ▸ he)⟩
  · next none =>
    simp only [Bool.or_eq_true, List.any_eq_true, decide_eq_true_eq, not_or, not_exists, not_and] at none
    refine ⟨h, List.eq_nil_iff_forall_not_mem.mpr fun m hm => none.2 m hm (alone m hm), fun e he => none.1 e he⟩

theorem authorityLaws_openSession (n : Link) (o : OpenItems) {s : State} (h : s.authorityLaws)
    (prompt : s.transit.authorityEnds = []) (gone : ∀ e ∈ s.transit.noticeEnds, e.link ≠ n) :
    (openSession n o s).authorityLaws := by
  obtain ⟨law, -, once, -, downEnds⟩ := h
  have up : ∀ m, (openSession n o s).isUp m = if m = n then true else s.isUp m := by
    intro m
    unfold openSession
    simp [isUp_setLink, LinkRec.loadInactivity]
  refine ⟨(authorityLaw_iff _).mpr (((authorityLaw_iff s).mp law).mono fun m hm => ?_), ?_, once, ?_, fun e he => ?_⟩
  · left
    rw [up]
    split
    · rfl
    · exact (present_of_prompt prompt m).mp hm
  · change s.transit.authorityEnds.length ≤ 1
    rw [prompt]
    decide
  · change ∀ m ∈ s.transit.authorityEnds, _
    simp [prompt]
  · rw [up, if_neg (gone e he)]
    exact downEnds e he

theorem authorityLaws_takeClaimRequest (n : Link) {s : State} (up : s.isUp n = true) (h : s.authorityLaws) :
    (takeClaimRequest n s).2.authorityLaws := by
  have sound := (authorityLaw_iff s).mp h.1
  have present : s.present n := .inl up
  refine authorityLaws_of_authority h (onlyAuthority_takeClaimRequest n s) ?_
  unfold takeClaimRequest
  simp only
  split
  · next mode => exact sound.held present (by rw [sound.free mode]; exact List.not_mem_nil)
  · next o mode =>
    split
    · exact sound
    · next other =>
      split
      · exact sound
      · next out =>
        have out : n ∉ s.authority.claimList := by simpa using out
        exact sound.joined present out (by simp [mode]) (by simpa [mode, AuthorityMode.holder] using other)
          (by simp [mode, AuthorityMode.offered])
  · next o k mode =>
    split
    · next e => exact sound.held present (e ▸ (sound.offered o (by rw [mode]; rfl)).2)
    · next other =>
      split
      · exact sound
      · next out =>
        have out : n ∉ s.authority.claimList := by simpa using out
        exact sound.joined present out (by simp [mode]) (by simp [mode, AuthorityMode.holder])
          (by simpa [mode, AuthorityMode.offered] using other)

theorem authorityLaws_passOn (ended : Option Link) {s : State} (h : s.authorityLaws) : (passOn ended s).authorityLaws := by
  have sound := (authorityLaw_iff s).mp h.1
  exact authorityLaws_of_authority h (onlyAuthority_passOn ended s) (sound_passOn ended sound.once sound.waiting)

theorem authorityLaws_setAuthority {s : State} {a : Authority} (h : s.authorityLaws) (sound : a.sound s.present) :
    (s.setAuthority a).authorityLaws := authorityLaws_of_authority h rfl sound

theorem authorityLaws_takeOfferTick {s : State} (h : s.authorityLaws) : (takeOfferTick s).authorityLaws := by
  have sound := (authorityLaw_iff s).mp h.1
  have quiet : (s.setAuthority { s.authority with offerDue := false }).authorityLaws :=
    authorityLaws_setAuthority h (sound.due false)
  unfold takeOfferTick
  simp only
  split
  · split
    · next o k mode =>
      split
      · exact authorityLaws_passOn none quiet
      · next more => exact authorityLaws_setAuthority quiet (sound.counted mode more false)
    · exact quiet
    · exact quiet
  · exact h

theorem authorityLaws_tickOffer {s : State} (h : s.authorityLaws) : (tickOffer s).authorityLaws := by
  have sound := (authorityLaw_iff s).mp h.1
  unfold tickOffer
  split
  · next o k mode =>
    split
    · exact authorityLaws_setAuthority h (sound.due true)
    · next more => exact authorityLaws_setAuthority h (sound.counted mode more s.authority.offerDue)
  · exact h
  · exact h

/-- A link record changed in anything but whether it is UP. -/
theorem authorityLaws_setLink {s : State} {n : Link} {l : LinkRec} (h : s.authorityLaws)
    (up : l.state = .up ↔ (s.link n).state = .up) : (s.setLink n l).authorityLaws :=
  authorityLaws_of_eq h rfl rfl rfl (isUp_setLink_of_same up)

theorem authorityLaws_takeInactivityTick (n : Link) {s : State} (prompt : s.transit.authorityEnds = [])
    (h : s.authorityLaws) : (takeInactivityTick n s).authorityLaws := by
  have idle : (s.setLink n { s.link n with inactivityDue := false }).authorityLaws := authorityLaws_setLink h .rfl
  unfold takeInactivityTick
  simp only
  split
  · split
    · split
      · exact authorityLaws_endSession n .silence (s := s.setLink n { s.link n with inactivityDue := false }) prompt idle
      · exact authorityLaws_setLink idle (by simp)
    · exact idle
  · exact h

theorem authorityLaws_takeAckTick (n : Link) (k : Byte) {s : State} (prompt : s.transit.authorityEnds = [])
    (h : s.authorityLaws) : (takeAckTick n k s).authorityLaws := by
  have same : ∀ d, (s.setDelivery n d).authorityLaws := fun d => authorityLaws_of_eq h rfl rfl rfl fun _ => rfl
  unfold takeAckTick
  simp only
  split
  · split
    · split
      · exact same _
      · split
        · exact same _
        · exact authorityLaws_endSession n .noAck (s := s.setDelivery n _) prompt (same _)
    · exact h
  · exact h

theorem authorityLaws_finishFrame (n : Link) {s : State} (prompt : s.transit.authorityEnds = []) (h : s.authorityLaws) :
    (finishFrame n s).authorityLaws := by
  have idle : (s.setTransmitter n none).authorityLaws := authorityLaws_of_eq h rfl rfl rfl fun _ => rfl
  unfold finishFrame
  split
  · exact h
  · simp only
    split
    · exact authorityLaws_of_eq h rfl rfl rfl fun _ => rfl
    · exact idle
    · split
      · exact authorityLaws_endSession n .closed (s := s.setTransmitter n none) prompt idle
      · exact idle
    · split
      · refine ⟨(authorityLaw_iff _).mpr (sound_free false), by simp [commandRestart, Transit.empty],
          by simp [commandRestart, Transit.empty], by simp [commandRestart, Transit.empty],
          by simp [commandRestart, Transit.empty]⟩
      · exact idle

theorem authorityLaws_takeAssertedWord (n : Link) {s : State} (prompt : s.transit.authorityEnds = [])
    (h : s.authorityLaws) : (takeAssertedWord n s).authorityLaws := by
  rcases takeAssertedWord_cases n s with e | ⟨r, pre, post, _, _, e⟩ <;> rw [e]
  · exact h
  · have told : (s.setTransit { s.transit with crstWords := pre ++ post }).authorityLaws :=
      authorityLaws_of_eq h rfl rfl rfl fun _ => rfl
    have ended := authorityLaws_endSession n .resetIssued (s := s.setTransit { s.transit with crstWords := pre ++ post })
      prompt told
    have down : (endSession n .resetIssued (s.setTransit { s.transit with crstWords := pre ++ post })).isUp n = false := by
      rw [isUp_endSession, if_pos rfl]
    unfold takeAssertion enterHeld
    generalize endSession n .resetIssued (s.setTransit { s.transit with crstWords := pre ++ post }) = u at ended down
    refine authorityLaws_congr ended ((authorityLaw_iff u).mp ended.1) rfl ?_ fun m => ?_
    · change ((noteResetter n r u).transit.noticeEnds.map (·.link)) = _
      unfold noteResetter
      rw [transit_setTransit, List.map_map]
      refine List.map_congr_left fun e _ => ?_
      simp only [Function.comp]
      split <;> rfl
    · rw [isUp_setReceiver, isUp_setLink]
      split
      · next e => subst e; rw [down]; simp
      · rfl

theorem authorityLaws_takeReleasedWord (n : Link) {s : State} (h : s.authorityLaws) :
    (takeReleasedWord n s).authorityLaws := by
  rcases takeReleasedWord_cases n s with e | ⟨pre, post, _, _, e⟩ <;> rw [e]
  · exact h
  · have told : (s.setTransit { s.transit with crstWords := pre ++ post }).authorityLaws :=
      authorityLaws_of_eq h rfl rfl rfl fun _ => rfl
    unfold takeRelease
    split
    · next held =>
      refine authorityLaws_of_eq told rfl rfl rfl fun m => ?_
      rw [isUp_setReceiver]
      exact isUp_setLink_of_same (by rw [held]; simp) m
    · exact told

theorem authorityLaws_withLinks {s : State} {v : Vector LinkRec 4} (h : s.authorityLaws)
    (state : ∀ n : Link, v[n].state = (s.link n).state) : State.authorityLaws { s with links := v } :=
  authorityLaws_of_eq h rfl rfl rfl fun n => isUp_congr (state n)

theorem authorityLaws_withLines {s : State} (v : Vector LineRec 16) (h : s.authorityLaws) :
    State.authorityLaws { s with lines := v } :=
  authorityLaws_of_eq h rfl rfl rfl fun _ => rfl

theorem authorityLaws_withWatches {s : State} (v : Vector Watch 32) (due : Vector (Option Base) 32)
    (h : s.authorityLaws) : State.authorityLaws { s with watches := v, watchTicksDue := due } :=
  authorityLaws_of_eq h rfl rfl rfl fun _ => rfl

theorem authorityLaws_withDeliveries {s : State} (v : Vector Delivery 4) (h : s.authorityLaws) :
    State.authorityLaws { s with deliveries := v } :=
  authorityLaws_of_eq h rfl rfl rfl fun _ => rfl

theorem authorityLaws_withReceivers {s : State} (v : Vector Receiver 4) (h : s.authorityLaws) :
    State.authorityLaws { s with receivers := v } :=
  authorityLaws_of_eq h rfl rfl rfl fun _ => rfl

theorem authorityLaws_of_onlyClaims {s t : State} (only : OnlyClaims s t) (h : s.authorityLaws) : t.authorityLaws :=
  authorityLaws_of_eq h (by rw [only]) (by rw [only]) (by rw [only]) fun _ => by rw [only]; rfl

theorem authorityLaws_deliverTick (p : TickPort) {s : State} (h : s.authorityLaws) : (deliverTick s p).authorityLaws := by
  cases p with
  | watches b =>
    unfold deliverTick tickWatches
    exact authorityLaws_withWatches _ _ h
  | lines =>
    unfold deliverTick tickLines
    exact authorityLaws_withLines _ h
  | outputs =>
    unfold deliverTick tickClaims
    simp only
    split
    · exact authorityLaws_of_eq h rfl rfl rfl fun _ => rfl
    · exact authorityLaws_of_onlyClaims (onlyClaims_countClaims s) h
  | ackTimers =>
    unfold deliverTick tickAckTimers
    exact authorityLaws_withDeliveries _ h
  | inactivityTimers =>
    unfold deliverTick tickInactivity
    refine authorityLaws_withLinks h fun n => ?_
    simp only [Fin.getElem_fin, get_remap, state_tick]
    rfl
  | offerTimer => exact authorityLaws_tickOffer h
  | gapTimers =>
    unfold deliverTick tickGaps
    exact authorityLaws_withReceivers _ h

theorem Move.authorityLaws {d a : Bool} {s t : State} (m : Move d a s t) (h : s.authorityLaws) : t.authorityLaws := by
  cases m
  case settle => exact authorityLaws_settle h
  case heard n _ =>
    have only := onlyReception_heard n s
    exact authorityLaws_of_eq h (by rw [only]) (by rw [only]) (by rw [only]) fun m => isUp_heard s n m
  case discard n _ => exact authorityLaws_setLink h .rfl
  case reply n tag r items _ _ => exact authorityLaws_setLink h .rfl
  case pend n tag c _ _ _ _ =>
    have pended : (s.setLink n { s.link n with closing := c, inactivity := none }).authorityLaws :=
      authorityLaws_setLink h .rfl
    have deafened := authorityLaws_of_eq (t := (s.setLink n _).setReceiver n .hunting) pended rfl rfl rfl fun _ => rfl
    exact authorityLaws_setLink deafened .rfl
  case endSession n why prompt => exact authorityLaws_endSession n why prompt h
  case openSession n p o _ _ alone _ =>
    obtain ⟨settled, prompt, gone⟩ := authorityLaws_settleEnds n alone h
    exact authorityLaws_openSession n o settled prompt gone
  case drain l =>
    have only := onlyNotices_drainChannel (.line l) s
    exact authorityLaws_of_eq h (by rw [only]) (by rw [only]) (by rw [only]) fun _ => by rw [only]; rfl
  case unhold o =>
    have only := onlyOutputs_unhold o s
    exact authorityLaws_of_eq h (by rw [only]) (by rw [only]) (by rw [only]) fun _ => by rw [only]; rfl
  case claim n _ up => exact authorityLaws_takeClaimRequest n up h
  case becomeHolder n _ up offered =>
    have sound := (authorityLaw_iff s).mp h.1
    exact authorityLaws_of_authority h (onlyAuthority_becomeHolder n s)
      (sound.held (.inl up) (sound.offered n ((isOffered_iff s n).mp offered)).2)
  case passOn => exact authorityLaws_passOn none h
  case ack n k _ =>
    have only := onlyAcks_takeAck n k s
    exact authorityLaws_of_eq h (by rw [only]) (by rw [only]) (by rw [only]) fun _ => by rw [only]; rfl
  case checkError n _ =>
    have hunting : (s.setReceiver n .hunting).authorityLaws := authorityLaws_of_eq h rfl rfl rfl fun _ => rfl
    exact authorityLaws_setLink hunting .rfl
  case hunt n b _ =>
    unfold huntByte
    split <;> exact authorityLaws_of_eq h rfl rfl rfl fun _ => rfl
  case abandon n b _ =>
    have counted : (s.setLink n { s.link n with
        framingErrors := satAdd 65535 (s.link n).framingErrors 1 }).authorityLaws := authorityLaws_setLink h .rfl
    unfold abandonStart huntByte
    split <;> exact authorityLaws_of_eq counted rfl rfl rfl fun _ => rfl
  case gapTick n =>
    have hunting : ∀ r, (s.setReceiver n r).authorityLaws := fun r => authorityLaws_of_eq h rfl rfl rfl fun _ => rfl
    unfold takeGapTick
    simp only
    split
    · split
      · split
        · exact authorityLaws_setLink (hunting .hunting) .rfl
        · exact hunting _
      · exact hunting _
    · exact h
  case deliver p => exact authorityLaws_deliverTick p h
  case watchTick i =>
    have only := onlyWatches_takeWatchTick i s
    exact authorityLaws_of_eq h (by rw [only]) (by rw [only]) (by rw [only]) fun _ => by rw [only]; rfl
  case sample l =>
    have only := onlyLines_takeSample l s
    exact authorityLaws_of_eq h (by rw [only]) (by rw [only]) (by rw [only]) fun _ => by rw [only]; rfl
  case claimTick =>
    have only := onlyClaims_takeClaimTick s
    exact authorityLaws_of_eq h (by rw [only]; rfl) (by rw [only]; rfl) (by rw [only]; rfl) fun _ => by rw [only]; rfl
  case ackTick n k prompt => exact authorityLaws_takeAckTick n k prompt h
  case inactivityTick n prompt => exact authorityLaws_takeInactivityTick n prompt h
  case offerTick => exact authorityLaws_takeOfferTick h
  case lineReport l =>
    have only := onlyLines_takeLineReport l s
    exact authorityLaws_of_eq h (by rw [only]) (by rw [only]) (by rw [only]) fun _ => by rw [only]; rfl
  case channel ch e =>
    have only := onlyNotices_takeChannel ch e s
    exact authorityLaws_of_eq h (by rw [only]) (by rw [only]) (by rw [only]) fun _ => by rw [only]; rfl
  case noticeEnd n x => exact authorityLaws_noticeShare n x h
  case authorityEnd n => exact authorityLaws_authorityShare n h
  case frame n =>
    have only := onlySends_takeFrame n s
    exact authorityLaws_of_eq h (by rw [only]) (by rw [only]) (by rw [only]) fun m => isUp_congr (state_takeFrame n m s)
  case lastByte n prompt => exact authorityLaws_finishFrame n prompt h
  case claimWord c =>
    have only := onlyOutputs_takeClaimWord c s
    exact authorityLaws_of_eq h (by rw [only]) (by rw [only]) (by rw [only]) fun _ => by rw [only]; rfl
  case removalWord i =>
    have only := onlyOutputs_takeRemovalWord i s
    exact authorityLaws_of_eq h (by rw [only]) (by rw [only]) (by rw [only]) fun _ => by rw [only]; rfl
  case asserted n prompt => exact authorityLaws_takeAssertedWord n prompt h
  case released n => exact authorityLaws_takeReleasedWord n h
  all_goals exact authorityLaws_of_eq h rfl rfl rfl fun _ => rfl

/-- Settles O58: a link joins the authority only while UP, and the end of its session takes it out again before any other
command is taken. -/
theorem theAuthorityIsWellHeld : Obligations.TheAuthorityIsWellHeld := by
  intro s t laws h
  have kept : t.authorityLaws := step_keeps_of_moves _ (fun _ _ h => h) (fun m h => m.authorityLaws h)
    (fun _ _ _ => authorityLaws_reset) (fun _ => authorityLaws_reset) (fun _ _ _ h => h) s t laws h
  have settled := authorityLaws_settle kept
  have up : ∀ n, (settleAuthority t).present n → (settleAuthority t).isUp n = true := fun n =>
    (present_of_prompt (authorityEnds_settleAuthority t) n).mp
  have sound := (authorityLaw_iff _).mp settled.1
  exact ⟨kept.1, kept.2, settled.1, fun n hn => up n (sound.waiting n hn), fun n hn => up n (sound.holder n hn).1,
    fun n hn => up n (sound.offered n hn).1⟩

end Sys2Proof.Machine

/-!
PROOF. The bounds of links, receivers and counts through every step (R77, R96, R144, R148 to R150, R152, R153, R156, R158,
R159). All but two counts are a law of one link's record, receiver and transmitter; the two, of discarded acknowledgements
and lost notices, are a law of their own.
-/

namespace Sys2Proof.Machine

/-! ### The law of one link's port -/

/-- The ends that the replies of a link, being sent or queued, will complete. -/
def endsOf (f : Option TxFrame) (rs : List Reply) : List Closing :=
  (f.toList.map TxFrame.closing ++ rs.map Reply.closing).filter (· ≠ .nothing)

/-- What the end that is pending on a link leaves to be completed. -/
def Closing.toCome (c : Closing) : List Closing := if c = .nothing then [] else [c]

/-- A receiver's bytes and gap timer (R148). -/
abbrev Receiver.law (r : Receiver) : Prop :=
  ∀ got ∈ r.collected, 1 ≤ r.gap ∧ r.gap ≤ 6 ∧ ∀ b ∈ got.head?, b.toNat ≤ 58 ∧ got.length < b.toNat + 5

/-- The laws of a link's record, receiver and transmitter. -/
structure PortLaw (l : LinkRec) (r : Receiver) (f : Option TxFrame) : Prop where
  room : l.replies.length ≤ 4
  idle : l.state ≠ .up → l.inactivity = none ∧ l.closing = .nothing
  stopped : l.closing ≠ .nothing → l.inactivity = none
  emptied : l.state = .held → l.replies = []
  timer : ∀ k ∈ l.inactivity, 1 ≤ k ∧ k ≤ 60000
  timeout : l.inactivityTimeout ≤ 600
  deaf : l.state = .held ∨ l.closing ≠ .nothing → r.collected = none
  ends : endsOf f l.replies = l.closing.toCome
  receiver : r.law
  counts : l.discarded ≤ 255 ∧ l.framingErrors ≤ 65535 ∧ l.checkErrors ≤ 65535

@[simp] theorem collected_hunting : Receiver.hunting.collected = none := rfl

theorem law_hunting : Receiver.hunting.law := by simp [Receiver.law]

theorem endsOf_none (rs : List Reply) (h : ∀ r ∈ rs, r.closing = .nothing) : endsOf none rs = [] := by
  simpa [endsOf] using h

/-- A transmitter that completes nothing counts as an idle one. -/
theorem endsOf_of_plain {f : Option TxFrame} (h : ∀ x ∈ f, x.closing = .nothing) (rs : List Reply) :
    endsOf f rs = endsOf none rs := by
  cases f with
  | none => rfl
  | some x => simp [endsOf, h x rfl]

theorem endsOf_append (f : Option TxFrame) (rs : List Reply) (r : Reply) :
    endsOf f (rs ++ [r]) = endsOf f rs ++ r.closing.toCome := by
  unfold endsOf Closing.toCome
  by_cases h : r.closing = .nothing <;> simp [h]

theorem closing_plain (f : TxFrame) : TxFrame.closing { f with carried := f.carried.plain } = .nothing := by
  cases f.carried <;> simp [TxFrame.closing, Carried.plain]

theorem closing_map_plain (f : Option TxFrame) :
    ∀ x ∈ f.map fun f => { f with carried := f.carried.plain }, TxFrame.closing x = .nothing := by
  cases f with
  | none => simp
  | some f => simpa using closing_plain f

section
variable {l : LinkRec} {r : Receiver} {f : Option TxFrame}

theorem PortLaw.hunting (h : PortLaw l r f) : PortLaw l .hunting f :=
  { h with deaf := fun _ => rfl, receiver := law_hunting }

/-- A link that listens may be receiving. -/
theorem PortLaw.receiving (h : PortLaw l r f) (ears : l.state ≠ .held ∧ l.closing = .nothing) {r' : Receiver}
    (law : r'.law) : PortLaw l r' f :=
  { h with
    deaf := fun e => absurd e (by simp [ears])
    receiver := law }

theorem PortLaw.counted (h : PortLaw l r f) {d e c : Nat} (bounds : d ≤ 255 ∧ e ≤ 65535 ∧ c ≤ 65535) :
    PortLaw { l with discarded := d, framingErrors := e, checkErrors := c } r f :=
  { h with counts := bounds }

theorem PortLaw.loadInactivity (h : PortLaw l r f) (up : l.state = .up) (open_ : l.closing = .nothing) :
    PortLaw l.loadInactivity r f :=
  { h with
    idle := fun e => absurd up e
    stopped := fun e => absurd open_ e
    timer := by
      have := h.timeout
      intro k hk
      simp only [LinkRec.loadInactivity] at hk
      split at hk
      · simp at hk
      · simp only [Option.mem_def, Option.some.injEq] at hk
        omega }

theorem PortLaw.heard (h : PortLaw l r f) (open_ : l.closing = .nothing) : PortLaw l.heard .hunting f := by
  unfold LinkRec.heard
  split
  · next up => exact h.hunting.loadInactivity up open_
  · exact h.hunting

theorem PortLaw.queue (h : PortLaw l r f) (notHeld : l.state ≠ .held) (room : l.replies.length < 4) (x : Reply)
    (plain : x.closing = .nothing) : PortLaw { l with replies := l.replies ++ [x] } r f :=
  { h with
    room := by simpa using room
    emptied := fun e => absurd e notHeld
    ends := by
      change endsOf f (l.replies ++ [x]) = _
      rw [endsOf_append, h.ends, plain]
      simp [Closing.toCome] }

/-- A CLOSE or RESTART becomes pending and its reply joins the queue (R144, R156). -/
theorem PortLaw.pend (h : PortLaw l r f) (up : l.state = .up) (open_ : l.closing = .nothing)
    (room : l.replies.length < 4) (x : Reply) :
    PortLaw { l with closing := x.closing, inactivity := none, replies := l.replies ++ [x] } .hunting f :=
  { h.hunting with
    room := by simpa using room
    idle := fun e => absurd up e
    stopped := fun _ => rfl
    emptied := fun e => by simp [up] at e
    timer := by simp
    deaf := fun _ => rfl
    ends := by
      change endsOf f (l.replies ++ [x]) = _
      rw [endsOf_append, h.ends, open_]
      simp [Closing.toCome] }

/-- The end of a session withdraws what was pending (R159). -/
theorem PortLaw.ended (h : PortLaw l r f) :
    PortLaw
      { l with
        state := .silent, inactivity := none, closing := .nothing
        replies := l.replies.map fun r => { r with closing := .nothing } }
      r (f.map fun f => { f with carried := f.carried.plain }) :=
  { h with
    room := by simpa using h.room
    idle := fun _ => ⟨rfl, rfl⟩
    stopped := fun _ => rfl
    emptied := fun e => by simp at e
    timer := by simp
    deaf := fun e => by simp at e
    ends := by
      rw [endsOf_of_plain (closing_map_plain f)]
      exact endsOf_none _ (by simp) }

/-- A frame that completes nothing is being sent, or none is, where the frame before it completed nothing. -/
theorem PortLaw.sending (h : PortLaw l r f) (plain : ∀ x ∈ f, x.closing = .nothing) {f' : Option TxFrame}
    (plain' : ∀ x ∈ f', x.closing = .nothing) : PortLaw l r f' :=
  { h with
    ends := by
      have ends := h.ends
      rw [endsOf_of_plain plain] at ends
      rw [endsOf_of_plain plain', ends] }

/-- The transmitter takes the oldest reply (R153). -/
theorem PortLaw.sendReply {x : Reply} {rest : List Reply} {bytes : List Byte} (h : PortLaw l r none)
    (waits : l.replies = x :: rest) :
    PortLaw { l with replies := rest, discarded := 0 } r (some ⟨bytes, .reply x.closing⟩) :=
  { h with
    room := by have := h.room; rw [waits] at this; exact (Nat.le_succ _).trans this
    emptied := fun e => by have := h.emptied e; rw [waits] at this; simp at this
    ends := by
      have ends := h.ends
      rw [waits] at ends
      exact ends
    counts := ⟨Nat.zero_le _, h.counts.2⟩ }

/-- Where the frame being sent completes an end, that end is the one pending on the link, and no queued reply completes
another (R144, R156). -/
theorem PortLaw.completes {x : TxFrame} (h : PortLaw l r (some x)) (some : x.closing ≠ .nothing) :
    l.closing = x.closing := by
  have ends := h.ends
  unfold endsOf Closing.toCome at ends
  by_cases none : l.closing = .nothing <;> simp [some, none] at ends
  exact ends.1.symm

/-- The last byte of the frame being sent leaves the session's end to be brought about (R156). -/
theorem PortLaw.closed {x : TxFrame} (h : PortLaw l r (some x)) :
    PortLaw
      { l with
        state := .silent, inactivity := none, closing := .nothing
        replies := l.replies.map fun r => { r with closing := .nothing } }
      r none :=
  { h.ended with ends := endsOf_none _ (by simp) }

/-- What a command restart leaves of a link (R144, R161). -/
theorem portLaw_restarted (timeout : l.inactivityTimeout ≤ 600) (crst : Bool) (f : Option TxFrame) :
    PortLaw (l.restarted crst) .hunting (f.map fun f => { f with carried := f.carried.plain }) where
  room := Nat.zero_le _
  idle := fun _ => ⟨rfl, rfl⟩
  stopped := fun _ => rfl
  emptied := fun _ => rfl
  timer := by simp [LinkRec.restarted]
  timeout := timeout
  deaf := fun _ => rfl
  ends := by
    rw [endsOf_of_plain (closing_map_plain f)]
    exact endsOf_none _ (by simp [LinkRec.restarted])
  receiver := law_hunting
  counts := ⟨Nat.zero_le _, Nat.zero_le _, Nat.zero_le _⟩

/-- The inactivity timer falls (R158). -/
theorem PortLaw.countdown (h : PortLaw l r f) {k : Nat} (runs : l.inactivity = some k) (more : ¬ k ≤ 1) (due : Bool) :
    PortLaw { l with inactivity := some (k - 1), inactivityDue := due } r f :=
  { h with
    idle := fun e => by have := (h.idle e).1; rw [runs] at this; simp at this
    stopped := fun e => by have := h.stopped e; rw [runs] at this; simp at this
    timer := by
      have := h.timer k runs
      intro j hj
      simp only [Option.mem_def, Option.some.injEq] at hj
      omega }

theorem PortLaw.tick (h : PortLaw l r f) : PortLaw l.tick r f := by
  unfold LinkRec.tick
  split
  · next k runs =>
    split
    · exact { h with }
    · next more => exact h.countdown runs more l.inactivityDue
  · exact h

theorem PortLaw.tickReceiver (h : PortLaw l r f) : PortLaw l r.tick f := by
  unfold Receiver.tick
  split
  · next got collects =>
    have gap := h.receiver got collects
    split
    · exact { h with }
    · next more =>
      refine { h with deaf := h.deaf, receiver := fun got' e => ?_ }
      have fits := h.receiver got' e
      change 1 ≤ r.gap - 1 ∧ r.gap - 1 ≤ 6 ∧ _
      exact ⟨by omega, by omega, fits.2.2⟩
  · exact h

/-- A session opens (R154). -/
theorem PortLaw.opened (h : PortLaw l r f) (open_ : l.closing = .nothing) (o : OpenItems) (timeout : o.inactivity ≤ 600) :
    PortLaw { l with
      state := .up, session := l.session + 1, client := o.client, inactivityTimeout := o.inactivity }.loadInactivity
      r f :=
  PortLaw.loadInactivity
    { h with
      idle := fun e => absurd rfl e
      emptied := fun e => by simp at e
      timeout := timeout
      deaf := fun e => by simp [open_] at e } rfl open_

end

/-! ### The law of every port -/

/-- Every port keeps its law. -/
abbrev State.portsLaw (s : State) : Prop := ∀ n, PortLaw (s.link n) (s.receiver n) (s.transmitter n)

/-- Counts of discarded acknowledgements and of lost notices stop at their largest values (R77, R96). -/
abbrev State.talliesLaw (s : State) : Prop := ∀ n, (s.delivery n).strayAcks ≤ 65535 ∧ s.loss n ≤ 255

theorem deaf_iff_record (s : State) (n : Link) :
    s.deaf n = true ↔ (s.link n).state = .held ∨ (s.link n).closing ≠ .nothing := by
  simp [State.deaf]

theorem isUp_eq_false_iff (s : State) (n : Link) : s.isUp n = false ↔ (s.link n).state ≠ .up := by
  simp [State.isUp]

/-- The laws the obligation names are those of the ports and the two counts. -/
theorem linkLaws_iff (s : State) :
    s.linkLaw ∧ s.closingLaw ∧ s.receiverLaw ∧ s.counterLaw ↔ s.portsLaw ∧ s.talliesLaw := by
  constructor
  · rintro ⟨link, closing, receiver, counter⟩
    refine ⟨fun n => ?_, fun n => (counter n).2.2.2⟩
    obtain ⟨room, idle, stopped, emptied, timer, timeout, deaf⟩ := link n
    obtain ⟨discarded, framing, check, _⟩ := counter n
    exact {
      room := room, stopped := stopped, emptied := emptied, timer := timer, timeout := timeout
      idle := fun e => idle ((isUp_eq_false_iff s n).mpr e)
      deaf := fun e => deaf ((deaf_iff_record s n).mpr e)
      ends := closing n, receiver := receiver n, counts := ⟨discarded, framing, check⟩ }
  · rintro ⟨ports, tallies⟩
    refine ⟨fun n => ?_, fun n => (ports n).ends, fun n => (ports n).receiver, fun n => ?_⟩
    · have port := ports n
      exact ⟨port.room, fun e => port.idle ((isUp_eq_false_iff s n).mp e), port.stopped, port.emptied, port.timer,
        port.timeout, fun e => port.deaf ((deaf_iff_record s n).mp e)⟩
    · obtain ⟨discarded, framing, check⟩ := (ports n).counts
      exact ⟨discarded, framing, check, tallies n⟩

theorem portsLaw_of_eq {s t : State} (h : s.portsLaw) (links : t.links = s.links) (receivers : t.receivers = s.receivers)
    (transmitters : t.transmitters = s.transmitters) : t.portsLaw := by
  intro n
  have port := h n
  unfold State.link State.receiver State.transmitter at *
  rw [links, receivers, transmitters]
  exact port

/-- A family that is the same at `n` is the same everywhere. -/
theorem same_at {α : Type} (g : Link → α) (n m : Link) : (if m = n then g n else g m) = g m := by
  split
  · next e => rw [e]
  · rfl

/-- One port changes, and keeps its law. -/
theorem portsLaw_at {s t : State} (h : s.portsLaw) (n : Link) {l : LinkRec} {r : Receiver} {f : Option TxFrame}
    (port : PortLaw l r f) (links : ∀ m, t.link m = if m = n then l else s.link m)
    (receivers : ∀ m, t.receiver m = if m = n then r else s.receiver m)
    (transmitters : ∀ m, t.transmitter m = if m = n then f else s.transmitter m) : t.portsLaw := by
  intro m
  rw [links, receivers, transmitters]
  by_cases e : m = n
  · simpa only [if_pos e] using port
  · simpa only [if_neg e] using h m

/-- Both the record and the receiver of a port change. -/
theorem portsLaw_setBoth {s : State} (h : s.portsLaw) {n : Link} {l : LinkRec} {r : Receiver}
    (port : PortLaw l r (s.transmitter n)) : ((s.setReceiver n r).setLink n l).portsLaw :=
  portsLaw_at h n port (fun m => by rw [link_setLink]; rfl) (fun m => by rw [receiver_setLink, receiver_setReceiver])
    fun m => by rw [same_at s.transmitter]; rfl

theorem portsLaw_setLink {s : State} (h : s.portsLaw) {n : Link} {l : LinkRec}
    (port : PortLaw l (s.receiver n) (s.transmitter n)) : (s.setLink n l).portsLaw := by
  have both := portsLaw_setBoth h port
  rwa [setReceiver_self] at both

theorem portsLaw_setReceiver {s : State} (h : s.portsLaw) {n : Link} {r : Receiver}
    (port : PortLaw (s.link n) r (s.transmitter n)) : (s.setReceiver n r).portsLaw := by
  have both := portsLaw_setBoth h port
  rwa [show s.link n = (s.setReceiver n r).link n from rfl, setLink_self] at both

theorem portsLaw_setTransmitter {s : State} (h : s.portsLaw) {n : Link} {f : Option TxFrame}
    (port : PortLaw (s.link n) (s.receiver n) f) : (s.setTransmitter n f).portsLaw :=
  portsLaw_at h n port
    (fun m => by rw [same_at s.link]; rfl) (fun m => by rw [same_at s.receiver]; rfl)
    fun m => transmitter_setTransmitter s n f m

theorem portsLaw_withLinks {s : State} {v : Vector LinkRec 4}
    (port : ∀ n : Link, PortLaw v[n] (s.receiver n) (s.transmitter n)) : State.portsLaw { s with links := v } := port

theorem portsLaw_withReceivers {s : State} {v : Vector Receiver 4}
    (port : ∀ n : Link, PortLaw (s.link n) v[n] (s.transmitter n)) : State.portsLaw { s with receivers := v } := port

/-! ### The ports through the moves -/

theorem portsLaw_endSession (n : Link) (why : EndReason) {s : State} (h : s.portsLaw) : (endSession n why s).portsLaw := by
  cases up : s.isUp n with
  | false => rw [endSession_of_not_up n why s up]; exact h
  | true =>
    rw [endSession_of_up n why s up]
    exact portsLaw_at h n (h n).ended (fun m => by simp [link_setLink])
      (fun m => by rw [same_at s.receiver]; simp)
      fun m => by simp [transmitter_setTransmitter]

theorem portsLaw_huntByte (n : Link) (b : Byte) {s : State} (ears : s.deaf n = false) (h : s.portsLaw) :
    (huntByte n b s).portsLaw := by
  unfold huntByte
  split
  · exact portsLaw_setReceiver h ((h n).receiving ((deaf_eq_false_iff s n).mp ears) (by simp [Receiver.law, Config.gapTime]))
  · exact portsLaw_setReceiver h (h n).hunting

theorem portsLaw_takeGapTick (n : Link) {s : State} (h : s.portsLaw) : (takeGapTick n s).portsLaw := by
  have port := h n
  unfold takeGapTick
  simp only
  split
  · split
    · next got collects =>
      split
      · exact portsLaw_setBoth h (port.hunting.counted ⟨port.counts.1, Nat.min_le_left _ _, port.counts.2.2⟩)
      · next more =>
        refine portsLaw_setReceiver h { port with deaf := port.deaf, receiver := fun got' e => ?_ }
        have fits := port.receiver got' e
        change 1 ≤ (s.receiver n).gap - 1 ∧ (s.receiver n).gap - 1 ≤ 6 ∧ _
        exact ⟨by omega, by omega, fits.2.2⟩
    · exact portsLaw_setReceiver h { port with }
  · exact h

theorem portsLaw_takeInactivityTick (n : Link) {s : State} (h : s.portsLaw) : (takeInactivityTick n s).portsLaw := by
  have noted : (s.setLink n { s.link n with inactivityDue := false }).portsLaw := portsLaw_setLink h { h n with }
  unfold takeInactivityTick
  simp only
  split
  · split
    · next k runs =>
      split
      · exact portsLaw_endSession n .silence noted
      · next more =>
        rw [setLink_setLink]
        exact portsLaw_setLink h ((h n).countdown runs more false)
    · exact noted
  · exact h

theorem portsLaw_takeAckTick (n : Link) (k : Byte) {s : State} (h : s.portsLaw) : (takeAckTick n k s).portsLaw := by
  have same : ∀ d, (s.setDelivery n d).portsLaw := fun d => portsLaw_of_eq h rfl rfl rfl
  unfold takeAckTick
  simp only
  split
  · split
    · split
      · exact same _
      · split
        · exact same _
        · exact portsLaw_endSession n .noAck (same _)
    · exact h
  · exact h

theorem portsLaw_takeFrame (n : Link) {s : State} (h : s.portsLaw) : (takeFrame n s).portsLaw := by
  have port := h n
  unfold takeFrame
  split
  · exact h
  · next free =>
    rw [free] at port
    have notice : ∀ bytes k, PortLaw (s.link n) (s.receiver n) (some ⟨bytes, .notice k⟩) := fun bytes k =>
      port.sending (by simp) (by simp [TxFrame.closing])
    split
    · next x rest waits =>
      exact portsLaw_at h n (port.sendReply waits) (fun m => by rw [sendReply, link_setTransmitter, link_setLink])
        (fun m => by rw [same_at s.receiver]; rfl)
        fun m => by rw [sendReply, transmitter_setTransmitter]; rfl
    · split
      · exact h
      · split
        · next k rest _ =>
          have listed : ∀ d, (s.setDelivery n d).portsLaw := fun d => portsLaw_of_eq h rfl rfl rfl
          unfold resendFirst
          simp only
          split
          · exact portsLaw_setTransmitter (listed _) (notice _ _)
          · exact listed _
        · split
          · split
            · next r rest _ =>
              have taken : ∀ q d, (((s.setQueue n q).setLoss n 0).setDelivery n d).portsLaw := fun q d =>
                portsLaw_of_eq h rfl rfl rfl
              exact portsLaw_setTransmitter (taken _ _) (notice _ _)
            · exact h
          · exact h

theorem portsLaw_commandRestart {s : State} (timeouts : ∀ n, (s.link n).inactivityTimeout ≤ 600) :
    (commandRestart s).portsLaw := by
  intro n
  have links : (commandRestart s).link n =
      (s.link n).restarted (ClaimSet.nonEmpty (remap s.claims fun _ set => restartedClaims s set)[crstOf n]) := by
    simp only [commandRestart, State.link, Fin.getElem_fin, get_remap]
  have receivers : (commandRestart s).receiver n = .hunting := by
    simp [commandRestart, State.receiver]
  have transmitters : (commandRestart s).transmitter n =
      (s.transmitter n).map fun f => { f with carried := f.carried.plain } := by
    simp only [commandRestart, State.transmitter, Fin.getElem_fin, get_remap]
  rw [links, receivers, transmitters]
  exact portLaw_restarted (timeouts n) _ _

theorem portsLaw_finishFrame (n : Link) {s : State} (h : s.portsLaw) : (finishFrame n s).portsLaw := by
  have port := h n
  unfold finishFrame
  split
  · exact h
  · next f sends =>
    rw [sends] at port
    have plain : f.closing = .nothing → (s.setTransmitter n none).portsLaw := fun e =>
      portsLaw_setTransmitter h (port.sending (by simpa using e) (by simp))
    simp only
    split
    · next k carried => exact portsLaw_of_eq (plain (by simp [TxFrame.closing, carried])) rfl rfl rfl
    · next carried => exact plain (by simp [TxFrame.closing, carried])
    · next carried =>
      have completes : f.closing = .close := by simp [TxFrame.closing, carried]
      have pends : (s.link n).closing = .close := by rw [port.completes (by simp [completes]), completes]
      have up : s.isUp n = true := by
        by_contra down
        have := (port.idle ((isUp_eq_false_iff s n).mp (by simpa using down))).2
        simp [pends] at this
      rw [if_pos (by simpa using pends), endSession_of_up n .closed _ (by simpa using up)]
      exact portsLaw_at h n port.closed (fun m => by simp [link_setLink])
        (fun m => by rw [same_at s.receiver]; simp)
        fun m => by
          by_cases e : m = n <;> simp [e]
    · next carried =>
      have completes : f.closing = .restart := by simp [TxFrame.closing, carried]
      have pends : (s.link n).closing = .restart := by rw [port.completes (by simp [completes]), completes]
      rw [if_pos (by simpa using pends)]
      exact portsLaw_commandRestart fun m => (h m).timeout

theorem portsLaw_takeAssertedWord (n : Link) {s : State} (h : s.portsLaw) : (takeAssertedWord n s).portsLaw := by
  rcases takeAssertedWord_cases n s with e | ⟨r, pre, post, _, _, e⟩ <;> rw [e]
  · exact h
  · have told : (s.setTransit { s.transit with crstWords := pre ++ post }).portsLaw := portsLaw_of_eq h rfl rfl rfl
    have ended := portsLaw_endSession n .resetIssued told
    have down := isUp_endSession n n .resetIssued (s.setTransit { s.transit with crstWords := pre ++ post })
    rw [if_pos rfl] at down
    unfold takeAssertion enterHeld
    generalize endSession n .resetIssued (s.setTransit { s.transit with crstWords := pre ++ post }) = u at ended down
    have noted : (noteResetter n r u).portsLaw := portsLaw_of_eq ended rfl rfl rfl
    have port := noted n
    obtain ⟨idle, open_⟩ := port.idle ((isUp_eq_false_iff u n).mp down)
    have sent := port.ends
    exact portsLaw_setBoth noted
      { port.hunting with
        room := Nat.zero_le _
        idle := fun _ => ⟨idle, open_⟩
        emptied := fun _ => rfl
        deaf := fun _ => rfl
        ends := by
          rw [open_] at sent
          change endsOf _ [] = Closing.toCome (LinkRec.closing _)
          rw [open_]
          simp only [endsOf, Closing.toCome, if_true, List.filter_append, List.append_eq_nil_iff] at sent
          simpa [endsOf, Closing.toCome] using sent.1 }

theorem portsLaw_takeReleasedWord (n : Link) {s : State} (h : s.portsLaw) : (takeReleasedWord n s).portsLaw := by
  rcases takeReleasedWord_cases n s with e | ⟨pre, post, _, _, e⟩ <;> rw [e]
  · exact h
  · have told : (s.setTransit { s.transit with crstWords := pre ++ post }).portsLaw := portsLaw_of_eq h rfl rfl rfl
    unfold takeRelease
    split
    · next held =>
      have port := h n
      have idle := port.idle (by rw [show (s.link n).state = .held from held]; simp)
      have released : PortLaw { s.link n with state := .silent } .hunting (s.transmitter n) :=
        { port.hunting with idle := fun _ => idle, emptied := fun e => by simp at e, deaf := fun _ => rfl }
      exact portsLaw_at told n released (fun m => by simp [link_setLink]) (fun m => by simp [receiver_setReceiver]) fun m => by
        rw [transmitter_setTransit, same_at s.transmitter]; simp
    · exact told

theorem portsLaw_of_onlyClaims {s t : State} (only : OnlyClaims s t) (h : s.portsLaw) : t.portsLaw :=
  portsLaw_of_eq h (by rw [only]) (by rw [only]) (by rw [only])

theorem portsLaw_withLines {s : State} (v : Vector LineRec 16) (h : s.portsLaw) : State.portsLaw { s with lines := v } :=
  portsLaw_of_eq h rfl rfl rfl

theorem portsLaw_withWatches {s : State} (v : Vector Watch 32) (due : Vector (Option Base) 32) (h : s.portsLaw) :
    State.portsLaw { s with watches := v, watchTicksDue := due } := portsLaw_of_eq h rfl rfl rfl

theorem portsLaw_withDeliveries {s : State} (v : Vector Delivery 4) (h : s.portsLaw) :
    State.portsLaw { s with deliveries := v } := portsLaw_of_eq h rfl rfl rfl

theorem portsLaw_deliverTick (p : TickPort) {s : State} (h : s.portsLaw) : (deliverTick s p).portsLaw := by
  cases p with
  | watches b => exact portsLaw_withWatches _ _ h
  | lines => exact portsLaw_withLines _ h
  | outputs =>
    unfold deliverTick tickClaims
    simp only
    split
    · exact portsLaw_of_eq h rfl rfl rfl
    · exact portsLaw_of_onlyClaims (onlyClaims_countClaims s) h
  | ackTimers => exact portsLaw_withDeliveries _ h
  | inactivityTimers =>
    refine portsLaw_withLinks fun n => ?_
    simp only [Fin.getElem_fin, get_remap]
    exact (h n).tick
  | offerTimer =>
    unfold deliverTick tickOffer
    simp only
    split
    · split <;> exact portsLaw_of_eq h rfl rfl rfl
    · exact h
    · exact h
  | gapTimers =>
    refine portsLaw_withReceivers fun n => ?_
    simp only [Fin.getElem_fin, get_remap]
    exact (h n).tickReceiver

theorem inactivity_of_readOpen {p : List Byte} {o : OpenItems} (h : readOpen p = some o) : o.inactivity ≤ 600 := by
  unfold readOpen at h
  split at h
  · split at h
    · simp at h
    · split at h
      · simp at h
      · split at h
        · simp at h
        · next fits =>
          simp only [Option.some.injEq] at h
          subst h
          exact Nat.le_of_not_lt fits
  · simp at h

theorem portsLaw_openSession (n : Link) {p : List Byte} {o : OpenItems} (read : readOpen p = some o) {s : State}
    (ears : s.deaf n = false) (h : s.portsLaw) : (openSession n o s).portsLaw := by
  have opened := portsLaw_setLink h ((h n).opened ((deaf_eq_false_iff s n).mp ears).2 o (inactivity_of_readOpen read))
  exact portsLaw_of_eq opened rfl rfl rfl

theorem Move.portsLaw {d a : Bool} {s t : State} (m : Move d a s t) (h : s.portsLaw) : t.portsLaw := by
  cases m
  case settle => rw [settleAuthority_leaves s]; exact portsLaw_of_eq h rfl rfl rfl
  case heard n ears =>
    rw [heard_eq]
    exact portsLaw_setBoth h ((h n).heard ((deaf_eq_false_iff s n).mp ears).2)
  case discard n _ => exact portsLaw_setLink h ((h n).counted ⟨Nat.min_le_left _ _, (h n).counts.2⟩)
  case reply n tag r items ears room =>
    exact portsLaw_setLink h ((h n).queue ((deaf_eq_false_iff s n).mp ears).1 room _ rfl)
  case pend n tag c up ears room _ =>
    have pended := (h n).pend (by simpa [State.isUp] using up) ((deaf_eq_false_iff s n).mp ears).2 room ⟨tag, .ok, [], c⟩
    refine portsLaw_at h n pended (fun m => ?_) (fun m => ?_) fun m => ?_
    · simp only [pendClosing, State.queueReply, link_setLink, link_setReceiver, if_true]
      split <;> rfl
    · simp [pendClosing, State.queueReply, receiver_setReceiver]
    · rw [same_at s.transmitter]
      simp [pendClosing, State.queueReply]
  case endSession n why _ => exact portsLaw_endSession n why h
  case openSession n p o _ ears _ read =>
    have only := onlyShares_settleEnds n s
    have settled : (settleEnds n s).portsLaw := portsLaw_of_eq h (by rw [only]) (by rw [only]) (by rw [only])
    refine portsLaw_openSession n read ?_ settled
    rw [deaf_eq_false_iff, link_settleEnds, ← deaf_eq_false_iff]
    exact ears
  case drain l => rw [onlyNotices_drainChannel (.line l) s]; exact portsLaw_of_eq h rfl rfl rfl
  case unhold o => rw [onlyOutputs_unhold o s]; exact portsLaw_of_eq h rfl rfl rfl
  case claim n _ _ => rw [onlyAuthority_takeClaimRequest n s]; exact portsLaw_of_eq h rfl rfl rfl
  case passOn => rw [onlyAuthority_passOn none s]; exact portsLaw_of_eq h rfl rfl rfl
  case ack n k _ => rw [onlyAcks_takeAck n k s]; exact portsLaw_of_eq h rfl rfl rfl
  case checkError n _ =>
    have port := h n
    exact portsLaw_setBoth h (port.hunting.counted ⟨port.counts.1, port.counts.2.1, Nat.min_le_left _ _⟩)
  case hunt n b ears => exact portsLaw_huntByte n b ears h
  case abandon n b ears =>
    have port := h n
    have counted := portsLaw_setLink h
      (port.counted (e := satAdd 65535 (s.link n).framingErrors 1) ⟨port.counts.1, Nat.min_le_left _ _, port.counts.2.2⟩)
    exact portsLaw_huntByte n b (by simpa [State.deaf] using ears) counted
  case firstByte n b ears fits =>
    exact portsLaw_setReceiver h ((h n).receiving ((deaf_eq_false_iff s n).mp ears)
      (by simp [Receiver.law, Config.gapTime]; omega))
  case nextByte n len b rest ears got short =>
    have fits := (h n).receiver _ got
    simp only [List.head?_cons, Option.mem_def, Option.some.injEq, forall_eq'] at fits
    refine portsLaw_setReceiver h ((h n).receiving ((deaf_eq_false_iff s n).mp ears) ?_)
    intro got' e
    simp only [Option.mem_def, Option.some.injEq] at e
    subst e
    exact ⟨by simp [Config.gapTime], by simp [Config.gapTime], by simpa using ⟨fits.2.2.1, by simpa using short⟩⟩
  case gapTick n => exact portsLaw_takeGapTick n h
  case deliver p => exact portsLaw_deliverTick p h
  case watchTick i => rw [onlyWatches_takeWatchTick i s]; exact portsLaw_of_eq h rfl rfl rfl
  case sample l => rw [onlyLines_takeSample l s]; exact portsLaw_of_eq h rfl rfl rfl
  case claimTick =>
    exact portsLaw_of_onlyClaims (onlyClaims_takeClaimTick s) (portsLaw_of_eq h rfl rfl rfl)
  case ackTick n k _ => exact portsLaw_takeAckTick n k h
  case inactivityTick n _ => exact portsLaw_takeInactivityTick n h
  case offerTick => rw [onlyAuthority_takeOfferTick s]; exact portsLaw_of_eq h rfl rfl rfl
  case lineReport l => rw [onlyLines_takeLineReport l s]; exact portsLaw_of_eq h rfl rfl rfl
  case channel ch e => rw [onlyNotices_takeChannel ch e s]; exact portsLaw_of_eq h rfl rfl rfl
  case noticeEnd n x => rw [onlyShares_noticeShare n x s]; exact portsLaw_of_eq h rfl rfl rfl
  case authorityEnd n => rw [onlyShares_authorityShare n s]; exact portsLaw_of_eq h rfl rfl rfl
  case frame n => exact portsLaw_takeFrame n h
  case lastByte n _ => exact portsLaw_finishFrame n h
  case claimWord c => rw [onlyOutputs_takeClaimWord c s]; exact portsLaw_of_eq h rfl rfl rfl
  case removalWord i => rw [onlyOutputs_takeRemovalWord i s]; exact portsLaw_of_eq h rfl rfl rfl
  case asserted n _ => exact portsLaw_takeAssertedWord n h
  case released n => exact portsLaw_takeReleasedWord n h
  all_goals exact portsLaw_of_eq h rfl rfl rfl

/-! ### The two counts that others keep -/

theorem talliesLaw_of_eq {s t : State} (h : s.talliesLaw) (deliveries : t.deliveries = s.deliveries)
    (losses : t.losses = s.losses) : t.talliesLaw := by
  intro n
  have tallies := h n
  unfold State.delivery State.loss at *
  rw [deliveries, losses]
  exact tallies

/-- Every loss count keeps its bound, and nothing else of a delivery unit than its settings and flights changes. -/
theorem talliesLaw_of_losses {s t : State} (h : s.talliesLaw) (deliveries : t.deliveries = s.deliveries)
    (losses : ∀ n, t.loss n ≤ 255) : t.talliesLaw := by
  intro n
  have tallies := (h n).1
  unfold State.delivery at *
  rw [deliveries]
  exact ⟨tallies, losses n⟩

theorem talliesLaw_setDelivery {s : State} {n : Link} {d : Delivery} (h : s.talliesLaw) (few : d.strayAcks ≤ 65535) :
    (s.setDelivery n d).talliesLaw := by
  intro m
  rw [delivery_setDelivery, loss_setDelivery]
  split
  · exact ⟨few, (h m).2⟩
  · exact h m

/-- Loss counts that stand at 255 at most still do. -/
abbrev LossesKept (s t : State) : Prop := (∀ n, s.loss n ≤ 255) → ∀ n, t.loss n ≤ 255

theorem lossesKept_countLoss (s : State) (n : Link) : LossesKept s (s.countLoss n) := fun h m => by
  rw [State.countLoss, loss_setLoss]
  split
  · exact Nat.min_le_left _ _
  · exact h m

theorem lossesKept_of_eq {s t : State} (losses : ∀ n, t.loss n = s.loss n) : LossesKept s t := fun h n => by
  rw [losses]; exact h n

theorem lossesKept_reportDeparture (s : State) (r : Notice) (how : Departure) :
    LossesKept s (s.reportDeparture r how) := by
  rw [reportDeparture_eq]
  exact lossesKept_of_eq fun _ => rfl

theorem LossesKept.trans {s t u : State} (h : LossesKept s t) (h' : LossesKept t u) : LossesKept s u := fun e => h' (h e)

theorem lossesKept_evict (s : State) (n : Link) (r : Notice) : LossesKept s (s.evict n r) :=
  ((lossesKept_of_eq fun _ => rfl).trans (lossesKept_countLoss (s.setQueue n ((s.queue n).erase r)) n)).trans
    (lossesKept_reportDeparture _ r .evicted)

theorem lossesKept_place (n : Link) (onward : Option Link) (c : Creation) (s : State) :
    LossesKept s (place n onward c s).2 := by
  rcases place_cases n onward c s with ⟨w, _, h⟩ | ⟨_, _, h⟩ | ⟨v, _, _, _, h⟩ | ⟨_, _, _, h⟩ <;> rw [h]
  · exact lossesKept_of_eq fun _ => rfl
  · exact lossesKept_of_eq fun _ => rfl
  · exact (lossesKept_evict s v.1 v.2).trans (lossesKept_of_eq fun _ => rfl)
  · exact lossesKept_countLoss s n

theorem lossesKept_placeCopies (c : Creation) (links : List Link) (s : State) : LossesKept s (placeCopies c links s) := by
  induction links generalizing s with
  | nil => exact id
  | cons n ns ih =>
    unfold placeCopies
    refine LossesKept.trans ?_ (ih _)
    split
    · exact lossesKept_place n none c s
    · exact id

theorem lossesKept_placePair (p : Link) (f : Option Link) (reset : List (Link × Byte)) (c : Creation) (s : State) :
    LossesKept s (placePair p f reset c s).2 := by
  unfold placePair
  split
  · exact lossesKept_place p f c s
  · split
    · split
      · exact lossesKept_place _ none c s
      · exact lossesKept_countLoss s p
    · exact lossesKept_countLoss s p

theorem lossesKept_takePair (p : Link) (f : Option Link) (reset : List (Link × Byte)) (c : Creation) (s : State) :
    LossesKept s (takePair p f reset c s) := by
  refine (lossesKept_placePair p f reset c s).trans ?_
  unfold takePair noteOutcome
  split
  · split
    · exact lossesKept_of_eq fun _ => rfl
    · exact id
  · exact id

theorem lossesKept_takeCopies (c : Creation) (links : List Link) (e : Extent) (s : State) :
    LossesKept s (takeCopies c links e s) := by
  unfold takeCopies
  split
  · exact lossesKept_placeCopies c links s
  · split
    · exact id
    · next n ns _ =>
      simp only
      split
      · exact lossesKept_placeCopies c [n] s
      · exact (lossesKept_placeCopies c [n] s).trans (lossesKept_of_eq fun _ => rfl)

theorem lossesKept_takeCreation (c : Creation) (e : Extent) (s : State) : LossesKept s (takeCreation c e s) := by
  unfold takeCreation
  split
  · exact lossesKept_takePair _ _ _ c s
  · exact lossesKept_takePair _ _ _ c s
  · split
    · exact lossesKept_place _ none c s
    · exact lossesKept_countLoss s _
  · exact lossesKept_takeCopies c _ e s
  · exact lossesKept_takeCopies c _ e s

theorem lossesKept_foldl {α : Type} {f : State → α → State} {l : List α} {s t : State}
    (kept : ∀ t x, LossesKept t (f t x)) (first : LossesKept s t) : LossesKept s (l.foldl f t) :=
  fun h => foldl_keeps (P := fun t => ∀ n, t.loss n ≤ 255) f l (fun t x e => kept t x e) (first h)

theorem lossesKept_drainChannel (ch : Channel) (s : State) : LossesKept s (drainChannel ch s) :=
  lossesKept_foldl (fun t c => lossesKept_takeCreation c .whole t) (lossesKept_of_eq fun _ => rfl)

theorem lossesKept_takeChannel (ch : Channel) (e : Extent) (s : State) : LossesKept s (takeChannel ch e s) := by
  unfold takeChannel
  split
  · exact id
  · next c rest _ =>
    exact (lossesKept_of_eq fun _ => rfl).trans
      (lossesKept_takeCreation c e (s.setTransit { s.transit with creations := rest }))

theorem lossesKept_discardRecord (n : Link) (r : Notice) (s : State) : LossesKept s (discardRecord n r s) :=
  (lossesKept_countLoss s n).trans (lossesKept_reportDeparture _ r .discarded)

theorem lossesKept_dealWith (n : Link) (s : State) (r : Notice) : LossesKept s (dealWith n s r) := by
  unfold dealWith
  split
  · split
    · split <;> exact lossesKept_of_eq fun _ => rfl
    · exact lossesKept_discardRecord n r s
  · exact lossesKept_discardRecord n r s

theorem lossesKept_noticeShare (n : Link) (x : Extent) (s : State) : LossesKept s (noticeShare n x s) := by
  unfold noticeShare
  split
  · exact id
  · next e rest _ =>
    have dealt : LossesKept s ((e.handed ++ (s.setTransit { s.transit with noticeEnds := rest }).queue e.link).foldl
        (dealWith e.link) ((s.setTransit { s.transit with noticeEnds := rest }).setQueue e.link [])) :=
      lossesKept_foldl (lossesKept_dealWith e.link) (lossesKept_of_eq fun _ => rfl)
    unfold takeNoticeEnd
    simp only
    split
    · exact dealt
    · exact dealt.trans (lossesKept_takeCreation (linkLost e) x _)

theorem lossesKept_authorityShare (n : Link) (s : State) : LossesKept s (authorityShare n s) := by
  unfold authorityShare
  split
  · exact id
  · next m rest _ =>
    have only := onlyAuthority_takeAuthorityEnd m (s.setTransit { s.transit with authorityEnds := rest })
    exact lossesKept_of_eq fun _ => by rw [only]; rfl

theorem lossesKept_settleEnds (n : Link) (s : State) : LossesKept s (settleEnds n s) := by
  have counted : LossesKept s { s with choices := s.choices + 1 } := lossesKept_of_eq fun _ => rfl
  unfold settleEnds
  split
  · simp only
    split
    · exact ((counted.trans (lossesKept_authorityShare n _)).trans (lossesKept_drainChannel _ _)).trans
        (lossesKept_noticeShare n _ _)
    · exact (counted.trans (lossesKept_noticeShare n _ _)).trans (lossesKept_authorityShare n _)
  · exact id

theorem lossesKept_takeSample (l : LineIx) (s : State) : LossesKept s (takeSample l s) := by
  unfold takeSample
  split
  · exact id
  · next sample _ =>
    have sampled : LossesKept s (s.setLine l { (s.line l).sampled sample with dueSample := none }) :=
      lossesKept_of_eq fun _ => rfl
    simp only
    split
    · refine sampled.trans ?_
      generalize s.setLine l { (s.line l).sampled sample with dueSample := none } = u
      have triggered : LossesKept u (triggerWatches l u) := by
        have only := onlyWatches_triggerWatches l u
        exact lossesKept_of_eq fun _ => by rw [only]; rfl
      refine triggered.trans ?_
      unfold trigger notifyTrigger
      simp only
      split
      · split
        · exact (lossesKept_drainChannel _ _).trans (lossesKept_of_eq fun _ => rfl)
        · exact (lossesKept_drainChannel _ _).trans (lossesKept_of_eq fun _ => rfl)
      · exact id
    · exact sampled

theorem talliesLaw_of_kept {s t : State} (deliveries : t.deliveries = s.deliveries) (kept : LossesKept s t)
    (h : s.talliesLaw) : t.talliesLaw :=
  talliesLaw_of_losses h deliveries (kept fun n => (h n).2)

theorem talliesLaw_endSession (n : Link) (why : EndReason) {s : State} (h : s.talliesLaw) : (endSession n why s).talliesLaw := by
  cases up : s.isUp n with
  | false => rw [endSession_of_not_up n why s up]; exact h
  | true =>
    rw [endSession_of_up n why s up]
    have ended := talliesLaw_setDelivery (n := n) (d := { s.delivery n with inFlight := [], resend := [] }) h (h n).1
    exact ended

theorem talliesLaw_takeFrame (n : Link) {s : State} (h : s.talliesLaw) : (takeFrame n s).talliesLaw := by
  unfold takeFrame
  split
  · exact h
  · split
    · exact h
    · split
      · exact h
      · split
        · next k rest _ =>
          have sent := talliesLaw_setDelivery (n := n) (d := { s.delivery n with
            inFlight := reviseFlight (s.delivery n).inFlight k fun f => { f with attempt := f.attempt + 1 }
            resend := rest }) h (h n).1
          unfold resendFirst
          simp only
          split <;> exact sent
        · split
          · split
            · next r rest _ =>
              have taken : ((s.setQueue n rest).setLoss n 0).talliesLaw := by
                intro m
                rw [loss_setLoss]
                exact ⟨(h m).1, by split; exact Nat.zero_le _; exact (h m).2⟩
              have sent := talliesLaw_setDelivery (n := n) (d := { s.delivery n with
                inFlight := (s.delivery n).inFlight ++
                  [⟨r, 1, pickNumber (s.delivery n).inFlight (s.delivery n).nextNumber, s.loss n, none, false⟩]
                nextNumber := pickNumber (s.delivery n).inFlight (s.delivery n).nextNumber + 1 }) taken (h n).1
              exact sent
            · exact h
          · exact h

theorem talliesLaw_commandRestart (s : State) : (commandRestart s).talliesLaw := by
  intro n
  have delivery : (commandRestart s).delivery n = .atReset := by simp [commandRestart, State.delivery]
  have loss : (commandRestart s).loss n = 0 := by simp [commandRestart, State.loss]
  rw [delivery, loss]
  exact ⟨by simp [Delivery.atReset], by simp⟩

theorem talliesLaw_finishFrame (n : Link) {s : State} (h : s.talliesLaw) : (finishFrame n s).talliesLaw := by
  have idle : (s.setTransmitter n none).talliesLaw := h
  unfold finishFrame
  split
  · exact h
  · simp only
    split
    · exact talliesLaw_setDelivery idle (h n).1
    · exact idle
    · split
      · exact talliesLaw_endSession n .closed idle
      · exact idle
    · split
      · exact talliesLaw_commandRestart _
      · exact idle

theorem talliesLaw_takeAckTick (n : Link) (k : Byte) {s : State} (h : s.talliesLaw) : (takeAckTick n k s).talliesLaw := by
  unfold takeAckTick
  simp only
  split
  · split
    · split
      · exact talliesLaw_setDelivery h (h n).1
      · split
        · exact talliesLaw_setDelivery h (h n).1
        · exact talliesLaw_endSession n .noAck (talliesLaw_setDelivery h (h n).1)
    · exact h
  · exact h

theorem talliesLaw_takeInactivityTick (n : Link) {s : State} (h : s.talliesLaw) : (takeInactivityTick n s).talliesLaw := by
  have noted : (s.setLink n { s.link n with inactivityDue := false }).talliesLaw := h
  unfold takeInactivityTick
  simp only
  split
  · split
    · split
      · exact talliesLaw_endSession n .silence noted
      · exact h
    · exact noted
  · exact h

theorem talliesLaw_takeAck (n : Link) (k : Byte) {s : State} (h : s.talliesLaw) : (takeAck n k s).talliesLaw := by
  unfold takeAck
  simp only
  split
  · rw [reportDeparture_eq]
    exact talliesLaw_setDelivery (d := { s.delivery n with inFlight := _, resend := _ }) h (h n).1
  · exact talliesLaw_setDelivery h (Nat.min_le_left _ _)

theorem talliesLaw_enterHeld (n : Link) (r : Resetter) {s : State} (h : s.talliesLaw) :
    (enterHeld n (noteResetter n r s)).talliesLaw := talliesLaw_of_eq h rfl rfl

theorem talliesLaw_takeAssertedWord (n : Link) {s : State} (h : s.talliesLaw) : (takeAssertedWord n s).talliesLaw := by
  rcases takeAssertedWord_cases n s with e | ⟨r, pre, post, _, _, e⟩ <;> rw [e]
  · exact h
  · have told : (s.setTransit { s.transit with crstWords := pre ++ post }).talliesLaw :=
      talliesLaw_of_eq h rfl rfl
    unfold takeAssertion
    exact talliesLaw_enterHeld n r (talliesLaw_endSession n .resetIssued told)

theorem talliesLaw_takeRelease (n : Link) {s : State} (h : s.talliesLaw) : (takeRelease n s).talliesLaw := by
  unfold takeRelease
  split
  · exact talliesLaw_of_eq h rfl rfl
  · exact h

theorem talliesLaw_takeReleasedWord (n : Link) {s : State} (h : s.talliesLaw) : (takeReleasedWord n s).talliesLaw := by
  rcases takeReleasedWord_cases n s with e | ⟨pre, post, _, _, e⟩ <;> rw [e]
  · exact h
  · have told : (s.setTransit { s.transit with crstWords := pre ++ post }).talliesLaw := talliesLaw_of_eq h rfl rfl
    exact talliesLaw_takeRelease n told

theorem talliesLaw_of_onlyClaims {s t : State} (only : OnlyClaims s t) (h : s.talliesLaw) : t.talliesLaw :=
  talliesLaw_of_eq h (by rw [only]) (by rw [only])

theorem talliesLaw_withDeliveries {s : State} {v : Vector Delivery 4} (h : s.talliesLaw)
    (same : ∀ n : Link, v[n].strayAcks = (s.delivery n).strayAcks) : State.talliesLaw { s with deliveries := v } := fun n =>
  ⟨by
    change v[n].strayAcks ≤ 65535
    rw [same]
    exact (h n).1, (h n).2⟩

theorem talliesLaw_withWatches {s : State} (v : Vector Watch 32) (due : Vector (Option Base) 32) (h : s.talliesLaw) :
    State.talliesLaw { s with watches := v, watchTicksDue := due } := h

theorem talliesLaw_withLines {s : State} (v : Vector LineRec 16) (h : s.talliesLaw) :
    State.talliesLaw { s with lines := v } := h

theorem talliesLaw_withLinks {s : State} (v : Vector LinkRec 4) (h : s.talliesLaw) :
    State.talliesLaw { s with links := v } := h

theorem talliesLaw_withReceivers {s : State} (v : Vector Receiver 4) (h : s.talliesLaw) :
    State.talliesLaw { s with receivers := v } := h

theorem talliesLaw_deliverTick (p : TickPort) {s : State} (h : s.talliesLaw) : (deliverTick s p).talliesLaw := by
  cases p with
  | watches b => exact talliesLaw_withWatches _ _ h
  | lines => exact talliesLaw_withLines _ h
  | outputs =>
    unfold deliverTick tickClaims
    simp only
    split
    · exact talliesLaw_of_eq h rfl rfl
    · exact talliesLaw_of_onlyClaims (onlyClaims_countClaims s) h
  | ackTimers =>
    refine talliesLaw_withDeliveries h fun n => ?_
    simp only [Fin.getElem_fin, get_remap]
    rfl
  | inactivityTimers => exact talliesLaw_withLinks _ h
  | offerTimer =>
    unfold deliverTick tickOffer
    simp only
    split
    · split <;> exact talliesLaw_of_eq h rfl rfl
    · exact h
    · exact h
  | gapTimers => exact talliesLaw_withReceivers _ h

theorem Move.talliesLaw {d a : Bool} {s t : State} (m : Move d a s t) (h : s.talliesLaw) : t.talliesLaw := by
  cases m
  case settle => rw [settleAuthority_leaves s]; exact talliesLaw_of_eq h rfl rfl
  case heard n _ => rw [onlyReception_heard n s]; exact talliesLaw_of_eq h rfl rfl
  case endSession n why _ => exact talliesLaw_endSession n why h
  case openSession n p o _ _ _ _ =>
    have only := onlyShares_settleEnds n s
    have settled := talliesLaw_of_kept (by rw [only]) (lossesKept_settleEnds n s) h
    have opened := talliesLaw_setDelivery (n := n) (d := { (settleEnds n s).delivery n with
      window := o.window, ackTimeout := o.ackTimeout, floor := o.floor, nextNumber := 0 }) settled (settled n).1
    exact opened
  case floor n f => exact talliesLaw_setDelivery h (h n).1
  case drain l =>
    exact talliesLaw_of_kept (by rw [onlyNotices_drainChannel (.line l) s]) (lossesKept_drainChannel (.line l) s) h
  case unhold o => rw [onlyOutputs_unhold o s]; exact talliesLaw_of_eq h rfl rfl
  case claim n _ _ => rw [onlyAuthority_takeClaimRequest n s]; exact talliesLaw_of_eq h rfl rfl
  case passOn => rw [onlyAuthority_passOn none s]; exact talliesLaw_of_eq h rfl rfl
  case ack n k _ => exact talliesLaw_takeAck n k h
  case hunt n b _ => rw [onlyReception_huntByte n b s]; exact talliesLaw_of_eq h rfl rfl
  case abandon n b _ => rw [onlyReception_abandonStart n b s]; exact talliesLaw_of_eq h rfl rfl
  case gapTick n => rw [onlyReception_takeGapTick n s]; exact talliesLaw_of_eq h rfl rfl
  case deliver p => exact talliesLaw_deliverTick p h
  case watchTick i => rw [onlyWatches_takeWatchTick i s]; exact talliesLaw_of_eq h rfl rfl
  case sample l =>
    exact talliesLaw_of_kept (by rw [onlyLines_takeSample l s]) (lossesKept_takeSample l s) h
  case claimTick =>
    exact talliesLaw_of_onlyClaims (onlyClaims_takeClaimTick s) (talliesLaw_of_eq h rfl rfl)
  case ackTick n k _ => exact talliesLaw_takeAckTick n k h
  case inactivityTick n _ => exact talliesLaw_takeInactivityTick n h
  case offerTick => rw [onlyAuthority_takeOfferTick s]; exact talliesLaw_of_eq h rfl rfl
  case lineReport l =>
    refine talliesLaw_of_kept (by rw [onlyLines_takeLineReport l s]) ?_ h
    unfold takeLineReport takeDeparture
    split
    · exact id
    · simp only
      split
      · split <;> exact lossesKept_of_eq fun _ => rfl
      · exact lossesKept_of_eq fun _ => rfl
      · exact lossesKept_of_eq fun _ => rfl
  case channel ch e =>
    exact talliesLaw_of_kept (by rw [onlyNotices_takeChannel ch e s]) (lossesKept_takeChannel ch e s) h
  case noticeEnd n x =>
    exact talliesLaw_of_kept (by rw [onlyShares_noticeShare n x s]) (lossesKept_noticeShare n x s) h
  case authorityEnd n =>
    exact talliesLaw_of_kept (by rw [onlyShares_authorityShare n s]) (lossesKept_authorityShare n s) h
  case frame n => exact talliesLaw_takeFrame n h
  case lastByte n _ => exact talliesLaw_finishFrame n h
  case claimWord c => rw [onlyOutputs_takeClaimWord c s]; exact talliesLaw_of_eq h rfl rfl
  case removalWord i => rw [onlyOutputs_takeRemovalWord i s]; exact talliesLaw_of_eq h rfl rfl
  case asserted n _ => exact talliesLaw_takeAssertedWord n h
  case released n => exact talliesLaw_takeReleasedWord n h
  all_goals exact talliesLaw_of_eq h rfl rfl

/-- Settles O59: the law of each port and of the two counts holds through every move, and after every reset. -/
theorem linksKeepTheirBounds : Obligations.LinksKeepTheirBounds := by
  intro s t laws h
  rw [linkLaws_iff] at laws ⊢
  refine step_keeps_of_moves (fun s => s.portsLaw ∧ s.talliesLaw) (fun _ _ h => h)
    (fun m h => ⟨m.portsLaw h.1, m.talliesLaw h.2⟩) ?_ ?_ ?_ s t laws h
  · exact fun _ _ _ => (linkLaws_iff _).mp linkLaws_reset
  · exact fun _ => (linkLaws_iff _).mp linkLaws_reset
  · exact fun _ _ _ h => h

end Sys2Proof.Machine

/-!
PROOF. The step, the arrival of a frame, and the checks every request meets before its own: kind, shape, session, watch
index, entry, right (R6, R149, R150, R152, R158, R162 to R164).
-/

namespace Sys2Proof.Machine

/-- Settles O1: a step with a command at the front of the queue is that command. -/
theorem stepRunsTheFrontCommand : Obligations.StepRunsTheFrontCommand := by
  intro s c rest h
  simp [step, h]

/-! ### The arrival of a frame -/

/-- An event of a part that takes events and has settled its authority. -/
theorem unlessReset_of_runs (f : State → State) {s : State} (h : s.runs) : unlessReset f s = f s :=
  unlessReset_of_prompt f s h.1 h.2

/-- A frame of unknown kind is a request whose block refuses it (R162). -/
theorem exec_unknownRequest {n : Link} {k tag : Byte} {p : List Byte} (unknown : k ∉ requestKinds) (s : State) :
    exec (.unknownRequest n k tag p) s = .next (takeRequest n tag unknownBody s) := by
  have notAck : k ≠ 0x06 := fun e => unknown (by rw [e]; decide)
  have asRequest : ∀ t, (if k = 0x06 ∨ (requestBody k n p).isSome = true then t else takeRequest n tag unknownBody t) =
      takeRequest n tag unknownBody t := fun t => by
    rw [requestBody_of_unknown n p unknown, if_neg (by simpa using notAck)]
  change Host.Outcome.next (unlessReset _ s) = _
  simp only [asRequest]
  cases held : s.resetIsHeld with
  | true => rw [unlessReset_of_held _ s held, takeRequest_of_held n tag _ s held]
  | false => rw [unlessReset_of_running _ s held, takeRequest_settleAuthority n tag _ s held]

/-- Settles O2: how a link hears a frame, and the three grounds on which a request is not answered. -/
theorem framesArriveOrAreDiscarded : Obligations.FramesArriveOrAreDiscarded := by
  refine ⟨fun s n h => ?_, fun s n h => ?_, fun c n s h => ?_⟩
  · simp [State.heard, State.frameArrived, State.isUp, h]
  · simp [State.heard, State.frameArrived, State.isUp, h, LinkRec.loadInactivity]
  · obtain ⟨tag, body, request⟩ : ∃ tag body, exec c s = .next (takeRequest n tag body s) := by
      rcases h with ⟨tag, body, request⟩ | ⟨k, tag, p, rfl, unknown⟩
      · exact ⟨tag, body, exec_request c n tag body s request⟩
      · exact ⟨tag, unknownBody, exec_unknownRequest unknown s⟩
    rw [request]
    refine ⟨fun held => ?_, fun runs deaf => ?_, fun runs notHeld open_ full => ?_⟩
    · rw [takeRequest_of_held n tag body s held]
    · rw [takeRequest_of_deaf n tag body s runs ((deaf_iff s n).mpr deaf)]
    · rw [takeRequest_of_full n tag body s runs (deaf_eq_false notHeld open_) full]

/-! ### Kind, shape and session -/

/-- A block whose payload has the wrong length or shape refuses it (R163). -/
theorem body_of_misshaped {c : Instr} {n : Link} {tag : Byte} {body : State → Answer × State}
    (request : c.request = some (n, tag, body)) (shape : c.shaped = false) (s : State) : body s = refuse .malformed s := by
  have empty : ∀ p : List Byte, decide (p.length = 0) = false → p.isEmpty = false := by
    intro p h
    simpa [List.isEmpty_iff] using h
  cases c <;> simp only [Instr.request, Option.some.injEq, Prod.mk.injEq, reduceCtorEq] at request <;>
    obtain ⟨rfl, rfl, rfl⟩ := request <;> simp only [Instr.shaped] at shape
  case openReq => rw [openBody, if_pos (by simpa using shape)]
  case define => exact congrArg (checkShapeAndOpen · _ _ _) shape
  case closeReq => exact congrArg (checkShapeAndOpen · _ _ _) (empty _ shape)
  case ping => exact congrArg (checkShapeAndOpen · _ _ _) (empty _ shape)
  case status => exact congrArg (checkShapeAndOpen · _ _ _) (empty _ shape)
  case claim => exact congrArg (checkShapeAndOpen · _ _ _) (empty _ shape)
  case yieldReq => exact congrArg (checkShapeAndOpen · _ _ _) (empty _ shape)
  case acceptReq => exact congrArg (checkShapeAndOpen · _ _ _) (empty _ shape)
  case decline => exact congrArg (checkShapeAndOpen · _ _ _) (empty _ shape)
  case restart => exact congrArg (checkShapeAndOpen · _ _ _) (empty _ shape)
  all_goals exact congrArg (checkShapeAndOpen · _ _ _) shape

/-- Every block but OPEN's refuses a link without a session (R151, R163). -/
theorem body_of_notOpen {c : Instr} {n : Link} {tag : Byte} {body : State → Answer × State}
    (request : c.request = some (n, tag, body)) (shape : c.shaped = true) (notOpen : c.isOpen = false) {s : State}
    (down : s.isUp n = false) : body s = refuse .notOpen s := by
  have empty : ∀ p : List Byte, decide (p.length = 0) = true → p.isEmpty = true := by
    intro p h
    simpa [List.isEmpty_iff] using h
  have refused : ∀ (b : Bool) (rest : Answer × State), b = true → checkShapeAndOpen b n s rest = refuse .notOpen s :=
    fun b rest e => by rw [e, checkShapeAndOpen_of_notOpen n s rest down]
  cases c <;> simp only [Instr.request, Option.some.injEq, Prod.mk.injEq, reduceCtorEq] at request <;>
    obtain ⟨rfl, rfl, rfl⟩ := request <;> simp only [Instr.shaped] at shape
  case openReq => exact absurd notOpen (by simp [Instr.isOpen])
  case closeReq => exact refused _ _ (empty _ shape)
  case ping => exact refused _ _ (empty _ shape)
  case status => exact refused _ _ (empty _ shape)
  case claim => exact refused _ _ (empty _ shape)
  case yieldReq => exact refused _ _ (empty _ shape)
  case acceptReq => exact refused _ _ (empty _ shape)
  case decline => exact refused _ _ (empty _ shape)
  case restart => exact refused _ _ (empty _ shape)
  all_goals exact refused _ _ shape

/-- Settles O3: an unknown kind, a wrong shape, a closed session, in the order they are checked. -/
theorem kindThenShapeThenSession : Obligations.KindThenShapeThenSession := by
  refine ⟨fun s n k tag p answers unknown => ?_, fun c n tag body s request answers => ⟨fun shape => ?_,
    fun shape notOpen silent => ?_⟩⟩
  · rw [exec_unknownRequest unknown, takeRequest_of_answers n tag _ s answers]
    rfl
  · exact exec_of_refuse c n tag body s _ request answers (body_of_misshaped request shape _)
  · have down : (s.heard n).isUp n = false := by rw [isUp_heard, isUp_eq_false_iff, silent]; simp
    exact exec_of_refuse c n tag body s _ request answers (body_of_notOpen request shape notOpen down)

/-- A link that answers has settled its authority and listens. -/
theorem prompt_and_ears_of_answers {s : State} {n : Link} (h : s.answers n) :
    s.transit.authorityEnds = [] ∧ s.deaf n = false := by
  obtain ⟨runs, notHeld, open_, _⟩ := h
  exact ⟨runs.2, deaf_eq_false notHeld open_⟩

/-- Settles O4: a block that refuses changes nothing, so its bare result is all that is left. -/
theorem refusedRequestsChangeNothing : Obligations.RefusedRequestsChangeNothing := by
  intro c n tag body s request answers notOk
  obtain ⟨prompt, ears⟩ := prompt_and_ears_of_answers answers
  have ears' : (s.heard n).deaf n = false := by
    rw [deaf_eq_false_iff, link_heard_same, state_heardRec, closing_heardRec]
    exact (deaf_eq_false_iff s n).mp ears
  have answered := request_answered c n tag body (s.heard n) request (by rwa [transit_heard]) ears'
  generalize e : body (s.heard n) = r at answered notOk
  cases answered with
  | refused r _ => exact exec_of_refuse c n tag body s r request answers e
  | accepted items t _ _ _ => exact absurd rfl notOk
  | pending c _ _ => exact absurd rfl notOk

/-! ### Index, entry and right -/

theorem byteAt_of_head {p : List Byte} {b : Byte} (h : p.head? = some b) : byteAt p 0 = b := by
  cases p with
  | nil => simp at h
  | cons a p => simpa using h

/-- An owner-type request of the right length, its session open, goes on to the checks of R6. -/
theorem ownerRequest_of_up {len : Nat} {n : Link} {p : List Byte} {b : Byte} {s : State}
    (rest : WatchIx → Watch → Answer × State) (length : decide (p.length = len) = true) (up : s.isUp n = true)
    (names : p.head? = some b) :
    ownerRequest len n p s rest =
      withWatch b s fun i w => if ownerOrHolder n w s then rest i w else refuse .notAuthority s := by
  rw [ownerRequest, length, checkShapeAndOpen_of_up n s _ up, byteAt_of_head names]

/-- With a session open and one byte of payload, CLEAR goes on to the checks of R55. -/
theorem clearBody_of_up (n : Link) (b : Byte) (s : State) (up : s.isUp n = true) :
    clearBody n [b] s = withWatch b s fun i w =>
      if !s.isHolder n then refuse .notAuthority s
      else if w.state = .overdue ∨ w.state = .latched then
        accept [] ((s.setWatch i { w.halt with strikes := 0 }).sendOutput [.removeAll i])
      else refuse .badState s :=
  checkShapeAndOpen_of_up n s _ up

theorem eq_singleton_of_head {p : List Byte} {b : Byte} (length : decide (p.length = 1) = true) (head : p.head? = some b) :
    p = [b] := by
  obtain ⟨a, rfl⟩ := List.length_eq_one_iff.mp (by simpa using length)
  simpa using head

/-- A request that names a watch first checks the index, the entry and, where it is of owner type, the right (R6). -/
theorem body_of_watchIndex {c : Instr} {n : Link} {tag : Byte} {body : State → Answer × State} {b : Byte}
    (request : c.request = some (n, tag, body)) (names : c.watchIndex = some b) (shape : c.shaped = true) {s : State}
    (up : s.isUp n = true) :
    ∃ rest : WatchIx → Watch → Answer × State, body s = withWatch b s rest
      ∧ (c.ownerTypeIndex = some b → ∀ i, ¬ s.mayAct n i → rest i (s.watch i) = refuse .notAuthority s) := by
  have ofOwner : ∀ (len : Nat) (p : List Byte) (rest : WatchIx → Watch → Answer × State),
      decide (p.length = len) = true → p.head? = some b → ∃ rest' : WatchIx → Watch → Answer × State,
        ownerRequest len n p s rest = withWatch b s rest'
        ∧ ∀ i, ¬ s.mayAct n i → rest' i (s.watch i) = refuse .notAuthority s := fun len p rest length head =>
    ⟨_, ownerRequest_of_up rest length up head, fun i may => by rw [ownerOrHolder_eq]; simp [may]⟩
  cases c <;> simp only [Instr.request, Option.some.injEq, Prod.mk.injEq, reduceCtorEq] at request <;>
    obtain ⟨rfl, rfl, rfl⟩ := request <;>
    simp only [Instr.shaped, Instr.watchIndex, Instr.ownerTypeIndex, reduceCtorEq] at shape names
  case freeze p =>
    obtain rfl := eq_singleton_of_head shape names
    exact ⟨_, freezeBody_of_up _ b s up, fun e => by simp [Instr.ownerTypeIndex] at e⟩
  case clear p =>
    obtain rfl := eq_singleton_of_head shape names
    exact ⟨_, clearBody_of_up _ b s up, fun e => by simp [Instr.ownerTypeIndex] at e⟩
  all_goals
    obtain ⟨rest, eq, right⟩ := ofOwner _ _ _ shape names
    exact ⟨rest, eq, fun _ => right⟩

/-- Settles O5: index, entry and right, each checked before the next. -/
theorem watchRequestsAreCheckedInOrder : Obligations.WatchRequestsAreCheckedInOrder := by
  intro c n tag body b s request names shape serves
  obtain ⟨rest, eq, right⟩ := body_of_watchIndex request names shape (isUp_heard_of_serves serves)
  have refused : ∀ r, withWatch b (s.heard n) rest = refuse r (s.heard n) →
      exec c s = .next ((s.heard n).replied n tag r []) := fun r e =>
    exec_of_refuse c n tag body s r request serves.1 (eq.trans e)
  refine ⟨fun big => refused _ (withWatch_of_big b _ rest big), fun i index => ⟨fun free => ?_, fun defined owner may => ?_⟩⟩
  · exact refused _ (withWatch_of_free b i _ rest (readWatchIx_of_toNat b i index) (by rwa [watch_heard]))
  · refine refused _ ?_
    rw [withWatch_of_defined b i _ rest (readWatchIx_of_toNat b i index) (by rwa [watch_heard])]
    exact right owner i (by rwa [mayAct_heard])

/-! ### The privileged requests -/

/-- A request of the right length, its session open, goes on to its own checks. -/
theorem checkLength_heard {s : State} {n : Link} (len : Nat) (p : List Byte) (rest : Answer × State) (serves : s.serves n)
    (length : p.length = len) : checkShapeAndOpen (p.length = len) n (s.heard n) rest = rest := by
  rw [decide_eq_true length, checkShapeAndOpen_of_up n _ rest (isUp_heard_of_serves serves)]

theorem privileged_heard_of_notHolder {s : State} {n : Link} (rest : Answer × State) (notHolder : s.authority.mode ≠ .held n) :
    privileged n (s.heard n) rest = refuse .notAuthority (s.heard n) := by
  rw [privileged, isHolder_heard, if_neg (mt (isHolder_iff s n).mp notHolder)]

theorem privileged_heard_of_holder {s : State} {n : Link} (rest : Answer × State) (holder : s.authority.mode = .held n) :
    privileged n (s.heard n) rest = rest := by
  rw [privileged, isHolder_heard, if_pos ((isHolder_iff s n).mpr holder)]

/-- A duration whose two bytes are not both 0. -/
theorem halfAt_ne_zero (b : Byte) {lo hi : Byte} (h : lo ≠ 0 ∨ hi ≠ 0) : halfAt [b, lo, hi] 1 ≠ 0 := by
  have e : halfAt [b, lo, hi] 1 = lo.toNat + 256 * hi.toNat := rfl
  rw [e]
  rcases h with h | h <;> bv_omega

/-- Settles O6: each of the privileged requests, and YIELD, from a link that does not hold the authority. -/
theorem privilegedRequestsNeedTheHolder : Obligations.PrivilegedRequestsNeedTheHolder := by
  intro s n tag serves notHolder
  have refused : ∀ (c : Instr) (body : State → Answer × State), c.request = some (n, tag, body) →
      body (s.heard n) = refuse .notAuthority (s.heard n) →
      exec c s = .next ((s.heard n).replied n tag .notAuthority []) := fun c body request e =>
    exec_of_refuse c n tag body s _ request serves.1 e
  have not_ := fun rest => privileged_heard_of_notHolder (s := s) (n := n) rest notHolder
  refine ⟨fun i defined => ?clear, fun p length reads => ?lineSet, fun o lo hi some => ?pulse,
    fun o => ⟨?hold, ?unhold⟩, ?restart, exec_yieldReq_of_notHolder tag serves notHolder⟩
  case clear =>
    refine refused _ _ rfl ?_
    rw [clearBody_of_up n _ _ (isUp_heard_of_serves serves),
      withWatch_of_defined _ i _ _ (readWatchIx_byteOf i) (by rwa [watch_heard]), isHolder_heard,
      if_pos (by simpa [State.isHolder] using notHolder)]
  case lineSet =>
    obtain ⟨d, read⟩ := Option.isSome_iff_exists.mp reads
    refine refused _ _ rfl ?_
    rw [lineSetBody, checkLength_heard 7 p _ serves length, read]
    exact not_ _
  case pulse =>
    refine refused _ _ rfl ?_
    rw [pulseBody, checkLength_heard 3 [byteOf o, lo, hi] _ serves rfl, byteAt_cons_zero, readOutput_byteOf]
    simp only [if_neg (halfAt_ne_zero (byteOf o) some), not_]
  case hold =>
    refine refused _ _ rfl ?_
    rw [holdBody, checkLength_heard 1 [byteOf o] _ serves rfl, byteAt_cons_zero, readOutput_byteOf]
    exact not_ _
  case unhold =>
    refine refused _ _ rfl ?_
    rw [unholdBody, checkLength_heard 1 [byteOf o] _ serves rfl, byteAt_cons_zero, readOutput_byteOf]
    exact not_ _
  case restart =>
    refine refused _ _ rfl ?_
    rw [restartBody, checkShapeAndOpen_heard_of_serves _ serves, isHolder_heard,
      if_neg (by simpa [State.isHolder] using notHolder)]

end Sys2Proof.Machine

/-!
PROOF. The receiver byte by byte, ACK frames, and that a frame sent byte by byte is taken as its command (R95, R96,
R147 to R150, R152, R162).
-/

namespace Sys2Proof.Machine

/-! ### The receiver (R148) -/

theorem exec_frameStartAbandoned (n : Link) (len : Byte) {s : State} (runs : s.runs) :
    exec (.frameStartAbandoned n len) s = .next
      (if s.deaf n ∨ (s.receiver n).collected ≠ some [] ∨ len.toNat ≤ Config.maxPayload then s
       else abandonStart n len s) := by
  change Host.Outcome.next (unlessReset _ s) = _
  rw [unlessReset_of_runs _ runs]

theorem exec_gapTimerExpiry (n : Link) {s : State} (runs : s.runs) :
    exec (.gapTimerExpiry n) s = .next (takeGapTick n s) := by
  change Host.Outcome.next (unlessReset _ s) = _
  rw [unlessReset_of_runs _ runs]

theorem takeByte_of_deaf {s : State} {n : Link} (b : Byte) (deaf : s.deaf n = true) : takeByte n b s = s := by
  simp [takeByte, deaf]

theorem takeByte_of_hunting {s : State} {n : Link} (b : Byte) (ears : s.deaf n = false)
    (hunting : (s.receiver n).collected = none) : takeByte n b s = huntByte n b s := by
  simp [takeByte, ears, hunting]

theorem takeByte_of_bigLength {s : State} {n : Link} {b : Byte} (ears : s.deaf n = false)
    (started : (s.receiver n).collected = some []) (big : 58 < b.toNat) : takeByte n b s = abandonStart n b s := by
  simp [takeByte, ears, started, Config.maxPayload, big]

theorem takeByte_of_length {s : State} {n : Link} {b : Byte} (ears : s.deaf n = false)
    (started : (s.receiver n).collected = some []) (fits : b.toNat ≤ 58) :
    takeByte n b s = s.setReceiver n ⟨some [b], 6, (s.receiver n).gapDue⟩ := by
  simp [takeByte, ears, started, Config.maxPayload, Config.gapTime, Nat.not_lt.mpr fits]

theorem takeByte_of_inside {s : State} {n : Link} {len : Byte} {got : List Byte} (b : Byte) (ears : s.deaf n = false)
    (collected : (s.receiver n).collected = some (len :: got)) (short : got.length + 1 < len.toNat + 4) :
    takeByte n b s = s.setReceiver n ⟨some (len :: got ++ [b]), 6, (s.receiver n).gapDue⟩ := by
  have more : ¬ len.toNat + 5 ≤ got.length + 1 + 1 := by omega
  simp [takeByte, ears, collected, Config.gapTime, more]

/-- Settles O29: a deaf receiver, a hunting one, one that has seen START, one inside a frame, and the gap timer. -/
theorem receiverBuildsFrames : Obligations.ReceiverBuildsFrames := by
  intro s n runs
  refine ⟨fun deaf b => ?deaf, fun notHeld open_ => ?ears, fun got collects due => ?gap⟩
  case deaf => rw [exec_receiverTakesByte n b runs, takeByte_of_deaf b ((deaf_iff s n).mpr deaf)]
  case ears =>
    have ears := deaf_eq_false notHeld open_
    refine ⟨fun hunting b => ?_, fun started b => ⟨fun big => ⟨?_, ?_⟩, fun fits => ?_⟩, fun len got collected short b => ?_⟩
    · rw [exec_receiverTakesByte n b runs, takeByte_of_hunting b ears hunting]
      rfl
    · rw [exec_receiverTakesByte n b runs, takeByte_of_bigLength ears started big]
      rfl
    · have abandoned : ¬ (s.deaf n = true ∨ (s.receiver n).collected ≠ some [] ∨ b.toNat ≤ Config.maxPayload) := by
        simp [ears, started, Config.maxPayload, big]
      rw [exec_frameStartAbandoned n b runs, if_neg abandoned]
      rfl
    · rw [exec_receiverTakesByte n b runs, takeByte_of_length ears started fits]
    · rw [exec_receiverTakesByte n b runs, takeByte_of_inside b ears collected short]
  case gap =>
    rw [exec_gapTimerExpiry n runs]
    simp only [takeGapTick, due, if_true, collects]
    refine ⟨fun last => ?_, fun more => ?_⟩
    · rw [if_pos last]
      rfl
    · rw [if_neg (Nat.not_le.mpr more)]

/-! ### ACK frames (R95, R96) -/

theorem exec_ack (n : Link) (k : Byte) (p : List Byte) (s : State) : exec (.ack n k p) s = .next (ackFrame n k s) := rfl

theorem ackFrame_of_deaf {s : State} {n : Link} (k : Byte) (runs : s.runs) (deaf : s.deaf n = true) :
    ackFrame n k s = s := by
  rw [ackFrame, unlessReset_of_runs _ runs, if_pos deaf]

theorem ackFrame_of_ears {s : State} {n : Link} (k : Byte) (runs : s.runs) (ears : s.deaf n = false) :
    ackFrame n k s = if s.isUp n then takeAck n k (s.heard n) else s.heard n := by
  rw [ackFrame, unlessReset_of_runs _ runs, if_neg (by simp [ears])]
  rfl

theorem takeAck_of_flight {s : State} {n : Link} {k : Byte} {f : InFlight}
    (flight : flightOf (s.delivery n).inFlight k = some f) :
    takeAck n k s =
      (s.setDelivery n
        { s.delivery n with
          inFlight := (s.delivery n).inFlight.filter (·.number ≠ k)
          resend := (s.delivery n).resend.filter (· ≠ k) }).reportDeparture f.notice .acknowledged := by
  simp only [takeAck, flight]

theorem takeAck_of_stray {s : State} {n : Link} {k : Byte} (stray : flightOf (s.delivery n).inFlight k = none) :
    takeAck n k s =
      s.setDelivery n { s.delivery n with strayAcks := satAdd 65535 (s.delivery n).strayAcks 1 } := by
  simp only [takeAck, stray]

/-- Settles O13: an ACK that is not taken, one on a SILENT link, and one on an UP link, matching or stray. -/
theorem acksAreTaken : Obligations.AcksAreTaken := by
  intro s n k p
  rw [exec_ack]
  refine ⟨fun held => ?_, fun runs deaf => ?_, fun runs silent open_ => ?_, fun runs up open_ => ?_⟩
  · rw [ackFrame, unlessReset_of_held _ s held]
  · rw [ackFrame_of_deaf k runs ((deaf_iff s n).mpr deaf)]
  · have down : s.isUp n = false := (isUp_eq_false_iff s n).mpr (by simp [silent])
    have heard : s.heard n = s.setReceiver n .hunting := by simp [State.heard, State.frameArrived, down]
    rw [ackFrame_of_ears k runs (deaf_eq_false (by simp [silent]) open_), down, heard]
    rfl
  · have isUp : s.isUp n = true := by simp [State.isUp, up]
    rw [ackFrame_of_ears k runs (deaf_eq_false (by simp [up]) open_), if_pos isUp]
    refine ⟨fun f flies number distinct => ?_, fun stray => ?_⟩
    · have flight : flightOf ((s.heard n).delivery n).inFlight k = some f := by
        rw [delivery_heard, ← number]
        exact flightOf_of_mem _ f flies distinct
      rw [takeAck_of_flight flight, delivery_heard]
    · have none : flightOf ((s.heard n).delivery n).inFlight k = none := by
        rw [delivery_heard]
        exact (flightOf_eq_none_iff _ k).mpr stray
      rw [takeAck_of_stray none, delivery_heard]
      rfl

/-! ### What every command but one takes first -/

/-- Every command but AUTHORITY_SESSION_END does the same once the ends that wait at the authority unit are taken. -/
theorem exec_settleAuthority (c : Instr) {s : State} (running : s.resetIsHeld = false)
    (other : ∀ n, c ≠ .authoritySessionEnd n) : exec c (settleAuthority s) = exec c s := by
  have event : ∀ f : State → State, Host.Outcome.next (unlessReset f (settleAuthority s)) =
      (.next (unlessReset f s) : Host.Outcome State Fault Refusal) := fun f => by
    rw [unlessReset_settleAuthority f s running]
  cases c
  case authoritySessionEnd n => exact absurd rfl (other n)
  case powerOnReset pins straps =>
    change Host.Outcome.next (endReset pins straps (reinitialise .power (settleAuthority s))) = _
    rw [settleAuthority_leaves]
    rfl
  case resetHeld =>
    change Host.Outcome.next { reinitialise .pin (settleAuthority s) with resetIsHeld := true } = _
    rw [settleAuthority_leaves]
    rfl
  case resetReleased pins straps =>
    change Host.Outcome.next (if (settleAuthority s).resetIsHeld = true then _ else
      settleAuthority (settleAuthority s)) = .next (if s.resetIsHeld = true then _ else settleAuthority s)
    rw [resetIsHeld_settleAuthority, running, settleAuthority_settleAuthority]
    rfl
  all_goals exact event _

/-! ### A frame byte by byte (R147 to R149, R152) -/

theorem takeAuthorityEnd_withPending (n : Link) (s : State) (q : List Instr) :
    takeAuthorityEnd n { s with pending := q } = { takeAuthorityEnd n s with pending := q } := by
  have passed : ∀ e, passOn e { s with pending := q } = { passOn e s with pending := q } := fun e => by
    unfold passOn
    simp only
    split <;> rfl
  unfold takeAuthorityEnd
  simp only [passed]
  split
  · split <;> rfl
  · split <;> rfl
  · rfl

/-- Settling the authority takes no command from the queue. -/
theorem settleAuthority_withPending (s : State) (q : List Instr) :
    settleAuthority { s with pending := q } = { settleAuthority s with pending := q } := by
  suffices all : ∀ (ns : List Link) (t : State),
      ns.foldl (fun t n => takeAuthorityEnd n t) { t with pending := q } =
        { ns.foldl (fun t n => takeAuthorityEnd n t) t with pending := q } from
    all s.transit.authorityEnds (s.setTransit { s.transit with authorityEnds := [] })
  intro ns
  induction ns with
  | nil => intro t; rfl
  | cons n ns ih => intro t; rw [List.foldl_cons, takeAuthorityEnd_withPending, ih, List.foldl_cons]

/-- A run takes the front command first. -/
theorem run_cons {s t : State} {c : Instr} {q : List Instr} (m : Nat) (h : exec c { s with pending := q } = .next t) :
    core.run (m + 1) { s with pending := c :: q } = core.run m t := by
  have taken : core.step { s with pending := c :: q } = .next t := h
  simp only [Host.Core.run, taken]

theorem exec_byte_queued (n : Link) (b : Byte) (q : List Instr) {s : State} (runs : s.runs) :
    exec (.receiverTakesByte n b) { s with pending := q } = .next (takeByte n b { s with pending := q }) :=
  exec_receiverTakesByte n b (s := { s with pending := q }) runs

/-- Bytes that each leave the part as it is leave it as it is together. -/
theorem run_ignored (n : Link) (bs : List Byte) {s : State}
    (ignored : ∀ b q, exec (.receiverTakesByte n b) { s with pending := q } = .next { s with pending := q }) :
    core.run bs.length { s with pending := bs.map fun b => Instr.receiverTakesByte n b } = .next { s with pending := [] } := by
  induction bs with
  | nil => rfl
  | cons b bs ih => exact (run_cons bs.length (ignored b _)).trans ih

/-- The bytes inside a frame are collected. -/
theorem run_inside (n : Link) (m : Nat) (rest : List Instr) {len : Byte} (bs got : List Byte) {s : State} (runs : s.runs)
    (ears : s.deaf n = false) (collected : (s.receiver n).collected = some (len :: got))
    (short : got.length + bs.length < len.toNat + 4) :
    ∃ r : Receiver, r.collected = some (len :: (got ++ bs))
      ∧ core.run (bs.length + m) { s with pending := (bs.map fun b => Instr.receiverTakesByte n b) ++ rest } =
          core.run m { s.setReceiver n r with pending := rest } := by
  induction bs generalizing got s with
  | nil =>
    refine ⟨s.receiver n, by simpa using collected, ?_⟩
    rw [setReceiver_self, List.length_nil, Nat.zero_add]
    rfl
  | cons b bs ih =>
    have next : exec (.receiverTakesByte n b)
        { s with pending := (bs.map fun b => Instr.receiverTakesByte n b) ++ rest } =
        .next { s.setReceiver n ⟨some (len :: got ++ [b]), 6, (s.receiver n).gapDue⟩ with
          pending := (bs.map fun b => Instr.receiverTakesByte n b) ++ rest } :=
      (exec_byte_queued n b _ runs).trans (congrArg Host.Outcome.next
        (takeByte_of_inside (s := { s with pending := _ }) b ears collected (by simp at short; omega)))
    obtain ⟨r, all, run⟩ := ih (got ++ [b]) (s := s.setReceiver n ⟨some (len :: got ++ [b]), 6, (s.receiver n).gapDue⟩)
      runs ears (by simp) (by simp at short ⊢; omega)
    refine ⟨r, by simpa using all, ?_⟩
    rw [setReceiver_setReceiver] at run
    rw [List.length_cons, Nat.add_right_comm]
    exact (run_cons (bs.length + m) next).trans run

theorem heard_setReceiver (s : State) (n : Link) (r : Receiver) : (s.setReceiver n r).heard n = s.heard n := by
  rw [heard_eq, heard_eq, setReceiver_setReceiver]
  rfl

theorem takeRequest_setReceiver (n : Link) (tag : Byte) (body : State → Answer × State) (r : Receiver) {s : State}
    (runs : s.runs) (ears : s.deaf n = false) :
    takeRequest n tag body (s.setReceiver n r) = takeRequest n tag body s := by
  have ears' : (s.setReceiver n r).deaf n = false := ears
  have hears : (s.setReceiver n r).frameArrived n = s.frameArrived n := heard_setReceiver s n r
  unfold takeRequest
  rw [unlessReset_of_runs _ runs, unlessReset_of_runs _ (s := s.setReceiver n r) runs, ears, ears', hears]
  rfl

/-- A frame is taken the same whatever the receiver holds that has collected it. -/
theorem dispatchFrame_setReceiver (n : Link) (k tag : Byte) (p : List Byte) (r : Receiver) {s : State} (runs : s.runs)
    (ears : s.deaf n = false) : dispatchFrame n k tag p (s.setReceiver n r) = dispatchFrame n k tag p s := by
  unfold dispatchFrame
  split
  · rw [ackFrame_of_ears tag runs ears, ackFrame_of_ears tag (s := s.setReceiver n r) runs ears, heard_setReceiver]
    rfl
  · split
    · exact takeRequest_setReceiver n tag _ r runs ears
    · exact takeRequest_setReceiver n tag _ r runs ears

/-- No frame reaches a link that takes nothing. -/
theorem dispatchFrame_of_deaf (n : Link) (k tag : Byte) (p : List Byte) {s : State} (runs : s.runs)
    (deaf : s.deaf n = true) : dispatchFrame n k tag p s = s := by
  unfold dispatchFrame
  split
  · exact ackFrame_of_deaf tag runs deaf
  · split <;> exact takeRequest_of_deaf n tag _ s runs deaf

/-- The bytes of a frame whose payload fits, on a link that listens. -/
theorem run_frameBytes (n : Link) (k tag : Byte) {p : List Byte} (fits : p.length ≤ 58) {s : State} (runs : s.runs)
    (ears : s.deaf n = false) (hunting : (s.receiver n).collected = none) :
    core.run (frameBytes k tag p).length
        { s with pending := (frameBytes k tag p).map fun b => Instr.receiverTakesByte n b }
      = .next (dispatchFrame n k tag p { s with pending := [] }) := by
  have len : (byteOf p.length).toNat = p.length := by rw [toNat_byteOf]; omega
  let lo : Byte := (crc (frameBody k tag p)).setWidth 8
  let hi : Byte := (crc (frameBody k tag p) >>> 8).setWidth 8
  let inner : List Byte := k :: tag :: p ++ [lo]
  let started := s.setReceiver n ⟨some [], 6, (s.receiver n).gapDue⟩
  let measured := started.setReceiver n ⟨some [byteOf p.length], 6, (started.receiver n).gapDue⟩
  have bytes : frameBytes k tag p = Config.startByte :: byteOf p.length :: (inner ++ [hi]) := by
    simp [frameBytes, frameBody, inner, lo, hi]
  have start : ∀ q, exec (.receiverTakesByte n Config.startByte) { s with pending := q } =
      .next { started with pending := q } := fun q =>
    (exec_byte_queued n _ q runs).trans (congrArg Host.Outcome.next
      (takeByte_of_hunting (s := { s with pending := q }) _ ears hunting))
  have begun : (started.receiver n).collected = some [] := by simp [started]
  have length : ∀ q, exec (.receiverTakesByte n (byteOf p.length)) { started with pending := q } =
      .next { measured with pending := q } := fun q =>
    (exec_byte_queued n _ q (s := started) runs).trans (congrArg Host.Outcome.next
      (takeByte_of_length (s := { started with pending := q }) ears begun (by rw [len]; exact fits)))
  obtain ⟨r, collected, run⟩ := run_inside n 1 [.receiverTakesByte n hi] inner [] (s := measured)
    (len := byteOf p.length) runs ears (by simp [measured]) (by rw [len]; simp [inner])
  have last : exec (.receiverTakesByte n hi) { measured.setReceiver n r with pending := [] } =
      .next (dispatchFrame n k tag p { s with pending := [] }) := by
    have body : (measured.setReceiver n r).receiver n = r := by simp
    rw [exec_byte_queued n hi [] (s := measured.setReceiver n r) runs,
      takeByte_of_last (s := { measured.setReceiver n r with pending := [] }) (k := k) (tag := tag) (lo := lo) (p := p)
        hi ears fits (by
          change ((measured.setReceiver n r).receiver n).collected = _
          rw [body, collected]
          simp [frameBody, inner]),
      completeFrame_frameBody_append _ n k tag lo hi fits, if_pos ((append_eq_half_iff hi lo _).mpr ⟨rfl, rfl⟩)]
    have same := dispatchFrame_setReceiver n k tag p r (s := { s with pending := [] }) ⟨runs.1, runs.2⟩ ears
    rw [← same]
    simp only [measured, started, setReceiver_setReceiver]
    rfl
  rw [bytes]
  simp only [List.map_cons, List.length_cons, List.map_append, List.map_nil, List.length_append, List.length_nil]
  exact (run_cons _ (start _)).trans ((run_cons _ (length _)).trans (run.trans (run_cons 0 last)))

/-- A frame a client may send fits, and its kind, if it is that of no request, is unknown. -/
theorem fits_and_known_of_wellFormed {c : Instr} {n : Link} {k tag : Byte} {p : List Byte}
    (frame : c.frame = some (n, k, tag, p)) (wellFormed : c.wellFormed = true) :
    p.length ≤ 58 ∧ (∀ n k tag p, c = .unknownRequest n k tag p → k ∉ requestKinds)
      ∧ ∀ n, c ≠ .authoritySessionEnd n := by
  cases c <;> simp only [Instr.frame, Option.some.injEq, Prod.mk.injEq, reduceCtorEq] at frame <;>
    obtain ⟨rfl, rfl, rfl, rfl⟩ := frame <;>
    simp only [Instr.wellFormed, payloadFits, Config.maxPayload, Bool.and_eq_true] at wellFormed
  case unknownRequest n k tag p =>
    refine ⟨of_decide_eq_true wellFormed.1, fun _ _ _ _ e => ?_, by simp⟩
    cases e
    simpa using wellFormed.2
  all_goals exact ⟨of_decide_eq_true wellFormed, by simp, by simp⟩

/-- Settles O7: with the authority settled, which the first byte does as the command does, a link that takes nothing ignores
both, and on one that listens the bytes collect to the command's frame. -/
theorem wireFrameIsItsCommand : Obligations.WireFrameIsItsCommand := by
  intro c n k tag p s frame wellFormed hunting
  obtain ⟨fits, known, other⟩ := fits_and_known_of_wellFormed frame wellFormed
  rcases Bool.eq_false_or_eq_true s.resetIsHeld with held | held
  · have ignored : ∀ b q, exec (.receiverTakesByte n b) { s with pending := q } = .next { s with pending := q } :=
      fun b q => congrArg Host.Outcome.next (unlessReset_of_held _ { s with pending := q } held)
    have same : exec c { s with pending := [] } = .next { s with pending := [] } := by
      have event := fun f => unlessReset_of_held f { s with pending := [] } held
      cases c <;> simp only [Instr.frame, reduceCtorEq] at frame
      all_goals exact congrArg Host.Outcome.next (event _)
    rw [same]
    exact run_ignored n _ ignored
  · let t := settleAuthority s
    have runs : t.runs := ⟨by rw [resetIsHeld_settleAuthority]; exact held, authorityEnds_settleAuthority s⟩
    have settled : ∀ c q, (∀ n, c ≠ .authoritySessionEnd n) →
        exec c { s with pending := q } = exec c { t with pending := q } := fun c q other => by
      rw [← exec_settleAuthority c (s := { s with pending := q }) held other, settleAuthority_withPending]
    have first : core.run (frameBytes k tag p).length
          { s with pending := (frameBytes k tag p).map fun b => Instr.receiverTakesByte n b } =
        core.run (frameBytes k tag p).length
          { t with pending := (frameBytes k tag p).map fun b => Instr.receiverTakesByte n b } := by
      obtain ⟨u, e⟩ := exec_next (.receiverTakesByte n Config.startByte)
        { t with pending := ((frameBytes k tag p).tail).map fun b => Instr.receiverTakesByte n b }
      exact (run_cons _ ((settled _ _ (by simp)).trans e)).trans (run_cons _ e).symm
    rw [first, settled c [] other]
    rcases Bool.eq_false_or_eq_true (t.deaf n) with ears | ears
    · have ignored : ∀ b q, exec (.receiverTakesByte n b) { t with pending := q } = .next { t with pending := q } :=
        fun b q => by
          rw [exec_byte_queued n b q (s := t) runs, takeByte_of_deaf b (s := { t with pending := q }) ears]
      rw [run_ignored n _ ignored, exec_frame frame known { t with pending := [] } runs.1 runs.2,
        dispatchFrame_of_deaf n k tag p (s := { t with pending := [] }) ⟨runs.1, runs.2⟩ ears]
      rfl
    · rw [run_frameBytes n k tag fits runs ears (by rw [receiver_settleAuthority]; exact hunting),
        exec_frame frame known { t with pending := [] } runs.1 runs.2]
      rfl

end Sys2Proof.Machine

/-!
PROOF. The requests that act on a defined watch: DEFINE, START, STOP, PAUSE, RESUME, FEED, COMPLETE and CLEAR (R10 to R12,
R25 to R32, R50 to R55).
-/

namespace Sys2Proof.Machine

/-! ### An accepted request goes on to its own block -/

section
variable {s : State} {n : Link} (tag : Byte) {i : WatchIx} (serves : s.serves n) (defined : (s.watch i).state ≠ .free)
  (may : s.mayAct n i)
include serves defined may

/-- An owner-type request that passes the checks of R6 goes on with the entry as it stood before the frame. -/
theorem ownerRequest_heard {len : Nat} {p : List Byte} (rest : WatchIx → Watch → Answer × State)
    (length : p.length = len) (names : byteAt p 0 = byteOf i) :
    ownerRequest len n p (s.heard n) rest = rest i (s.watch i) := by
  rw [ownerRequest_of_mayAct len n p i (s.heard n) rest length (isUp_heard_of_serves serves)
    (by rw [names, readWatchIx_byteOf]) (by rwa [watch_heard]) ((mayAct_heard s n n i).mpr may), watch_heard]

theorem startBody_heard :
    startBody n [byteOf i] (s.heard n) =
      if (s.watch i).state ≠ .stopped then refuse .badState (s.heard n)
      else accept [] ((s.heard n).setWatch i
        { s.watch i with state := .running, count := (s.watch i).reload, stage := 0, lastSeq := none }) :=
  ownerRequest_heard serves defined may _ rfl rfl

theorem stopBody_heard :
    stopBody n [byteOf i] (s.heard n) =
      if (s.watch i).frozen then refuse .frozen (s.heard n)
      else if (s.watch i).state = .stopped ∨ (s.watch i).state = .latched then refuse .badState (s.heard n)
      else accept [] ((s.heard n).setWatch i (s.watch i).halt) :=
  ownerRequest_heard serves defined may _ rfl rfl

theorem pauseBody_heard :
    pauseBody n [byteOf i] (s.heard n) =
      if (s.watch i).frozen then refuse .frozen (s.heard n)
      else if (s.watch i).state ≠ .running then refuse .badState (s.heard n)
      else accept [] ((s.heard n).setWatch i { s.watch i with state := .paused }) :=
  ownerRequest_heard serves defined may _ rfl rfl

theorem resumeBody_heard :
    resumeBody n [byteOf i] (s.heard n) =
      if (s.watch i).state ≠ .paused then refuse .badState (s.heard n)
      else accept [] ((s.heard n).setWatch i { s.watch i with state := .running }) :=
  ownerRequest_heard serves defined may _ rfl rfl

theorem feedBody_heard (value : Byte) :
    feedBody n [byteOf i, value] (s.heard n) =
      if !(s.watch i).takesFeed then refuse .badState (s.heard n)
      else
        accept [flagByte (feedRequest i (s.watch i) value).1, (feedRequest i (s.watch i) value).2.watch.state.code,
            byteOf (feedRequest i (s.watch i) value).2.watch.stage]
          (applyStep i (feedRequest i (s.watch i) value).2 (s.heard n)) :=
  ownerRequest_heard serves defined may _ rfl rfl

theorem completeBody_heard :
    completeBody n [byteOf i] (s.heard n) =
      if (s.watch i).kind ≠ .deadline then refuse .badState (s.heard n)
      else if (s.watch i).state = .running ∨ (s.watch i).state = .overdue then
        accept [] (applyStep i (completeStep i (s.watch i)) (s.heard n))
      else refuse .badState (s.heard n) :=
  ownerRequest_heard serves defined may _ rfl rfl

end

/-! ### START, STOP, PAUSE and RESUME -/

/-- Settles O17: each request by its own checks, in their order. -/
theorem startStopPauseResume : Obligations.StartStopPauseResume := by
  intro s n tag i serves defined may w refused becomes
  have start := startBody_heard serves defined may
  have stop := stopBody_heard serves defined may
  have pause := pauseBody_heard serves defined may
  have resume := resumeBody_heard serves defined may
  refine ⟨fun stopped => ?_, fun notStopped => ?_, fun frozen => ?_, fun notFrozen still => ?_,
    fun notFrozen notStopped notLatched => ?_, fun frozen => ?_, fun notFrozen notRunning => ?_,
    fun notFrozen running => ?_, fun paused => ?_, fun notPaused => ?_⟩
  · exact exec_of_accept _ n tag _ s _ _ rfl serves.1 (by rw [start, if_neg (not_not_intro stopped)])
  · exact exec_of_refuse _ n tag _ s _ rfl serves.1 (by rw [start, if_pos notStopped])
  · exact exec_of_refuse _ n tag _ s _ rfl serves.1 (by rw [stop, if_pos frozen])
  · exact exec_of_refuse _ n tag _ s _ rfl serves.1 (by rw [stop, if_neg (Bool.eq_false_iff.mp notFrozen), if_pos still])
  · exact exec_of_accept _ n tag _ s _ _ rfl serves.1
      (by rw [stop, if_neg (Bool.eq_false_iff.mp notFrozen), if_neg (not_or.mpr ⟨notStopped, notLatched⟩), Watch.halt])
  · exact exec_of_refuse _ n tag _ s _ rfl serves.1 (by rw [pause, if_pos frozen])
  · exact exec_of_refuse _ n tag _ s _ rfl serves.1
      (by rw [pause, if_neg (Bool.eq_false_iff.mp notFrozen), if_pos notRunning])
  · exact exec_of_accept _ n tag _ s _ _ rfl serves.1
      (by rw [pause, if_neg (Bool.eq_false_iff.mp notFrozen), if_neg (not_not_intro running)])
  · exact exec_of_accept _ n tag _ s _ _ rfl serves.1 (by rw [resume, if_neg (not_not_intro paused)])
  · exact exec_of_refuse _ n tag _ s _ rfl serves.1 (by rw [resume, if_pos notPaused])

/-! ### FEED -/

theorem applyStep_quiet (i : WatchIx) (w : Watch) (s : State) : applyStep i (.quiet w) s = s.setWatch i w := by
  rw [applyStep, WatchStep.quiet, sendOutput_nil, post_nil]

/-- An event that hands on notices only. -/
theorem applyStep_notices (i : WatchIx) (w : Watch) (cs : List Creation) (s : State) :
    applyStep i ⟨w, [], cs⟩ s = (s.setWatch i w).post cs := by
  rw [applyStep, sendOutput_nil]

/-- A FEED is refused by kind and state alone (Table 2-4). -/
theorem takesFeed_eq_false {w : Watch}
    (h : w.kind = .deadline ∨ w.state = .stopped ∨ w.state = .paused ∨ w.state = .latched) : w.takesFeed = false := by
  rcases h with h | h | h | h <;> rw [Watch.takesFeed, h] <;> cases w.kind <;> rfl

/-- The watch a FEED in sequence is taken at: the value examined is the last sequence (R31). -/
theorem feedRequest_of_inOrder {i : WatchIx} {w : Watch} {value : Byte}
    (inOrder : w.kind = .heartbeat → w.seqcheck = true → ∀ last ∈ w.lastSeq, value = last + 1) :
    feedRequest i w value = (false, feedStep i
      { w with lastSeq := if w.kind = .heartbeat ∧ w.seqcheck = true then some value else w.lastSeq }) := by
  unfold feedRequest
  by_cases examined : w.kind = .heartbeat ∧ w.seqcheck = true
  · have noFault : w.sequenceFault value = none := by
      unfold Watch.sequenceFault
      cases last : w.lastSeq with
      | none => rfl
      | some k => exact if_pos (inOrder examined.1 examined.2 k last)
    rw [if_pos (by simpa [Watch.examines] using examined), noFault, if_pos examined]
  · rw [if_neg (by simpa [Watch.examines] using examined), if_neg examined]

/-- Settles O18: a FEED refused, reloading, recovering and waking. -/
theorem feedInSequence : Obligations.FeedInSequence := by
  intro s n tag value i serves defined may w fed inOrder
  have feed := feedBody_heard serves defined may value
  refine ⟨fun refusing => ?_, fun order notDeadline running => ?_, fun order heartbeat overdue => ?_,
    fun activity quiet => ?_⟩
  · exact exec_of_refuse _ n tag _ s _ rfl serves.1 (by rw [feed, takesFeed_eq_false refusing]; rfl)
  · have takes : w.takesFeed = true := by
      rw [Watch.takesFeed, running]
      cases kind : w.kind with
      | heartbeat => rfl
      | activity => rfl
      | deadline => exact absurd kind notDeadline
    have step : feedRequest i w value = (false, .quiet fed) := by
      rw [feedRequest_of_inOrder order, feedStep]
      simp only [running]
      cases kind : w.kind with
      | heartbeat => simp [fed, Watch.refresh, kind]
      | activity => simp [fed, Watch.refresh, kind]
      | deadline => exact absurd kind notDeadline
    refine exec_of_accept _ n tag _ s _ _ rfl serves.1 ?_
    rw [feed, takes, step, applyStep_quiet]
    rfl
  · have takes : w.takesFeed = true := by rw [Watch.takesFeed, heartbeat, overdue]
    have step : feedRequest i w value =
        (false, ⟨fed, [], [watchNotice i w .recovered (w.stageRec 1).level none []]⟩) := by
      rw [feedRequest_of_inOrder order, feedStep]
      simp only [heartbeat, overdue]
      simp [fed, Watch.refresh, heartbeat, watchNotice, Watch.stageRec]
    refine exec_of_accept _ n tag _ s _ _ rfl serves.1 ?_
    rw [feed, takes, step, applyStep_notices]
    rfl
  · have takes : w.takesFeed = true := by rw [Watch.takesFeed, activity, quiet]
    have step : feedRequest i w value = (false, ⟨fed, [], [watchNotice i w .active w.activityLevel none []]⟩) := by
      rw [feedRequest_of_inOrder (fun heartbeat => by rw [activity] at heartbeat; cases heartbeat), feedStep]
      simp only [activity, quiet]
      simp [fed, Watch.refresh, activity, watchNotice]
    refine exec_of_accept _ n tag _ s _ _ rfl serves.1 ?_
    rw [feed, takes, step, applyStep_notices]
    rfl

/-! ### A sequence fault -/

/-- A FEED out of sequence: in RUNNING a lapse, in OVERDUE a fault of its own (R31, R51, R52). -/
theorem feedRequest_of_fault {i : WatchIx} {w : Watch} {value last : Byte} (heartbeat : w.kind = .heartbeat)
    (checked : w.seqcheck = true) (known : w.lastSeq = some last) (fault : value ≠ last + 1) :
    feedRequest i w value =
      if w.state = .running then (true, lapse i { w with lastSeq := some value } (some (last + 1, value)))
      else (true, faultInOverdue i { w with lastSeq := some value } (last + 1) value) := by
  have found : w.sequenceFault value = some (last + 1) := by rw [Watch.sequenceFault, known]; exact if_neg fault
  unfold feedRequest
  rw [if_pos (by simp [Watch.examines, heartbeat, checked]), found]

/-- A lapse short of the strike limit enters stage 1. -/
theorem lapse_of_below (i : WatchIx) {w : Watch} (fault : Option (Byte × Byte))
    (below : w.strikeLimit = 0 ∨ w.strike.strikes < w.strikeLimit) : lapse i w fault = enterStage i w.strike 1 fault := by
  have : ¬ (w.strike.strikeLimit ≠ 0 ∧ w.strike.strikeLimit ≤ w.strike.strikes) := by
    rintro ⟨some, reached⟩
    rcases below with none | short
    · exact some none
    · exact absurd reached (Nat.not_le.mpr short)
  rw [lapse, if_neg this]

/-- A lapse at the strike limit goes to the last stage. -/
theorem lapse_of_reached (i : WatchIx) {w : Watch} (fault : Option (Byte × Byte)) (limited : w.strikeLimit ≠ 0)
    (reached : w.strikeLimit ≤ w.strike.strikes) : lapse i w fault = strikeOut i w.strike := by
  rw [lapse]
  exact if_pos ⟨limited, reached⟩

/-- Settles O19: a fault in RUNNING below and at the strike limit, and in OVERDUE before and at the ladder's end. -/
theorem sequenceFaultsAdvance : Obligations.SequenceFaultsAdvance := by
  intro s n tag value last i serves may heartbeat checked known fault w struck outcome
  have feed : ∀ {state}, (s.watch i).state = state → state = .running ∨ state = .overdue →
      ∀ r, feedRequest i (s.watch i) value = (true, r) → outcome r := by
    intro state stands counts r request
    have defined : (s.watch i).state ≠ .free := by rcases counts with rfl | rfl <;> simp [stands]
    have takes : (s.watch i).takesFeed = true := by
      rw [Watch.takesFeed, heartbeat, stands]; rcases counts with rfl | rfl <;> rfl
    refine exec_of_accept _ n tag _ s _ _ rfl serves.1 ?_
    rw [feedBody_heard serves defined may value, takes, request]
    rfl
  have request := feedRequest_of_fault (i := i) heartbeat checked known fault
  refine ⟨fun running below => ?_, fun running limited reached => ?_, fun overdue before => ?_, fun overdue atEnd => ?_⟩
  · refine feed running (.inl rfl) _ ?_
    rw [request, if_pos running, lapse_of_below i _ below]
    rfl
  · refine feed running (.inl rfl) _ ?_
    rw [request, if_pos running, lapse_of_reached i _ limited reached]
    rfl
  · refine feed overdue (.inr rfl) _ ?_
    rw [request, if_neg (by rw [overdue]; decide), faultInOverdue]
    exact congrArg _ (if_pos before)
  · refine feed overdue (.inr rfl) _ ?_
    rw [request, if_neg (by rw [overdue]; decide), faultInOverdue]
    exact congrArg _ (if_neg (Nat.not_lt.mpr atEnd))

/-! ### COMPLETE and CLEAR -/

/-- Settles O20: COMPLETE by kind and state, CLEAR by state. -/
theorem completeAndClear : Obligations.CompleteAndClear := by
  refine ⟨fun s n tag i serves defined may => ?complete, fun s n tag i serves defined holder => ?clear⟩
  case complete =>
    have complete := completeBody_heard serves defined may
    refine ⟨fun deadline running => ?_, fun deadline overdue => ?_, fun refusing => ?_⟩
    · refine exec_of_accept _ n tag _ s _ _ rfl serves.1 ?_
      rw [complete, if_neg (not_not_intro deadline), if_pos (.inl running), completeStep, running]
      exact congrArg (accept []) (applyStep_quiet i _ _)
    · refine exec_of_accept _ n tag _ s _ _ rfl serves.1 ?_
      rw [complete, if_neg (not_not_intro deadline), if_pos (.inr overdue), completeStep, overdue]
      exact congrArg (accept []) (applyStep_notices i _ _ _)
    · refine exec_of_refuse _ n tag _ s _ rfl serves.1 ?_
      rw [complete]
      rcases refusing with kind | ⟨notRunning, notOverdue⟩
      · rw [if_pos kind]
      · rw [if_neg (not_or.mpr ⟨notRunning, notOverdue⟩), ite_self]
  case clear =>
    have clear : clearBody n [byteOf i] (s.heard n) =
        if (s.watch i).state = .overdue ∨ (s.watch i).state = .latched then
          accept [] (((s.heard n).setWatch i { (s.watch i).halt with strikes := 0 }).sendOutput [.removeAll i])
        else refuse .badState (s.heard n) := by
      rw [clearBody_of_up n _ _ (isUp_heard_of_serves serves),
        withWatch_of_defined _ i _ _ (readWatchIx_byteOf i) (by rwa [watch_heard]), isHolder_heard,
        (isHolder_iff s n).mpr holder, watch_heard]
      rfl
    refine ⟨fun lapsed => ?_, fun notOverdue notLatched => ?_⟩
    · exact exec_of_accept _ n tag _ s _ _ rfl serves.1 (by rw [clear, if_pos lapsed]; rfl)
    · exact exec_of_refuse _ n tag _ s _ rfl serves.1 (by rw [clear, if_neg (not_or.mpr ⟨notOverdue, notLatched⟩)])

/-! ### DEFINE -/

/-- Index 255 chooses the lowest FREE entry, a lower index the entry it names (R10). -/
theorem chooseEntry_of_lowest {i : WatchIx} {s : State} (free : (s.watch i).state = .free)
    (lowest : ∀ j < i, (s.watch j).state ≠ .free) : chooseEntry 255 s = some i := by
  rw [chooseEntry, if_pos rfl, List.find?_eq_some_iff_append]
  obtain ⟨before, after, split⟩ := List.append_of_mem (List.mem_finRange i)
  refine ⟨by simpa using free, before, after, split, fun j mem => ?_⟩
  have sorted : (List.finRange 32).Pairwise (· < ·) := List.pairwise_lt_finRange 32
  rw [split, List.pairwise_append] at sorted
  simpa using lowest j (sorted.2.2 j mem i (List.mem_cons_self ..))

theorem chooseEntry_of_none {s : State} (none : ∀ i, (s.watch i).state ≠ .free) : chooseEntry 255 s = .none := by
  rw [chooseEntry, if_pos rfl, List.find?_eq_none]
  intro i _
  simpa using none i

theorem chooseEntry_of_index {b : Byte} {i : WatchIx} (s : State) (index : b.toNat = i.val) : chooseEntry b s = some i := by
  have notAny : b ≠ 255 := by
    rintro rfl
    have := i.isLt
    simp at index
    omega
  rw [chooseEntry, if_neg notAny, readWatchIx_of_toNat b i index]

theorem chooseEntry_heard (b : Byte) (s : State) (n : Link) : chooseEntry b (s.heard n) = chooseEntry b s := by
  simp only [chooseEntry, watch_heard]

theorem ownerOrHolder_heard (n : Link) (i : WatchIx) (s : State) :
    ownerOrHolder n (s.watch i) (s.heard n) = decide (s.mayAct n i) :=
  calc ownerOrHolder n (s.watch i) (s.heard n)
      = ownerOrHolder n ((s.heard n).watch i) (s.heard n) := by rw [watch_heard]
    _ = decide ((s.heard n).mayAct n i) := ownerOrHolder_eq n i (s.heard n)
    _ = decide (s.mayAct n i) := decide_eq_decide.mpr (mayAct_heard s n n i)

section
variable {s : State} {n : Link} {p : List Byte} {d : DefineItems} (serves : s.serves n) (shape : defineShape p = true)
  (read : readDefine n p = some d)
include serves shape read

/-- A DEFINE that asks for any entry where none is FREE (R10). -/
theorem defineBody_heard_of_full (choose : chooseEntry d.index s = none) :
    defineBody n p (s.heard n) = refuse .noEntry (s.heard n) := by
  rw [defineBody, shape, checkShapeAndOpen_of_up n _ _ (isUp_heard_of_serves serves), read]
  simp only [chooseEntry_heard, choose]

/-- A DEFINE of the entry it chose, in the order of its checks (R6, R11, R12). -/
theorem defineBody_heard_of_chosen {i : WatchIx} (choose : chooseEntry d.index s = some i) :
    defineBody n p (s.heard n) =
      if (s.watch i).state = .free then defineEntry n d i (s.heard n)
      else if !decide (s.mayAct n i) then refuse .notAuthority (s.heard n)
      else if (s.watch i).frozen then refuse .frozen (s.heard n)
      else if (s.watch i).state ≠ .stopped then refuse .badState (s.heard n)
      else defineEntry n d i (s.heard n) := by
  rw [defineBody, shape, checkShapeAndOpen_of_up n _ _ (isUp_heard_of_serves serves), read, ← ownerOrHolder_heard]
  simp only [chooseEntry_heard, choose, watch_heard]

end

/-- Settles O15: the entry chosen, and then its state, the right, the frozen flag and STOPPED. -/
theorem defineWritesTheEntry : Obligations.DefineWritesTheEntry := by
  intro s n tag p d serves shape read
  refine ⟨fun any full => ?_, fun i => ?_⟩
  · exact exec_of_refuse _ n tag _ s _ rfl serves.1
      (defineBody_heard_of_full serves shape read (by rw [any, chooseEntry_of_none full]))
  intro written accepted
  have wrote : defineEntry n d i (s.heard n) =
      accept [byteOf i, (s.watch i).generation + 1] ((s.heard n).setWatch i written) := by
    rw [defineEntry, watch_heard]
    rfl
  have chosen : chooseEntry d.index s = some i → _ := defineBody_heard_of_chosen serves shape read
  refine ⟨fun free named => ?_, fun index taken => ?_⟩
  · have choose : chooseEntry d.index s = some i := by
      rcases named with index | ⟨any, lowest⟩
      · exact chooseEntry_of_index s index
      · rw [any, chooseEntry_of_lowest free lowest]
    exact exec_of_accept _ n tag _ s _ _ rfl serves.1 (by rw [chosen choose, if_pos free, wrote])
  · have body := chosen (chooseEntry_of_index s index)
    rw [if_neg taken] at body
    refine ⟨fun mayNot => ?_, fun may frozen => ?_, fun may notFrozen notStopped => ?_, fun may notFrozen stopped => ?_⟩
    · exact exec_of_refuse _ n tag _ s _ rfl serves.1 (by rw [body, decide_eq_false mayNot]; rfl)
    · exact exec_of_refuse _ n tag _ s _ rfl serves.1 (by rw [body, decide_eq_true may, if_pos frozen]; rfl)
    · exact exec_of_refuse _ n tag _ s _ rfl serves.1
        (by rw [body, decide_eq_true may, if_neg (Bool.eq_false_iff.mp notFrozen), if_pos notStopped]; rfl)
    · exact exec_of_accept _ n tag _ s _ _ rfl serves.1
        (by rw [body, decide_eq_true may, if_neg (Bool.eq_false_iff.mp notFrozen), if_neg (not_not_intro stopped), wrote]
            rfl)

end Sys2Proof.Machine

/-!
PROOF. The watch table at work: stage entry, the tick due at a watch, and triggers (R22, R23, R33 to R37, R43 to R50).
-/

namespace Sys2Proof.Machine

/-! ### The highest level of a ladder (R58) -/

/-- A running maximum of levels is at least its start and every level, and is one of them. -/
theorem foldl_max_level (rs : List StageRec) (a : Level) :
    a ≤ rs.foldl (fun m r => max m r.level) a
    ∧ (∀ r ∈ rs, r.level ≤ rs.foldl (fun m r => max m r.level) a)
    ∧ (rs.foldl (fun m r => max m r.level) a = a ∨ ∃ r ∈ rs, r.level = rs.foldl (fun m r => max m r.level) a) := by
  induction rs generalizing a with
  | nil => simp
  | cons r rs ih =>
    obtain ⟨start, all, one⟩ := ih (max a r.level)
    rw [List.foldl_cons]
    refine ⟨(le_max_left a r.level).trans start, fun x mem => ?_, ?_⟩
    · rcases List.mem_cons.mp mem with rfl | mem
      · exact (le_max_right a x.level).trans start
      · exact all x mem
    · rcases one with e | ⟨x, mem, e⟩
      · rw [e]
        rcases max_choice a r.level with e' | e'
        · exact .inl e'
        · exact .inr ⟨r, List.mem_cons_self .., e'.symm⟩
      · exact .inr ⟨x, List.mem_cons_of_mem r mem, e⟩

theorem level_le_topLevel {w : Watch} {r : StageRec} (mem : r ∈ w.ladder) : r.level ≤ w.topLevel :=
  (foldl_max_level w.ladder 0).2.1 r mem

theorem exists_topLevel {w : Watch} (some : w.ladder ≠ []) : ∃ r ∈ w.ladder, r.level = w.topLevel := by
  rcases (foldl_max_level w.ladder 0).2.2 with least | found
  · obtain ⟨r, mem⟩ := List.exists_mem_of_ne_nil w.ladder some
    have atMost : r.level ≤ w.topLevel := level_le_topLevel mem
    have zero : w.topLevel = 0 := least
    exact ⟨r, mem, by rw [zero] at atMost ⊢; exact Fin.le_zero_iff.mp atMost⟩
  · exact found

/-! ### Stage entry -/

theorem stageRec_of_ladder {w : Watch} {k : Nat} {r : StageRec} (h : w.ladder[k - 1]? = some r) : w.stageRec k = r := by
  simp [Watch.stageRec, List.getD_eq_getElem?_getD, h]

/-- A stage whose action does not latch leaves the watch OVERDUE with its grace (R43). -/
theorem enterStage_of_passing (i : WatchIx) (w : Watch) (k : Nat) (fault : Option (Byte × Byte))
    (passing : (w.stageRec k).action.latching = false) :
    enterStage i w k fault =
      ⟨{ w with state := .overdue, stage := k, count := (w.stageRec k).grace }, stageClaim i w.generation (w.stageRec k),
        [stageNotice i w k fault]⟩ := by
  rw [enterStage, passing]
  rfl

/-- A stage whose action latches (R48). -/
theorem enterStage_of_latching (i : WatchIx) (w : Watch) (k : Nat) (fault : Option (Byte × Byte))
    (latching : (w.stageRec k).action.latching = true) :
    enterStage i w k fault =
      ⟨w.latchOn k, stageClaim i w.generation (w.stageRec k),
        [stageNotice i w k fault, latchedNotice i w k .latchingAction]⟩ := by
  rw [enterStage, latching]
  rfl

/-- Settles O33: by the action of the stage, whether it latches and what it claims. -/
theorem stageEntryIsExplicit : Obligations.StageEntryIsExplicit := by
  intro i w notice
  refine ⟨fun k fault => ?stage, fun k last => ?strikeOut, fun g r => ?claim, fun k r _ => stageRec_of_ladder,
    fun r => level_le_topLevel, exists_topLevel⟩
  case stage =>
    intro r told
    refine ⟨fun passing => ?_, fun latching => ?_⟩
    · refine (enterStage_of_passing i w k fault (by rcases passing with e | e <;> exact congrArg Action.latching e)).trans ?_
      cases fault <;> rfl
    · refine (enterStage_of_latching i w k fault (by rcases latching with e | e <;> exact congrArg Action.latching e)).trans ?_
      cases fault <;> rfl
  case strikeOut =>
    subst last
    rfl
  case claim =>
    refine ⟨fun action => ?_, fun action => ?_, fun action => ?_, fun action => ?_⟩ <;> rw [stageClaim, action]

/-! ### The tick due at a watch -/

theorem exec_watchExpiry_of_running {i : WatchIx} {s : State} (runs : s.runs) (running : (s.watch i).state = .running) :
    exec (.watchExpiry i) s = .next (takeWatchTick i s) := by
  change Host.Outcome.next (unlessReset _ s) = _
  rw [unlessReset_of_runs _ runs, if_pos running]

theorem exec_graceRunsOut_of_overdue {i : WatchIx} {s : State} (runs : s.runs) (overdue : (s.watch i).state = .overdue) :
    exec (.graceRunsOut i) s = .next (takeWatchTick i s) := by
  change Host.Outcome.next (unlessReset _ s) = _
  rw [unlessReset_of_runs _ runs, if_pos overdue]

theorem takeWatchTick_of_notDue {i : WatchIx} {s : State} (notDue : s.watchTickDue i = none) : takeWatchTick i s = s := by
  rw [takeWatchTick, notDue]

/-- A due tick of the entry's base is taken at the entry (R22). -/
theorem takeWatchTick_of_due {i : WatchIx} {s : State} (due : s.watchTickDue i = some (s.watch i).base) :
    takeWatchTick i s = applyStep i (countDown i (s.watch i)) (s.setWatchTickDue i none) := by
  rw [takeWatchTick, due]
  exact if_pos rfl

/-- A due tick of another base passes the entry by. -/
theorem takeWatchTick_of_otherBase {i : WatchIx} {s : State} {b : Base} (due : s.watchTickDue i = some b)
    (other : b ≠ (s.watch i).base) : takeWatchTick i s = s.setWatchTickDue i none := by
  rw [takeWatchTick, due]
  exact if_neg other.symm

/-- Short of its last tick a watch only counts. -/
theorem countDown_of_counting (i : WatchIx) {w : Watch} (counts : w.state = .running ∨ w.state = .overdue)
    (more : 1 < w.count) : countDown i w = .quiet { w with count := w.count - 1 } := by
  rcases counts with e | e <;> simp only [countDown, e, if_neg (Nat.not_le.mpr more)]

theorem countDown_of_expiring (i : WatchIx) {w : Watch} (running : w.state = .running) (last : w.count ≤ 1) :
    countDown i w = expire i { w with count := 0 } := by
  simp only [countDown, running, if_pos last]

theorem countDown_of_graceOver (i : WatchIx) {w : Watch} (overdue : w.state = .overdue) (last : w.count ≤ 1) :
    countDown i w = endGrace i { w with count := 0 } := by
  simp only [countDown, overdue, if_pos last]

/-- An ACTIVITY watch falls QUIET when it expires (R33). -/
theorem expire_of_activity (i : WatchIx) {w : Watch} (kind : w.kind = .activity) :
    expire i w = ⟨{ w.strike with state := .quiet, count := 0, stage := 0 }, [],
      [watchNotice i w .quiet w.activityLevel none []]⟩ := by
  rw [expire, kind]
  rfl

/-- A watch that is no ACTIVITY watch lapses when it expires (R23). -/
theorem expire_of_notActivity (i : WatchIx) {w : Watch} (kind : w.kind ≠ .activity) : expire i w = lapse i w none := by
  rw [expire]
  cases e : w.kind with
  | heartbeat => rfl
  | deadline => rfl
  | activity => exact absurd e kind

/-- Settles O32: by state, by what is left of the count, and by what an expiry then does. -/
theorem watchesRunOut : Obligations.WatchesRunOut := by
  intro s i runs w t struck outcome
  have expiry : w.state = .running → exec (.watchExpiry i) s = .next (takeWatchTick i s) :=
    exec_watchExpiry_of_running runs
  have grace : w.state = .overdue → exec (.graceRunsOut i) s = .next (takeWatchTick i s) :=
    exec_graceRunsOut_of_overdue runs
  refine ⟨fun due => ⟨fun running => ?expiring, fun overdue => ?grace⟩, fun b due other => ⟨fun running => ?_,
    fun overdue => ?_⟩, fun idle => ?_, fun idle => ?_⟩
  case expiring =>
    have taken : ∀ r, countDown i w = r → outcome (.watchExpiry i) r := fun r e => by
      rw [← e]
      exact (expiry running).trans (by rw [takeWatchTick_of_due due, applyStep])
    have expires : ∀ r, w.count ≤ 1 → expire i { w with count := 0 } = r → outcome (.watchExpiry i) r :=
      fun r last e => taken r ((countDown_of_expiring i running last).trans e)
    refine ⟨fun more => ?_, fun last activity => ?_, fun last kind below => ?_, fun last kind limited reached => ?_⟩
    · exact (taken _ (countDown_of_counting i (.inl running) more)).trans (congrArg _ (applyStep_quiet i _ t))
    · exact expires _ last (expire_of_activity i activity)
    · exact expires _ last ((expire_of_notActivity i kind).trans (lapse_of_below i none below))
    · exact expires _ last ((expire_of_notActivity i kind).trans (lapse_of_reached i none limited reached))
  case grace =>
    have taken : ∀ r, countDown i w = r → outcome (.graceRunsOut i) r := fun r e => by
      rw [← e]
      exact (grace overdue).trans (by rw [takeWatchTick_of_due due, applyStep])
    have ends : ∀ r, w.count ≤ 1 → endGrace i { w with count := 0 } = r → outcome (.graceRunsOut i) r :=
      fun r last e => taken r ((countDown_of_graceOver i overdue last).trans e)
    refine ⟨fun more => ?_, fun last before => ?_, fun last atEnd => ?_⟩
    · exact (taken _ (countDown_of_counting i (.inr overdue) more)).trans (congrArg _ (applyStep_quiet i _ t))
    · exact ends _ last (if_pos before)
    · exact ends _ last (if_neg (Nat.not_lt.mpr atEnd))
  · rw [expiry running, takeWatchTick_of_otherBase due other]
  · rw [grace overdue, takeWatchTick_of_otherBase due other]
  · by_cases running : w.state = .running
    · rw [expiry running, takeWatchTick_of_notDue (idle.resolve_right (not_not_intro running))]
    · exact exec_watchExpiry_of_notRunning i s runs running
  · by_cases overdue : w.state = .overdue
    · rw [grace overdue, takeWatchTick_of_notDue (idle.resolve_right (not_not_intro overdue))]
    · exact exec_graceRunsOut_of_notOverdue i s runs overdue

/-! ### Triggers -/

/-- What a trigger leaves of a listed watch, by its kind and state (R36, R37). -/
theorem watch_triggerStep (i : WatchIx) (w : Watch) :
    (triggerStep i w).watch =
      if w.kind = .deadline ∧ (w.state = .running ∨ w.state = .overdue) then w.halt
      else if (w.kind ≠ .deadline ∧ w.state = .running) ∨ (w.kind = .heartbeat ∧ w.state = .overdue)
        ∨ (w.kind = .activity ∧ w.state = .quiet) then w.refresh
      else w := by
  rw [triggerStep]
  cases kind : w.kind with
  | deadline => cases state : w.state <;> simp [completeStep, state, WatchStep.quiet]
  | heartbeat => cases state : w.state <;> simp [feedStep, kind, state, WatchStep.quiet]
  | activity => cases state : w.state <;> simp [feedStep, kind, state, WatchStep.quiet]

/-- What a trigger tells of a listed watch: a late completion, a recovery, a wakening (R36, R37, R53, R54). -/
theorem notices_triggerStep (i : WatchIx) (w : Watch) :
    (triggerStep i w).notices =
      if w.kind = .deadline ∧ w.state = .overdue then [watchNotice i w .late (w.stageRec 1).level none []]
      else if w.kind = .heartbeat ∧ w.state = .overdue then [watchNotice i w .recovered (w.stageRec 1).level none []]
      else if w.kind = .activity ∧ w.state = .quiet then [watchNotice i w .active w.activityLevel none []]
      else [] := by
  rw [triggerStep]
  cases kind : w.kind with
  | deadline => cases state : w.state <;> simp [completeStep, state, WatchStep.quiet]
  | heartbeat => cases state : w.state <;> simp [feedStep, kind, state, WatchStep.quiet]
  | activity => cases state : w.state <;> simp [feedStep, kind, state, WatchStep.quiet]

/-- What a trigger may change at most: the watch entries and the notices on their way. -/
abbrev OnlyEntries (s t : State) : Prop :=
  t = { s with watches := t.watches, transit := { s.transit with creations := t.transit.creations } }

theorem OnlyEntries.trans {s t u : State} (h : OnlyEntries s t) (h' : OnlyEntries t u) : OnlyEntries s u := by
  unfold OnlyEntries at *
  rw [h'] at *
  rw [h]

theorem onlyEntries_applyStep {i : WatchIx} {r : WatchStep} (s : State) (noWords : r.words = []) :
    OnlyEntries s (applyStep i r s) := by
  rw [applyStep, noWords, sendOutput_nil]
  rfl

theorem onlyEntries_triggerWatches (l : LineIx) (s : State) : OnlyEntries s (triggerWatches l s) := by
  unfold triggerWatches
  generalize List.finRange 32 = entries
  induction entries generalizing s with
  | nil => rfl
  | cons i entries ih =>
    rw [List.foldl_cons]
    refine OnlyEntries.trans ?_ (ih _)
    by_cases listed : inLines (s.watch i).lineSet l = true
    · rw [if_pos listed]
      exact onlyEntries_applyStep s (words_triggerStep i (s.watch i))
    · rw [if_neg listed]

/-- Settles O35: what each listed entry becomes, and the notices in the order of the entries. -/
theorem triggersReachTheWatches : Obligations.TriggersReachTheWatches := by
  intro s l t ended fed notice told
  obtain ⟨entries, creations⟩ := triggerWatches_spec l s
  refine ⟨fun i => ?_, ?_⟩
  · intro w
    have entry : t.watch i = _ := (entries i).trans (by rw [watch_triggerStep])
    rw [entry]
    by_cases listed : w.lineSet.getLsbD l = true
    · simp only [inLines, w, listed, if_true, true_and]
      rfl
    · rw [if_neg (show ¬ inLines (s.watch i).lineSet l = true from listed), if_neg (fun h => listed h.1),
        if_neg (fun h => listed h.1)]
  · have same : (fun i => if inLines (s.watch i).lineSet l then (triggerStep i (s.watch i)).notices else []) =
        fun i => told i (s.watch i) := by
      funext i
      rw [notices_triggerStep]
      by_cases listed : (s.watch i).lineSet.getLsbD l = true
      · exact (if_pos listed).trans (if_neg (by rw [listed]; decide)).symm
      · exact (if_neg listed).trans (if_pos (Bool.eq_false_iff.mpr listed)).symm
    rw [same] at creations
    exact Eq.trans (onlyEntries_triggerWatches l s) (by rw [creations])

end Sys2Proof.Machine

/-!
PROOF. Event lines: LINESET and LINEQUERY, the sample due at a line, and the reports of its notices (R105 to R116).
-/

namespace Sys2Proof.Machine

/-! ### The notices of a line on their way -/

/-- The channel of a line carries that line's notices. -/
theorem drainChannel_line_eq (l : LineIx) (s : State) :
    drainChannel (.line l) s =
      (s.transit.creations.filter fun c => c.key.source = .line l).foldl (fun u c => takeCreation c .whole u)
        (s.setTransit { s.transit with creations := s.transit.creations.filter fun c => c.key.source ≠ .line l }) := by
  simp only [drainChannel, channel_eq_line_iff, ne_eq]

theorem drainChannel_line_of_none {l : LineIx} {s : State} (none : ∀ c ∈ s.transit.creations, c.key.source ≠ .line l) :
    drainChannel (.line l) s = s :=
  drainChannel_of_none _ s fun c mem => mt (channel_eq_line_iff c l).mp (none c mem)

/-! ### LINESET -/

@[simp] theorem readMode_code (m : LineMode) : readMode m.code = some m := by
  cases m <;> rfl

@[simp] theorem readFallback_linkOrNone (f : Option Link) : readFallback (linkOrNone f) = some f :=
  readFallback_eq_some.mpr rfl

/-- A LINESET payload in range, its primary and fallback distinct, is read as its bytes give it (R114). -/
theorem readLineSet_of_codes (l : LineIx) (m : LineMode) (filter notify : Byte) (lv : Level) (p : Link) {f : Option Link}
    (distinct : f ≠ some p) :
    readLineSet [byteOf l, m.code, filter, notify, byteOf lv, byteOf p, linkOrNone f] =
      some ⟨l, m, filter.toNat, decide (notify ≠ 0), lv, p, f⟩ := by
  simp [readLineSet, byteAt, distinct, readFlag]

theorem readLineIx_of_big {b : Byte} (h : 15 < b.toNat) : readLineIx b = none := by
  simp [readLineIx]; omega

theorem readMode_of_big {b : Byte} (h : 5 < b.toNat) : readMode b = none := by
  have : ∀ c : Byte, c.toNat ≤ 5 → b ≠ c := by rintro c small rfl; omega
  simp only [readMode, if_neg (this 0 (by decide)), if_neg (this 1 (by decide)), if_neg (this 2 (by decide)),
    if_neg (this 3 (by decide)), if_neg (this 4 (by decide)), if_neg (this 5 (by decide))]

theorem readLink_of_big {b : Byte} (h : 3 < b.toNat) : readLink b = none := by
  simp [readLink]; omega

theorem readLevel_of_big {b : Byte} (h : 3 < b.toNat) : readLevel b = none := by
  simp [readLevel]; omega

theorem readFallback_of_big {b : Byte} (h : 3 < b.toNat) (notNone : b ≠ 0xFF) : readFallback b = none := by
  rw [readFallback, if_neg notNone, readLink_of_big h]
  rfl

/-- A fallback byte that names a link as the primary's does is read as that link. -/
theorem readFallback_of_readLink {b : Byte} {p : Link} (h : readLink b = some p) : readFallback b = some (some p) := by
  have notNone : b ≠ 0xFF := by
    rintro rfl
    rw [readLink_of_big (by decide)] at h
    cases h
  rw [readFallback, if_neg notNone, h]
  rfl

/-- A LINESET payload with a value out of range, or whose fallback is its primary, is not read (R114, R163). -/
theorem readLineSet_of_bad {b0 b1 b2 b3 b4 b5 b6 : Byte}
    (bad : 15 < b0.toNat ∨ 5 < b1.toNat ∨ 3 < b4.toNat ∨ 3 < b5.toNat ∨ (3 < b6.toNat ∧ b6 ≠ 0xFF) ∨ b6 = b5) :
    readLineSet [b0, b1, b2, b3, b4, b5, b6] = none := by
  have unread : ∀ d, readLineSet [b0, b1, b2, b3, b4, b5, b6] ≠ some d := by
    intro d read
    simp only [readLineSet, byteAt, List.getD_cons_zero, List.getD_cons_succ] at read
    split at read
    case h_2 => cases read
    case h_1 line mode level primary fallback isLine isMode isLevel isPrimary isFallback =>
      rcases bad with h | h | h | h | ⟨h, notNone⟩ | rfl
      · rw [readLineIx_of_big h] at isLine; cases isLine
      · rw [readMode_of_big h] at isMode; cases isMode
      · rw [readLevel_of_big h] at isLevel; cases isLevel
      · rw [readLink_of_big h] at isPrimary; cases isPrimary
      · rw [readFallback_of_big h notNone] at isFallback; cases isFallback
      · rw [readFallback_of_readLink isPrimary] at isFallback
        cases isFallback
        rw [if_pos rfl] at read
        cases read
  exact Option.eq_none_iff_forall_ne_some.mpr unread

/-- What LINEQUERY tells of the condition of a line (R116). -/
theorem active_eq (r : LineRec) :
    r.active = ((r.mode = .high && r.accepted) || (r.mode = .low && !r.accepted)) := by
  unfold LineRec.active
  cases r.mode <;> simp

/-- Settles O21: LINESET read and not read, LINEQUERY on the record its channel leaves. -/
theorem lineSetAndLineQuery : Obligations.LineSetAndLineQuery := by
  refine ⟨fun s n tag l m filter notify lv p f serves holder distinct => ?set,
    fun s n tag b0 b1 b2 b3 b4 b5 b6 serves bad => ?bad, fun s n tag serves => ⟨fun b big => ?queryBad, fun l => ?query⟩⟩
  case set =>
    refine exec_of_accept _ n tag _ s _ _ rfl serves.1 ?_
    rw [lineSetBody, checkLength_heard 7 [byteOf l, m.code, filter, notify, byteOf lv, byteOf p, linkOrNone f] _ serves rfl,
      readLineSet_of_codes l m filter notify lv p distinct]
    exact (privileged_heard_of_holder _ holder).trans (by rw [line_heard]; rfl)
  case bad =>
    refine exec_of_refuse _ n tag _ s _ rfl serves.1 ?_
    rw [lineSetBody, checkLength_heard 7 [b0, b1, b2, b3, b4, b5, b6] _ serves rfl, readLineSet_of_bad bad]
  case queryBad =>
    refine exec_of_refuse _ n tag _ s _ rfl serves.1 ?_
    rw [lineQueryBody, checkLength_heard 1 [b] _ serves rfl, byteAt_cons_zero, readLineIx_of_big big]
  case query =>
    intro t r
    have drained : drainChannel (.line l) (s.heard n) = t := by rw [drainChannel_line_eq, transit_heard]
    refine ⟨exec_of_accept _ n tag _ s _ _ rfl serves.1 ?_, fun none => ?_⟩
    · rw [lineQueryBody, checkLength_heard 1 [byteOf l] _ serves rfl, byteAt_cons_zero, readLineIx_byteOf]
      simp only [drained, lineItems, active_eq]
      rfl
    · rw [← drained, drainChannel_line_of_none (by rwa [transit_heard])]

/-! ### The sample due at a line -/

/-- The modes that name a change (Table 6-1). -/
theorem triggers_iff (m : LineMode) (v : Bool) :
    m.triggers v = true ↔ (m = .high ∧ v = true) ∨ (m = .low ∧ v = false) ∨ (m = .rising ∧ v = true)
      ∨ (m = .falling ∧ v = false) ∨ m = .both := by
  cases m <;> simp [LineMode.triggers]

theorem wouldAccept_iff (r : LineRec) (v : Bool) :
    r.wouldAccept v = true ↔ v ≠ r.accepted ∧ r.disagreement = r.filter := by
  simp [LineRec.wouldAccept]

theorem sampled_of_accepted {r : LineRec} {v : Bool} (same : v = r.accepted) :
    r.sampled v = { r with disagreement := 0, pinLevel := v } := if_pos same

theorem sampled_of_short {r : LineRec} {v : Bool} (differs : v ≠ r.accepted) (short : r.disagreement ≠ r.filter) :
    r.sampled v = { r with disagreement := r.disagreement + 1, pinLevel := v } := by
  rw [LineRec.sampled, if_neg differs, if_neg (by omega)]

theorem sampled_of_complete {r : LineRec} {v : Bool} (differs : v ≠ r.accepted) (complete : r.disagreement = r.filter) :
    r.sampled v = { r with accepted := v, disagreement := 0, pinLevel := v } := by
  rw [LineRec.sampled, if_neg differs, if_pos (by omega)]

/-- A sample that is no trigger changes its line alone (R105). -/
theorem takeSample_of_quiet {l : LineIx} {s : State} {v : Bool} (due : (s.line l).dueSample = some v)
    (quiet : ¬ ((s.line l).wouldAccept v = true ∧ (s.line l).mode.triggers v = true)) :
    takeSample l s = s.setLine l { (s.line l).sampled v with dueSample := none } := by
  rw [takeSample, due]
  exact if_neg (by simpa using quiet)

/-- A sample accepted where the mode names the change is a trigger (R107). -/
theorem takeSample_of_trigger {l : LineIx} {s : State} {v : Bool} (due : (s.line l).dueSample = some v)
    (accepts : (s.line l).wouldAccept v = true) (names : (s.line l).mode.triggers v = true) :
    takeSample l s = trigger l v (s.setLine l { (s.line l).sampled v with dueSample := none }) := by
  rw [takeSample, due]
  exact if_pos (by rw [accepts, names]; rfl)

theorem exec_acceptedChange (l : LineIx) {s : State} (runs : s.runs) :
    exec (.acceptedChange l) s = .next (takeSample l s) :=
  congrArg Host.Outcome.next (unlessReset_of_runs _ runs)

/-- Every notice a trigger hands on is a watch's. -/
theorem source_triggerStep {i : WatchIx} {w : Watch} {c : Creation} (mem : c ∈ (triggerStep i w).notices) :
    c.key.source = .watch i := by
  rw [notices_triggerStep] at mem
  split at mem
  · rw [List.mem_singleton.mp mem]; rfl
  · split at mem
    · rw [List.mem_singleton.mp mem]; rfl
    · split at mem
      · rw [List.mem_singleton.mp mem]; rfl
      · cases mem

/-- A trigger puts no notice of a line on its way by itself. -/
theorem noLineCreation_triggerWatches {l : LineIx} {s : State} (k : LineIx)
    (none : ∀ c ∈ s.transit.creations, c.key.source ≠ .line l) :
    ∀ c ∈ (triggerWatches k s).transit.creations, c.key.source ≠ .line l := by
  intro c mem
  rw [(triggerWatches_spec k s).2, List.mem_append, List.mem_map] at mem
  rcases mem with mem | ⟨d, mem, rfl⟩
  · exact none c mem
  · obtain ⟨i, _, mem⟩ := List.mem_flatMap.mp mem
    split at mem
    · rw [key_handed, source_triggerStep mem]; simp
    · cases mem

/-- Settles O34: the sample that shows the accepted level, that falls short, that is accepted quietly, and the trigger. -/
theorem dueSamplesAreTaken : Obligations.DueSamplesAreTaken := by
  intro s l runs
  rw [exec_acceptedChange l runs]
  refine ⟨fun noSample => by rw [takeSample, noSample], fun v due => ?_⟩
  intro r taken named
  have named_iff : r.mode.triggers v = true ↔ named := triggers_iff r.mode v
  have accepts : v ≠ r.accepted → r.disagreement = r.filter → r.wouldAccept v = true :=
    fun differs complete => (wouldAccept_iff r v).mpr ⟨differs, complete⟩
  refine ⟨fun same => ?_, fun differs short => ?_, fun differs complete unnamed => ?_,
    fun differs complete isNamed => ?trigger⟩
  · rw [takeSample_of_quiet due fun h => ((wouldAccept_iff r v).mp h.1).1 same, sampled_of_accepted same]
  · rw [takeSample_of_quiet due fun h => short ((wouldAccept_iff r v).mp h.1).2, sampled_of_short differs short]
  · rw [takeSample_of_quiet due fun h => unnamed (named_iff.mp h.2), sampled_of_complete differs complete]
  case trigger =>
    intro t u
    have line : t.line l = taken := by rw [line_triggerWatches, line_setLine_same]
    have drained : drainChannel (.line l) t = u := drainChannel_line_eq l t
    have told : takeSample l s = notifyTrigger l v t := by
      rw [takeSample_of_trigger due (accepts differs complete) (named_iff.mpr isNamed), sampled_of_complete differs complete]
      rfl
    have notify : (t.line l).notify = r.notify := by rw [line]
    have notice : lineNotice l (u.line l) v =
        ⟨⟨.line l, none, .line, none⟩, r.level, [flagByte v], .pair r.primary r.fallback⟩ := by
      rcases line_drainChannel (.line l) t l with e | e <;> rw [drained, line] at e <;> rw [e] <;> rfl
    rw [told, notifyTrigger, notify]
    refine ⟨fun off => ?_, fun on pending => ?_, fun on idle => ?_, fun none => ⟨?_, line⟩⟩
    · rw [off]; rfl
    · simp only [on, if_true, drained, pending]
      rfl
    · simp only [on, if_true, drained, idle, notice]
      rfl
    · exact drained.symm.trans (drainChannel_line_of_none (noLineCreation_triggerWatches l none))

/-! ### The reports of a line's notices -/

theorem exec_lineNoticeLeftPool (l : LineIx) {s : State} (runs : s.runs) :
    exec (.lineNoticeLeftPool l) s = .next (takeLineReport l s) :=
  congrArg Host.Outcome.next (unlessReset_of_runs _ runs)

/-- Settles O36: no report, and the oldest of them by how the notice left and what the overrun was. -/
theorem lineReportsAreTaken : Obligations.LineReportsAreTaken := by
  intro s l runs
  rw [exec_lineNoticeLeftPool l runs]
  refine ⟨fun none => ?_, fun how pre post waiting first => ?_⟩
  · rw [takeLineReport, takeFirst_of_none _ _ fun w mem => decide_eq_false (none w mem)]
  · intro r t
    have taken : takeLineReport l s = takeDeparture l how (s.setTransit { s.transit with lineReports := pre ++ post }) := by
      rw [takeLineReport, waiting,
        takeFirst_of_split _ pre post (l, how) (fun w mem => decide_eq_false (first w mem)) (decide_eq_true rfl)]
    rw [taken]
    refine ⟨fun quiet => ?_, fun acknowledged overrun => ?_⟩
    · cases how with
      | acknowledged => exact congrArg _ (if_pos (quiet.resolve_left (not_not_intro rfl)))
      | evicted => rfl
      | discarded => rfl
    · subst acknowledged
      exact congrArg _ (if_neg overrun)

end Sys2Proof.Machine

/-!
PROOF. Outputs by hand and outputs at work: PULSE, HOLD and UNHOLD, the words and the ticks the output unit takes (R118 to
R126).
-/

namespace Sys2Proof.Machine

/-! ### Claims of MANUAL -/

@[simp] theorem claimSetForManual_heard (s : State) (n : Link) (o : OutputIx) :
    (s.heard n).claimSetForManual o = s.claimSetForManual o := by
  simp [State.claimSetForManual, State.manualWords]

theorem claimOf_claimInto (c : Claimant) (d : Option Nat) (set : ClaimSet) :
    claimOf (claimInto c d set) c = some (replaceClaim (claimOf set c) d) := by
  rw [claimInto, claimOf_put, if_pos rfl]

/-- A held claim stands, whatever comes (Table 7-3). -/
theorem replaceClaim_of_held (d : Option Nat) : replaceClaim (some .held) d = .held := rfl

theorem replaceClaim_none (x : Option Claim) : replaceClaim x none = .held := by
  rcases x with _ | _ | _ <;> rfl

theorem replaceClaim_of_notHeld {x : Option Claim} (notHeld : x ≠ some .held) (d : Nat) : replaceClaim x (some d) = .timed d := by
  rcases x with _ | _ | _
  · rfl
  · rfl
  · exact absurd rfl notHeld

/-- What the holder is told of its claim: the output asserted, and the kind of claim that stands (R123, R124). -/
theorem manualReply_eq (o : OutputIx) (d : Option Nat) (s : State) :
    manualReply o d s = [1, (replaceClaim (claimOf (s.claimSetForManual o) .manual) d).kindCode] := by
  simp only [manualReply, nonEmpty_claimInto, claimOf_claimInto]
  rfl

theorem readOutput_of_big {b : Byte} (h : 4 < b.toNat) : readOutput b = none := by
  simp [readOutput]; omega

/-- The claims of MANUAL handed over for an output, folded over its set in their order (log 6). -/
theorem claimSetForManual_eq (s : State) (o : OutputIx) :
    s.claimSetForManual o =
      (s.transit.outputWords.filterMap fun w =>
        match w with
        | .claim .manual q d _ => if q = o then some d else none
        | _ => none).foldl
        (fun set d => put set (slotOf .manual) (some
          (match claimOf set .manual, d with
           | some .held, _ => .held
           | _, some k => .timed k
           | _, none => .held))) (s.claimSet o) := by
  rw [State.claimSetForManual, State.manualWords]
  generalize s.claimSet o = set
  induction s.transit.outputWords generalizing set with
  | nil => rfl
  | cons w ws ih =>
    rcases w with ⟨i | _, q, d, g⟩ | i
    · exact ih set
    · by_cases same : q = o
      · rw [List.filter_cons_of_pos (by simpa [OutputWord.isManual] using same), List.foldl_cons, ih]
        simp only [same, List.filterMap_cons, if_true, List.foldl_cons]
        congr 1
      · rw [List.filter_cons_of_neg (by simpa [OutputWord.isManual] using same), ih]
        simp only [same, List.filterMap_cons, if_false]
    · exact ih set

/-- Settles O22: a claim of MANUAL handed over with what the reply tells, and the values refused. -/
theorem pulseAndHold : Obligations.PulseAndHold := by
  intro s n tag serves
  have zero : ∀ b : Byte, halfAt [b, 0, 0] 1 = 0 := fun b => rfl
  refine ⟨fun o lo hi holder some => ?pulse, fun o holder => ?hold, fun b lo hi big => ⟨?_, ?_, ?_⟩,
    claimSetForManual_eq s, fun o => ?zero⟩
  case pulse =>
    intro d kind
    refine exec_of_accept _ n tag _ s _ _ rfl serves.1 ?_
    have code : (replaceClaim (claimOf (s.claimSetForManual o) .manual) (.some d)).kindCode = kind := by
      by_cases held : claimOf (s.claimSetForManual o) .manual = .some .held
      · rw [held, replaceClaim_of_held]
        exact (if_pos held).symm
      · rw [replaceClaim_of_notHeld held]
        exact (if_neg held).symm
    rw [pulseBody, checkLength_heard 3 [byteOf o, lo, hi] _ serves rfl, byteAt_cons_zero, readOutput_byteOf]
    simp only [if_neg (halfAt_ne_zero (byteOf o) some), privileged_heard_of_holder _ holder, manualClaim, manualReply_eq,
      claimSetForManual_heard, ← code]
    rfl
  case hold =>
    refine exec_of_accept _ n tag _ s _ _ rfl serves.1 ?_
    rw [holdBody, checkLength_heard 1 [byteOf o] _ serves rfl, byteAt_cons_zero, readOutput_byteOf]
    simp only [privileged_heard_of_holder _ holder, manualClaim, manualReply_eq, replaceClaim_none]
    rfl
  case zero =>
    refine exec_of_refuse _ n tag _ s _ rfl serves.1 ?_
    rw [pulseBody, checkLength_heard 3 [byteOf o, 0, 0] _ serves rfl, byteAt_cons_zero, readOutput_byteOf]
    simp only [zero, if_true]
  · refine exec_of_refuse _ n tag _ s _ rfl serves.1 ?_
    rw [pulseBody, checkLength_heard 3 [b, lo, hi] _ serves rfl, byteAt_cons_zero, readOutput_of_big big]
  · refine exec_of_refuse _ n tag _ s _ rfl serves.1 ?_
    rw [holdBody, checkLength_heard 1 [b] _ serves rfl, byteAt_cons_zero, readOutput_of_big big]
  · refine exec_of_refuse _ n tag _ s _ rfl serves.1 ?_
    rw [unholdBody, checkLength_heard 1 [b] _ serves rfl, byteAt_cons_zero, readOutput_of_big big]

/-! ### UNHOLD -/

/-- A set with a claim belongs to an asserted output (R118). -/
theorem asserted_of_claim {s : State} {o : OutputIx} {c : Claimant} (claim : claimOf (s.claimSet o) c ≠ none) :
    s.asserted o = true := (nonEmpty_iff _).mpr ⟨c, claim⟩

/-- The claim of a claimant removed where another stays: the output keeps its state (R119). -/
theorem dropClaim_of_others {c : Claimant} {o : OutputIx} {s : State} (asserted : s.asserted o = true)
    (others : ClaimSet.nonEmpty (put (s.claimSet o) (slotOf c) none) = true) :
    dropClaim c o s = s.setClaimSet o (put (s.claimSet o) (slotOf c) none) := by
  rw [dropClaim, changeClaims_eq, others, asserted, if_pos rfl]

/-- The last claim of an output removed: the output is released (R119). -/
theorem dropClaim_of_last {c : Claimant} {o : OutputIx} {s : State} (asserted : s.asserted o = true)
    (last : ClaimSet.nonEmpty (put (s.claimSet o) (slotOf c) none) = false) :
    dropClaim c o s = announce o .released (s.setClaimSet o (put (s.claimSet o) (slotOf c) none)) := by
  rw [dropClaim, changeClaims_eq, last, asserted]
  rfl

theorem asserted_dropClaim (c : Claimant) (o : OutputIx) (s : State) :
    (dropClaim c o s).asserted o = ClaimSet.nonEmpty (put (s.claimSet o) (slotOf c) none) := by
  rw [State.asserted, claimSet_dropClaim, if_pos rfl]

/-- UNHOLD from the holder, by what stands once the claims of MANUAL on their way are taken (R125). -/
theorem unholdBody_heard {s : State} {n : Link} (o : OutputIx) (serves : s.serves n)
    (holder : s.authority.mode = .held n) :
    unholdBody n [byteOf o] (s.heard n) =
      if (claimOf (s.claimSetForManual o) .manual).isNone then refuse .badState (s.heard n)
      else
        accept [flagByte ((dropClaim .manual o (settleManual o (s.heard n))).asserted o)]
          (dropClaim .manual o (settleManual o (s.heard n))) := by
  rw [unholdBody, checkLength_heard 1 [byteOf o] _ serves rfl, byteAt_cons_zero, readOutput_byteOf]
  simp only [privileged_heard_of_holder _ holder, claimSetForManual_heard]

/-- Settles O23: no claim of MANUAL, one among others, and the last one. -/
theorem unholdRemovesTheManualClaim : Obligations.UnholdRemovesTheManualClaim := by
  intro s n tag o serves holder mine t left
  have isMine : mine = OutputWord.isManual o := by
    funext w
    rcases w with ⟨_ | _, _, _, _⟩ | _ <;> rfl
  have settled : settleManual o (s.heard n) = t := by
    rw [settleManual, State.manualWords, State.withOutputWords, transit_heard, ← isMine]
  have set : t.claimSet o = s.claimSetForManual o := by
    rw [← settled, claimSet_settleManual, claimSetForManual_heard]
  have body := unholdBody_heard o serves holder
  rw [settled] at body
  refine ⟨fun unclaimed => ?_, fun claimed => ?_, set, fun none => ?_⟩
  · exact exec_of_refuse _ n tag _ s _ rfl serves.1 (by rw [body, unclaimed]; rfl)
  · have asserted : t.asserted o = true := asserted_of_claim (c := .manual) (by rwa [set])
    rw [if_neg (by simpa using claimed), asserted_dropClaim] at body
    refine ⟨fun others => ?_, fun last => ?_⟩
    · exact exec_of_accept _ n tag _ s _ _ rfl serves.1
        (by rw [body, dropClaim_of_others asserted others, show ClaimSet.nonEmpty _ = true from others]; rfl)
    · exact exec_of_accept _ n tag _ s _ _ rfl serves.1
        (by rw [body, dropClaim_of_last asserted last, show ClaimSet.nonEmpty _ = false from last]; rfl)
  · have words : s.manualWords o = [] := by
      rw [State.manualWords, List.filter_eq_nil_iff, ← isMine]
      exact fun w mem => by simp [none w mem]
    refine ⟨by rw [State.claimSetForManual, words]; rfl, settled.symm.trans (settleManual_of_none o _ ?_)⟩
    rw [State.manualWords, transit_heard]
    exact words

/-! ### The words the output unit takes -/

/-- A claim taken: the set holds what stands, and a released output is asserted with its resetter (R119, R120). -/
theorem takeClaim_eq (c : Claimant) (o : OutputIx) (d : Option Nat) (g : Option Byte) (s : State) :
    takeClaim c o d g s =
      if s.asserted o then s.setClaimSet o (claimInto c d (s.claimSet o))
      else announce o (.asserted (resetterOf c g)) (s.setClaimSet o (claimInto c d (s.claimSet o))) := by
  rw [takeClaim, changeClaims_eq, nonEmpty_claimInto]
  cases asserted : s.asserted o <;> rfl

theorem takeClaimWord_of_claim {s : State} {c : Claimant} {o : OutputIx} {d : Option Nat} {g : Option Byte}
    {pre post : List OutputWord} (waiting : s.transit.outputWords = pre ++ .claim c o d g :: post)
    (first : ∀ w ∈ pre, w.claimant ≠ c) :
    takeClaimWord c s = takeClaim c o d g (s.withOutputWords (pre ++ post)) := by
  rw [takeClaimWord, firstWord, waiting,
    takeFirst_of_split _ pre post _ (fun w mem => decide_eq_false (first w mem)) (decide_eq_true rfl)]

theorem takeRemovalWord_of_order {s : State} {i : WatchIx} {pre post : List OutputWord}
    (waiting : s.transit.outputWords = pre ++ .removeAll i :: post) (first : ∀ w ∈ pre, w.claimant ≠ .watch i) :
    takeRemovalWord i s = dropAllClaims i (s.withOutputWords (pre ++ post)) := by
  rw [takeRemovalWord, firstWord, waiting,
    takeFirst_of_split _ pre post _ (fun w mem => decide_eq_false (first w mem)) (decide_eq_true rfl)]

theorem firstWord_of_none {s : State} {c : Claimant} (none : ∀ w ∈ s.transit.outputWords, w.claimant ≠ c) :
    firstWord c s = .none :=
  takeFirst_of_none _ _ fun w mem => decide_eq_false (none w mem)

theorem exec_takingAClaim (c : Claimant) {s : State} (runs : s.runs) :
    exec (.takingAClaim c) s = .next (takeClaimWord c s) := congrArg Host.Outcome.next (unlessReset_of_runs _ runs)

theorem exec_clearClaimsRemoval (i : WatchIx) {s : State} (runs : s.runs) :
    exec (.clearClaimsRemoval i) s = .next (takeRemovalWord i s) := congrArg Host.Outcome.next (unlessReset_of_runs _ runs)

theorem exec_claimExpiry (o : OutputIx) (c : Claimant) {s : State} (runs : s.runs) :
    exec (.claimExpiry o c) s = .next (takeClaimExpiry o c s) := congrArg Host.Outcome.next (unlessReset_of_runs _ runs)

/-! ### The tick due at the output unit -/

theorem takeClaimTick_of_due {s : State} (due : s.claimTickDue = true) :
    takeClaimTick s = countClaims (s.setClaimTickDue false) := if_pos due

theorem claims_releaseIf (was left : Bool) (o : OutputIx) (s : State) : (releaseIf was left o s).claims = s.claims := by
  unfold releaseIf
  split
  · rw [announce_eq]; rfl
  · rfl

theorem claims_foldl_releaseIf (was left : OutputIx → Bool) (os : List OutputIx) (s : State) :
    (os.foldl (fun t o => releaseIf (was o) (left o) o t) s).claims = s.claims := by
  induction os generalizing s with
  | nil => rfl
  | cons o os ih => rw [List.foldl_cons, ih, claims_releaseIf]

/-- What a tick leaves of one claim (R121). -/
theorem counted_bind (x : Option Claim) :
    x.bind Claim.counted = match x with
      | some (.timed k) => if k ≤ 1 then none else some (.timed (k - 1))
      | some .held => some .held
      | none => none := by
  rcases x with _ | _ | _
  · rfl
  · exact counted_eq _
  · exact counted_eq _

/-- A claim is removed by the next tick exactly where one millisecond or less is left of it. -/
theorem any_atLastTick_iff (x : Option Claim) : x.any Claim.atLastTick = true ↔ ∃ k ≤ 1, x = some (.timed k) := by
  rcases x with _ | k | _ <;> simp [Claim.atLastTick]

theorem takeClaimExpiry_of_lasting {s : State} {o : OutputIx} {c : Claimant}
    (lasting : ∀ k ≤ 1, claimOf (s.claimSet o) c ≠ some (.timed k)) : takeClaimExpiry o c s = s := by
  refine if_neg fun last => ?_
  obtain ⟨k, few, e⟩ := (any_atLastTick_iff _).mp last
  exact lasting k few e

theorem takeClaimExpiry_of_last {s : State} {o : OutputIx} {c : Claimant} {k : Nat} (few : k ≤ 1)
    (claim : claimOf (s.claimSet o) c = some (.timed k)) : takeClaimExpiry o c s = takeClaimTick s :=
  if_pos ((any_atLastTick_iff _).mpr ⟨k, few, claim⟩)

/-- Everything CLEAR's order does, the sets it leaves named after the state it ends in (R126). -/
theorem dropAllClaims_spec (i : WatchIx) (s : State) :
    dropAllClaims i s = (List.finRange 5).foldl
      (fun v o => if s.asserted o && !ClaimSet.nonEmpty (put (s.claimSet o) (slotOf (.watch i)) none)
        then announce o .released v else v) { s with claims := (dropAllClaims i s).claims } := by
  have e := dropAllClaims_eq i s
  have sets : (dropAllClaims i s).claims = remap s.claims fun _ set => put set (slotOf (.watch i)) none := by
    rw [e, claims_foldl_releaseIf]
  rw [sets]
  exact e

/-- Everything the tick at the output unit does, the sets it leaves named after the state it ends in (R121). -/
theorem countClaims_spec (s : State) :
    countClaims s = (List.finRange 5).foldl
      (fun v o => if s.asserted o && !(countClaims s).asserted o then announce o .released v else v)
      { s with claims := (countClaims s).claims } := by
  have e := countClaims_eq s
  have sets : (countClaims s).claims = remap s.claims fun _ set => ClaimSet.counted set := by
    rw [e, claims_foldl_releaseIf]
  have left : ∀ o, (countClaims s).asserted o = ClaimSet.nonEmpty (ClaimSet.counted (s.claimSet o)) := fun o => by
    rw [State.asserted, claimSet_countClaims]
  simp only [sets, left]
  exact e

/-! ### What the output unit announces -/

theorem level_of_change {change : CrstChange} {v : Bool}
    (h : match change with
      | .asserted _ => v = true
      | .released => v = false) : change.level = v := by
  cases change <;> exact h.symm

theorem announce_safe {change : CrstChange} {v : Bool} (level : change.level = v) (s : State) :
    announce 4 change s = s.post [⟨⟨.output 4, none, .output, none⟩, 3, [flagByte v], .broadcast none⟩] := by
  subst level
  rfl

theorem announce_crst (n : Link) {change : CrstChange} {v : Bool} (level : change.level = v) (s : State) :
    announce (crstOf n) change s =
      let t := s.post [⟨⟨.output (crstOf n), none, .output, none⟩, 2, [flagByte v], .broadcast none⟩]
      t.setTransit { t.transit with crstWords := s.transit.crstWords ++ [(n, change)] } := by
  subst level
  rw [announce, linkOfOutput_crstOf, outputNotice, if_neg (crstOf_ne_safe n)]
  rfl

/-- Settles O44: the claim taken, its announcement, the tick due, and CLEAR's order. -/
theorem claimsComeAndGo : Obligations.ClaimsComeAndGo := by
  refine ⟨⟨fun s c o d g pre post runs waiting first => ?claim, fun s c runs none => ?noClaim,
      fun s o => nonEmpty_iff (s.claimSet o), fun s change v shown => ?announce⟩, fun s => ⟨takeClaimTick_of_notDue s, ?tick⟩,
    fun s runs => ⟨fun o c => ⟨fun idle => ?lasting, fun k few claim due => ?last⟩,
      fun i pre post waiting first => ?order, fun i none => ?noOrder⟩⟩
  case claim =>
    intro t stands
    refine ⟨replaceClaim (claimOf (s.claimSet o) c) d, t.setClaimSet o (claimInto c d (s.claimSet o)), rfl, ?_, ?_,
      fun held => ?_, fun toHold => ?_, fun k duration notHeld => ?_⟩
    · refine (takeClaim_eq c o d g t).trans ?_
      cases c <;> rfl
    · rw [exec_takingAClaim c runs, takeClaimWord_of_claim waiting first]
      rfl
    · rw [held, replaceClaim_of_held]
    · rw [toHold, replaceClaim_none]
    · rw [duration, replaceClaim_of_notHeld notHeld]
  case noClaim => rw [exec_takingAClaim c runs, takeClaimWord, firstWord_of_none none]
  case announce => exact ⟨announce_safe (level_of_change shown) s, fun n => announce_crst n (level_of_change shown) s⟩
  case tick =>
    intro due u
    have taken : u = countClaims (s.setClaimTickDue false) := takeClaimTick_of_due due
    refine ⟨fun o c => ?_, ?_⟩
    · rw [taken, claimSet_countClaims, claimOf_counted, counted_bind]
      rfl
    · rw [taken]
      exact countClaims_spec _
  case lasting =>
    rw [exec_claimExpiry o c runs]
    by_cases last : ∃ k ≤ 1, claimOf (s.claimSet o) c = some (.timed k)
    · obtain ⟨k, few, claim⟩ := last
      rw [takeClaimExpiry_of_last few claim, takeClaimTick_of_notDue s (idle.resolve_right fun h => h k few claim)]
    · rw [takeClaimExpiry_of_lasting fun k few claim => last ⟨k, few, claim⟩]
  case last => rw [exec_claimExpiry o c runs, takeClaimExpiry_of_last few claim]
  case order =>
    intro t left
    refine ⟨dropAllClaims i t, ?_, fun o => claimSet_dropAllClaims i o t, dropAllClaims_spec i t⟩
    rw [exec_clearClaimsRemoval i runs, takeRemovalWord_of_order waiting first]
    rfl
  case noOrder => rw [exec_clearClaimsRemoval i runs, takeRemovalWord, firstWord_of_none none]

end Sys2Proof.Machine

/-!
PROOF. How an offer ends, and how a session end reaches the authority unit (R132, R133, R137, R139, R140).
-/

namespace Sys2Proof.Machine

/-! ### Offers -/

theorem passOn_of_nil {s : State} (ended : Option Link) (nobody : s.authority.claimList = []) :
    passOn ended s = (s.setAuthority { s.authority with mode := .free }).post [authChange none ended] := by
  rw [passOn, nobody]

theorem passOn_of_cons {s : State} (ended : Option Link) {m : Link} {ms : List Link} (next : s.authority.claimList = m :: ms) :
    passOn ended s =
      (s.setAuthority { s.authority with mode := .offering m 3000, claimList := ms }).post [authOffer m] := by
  rw [passOn, next]
  rfl

section
variable {s : State} {n : Link} (tag : Byte) (serves : s.serves n)
include serves

/-- What DECLINE's block answers once its frame has arrived, in the terms of the state before (R139). -/
theorem declineBody_heard :
    declineBody n [] (s.heard n) =
      if s.isOffered n then accept [] (passOn none (s.heard n)) else refuse .badState (s.heard n) := by
  rw [declineBody, checkShapeAndOpen_heard_of_serves _ serves, isOffered_heard]

theorem exec_decline_of_payload {p : List Byte} (payload : p ≠ []) :
    exec (.decline n tag p) s = .next ((s.heard n).replied n tag .malformed []) :=
  exec_of_refuse _ n tag _ s _ rfl serves.1 (checkShapeAndOpen_of_payload n _ _ payload)

theorem exec_decline_of_notOffered (notOffered : s.authority.mode.offered ≠ some n) :
    exec (.decline n tag []) s = .next ((s.heard n).replied n tag .badState []) :=
  exec_of_refuse _ n tag _ s _ rfl serves.1
    (by rw [declineBody_heard serves, if_neg (mt (isOffered_iff s n).mp notOffered)])

theorem exec_decline_of_offered (offered : s.authority.mode.offered = some n) :
    exec (.decline n tag []) s = .next ((passOn none (s.heard n)).replied n tag .ok []) :=
  exec_of_accept _ n tag _ s _ _ rfl serves.1
    (by rw [declineBody_heard serves, if_pos ((isOffered_iff s n).mpr offered)])

end

theorem exec_offerTimerRunsOut {s : State} (runs : s.runs) :
    exec .offerTimerRunsOut s = .next (takeOfferTick s) := congrArg Host.Outcome.next (unlessReset_of_runs _ runs)

section
variable {s : State} {o : Link} {k : Nat} (offering : s.authority.mode = .offering o k)
  (due : s.authority.offerDue = true)
include offering due

theorem takeOfferTick_of_more (more : 1 < k) :
    takeOfferTick s = s.setAuthority { s.authority with mode := .offering o (k - 1), offerDue := false } := by
  simp only [takeOfferTick, due, if_true, offering, if_neg (Nat.not_le.mpr more)]
  rfl

theorem takeOfferTick_of_last (last : k ≤ 1) :
    takeOfferTick s = passOn none (s.setAuthority { s.authority with offerDue := false }) := by
  simp only [takeOfferTick, due, if_true, offering, if_pos last]

end

/-- Settles O28: DECLINE by its checks, and the tick due at the offer timer. -/
theorem offersEnd : Obligations.OffersEnd := by
  refine fun s => ⟨fun n tag serves => ⟨fun p => exec_decline_of_payload tag serves,
    exec_decline_of_notOffered tag serves, fun offered nobody => ?_, fun m ms offered next => ?_⟩,
    fun o k runs offering due => ⟨fun more => ?_, fun last nobody => ?_, fun m ms last next => ?_⟩⟩
  · rw [exec_decline_of_offered tag serves offered, passOn_heard_of_nil n none nobody]
  · rw [exec_decline_of_offered tag serves offered, passOn_heard_of_cons n none next]
  · rw [exec_offerTimerRunsOut runs, takeOfferTick_of_more offering due more]
  · rw [exec_offerTimerRunsOut runs, takeOfferTick_of_last offering due last]
    exact congrArg _ (passOn_of_nil (s := s.setAuthority { s.authority with offerDue := false }) none nobody)
  · rw [exec_offerTimerRunsOut runs, takeOfferTick_of_last offering due last]
    exact congrArg _ (passOn_of_cons (s := s.setAuthority { s.authority with offerDue := false }) none next)

/-! ### The end of one session at the authority unit -/

theorem takeAuthorityEnd_of_mine {n : Link} {s : State}
    (mine : s.authority.mode.holder = some n ∨ s.authority.mode.offered = some n) :
    takeAuthorityEnd n s = passOn (some n) s := by
  rw [takeAuthorityEnd]
  cases mode : s.authority.mode with
  | free => simp [mode, AuthorityMode.holder, AuthorityMode.offered] at mine
  | held h =>
    have : h = n := by simpa [mode, AuthorityMode.holder, AuthorityMode.offered] using mine
    exact if_pos this
  | offering o k =>
    have : o = n := by simpa [mode, AuthorityMode.holder, AuthorityMode.offered] using mine
    exact if_pos this

/-- A link that neither holds the authority nor is offered it leaves the list, if it is there. -/
theorem takeAuthorityEnd_of_other {n : Link} {s : State}
    (other : ¬ (s.authority.mode.holder = some n ∨ s.authority.mode.offered = some n)) (taken : s.authority.mode ≠ .free) :
    takeAuthorityEnd n s = s.setAuthority { s.authority with claimList := s.authority.claimList.filter (· ≠ n) } := by
  rw [takeAuthorityEnd]
  cases mode : s.authority.mode with
  | free => exact absurd mode taken
  | held h =>
    have : h ≠ n := by simpa [mode, AuthorityMode.holder, AuthorityMode.offered] using other
    exact if_neg this
  | offering o k =>
    have : o ≠ n := by simpa [mode, AuthorityMode.holder, AuthorityMode.offered] using other
    exact if_neg this

theorem takeAuthorityEnd_of_free (n : Link) {s : State} (free : s.authority.mode = .free) : takeAuthorityEnd n s = s := by
  rw [takeAuthorityEnd, free]

/-- The authority unit takes the oldest end of link `n` that waits. -/
theorem authorityShare_of_split {s : State} {n : Link} {pre post : List Link}
    (waiting : s.transit.authorityEnds = pre ++ n :: post) (first : n ∉ pre) :
    authorityShare n s = takeAuthorityEnd n (s.setTransit { s.transit with authorityEnds := pre ++ post }) := by
  have before : ∀ m ∈ pre, decide (m = n) = false := fun m mem =>
    decide_eq_false (by rintro rfl; exact first mem)
  rw [authorityShare, waiting, takeFirst_of_split _ pre post n before (decide_eq_true rfl)]

theorem authorityShare_of_none {s : State} {n : Link} (none : n ∉ s.transit.authorityEnds) : authorityShare n s = s := by
  have all : ∀ m ∈ s.transit.authorityEnds, decide (m = n) = false := fun m mem =>
    decide_eq_false (by rintro rfl; exact none mem)
  rw [authorityShare, takeFirst_of_none _ _ all]

theorem exec_authoritySessionEnd (n : Link) {s : State} (running : s.resetIsHeld = false) :
    exec (.authoritySessionEnd n) s = .next (authorityShare n s) :=
  congrArg Host.Outcome.next (if_neg (Bool.eq_false_iff.mp running))

/-- What one end does to the authority does not depend on the ends that wait behind it. -/
theorem takeAuthorityEnd_withEnds (n : Link) (s : State) (ends : List Link) :
    (takeAuthorityEnd n s).setTransit { (takeAuthorityEnd n s).transit with authorityEnds := ends } =
      takeAuthorityEnd n (s.setTransit { s.transit with authorityEnds := ends }) := by
  have passed : (passOn (some n) s).setTransit { (passOn (some n) s).transit with authorityEnds := ends } =
      passOn (some n) (s.setTransit { s.transit with authorityEnds := ends }) := by
    cases list : s.authority.claimList with
    | nil => rw [passOn_of_nil _ list, passOn_of_nil _ (by exact list)]; rfl
    | cons m ms => rw [passOn_of_cons _ list, passOn_of_cons _ (by exact list)]; rfl
  by_cases mine : s.authority.mode.holder = some n ∨ s.authority.mode.offered = some n
  · rw [takeAuthorityEnd_of_mine mine, takeAuthorityEnd_of_mine (by exact mine), passed]
  · by_cases free : s.authority.mode = .free
    · rw [takeAuthorityEnd_of_free n free, takeAuthorityEnd_of_free n (by exact free)]
    · rw [takeAuthorityEnd_of_other mine free, takeAuthorityEnd_of_other (by exact mine) (by exact free)]
      rfl

/-- Settling the authority takes the ends one by one, oldest first. -/
theorem settleAuthority_of_cons {s : State} {n : Link} {rest : List Link} (waiting : s.transit.authorityEnds = n :: rest) :
    settleAuthority s = settleAuthority (authorityShare n s) := by
  have taken : authorityShare n s = takeAuthorityEnd n (s.setTransit { s.transit with authorityEnds := rest }) :=
    authorityShare_of_split (pre := []) waiting List.not_mem_nil
  have left : (authorityShare n s).transit.authorityEnds = rest := by
    rw [taken, onlyAuthority_takeAuthorityEnd]
    rfl
  rw [settleAuthority, settleAuthority, waiting, List.foldl_cons, left, taken, takeAuthorityEnd_withEnds]
  rfl

/-- Settles O41: the share of one end by who the link was, and what every other command takes first. -/
theorem sessionEndsReachTheAuthority : Obligations.SessionEndsReachTheAuthority := by
  refine ⟨fun s n pre post waiting first => ?one, fun s n none => ⟨authorityShare_of_none none, ?none⟩,
    fun c s running other => (exec_settleAuthority c running other).symm,
    fun s => ⟨authorityEnds_settleAuthority s, settleAuthority_of_prompt s, fun n rest => settleAuthority_of_cons⟩,
    fun _ _ => rfl, fun _ _ => rfl, fun _ => rfl⟩
  case one =>
    intro t mine becomes
    have share : ∀ u, takeAuthorityEnd n t = u → becomes u := fun u taken => by
      have e : authorityShare n s = u := (authorityShare_of_split waiting first).trans taken
      exact ⟨e, fun running => by rw [exec_authoritySessionEnd n running, e]⟩
    refine ⟨fun isMine nobody => ?_, fun m ms isMine next => ?_, fun other taken => ?_, fun free => ?_⟩
    · exact share _ ((takeAuthorityEnd_of_mine (s := t) isMine).trans (passOn_of_nil _ nobody))
    · exact share _ ((takeAuthorityEnd_of_mine (s := t) isMine).trans (passOn_of_cons _ next))
    · exact share _ (takeAuthorityEnd_of_other (s := t) other taken)
    · exact share _ (takeAuthorityEnd_of_free n free)
  case none =>
    change Host.Outcome.next (if s.resetIsHeld = true then s else authorityShare n s) = _
    rw [authorityShare_of_none none, ite_self]

end Sys2Proof.Machine

/-!
PROOF. The end of a session by its timers and by CRSTn, and what a transmitter takes and has sent (R88 to R102, R127, R156,
R158, R159).
-/

namespace Sys2Proof.Machine

/-! ### The timers that end sessions -/

theorem isUp_of_state {s : State} {n : Link} (up : (s.link n).state = .up) : s.isUp n = true := decide_eq_true up

theorem isUp_of_state_ne {s : State} {n : Link} (down : (s.link n).state ≠ .up) : s.isUp n = false := decide_eq_false down

theorem exec_inactivityTimeout (n : Link) {s : State} (runs : s.runs) :
    exec (.inactivityTimeout n) s = .next (takeInactivityTick n s) := congrArg Host.Outcome.next (unlessReset_of_runs _ runs)

theorem exec_ackTimerRunsOut (n : Link) (k : Byte) {s : State} (runs : s.runs) :
    exec (.ackTimerRunsOut n k) s = .next (takeAckTick n k s) := congrArg Host.Outcome.next (unlessReset_of_runs _ runs)

theorem takeInactivityTick_of_notDue {n : Link} {s : State} (notDue : (s.link n).inactivityDue = false) :
    takeInactivityTick n s = s := by
  rw [takeInactivityTick, notDue]
  rfl

section
variable {n : Link} {s : State} (due : (s.link n).inactivityDue = true)
include due

theorem takeInactivityTick_of_more {k : Nat} (timer : (s.link n).inactivity = some k) (more : 1 < k) :
    takeInactivityTick n s = s.setLink n { s.link n with inactivity := some (k - 1), inactivityDue := false } := by
  simp only [takeInactivityTick, due, if_true, timer, if_neg (Nat.not_le.mpr more), setLink_setLink]

theorem takeInactivityTick_of_last {k : Nat} (timer : (s.link n).inactivity = some k) (last : k ≤ 1) :
    takeInactivityTick n s = endSession n .silence (s.setLink n { s.link n with inactivityDue := false }) := by
  simp only [takeInactivityTick, due, if_true, timer, if_pos last]

theorem takeInactivityTick_of_stopped (timer : (s.link n).inactivity = none) :
    takeInactivityTick n s = s.setLink n { s.link n with inactivityDue := false } := by
  simp only [takeInactivityTick, due, if_true, timer]

end

section
variable {n : Link} {k : Byte} {s : State} {f : InFlight} (flight : flightOf (s.delivery n).inFlight k = some f)
include flight

theorem takeAckTick_of_notDue (notDue : f.timer = none ∨ f.timerDue = false) : takeAckTick n k s = s := by
  simp only [takeAckTick, flight]
  rcases notDue with h | h
  · simp only [h]
  · cases f.timer <;> simp only [h]

variable {t : Nat} (timer : f.timer = some t) (due : f.timerDue = true)
include timer due

theorem takeAckTick_of_more (more : 1 < t) :
    takeAckTick n k s = s.setDelivery n
      { s.delivery n with
        inFlight := reviseFlight (s.delivery n).inFlight k fun f => { f with timer := some (t - 1), timerDue := false } } := by
  simp only [takeAckTick, flight, timer, due, if_pos more]

theorem takeAckTick_of_resend (last : t ≤ 1) (again : f.attempt < Config.maxAttempts) :
    takeAckTick n k s = s.setDelivery n
      { s.delivery n with
        inFlight := reviseFlight (s.delivery n).inFlight k fun f => { f with timer := none, timerDue := false }
        resend := (s.delivery n).resend ++ [k] } := by
  simp only [takeAckTick, flight, timer, due, if_neg (Nat.not_lt.mpr last), if_pos again]

theorem takeAckTick_of_noAck (last : t ≤ 1) (spent : Config.maxAttempts ≤ f.attempt) :
    takeAckTick n k s = endSession n .noAck (s.setDelivery n
      { s.delivery n with
        inFlight := reviseFlight (s.delivery n).inFlight k fun f => { f with timer := none, timerDue := false } }) := by
  simp only [takeAckTick, flight, timer, due, if_neg (Nat.not_lt.mpr last), if_neg (Nat.not_lt.mpr spent)]

end

theorem takeAckTick_of_noFlight {n : Link} {k : Byte} {s : State} (none : ∀ f ∈ (s.delivery n).inFlight, f.number ≠ k) :
    takeAckTick n k s = s := by
  simp only [takeAckTick, (flightOf_eq_none_iff _ k).mpr none]

/-- Settles O42: the end of a session, and the ticks due at the timers that bring one about. -/
theorem timersEndSessions : Obligations.TimersEndSessions := by
  refine ⟨fun s n why => ?ends, fun s n runs => ?silence, fun s n number runs => ?acks⟩
  case ends =>
    exact ⟨fun down => endSession_of_not_up n why s (isUp_of_state_ne down),
      fun up => endSession_of_up n why s (isUp_of_state up), fun _ => rfl, fun _ => rfl⟩
  case silence =>
    rw [exec_inactivityTimeout n runs]
    exact ⟨fun notDue => by rw [takeInactivityTick_of_notDue notDue], fun due =>
      ⟨fun k timer more => by rw [takeInactivityTick_of_more due timer more],
        fun k timer last => by rw [takeInactivityTick_of_last due timer last],
        fun timer => by rw [takeInactivityTick_of_stopped due timer]⟩⟩
  case acks =>
    intro d revised stopped
    rw [exec_ackTimerRunsOut n number runs]
    refine ⟨fun f mem carries distinct => ?_, fun none => by rw [takeAckTick_of_noFlight none]⟩
    have flight : flightOf (s.delivery n).inFlight number = some f := by
      rw [← carries]
      exact flightOf_of_mem _ f mem distinct
    exact ⟨fun notDue => by rw [takeAckTick_of_notDue flight notDue], fun k timer due =>
      ⟨fun more => congrArg _ (takeAckTick_of_more flight timer due more),
        fun last again => congrArg _ (takeAckTick_of_resend flight timer due last again),
        fun last spent => congrArg _ (takeAckTick_of_noAck flight timer due last spent)⟩⟩

/-! ### The words about CRSTn -/

theorem exec_crstAsserted (n : Link) {s : State} (runs : s.runs) :
    exec (.crstAsserted n) s = .next (takeAssertedWord n s) := congrArg Host.Outcome.next (unlessReset_of_runs _ runs)

theorem exec_crstReleased (n : Link) {s : State} (runs : s.runs) :
    exec (.crstReleased n) s = .next (takeReleasedWord n s) := congrArg Host.Outcome.next (unlessReset_of_runs _ runs)

theorem firstCrstWord_of_split {s : State} {n : Link} {change : CrstChange} {pre post : List (Link × CrstChange)}
    (waiting : s.transit.crstWords = pre ++ (n, change) :: post) (first : ∀ w ∈ pre, w.1 ≠ n) :
    firstCrstWord n s = some (change, s.setTransit { s.transit with crstWords := pre ++ post }) := by
  rw [firstCrstWord, waiting,
    takeFirst_of_split _ pre post (n, change) (fun w mem => decide_eq_false (first w mem)) (decide_eq_true rfl)]
  rfl

theorem firstCrstWord_of_none {s : State} {n : Link} (none : ∀ w ∈ s.transit.crstWords, w.1 ≠ n) :
    firstCrstWord n s = .none := by
  rw [firstCrstWord, takeFirst_of_none _ _ fun w mem => decide_eq_false (none w mem)]
  rfl

/-- Settles O43: the oldest word of the link by what it tells, and no word. -/
theorem clientResetsMoveTheLink : Obligations.ClientResetsMoveTheLink := by
  intro s n runs
  rw [exec_crstAsserted n runs, exec_crstReleased n runs]
  refine ⟨fun change pre post waiting first => ?word, fun none => ?none⟩
  case word =>
    intro t u
    have word : firstCrstWord n s = some (change, t) := firstCrstWord_of_split waiting first
    refine ⟨fun resetter asserted => ?_, fun released => ?_⟩
    · intro noted
      rw [asserted] at word
      rw [takeAssertedWord, takeReleasedWord, word]
      exact ⟨rfl, rfl⟩
    · rw [released] at word
      rw [takeAssertedWord, takeReleasedWord, word]
      exact ⟨rfl, fun held => congrArg _ (if_pos held), fun notHeld => congrArg _ (if_neg notHeld)⟩
  case none =>
    rw [takeAssertedWord, takeReleasedWord, firstCrstWord_of_none none]
    exact ⟨rfl, rfl⟩

/-! ### The frame an idle transmitter takes -/

theorem exec_transmitterTakesFrame (n : Link) {s : State} (runs : s.runs) :
    exec (.transmitterTakesFrame n) s = .next (takeFrame n s) := congrArg Host.Outcome.next (unlessReset_of_runs _ runs)

theorem takeFrame_of_busy {n : Link} {s : State} (busy : s.transmitter n ≠ none) : takeFrame n s = s := by
  obtain ⟨f, frame⟩ := Option.ne_none_iff_exists'.mp busy
  simp only [takeFrame, frame]

section
variable {n : Link} {s : State} (idle : s.transmitter n = none)
include idle

theorem takeFrame_of_reply {r : Reply} {rest : List Reply} (replies : (s.link n).replies = r :: rest) :
    takeFrame n s = sendReply n r rest s := by
  simp only [takeFrame, idle, replies]

variable (noReply : (s.link n).replies = [])
include noReply

theorem takeFrame_of_notUp (down : (s.link n).state ≠ .up) : takeFrame n s = s := by
  simp only [takeFrame, idle, noReply, isUp_of_state_ne down]
  rfl

variable (up : (s.link n).state = .up)
include up

theorem takeFrame_of_resend {k : Byte} {rest : List Byte} (resend : (s.delivery n).resend = k :: rest) :
    takeFrame n s = resendFirst n k rest s := by
  simp only [takeFrame, idle, noReply, isUp_of_state up, resend]
  rfl

variable (noResend : (s.delivery n).resend = [])
include noResend

theorem takeFrame_of_fullWindow (full : (s.delivery n).window ≤ (s.delivery n).inFlight.length) : takeFrame n s = s := by
  simp only [takeFrame, idle, noReply, isUp_of_state up, noResend, if_neg (Nat.not_lt.mpr full)]
  rfl

/-- No head, or a head below the floor: nothing is sent for the first time (R88). -/
theorem takeFrame_of_noHead (noHead : eligibleHead (s.delivery n).floor (s.queue n) = none) : takeFrame n s = s := by
  simp only [takeFrame, idle, noReply, isUp_of_state up, noResend, noHead, ite_self]

theorem takeFrame_of_head {r : Notice} {rest : List Notice} (window : (s.delivery n).inFlight.length < (s.delivery n).window)
    (head : eligibleHead (s.delivery n).floor (s.queue n) = some (r, rest)) : takeFrame n s = firstSend n r rest s := by
  simp only [takeFrame, idle, noReply, isUp_of_state up, noResend, if_pos window, head]
  rfl

end

theorem eligibleHead_of_below {floor : Level} {r : Notice} {rest : List Notice} (below : r.level < floor) :
    eligibleHead floor (r :: rest) = none :=
  if_neg (by simpa [eligible] using below)

theorem eligibleHead_of_eligible {floor : Level} {r : Notice} {rest : List Notice} (above : floor ≤ r.level) :
    eligibleHead floor (r :: rest) = some (r, rest) :=
  if_pos (decide_eq_true above)

/-- The record resent is the one of its number, its attempt one higher (R97). -/
theorem resendFirst_of_flight {n : Link} {k : Byte} (rest : List Byte) {s : State} {f : InFlight}
    (mem : f ∈ (s.delivery n).inFlight) (carries : f.number = k)
    (distinct : ((s.delivery n).inFlight.map (·.number)).Nodup) :
    resendFirst n k rest s =
      (s.setDelivery n
        { s.delivery n with
          inFlight := (s.delivery n).inFlight.map fun g => if g.number = k then { g with attempt := g.attempt + 1 } else g
          resend := rest }).setTransmitter n
        (some ⟨frameBytes 0x81 k (noticePayload { f with attempt := f.attempt + 1 }), .notice k⟩) := by
  subst carries
  have member : { f with attempt := f.attempt + 1 } ∈
      reviseFlight (s.delivery n).inFlight f.number fun f => { f with attempt := f.attempt + 1 } :=
    List.mem_map.mpr ⟨f, mem, if_pos rfl⟩
  have numbers := numbers_reviseFlight (s.delivery n).inFlight f.number (fun f => { f with attempt := f.attempt + 1 })
    fun _ => rfl
  have found : flightOf (reviseFlight (s.delivery n).inFlight f.number fun f => { f with attempt := f.attempt + 1 })
      f.number = some { f with attempt := f.attempt + 1 } := flightOf_of_mem _ _ member (by rwa [numbers])
  rw [resendFirst]
  simp only [delivery_setDelivery_same, found, noticeFrame]
  rfl

theorem attention_iff (s : State) (n : Link) :
    s.attention n = true ↔ (s.link n).state = .up
      ∧ ((s.delivery n).inFlight ≠ [] ∨ ∃ r ∈ s.queue n, (s.delivery n).floor ≤ r.level) := by
  simp [State.attention, State.isUp, eligible]

/-- Settles O45: what is taken by turns, and the number a first send takes. -/
theorem transmittersTakeTheNextFrame : Obligations.TransmittersTakeTheNextFrame := by
  intro s n runs d
  refine ⟨attention_iff s n, ?_⟩
  intro sends idles
  have taken := exec_transmitterTakesFrame n runs
  have idling : takeFrame n s = s → idles := fun e => taken.trans (congrArg _ e)
  refine ⟨fun busy => idling (takeFrame_of_busy busy), fun idle => ⟨fun r rest replies => ?reply,
    fun noReply down => idling (takeFrame_of_notUp idle noReply down), fun noReply up => ⟨?resend, fun noResend => ?first⟩⟩⟩
  case reply => exact taken.trans (congrArg _ (takeFrame_of_reply idle replies))
  case resend =>
    intro k rest f mem resend carries distinct again
    exact taken.trans (congrArg _ ((takeFrame_of_resend idle noReply up resend).trans
      (resendFirst_of_flight rest mem carries distinct)))
  case first =>
    refine ⟨fun full => idling (takeFrame_of_fullWindow idle noReply up noResend full),
      fun empty => idling (takeFrame_of_noHead idle noReply up noResend (by rw [empty]; rfl)),
      fun r rest queue => ⟨fun below => ?_, fun above window few => ?_⟩⟩
    · exact idling (takeFrame_of_noHead idle noReply up noResend (by rw [queue, eligibleHead_of_below below]))
    · obtain ⟨free, least⟩ := pickNumber_spec d.inFlight d.nextNumber few
      refine ⟨pickNumber d.inFlight d.nextNumber, free, least, ?_⟩
      exact taken.trans (congrArg _ (takeFrame_of_head idle noReply up noResend window
        (by rw [queue, eligibleHead_of_eligible above])))

/-! ### The last byte of a frame -/

theorem exec_lastByteSent (n : Link) (pins : Half) {s : State} (runs : s.runs) :
    exec (.lastByteSent n pins) s = .next (finishFrame n (s.setPins pins)) :=
  congrArg Host.Outcome.next (unlessReset_of_runs _ runs)

/-- What becomes of the part once a frame has been sent, by what the frame carried (R94, R144, R156). -/
theorem finishFrame_of_frame {n : Link} {s : State} {f : TxFrame} (frame : s.transmitter n = some f) :
    finishFrame n s =
      (match f.carried with
       | .notice k => startAckTimer n k (s.setTransmitter n none)
       | .reply .nothing => s.setTransmitter n none
       | .reply .close =>
         if (s.link n).closing = .close then endSession n .closed (s.setTransmitter n none) else s.setTransmitter n none
       | .reply .restart =>
         if (s.link n).closing = .restart then commandRestart (s.setTransmitter n none) else s.setTransmitter n none) := by
  rw [finishFrame, frame]
  rfl

/-- Settles O46: by what the frame sent carried. -/
theorem lastBytes : Obligations.LastBytes := by
  intro s n pins runs t d becomes
  have taken := exec_lastByteSent n pins runs
  have sent : ∀ f, s.transmitter n = some f → exec (.lastByteSent n pins) s = .next _ := fun f frame =>
    taken.trans (congrArg _ (finishFrame_of_frame (s := s.setPins pins) frame))
  refine ⟨fun idle => ?_, fun bytes k frame => sent _ frame, fun bytes frame => sent _ frame,
    fun bytes frame => ⟨fun closing => ?_, fun notClosing => ?_⟩, fun bytes frame notClosing => ?_⟩
  · refine taken.trans ?_
    rw [finishFrame, show (s.setPins pins).transmitter n = none from idle]
  · exact (sent _ frame).trans (congrArg _ (if_pos closing))
  · exact (sent _ frame).trans (congrArg _ (if_neg notClosing))
  · exact (sent _ frame).trans (congrArg _ (if_neg notClosing))

end Sys2Proof.Machine

/-!
PROOF. OPEN on a SILENT link, and the requests of a session that read or set what stands (R87, R89, R144, R154, R156 to
R158).
-/

namespace Sys2Proof.Machine

/-! ### OPEN -/

/-- An OPEN payload in range is read as its bytes give it (Table 9-4). -/
theorem readOpen_of_inRange {p : List Byte} {f : Level} (inRange : openInRange p) (floor : (byteAt p 5).toNat = f.val) :
    readOpen p = some ⟨byteAt p 0, (byteAt p 1).toNat, (byteAt p 2).toNat, halfAt p 3, f⟩ := by
  obtain ⟨-, windowLow, windowHigh, ack, inactivity, -⟩ := inRange
  rw [readOpen, readLevel_eq_some.mpr floor.symm]
  simp only [if_neg (show ¬ ((byteAt p 1).toNat = 0 ∨ 4 < (byteAt p 1).toNat) by omega),
    if_neg (show ¬ (byteAt p 2).toNat = 0 by omega), if_neg (show ¬ 600 < halfAt p 3 by omega)]

theorem readOpen_of_outOfRange {p : List Byte} (length : p.length = 6) (bad : ¬ openInRange p) : readOpen p = none := by
  have unread : ∀ o, readOpen p ≠ some o := by
    intro o read
    rw [readOpen] at read
    split at read
    case h_2 => cases read
    case h_1 f floor =>
      have := readLevel_eq_some.mp floor
      have := f.isLt
      split at read
      · cases read
      · split at read
        · cases read
        · split at read
          · cases read
          · exact bad ⟨length, by omega, by omega, by omega, by omega, by omega⟩
  exact Option.eq_none_iff_forall_ne_some.mpr unread

/-- With no end of the link on its way there is nothing to settle. -/
theorem settleEnds_of_none {n : Link} {s : State} (noNotice : ∀ e ∈ s.transit.noticeEnds, e.link ≠ n)
    (noAuthority : n ∉ s.transit.authorityEnds) : settleEnds n s = s := by
  refine if_neg ?_
  simp only [Bool.or_eq_true, List.any_eq_true, decide_eq_true_eq, not_or, not_exists, not_and]
  exact ⟨noNotice, fun m mem e => noAuthority (e ▸ mem)⟩

theorem openBody_of_read {n : Link} {p : List Byte} {o : OpenItems} {s : State} (length : p.length = 6)
    (read : readOpen p = some o) :
    openBody n p s =
      accept (openReplyItems n (openSession n o (settleEnds n (endSession n .reopened s))))
        (openSession n o (settleEnds n (endSession n .reopened s))) := by
  rw [openBody, if_neg (not_not_intro length), read]

/-- Settles O9: a SILENT link with nothing of its last session on its way, and a payload out of range. -/
theorem openOpensASession : Obligations.OpenOpensASession := by
  refine ⟨fun s n tag p f answers silent noNotice noAuthority inRange floor => ?_, fun s n tag p answers length bad => ?_⟩
  · have heard : s.heard n = s.setReceiver n .hunting := framesArriveOrAreDiscarded.1 s n (by rw [silent]; decide)
    have down : (s.heard n).isUp n = false := by rw [isUp_heard]; exact isUp_of_state_ne (by rw [silent]; decide)
    refine exec_of_accept _ n tag _ s _ _ rfl answers ?_
    rw [openBody_of_read inRange.1 (readOpen_of_inRange inRange floor), endSession_of_not_up n _ _ down,
      settleEnds_of_none (by rwa [transit_heard]) (by rwa [transit_heard]), heard]
    simp only [openReplyItems, openSession, link_setDelivery, link_setLink_same]
    rfl
  · refine exec_of_refuse _ n tag _ s _ rfl answers ?_
    rw [openBody, if_neg (not_not_intro length), readOpen_of_outOfRange length bad]

/-! ### CLOSE and RESTART -/

/-- A link whose CLOSE or RESTART becomes pending: nothing the arrival of its frame did to the timer is left (R156, R158). -/
theorem queueReply_pendClosing_heard (s : State) (n : Link) (c : Closing) (r : Reply) :
    (pendClosing n c (s.heard n)).2.queueReply n r =
      (s.setReceiver n .hunting).setLink n
        { s.link n with closing := c, inactivity := none, replies := (s.link n).replies ++ [r] } := by
  have record : { (s.link n).heard with closing := c, inactivity := none } =
      { s.link n with closing := c, inactivity := none } := by
    unfold LinkRec.heard LinkRec.loadInactivity
    split <;> rfl
  simp only [pendClosing, State.queueReply, record, link_setReceiver, link_setLink_same, heard_eq,
    setLink_setLink]
  simp [State.setLink, State.setReceiver]

theorem exec_of_pending {c : Instr} {n : Link} {tag : Byte} {body : State → Answer × State} {s : State} {pended : Closing}
    (request : c.request = some (n, tag, body)) (answers : s.answers n)
    (pends : body (s.heard n) = pendClosing n pended (s.heard n)) :
    exec c s = .next ((s.setReceiver n .hunting).setLink n
      { s.link n with
        closing := pended, inactivity := none, replies := (s.link n).replies ++ [⟨tag, .ok, [], pended⟩] }) := by
  rw [exec_request_answers c n tag body s request answers, pends]
  exact congrArg _ (queueReply_pendClosing_heard s n pended _)

/-! ### What STATUS and QUERY tell does not depend on the arrival of their frame -/

@[simp] theorem poolInUse_heard (s : State) (n : Link) : (s.heard n).poolInUse = s.poolInUse := by
  simp [State.poolInUse, State.poolRecords]

theorem linkStatusItems_heard (s : State) (n m : Link) : linkStatusItems (s.heard n) m = linkStatusItems s m := by
  have same : ((s.heard n).link m).state = (s.link m).state ∧ ((s.heard n).link m).session = (s.link m).session
      ∧ ((s.heard n).link m).framingErrors = (s.link m).framingErrors
      ∧ ((s.heard n).link m).checkErrors = (s.link m).checkErrors := by
    by_cases h : m = n
    · subst h
      rw [link_heard_same, state_heardRec, session_heardRec, framingErrors_heardRec, checkErrors_heardRec]
      exact ⟨rfl, rfl, rfl, rfl⟩
    · rw [link_heard_other s n m h]
      exact ⟨rfl, rfl, rfl, rfl⟩
  obtain ⟨state, session, framing, check⟩ := same
  simp only [linkStatusItems, state, session, framing, check, loss_heard, delivery_heard]

theorem asserted_heard (s : State) (n : Link) (o : OutputIx) : (s.heard n).asserted o = s.asserted o :=
  congrArg ClaimSet.nonEmpty (claimSet_heard s n o)

theorem outputsByte_heard (s : State) (n : Link) : outputsByte (s.heard n) = outputsByte s := by
  simp only [outputsByte, asserted_heard]

theorem statusItems_heard (s : State) (n : Link) : statusItems (s.heard n) = statusItems s := by
  simp only [statusItems, linkStatusItems_heard, outputsByte_heard, uptime_heard, poolInUse_heard, authority_heard,
    resetCause_heard]

/-- Settles O11: what becomes pending, what FLOOR sets, and what PING, STATUS and QUERY tell. -/
theorem closeFloorAndReadingRequests : Obligations.CloseFloorAndReadingRequests := by
  refine ⟨fun s n tag serves => ⟨?close, fun holder => ?restart, fun f => ?floor, fun b big => ?floorBad⟩,
    fun s n tag serves => ⟨?ping, ?status, fun i => ?query, fun b big => ?queryBad⟩⟩
  case close => exact exec_of_pending rfl serves.1 (checkShapeAndOpen_heard_of_serves _ serves)
  case restart =>
    refine exec_of_pending rfl serves.1 ?_
    rw [restartBody, checkShapeAndOpen_heard_of_serves _ serves, isHolder_heard, if_pos ((isHolder_iff s n).mpr holder)]
  case floor =>
    refine exec_of_accept _ n tag _ s _ _ rfl serves.1 ?_
    rw [floorBody, checkLength_heard 1 [byteOf f] _ serves rfl, byteAt_cons_zero, readLevel_byteOf]
    simp only [delivery_heard]
  case floorBad =>
    refine exec_of_refuse _ n tag _ s _ rfl serves.1 ?_
    rw [floorBody, checkLength_heard 1 [b] _ serves rfl, byteAt_cons_zero, readLevel_of_big big]
  case ping =>
    refine exec_of_accept _ n tag _ s _ _ rfl serves.1 ?_
    rw [pingBody, checkShapeAndOpen_heard_of_serves _ serves, uptime_heard]
  case status =>
    refine exec_of_accept _ n tag _ s _ _ rfl serves.1 ?_
    rw [statusBody, checkShapeAndOpen_heard_of_serves _ serves, statusItems_heard]
  case query =>
    refine exec_of_accept _ n tag _ s _ _ rfl serves.1 ?_
    rw [queryBody, checkLength_heard 1 [byteOf i] _ serves rfl, byteAt_cons_zero, readWatchIx_byteOf]
    simp only [watch_heard]
  case queryBad =>
    refine exec_of_refuse _ n tag _ s _ rfl serves.1 ?_
    rw [queryBody, checkLength_heard 1 [b] _ serves rfl, byteAt_cons_zero, readWatchIx_of_big b big]

end Sys2Proof.Machine

/-!
PROOF. The notice unit at work: routing, broadcasts, places in the pool, and the end of a session there (R64 to R83).
-/

namespace Sys2Proof.Machine

/-! ### Who is UP at the notice unit (R44, R69) -/

theorem upAtNotices_iff (s : State) (n : Link) :
    s.upAtNotices n = true ↔ (s.link n).state = .up ∨ ∃ d ∈ s.transit.noticeEnds, d.link = n := by
  simp [State.upAtNotices, State.isUp]

theorem upFor_iff (s : State) (reset : List (Link × Byte)) (n : Link) :
    s.upFor reset n = true ↔ (s.link n).state = .up
      ∨ ((n, (s.link n).session) ∉ reset ∧ ∃ d ∈ s.transit.noticeEnds, d.link = n) := by
  rw [State.upFor]
  by_cases marked : (n, (s.link n).session) ∈ reset
  · simp [marked, State.isUp]
  · rw [if_neg (by simpa using marked), upAtNotices_iff]
    simp [marked]

/-! ### A creation taken, by its route -/

theorem takeFirst_creation {cs pre post : List Creation} {c : Creation} (waiting : cs = pre ++ c :: post)
    (first : ∀ d ∈ pre, d.channel ≠ c.channel) :
    takeFirst (fun d => d.channel = c.channel) cs = some (c, pre ++ post) := by
  rw [waiting, takeFirst_of_split _ pre post c (fun d mem => decide_eq_false (first d mem)) (decide_eq_true rfl)]

/-- The oldest creation of a channel is taken on the state without it. -/
theorem exec_noticeCreation_of_split {s : State} {c : Creation} {pre post : List Creation} (e : Extent) (runs : s.runs)
    (waiting : s.transit.creations = pre ++ c :: post) (first : ∀ d ∈ pre, d.channel ≠ c.channel) :
    exec (.noticeCreation c.channel e) s =
      .next (takeCreation c e (s.setTransit { s.transit with creations := pre ++ post })) := by
  have taken : exec (.noticeCreation c.channel e) s = .next (takeChannel c.channel e s) :=
    congrArg Host.Outcome.next (unlessReset_of_runs _ runs)
  rw [taken, takeChannel, takeFirst_creation waiting first]

theorem takeCreation_of_pair {c : Creation} {p : Link} {f : Option Link} {reset : List (Link × Byte)}
    (route : (c.route = .pair p f ∧ reset = []) ∨ c.route = .pairAfter p f reset) (e : Extent) (s : State) :
    takeCreation c e s = takePair p f reset c s := by
  rcases route with ⟨route, rfl⟩ | route <;> rw [takeCreation, route]

section
variable {p : Link} {f : Option Link} {reset : List (Link × Byte)} {c : Creation} {s : State}

theorem takePair_of_primary (up : s.upFor reset p = true) :
    takePair p f reset c s = noteOutcome c (place p f c s).1 (place p f c s).2 := by
  have placed : placePair p f reset c s = place p f c s := by
    unfold placePair
    exact if_pos up
  rw [takePair, placed]

theorem takePair_of_fallback {g : Link} (down : ¬ s.upFor reset p = true) (fallback : f = some g)
    (up : s.upFor reset g = true) : takePair p f reset c s = noteOutcome c (place g none c s).1 (place g none c s).2 := by
  subst fallback
  have placed : placePair p (some g) reset c s = place g none c s := by
    unfold placePair
    exact (if_neg down).trans (if_pos up)
  rw [takePair, placed]

/-- A loss of the primary tells no line of a creation (R67, R70). -/
theorem takePair_of_unroutable (down : ¬ s.upFor reset p = true) (fallback : ∀ g ∈ f, ¬ s.upFor reset g = true) :
    takePair p f reset c s = s.countLoss p := by
  have placed : placePair p f reset c s = (.unroutable, s.countLoss p) := by
    unfold placePair
    rw [if_neg down]
    cases f with
    | none => rfl
    | some g => exact if_neg (fallback g rfl)
  rw [takePair, placed, noteOutcome]
  cases c.key.source <;> rfl

end

theorem noteOutcome_eq (c : Creation) (o : NoticeOutcome) (s : State) :
    noteOutcome c o s = match c.key.source with
      | .line l => if o = .created then s.setLine l { s.line l with pending := true } else s
      | _ => s := by
  unfold noteOutcome
  cases c.key.source <;> rfl

/-- A watch's notice notes the links its own claims have put in HELD (R44). -/
theorem handed_of_reset {s : State} {c : Creation} {i : WatchIx} {g : Byte} {p : Link} {f : Option Link}
    (source : c.key.source = .watch i) (generation : c.key.generation = some g) (route : c.route = .pair p f)
    (reset : s.resetBy i g ≠ []) : c.handed s = { c with route := .pairAfter p f (s.resetBy i g) } := by
  rw [Creation.handed, source, generation, route]
  exact if_neg reset

theorem handed_of_unmarked {s : State} {c : Creation}
    (unmarked : ∀ i g p f, c.key.source = .watch i → c.key.generation = some g → c.route = .pair p f → s.resetBy i g = []) :
    c.handed s = c := by
  unfold Creation.handed
  split
  · next i g p f source generation route => exact if_pos (unmarked i g p f source generation route)
  · rfl

/-- Settles O37: the route a creation takes by who is UP, and the mark it is handed over with. -/
theorem noticesAreRouted : Obligations.NoticesAreRouted := by
  refine ⟨fun s c e pre post runs waiting first => ?routed, fun s cs => rfl, fun s c => ?handed⟩
  case routed =>
    intro t up told becomes
    have taken : becomes (takeCreation c e t) := exec_noticeCreation_of_split e runs waiting first
    have becomes_of : ∀ u, takeCreation c e t = u → becomes u := fun u eq => eq ▸ taken
    have tells : ∀ r : NoticeOutcome × State, noteOutcome c r.1 r.2 = told r := fun r => noteOutcome_eq c r.1 r.2
    have counts : ∀ reset n, t.upFor reset n = true ↔ up reset n := fun reset n => upFor_iff t reset n
    have countsBare : ∀ n, t.upAtNotices n = true ↔ up [] n := fun n => by
      rw [← counts, State.upFor]
      simp
    refine ⟨taken, fun p f reset route => ⟨fun isUp => ?_, fun g down fallback isUp => ?_, fun down fallback => ?_⟩,
      fun n route => ⟨fun isUp => ?_, fun down => ?_⟩⟩
    · refine becomes_of _ ?_
      rw [takeCreation_of_pair route, takePair_of_primary ((counts reset p).mpr isUp), tells]
    · refine becomes_of _ ?_
      rw [takeCreation_of_pair route,
        takePair_of_fallback (mt (counts reset p).mp down) fallback ((counts reset g).mpr isUp), tells]
    · refine becomes_of _ ?_
      rw [takeCreation_of_pair route, takePair_of_unroutable (mt (counts reset p).mp down)
        fun g mem => mt (counts reset g).mp (fallback g mem)]
      rfl
    · refine becomes_of _ ?_
      rw [takeCreation, route]
      exact if_pos ((countsBare n).mpr isUp)
    · refine becomes_of _ ?_
      rw [takeCreation, route]
      exact if_neg (mt (countsBare n).mp down)
  case handed =>
    intro resetBy
    exact ⟨fun i g p f => handed_of_reset, handed_of_unmarked⟩

/-! ### Broadcasts -/

/-- A placement changes nobody's standing at the notice unit. -/
theorem upAtNotices_place (n m : Link) (c : Creation) (s : State) :
    (place n none c s).2.upAtNotices m = s.upAtNotices m := by
  rw [onlyPool_place n none c s]
  rfl

/-- The copies made are those for the links that are UP, one after the other (R68, R69). -/
theorem placeCopies_eq_foldl (c : Creation) (links : List Link) (s : State) :
    placeCopies c links s = (links.filter s.upAtNotices).foldl (fun u n => (place n none c u).2) s := by
  induction links generalizing s with
  | nil => rfl
  | cons n ns ih =>
    rw [placeCopies]
    by_cases up : s.upAtNotices n = true
    · have same : (place n none c s).2.upAtNotices = s.upAtNotices := funext fun m => upAtNotices_place n m c s
      rw [if_pos up, ih, same, List.filter_cons_of_pos up, List.foldl_cons]
    · rw [if_neg up, ih, List.filter_cons_of_neg up]

/-- One copy taken by itself of those that can be made, the others waiting for theirs (R74). -/
def firstCopy (c : Creation) (s : State) : List Link → State
  | [] => s
  | n :: ns =>
    let t := (place n none c s).2
    if ns.isEmpty then t else t.setTransit { t.transit with creations := { c with route := .copies ns } :: t.transit.creations }

theorem takeCopies_oneCopy (c : Creation) (links : List Link) (s : State) :
    takeCopies c links .oneCopy s = firstCopy c s (links.filter s.upAtNotices) := by
  rw [takeCopies]
  cases possible : links.filter s.upAtNotices with
  | nil => rfl
  | cons n ns =>
    have up : s.upAtNotices n = true :=
      (List.mem_filter.mp (possible ▸ List.mem_cons_self : n ∈ links.filter s.upAtNotices)).2
    simp only [placeCopies, if_pos up, firstCopy]

/-- A broadcast is for links that are UP. -/
theorem filter_broadcastLinks (s : State) (except : Option Link) :
    (s.broadcastLinks except).filter s.upAtNotices = s.broadcastLinks except := by
  rw [List.filter_eq_self]
  intro n mem
  have counted := (List.mem_filter.mp mem).2
  rw [Bool.and_eq_true] at counted
  exact counted.1

/-- A broadcast, and what is left of one, is taken as the copies for the links that are UP. -/
theorem takeCreation_of_copies {c : Creation} {s : State} {links : List Link}
    (route : (∃ except, c.route = .broadcast except ∧ links = s.broadcastLinks except)
      ∨ ∃ rest, c.route = .copies rest ∧ links = rest.filter s.upAtNotices) :
    takeCreation c .whole s = links.foldl (fun u n => (place n none c u).2) s
    ∧ takeCreation c .oneCopy s = firstCopy c s links := by
  obtain ⟨listed, taken, possible⟩ : ∃ listed, (∀ e, takeCreation c e s = takeCopies c listed e s)
      ∧ listed.filter s.upAtNotices = links := by
    rcases route with ⟨except, route, rfl⟩ | ⟨rest, route, rfl⟩
    · exact ⟨_, fun e => by rw [takeCreation, route], filter_broadcastLinks s except⟩
    · exact ⟨_, fun e => by rw [takeCreation, route], rfl⟩
  subst possible
  exact ⟨(taken .whole).trans (placeCopies_eq_foldl c listed s), (taken .oneCopy).trans (takeCopies_oneCopy c listed s)⟩

/-- Settles O38: the whole broadcast, and the first of no, one and more copies. -/
theorem broadcastsAreCopied : Obligations.BroadcastsAreCopied := by
  intro s c pre post runs waiting first t up copy links route
  have taken := fun e => exec_noticeCreation_of_split e runs waiting first
  obtain ⟨whole, one⟩ := takeCreation_of_copies (s := t) (c := c) (links := links) route
  refine ⟨(taken .whole).trans (congrArg _ whole), fun empty => ?_, fun n single => ?_, fun n m ms several => ?_⟩
  · subst empty; exact (taken .oneCopy).trans (congrArg _ one)
  · subst single; exact (taken .oneCopy).trans (congrArg _ one)
  · subst several; exact (taken .oneCopy).trans (congrArg _ one)

/-! ### Places in the pool -/

theorem admits_iff (level : Level) (inUse : Nat) :
    admits level inUse = true ↔ if level = 3 then inUse < 64 else inUse < 56 := by
  rw [admits]
  by_cases high : level = 3
  · rw [if_pos high, if_pos high]
    exact decide_eq_true_iff
  · rw [if_neg high, if_neg high]
    exact decide_eq_true_iff

/-- A record that joins the queue of a link that stands by level. -/
theorem createRecord_eq (n : Link) (onward : Option Link) (c : Creation) {s : State} (stands : byLevel (s.queue n)) :
    s.createRecord n onward c =
      { s.setQueue n ((s.queue n).filter (fun x => decide (c.level ≤ x.level))
            ++ c.record onward s.uptime s.stamp :: (s.queue n).filter (fun x => decide (x.level < c.level))) with
        stamp := s.stamp + 1 } := by
  rw [State.createRecord, enqueue_eq _ _ stands]
  rfl

theorem evict_eq (s : State) (m : Link) (r : Notice) :
    s.evict m r =
      ((s.setQueue m ((s.queue m).erase r)).setLoss m (min 255 (s.loss m + 1))).reportDeparture r .evicted := rfl

theorem byLevel_queue_evict {s : State} (law : s.queueLaw) (m n : Link) (r : Notice) : byLevel ((s.evict m r).queue n) := by
  rw [queue_evict]
  split
  · exact (law m).1.sublist List.erase_sublist
  · exact (law n).1

theorem uptime_evict (s : State) (m : Link) (r : Notice) : (s.evict m r).uptime = s.uptime := by
  rw [onlyPool_evict]

theorem stamp_evict (s : State) (m : Link) (r : Notice) : (s.evict m r).stamp = s.stamp := by
  rw [State.evict, reportDeparture_eq]
  rfl

/-- In a queue of distinct keys, what stands before a record has other keys than it. -/
theorem key_ne_of_before {before after : List Notice} {w : Notice}
    (distinct : ((before ++ w :: after).map (·.key)).Nodup) : ∀ r ∈ before, r.key ≠ w.key := by
  rw [List.map_append, List.map_cons, List.nodup_append] at distinct
  exact fun r mem same => distinct.2.2 _ (List.mem_map_of_mem mem) _ (List.mem_cons_self ..) same

theorem level_lt_max_iff (a b : Level) : a < max a b ↔ a < b := by simp

/-- Settles O39: coalescing, creation within the limits, dropping, and creation by eviction. -/
theorem placesInThePool : Obligations.PlacesInThePool := by
  intro n onward c s mine fresh fits joins law
  have admitted : admits c.level s.poolInUse = true ↔ fits := admits_iff c.level s.poolInUse
  refine ⟨fun before w after split same => ?coalesces, fun fresh_ => ?created⟩
  case coalesces =>
    intro w'
    have queue : s.queue n = before ++ w :: after := split
    have stands : byLevel (before ++ w :: after) := queue ▸ (law n).1
    have others := key_ne_of_before (queue ▸ (law n).2)
    have found : findKey c.key (s.queue n) = some w := by
      rw [queue]
      exact findKey_of_split _ _ _ _ (fun r mem => same ▸ others r mem) same
    have revised : revise w (w.absorb c s.stamp) (s.queue n) =
        if w.level < c.level then joins (before ++ after) w' else before ++ w' :: after := by
      have without : byLevel (before ++ after) :=
        stands.sublist (List.Sublist.append_left (List.sublist_cons_self w after) before)
      rw [queue, revise_of_split w _ before after others, enqueue_eq _ _ without]
      exact if_congr (level_lt_max_iff w.level c.level) rfl rfl
    rw [place, found]
    simp only [revised]
    rfl
  case created =>
    have none : findKey c.key (s.queue n) = .none := findKey_of_none _ _ fresh_
    refine ⟨fun fit => ?_, fun full noVictim => ?_, fun full some => ?_⟩
    · rw [place, none]
      simp only [if_pos (admitted.mpr fit), createRecord_eq n onward c (law n).1]
      rfl
    · rw [place, none]
      simp only [if_neg (mt admitted.mp full), (victim_eq_none_iff s c.level).mpr noVictim]
      rfl
    · have exists_ : s.victim c.level ≠ .none := fun h => by
        obtain ⟨m, r, mem, lower⟩ := some
        exact absurd lower (not_lt.mpr ((victim_eq_none_iff s c.level).mp h m r mem))
      obtain ⟨⟨m, r⟩, victim⟩ := Option.ne_none_iff_exists'.mp exists_
      obtain ⟨mem, lower, least⟩ := victim_eq_some s c.level m r victim
      refine ⟨m, r, mem, lower, least, ?_⟩
      rw [place, none]
      simp only [if_neg (mt admitted.mp full), victim, createRecord_eq n onward c (byLevel_queue_evict law m n r),
        uptime_evict, stamp_evict]
      rfl

/-! ### The end of a session at the notice unit -/

theorem findKey_of_first {r w : Notice} {q before after : List Notice} (split : q = before ++ w :: after)
    (same : w.key = r.key) (first : ∀ x ∈ before, x.key ≠ r.key) : findKey r.key q = some w := by
  rw [split]
  exact findKey_of_split _ _ _ _ first same

/-- A record whose onward link is its own, or none that is UP, is discarded (R83). -/
theorem dealWith_of_nowhere {n : Link} {s : State} {r : Notice}
    (nowhere : ∀ m ∈ r.onward, m = n ∨ ¬ s.upAtNotices m = true) : dealWith n s r = discardRecord n r s := by
  rw [dealWith]
  cases onward : r.onward with
  | none => rfl
  | some m =>
    refine if_neg ?_
    rintro ⟨other, up⟩
    rcases nowhere m onward with rfl | down
    · exact other rfl
    · exact down up

theorem dealWith_of_redirected {n m : Link} {s : State} {r : Notice} (onward : r.onward = some m) (other : m ≠ n)
    (up : s.upAtNotices m = true) (none : ∀ w ∈ s.queue m, w.key ≠ r.key) : dealWith n s r = redirect n m r s := by
  simp only [dealWith, onward, if_pos (And.intro other up), findKey_of_none _ _ none]

theorem dealWith_of_merged {n m : Link} {s : State} {r w : Notice} {before after : List Notice}
    (onward : r.onward = some m) (other : m ≠ n) (up : s.upAtNotices m = true)
    (split : s.queue m = before ++ w :: after) (same : w.key = r.key) (first : ∀ x ∈ before, x.key ≠ r.key) :
    dealWith n s r = s.setQueue m
      (if w.level < r.level then enqueue (w.merge r n) (before ++ after) else before ++ w.merge r n :: after) := by
  have revised : revise w (w.merge r n) (s.queue m) =
      if w.level < r.level then enqueue (w.merge r n) (before ++ after) else before ++ w.merge r n :: after := by
    rw [split, revise_of_split w _ before after (same ▸ first)]
    exact if_congr (level_lt_max_iff w.level r.level) rfl rfl
  simp only [dealWith, onward, if_pos (And.intro other up), findKey_of_first split same first, revised]

/-- A record of a link goes anywhere but back to its own queue. -/
theorem queue_dealWith_same (n : Link) (s : State) (r : Notice) : (dealWith n s r).queue n = s.queue n := by
  have gone : (discardRecord n r s).queue n = s.queue n := by
    rw [discardRecord, reportDeparture_eq]
    rfl
  unfold dealWith
  split
  · next m _ =>
    split
    · next going =>
      have other : n ≠ m := fun e => going.1 e.symm
      split
      · exact queue_setQueue_other _ _ _ _ other
      · exact queue_setQueue_other _ _ _ _ other
    · exact gone
  · exact gone

theorem queue_dealWithAll_same (n : Link) (rs : List Notice) (s : State) :
    (rs.foldl (dealWith n) s).queue n = s.queue n := by
  induction rs generalizing s with
  | nil => rfl
  | cons r rs ih => rw [List.foldl_cons, ih, queue_dealWith_same]

/-- A placement on another link may evict from a queue, and adds nothing to it. -/
theorem queue_place_other_of_empty {m n : Link} (onward : Option Link) (c : Creation) {s : State} (other : n ≠ m)
    (empty : s.queue n = []) : (place m onward c s).2.queue n = [] := by
  rcases place_cases m onward c s with ⟨w, _, e⟩ | ⟨_, _, e⟩ | ⟨v, _, _, _, e⟩ | ⟨_, _, _, e⟩ <;> rw [e]
  · exact (queue_setQueue_other _ _ _ _ other).trans empty
  · exact (queue_setQueue_other _ _ _ _ other).trans empty
  · refine (queue_setQueue_other _ _ _ _ other).trans ?_
    rw [queue_evict]
    split
    · next e => rw [← e, empty]; rfl
    · exact empty
  · exact empty

theorem queue_placeCopies_of_empty {n : Link} (c : Creation) {links : List Link} {s : State} (others : n ∉ links)
    (empty : s.queue n = []) : (placeCopies c links s).queue n = [] := by
  induction links generalizing s with
  | nil => exact empty
  | cons m ms ih =>
    rw [List.mem_cons, not_or] at others
    obtain ⟨other, others⟩ := others
    rw [placeCopies]
    refine ih others ?_
    split
    · exact queue_place_other_of_empty none c other empty
    · exact empty

/-- LINKLOST about a link puts nothing in its own queue (R78). -/
theorem queue_linkLost_of_empty {e : NoticeEnd} {s : State} (empty : s.queue e.link = []) :
    (takeCreation (linkLost e) .whole s).queue e.link = [] :=
  queue_placeCopies_of_empty _ (fun mem => by simp [State.broadcastLinks] at mem) empty

/-- The notice unit takes the oldest end of link `e.link` that waits. -/
theorem noticeShare_of_split {s : State} {e : NoticeEnd} {pre post : List NoticeEnd} (x : Extent)
    (waiting : s.transit.noticeEnds = pre ++ e :: post) (first : ∀ d ∈ pre, d.link ≠ e.link) :
    noticeShare e.link x s = takeNoticeEnd e x (s.setTransit { s.transit with noticeEnds := pre ++ post }) := by
  rw [noticeShare, waiting,
    takeFirst_of_split _ pre post e (fun d mem => decide_eq_false (first d mem)) (decide_eq_true rfl)]

theorem noticeShare_of_none {s : State} {n : Link} (x : Extent) (none : ∀ d ∈ s.transit.noticeEnds, d.link ≠ n) :
    noticeShare n x s = s := by
  rw [noticeShare, takeFirst_of_none _ _ fun d mem => decide_eq_false (none d mem)]

theorem exec_noticeUnitSessionEnd (n : Link) (x : Extent) {s : State} (runs : s.runs) :
    exec (.noticeUnitSessionEnd n x) s = .next (noticeShare n x s) :=
  congrArg Host.Outcome.next (unlessReset_of_runs _ runs)

/-- Settles O40: the end taken, what becomes of one record, and no end. -/
theorem sessionEndsReachTheNotices : Obligations.SessionEndsReachTheNotices := by
  refine ⟨fun s e x pre post waiting first => ?ends, fun s n r => ?record, fun s n x none => ?none⟩
  case ends =>
    intro t dealt lost becomes
    have share := noticeShare_of_split x waiting first
    have becomes_of : ∀ u, takeNoticeEnd e x t = u → becomes u := fun u taken => by
      have eq := share.trans taken
      exact ⟨eq, fun runs => by rw [exec_noticeUnitSessionEnd e.link x runs, eq]⟩
    have empty : dealt.queue e.link = [] :=
      (queue_dealWithAll_same e.link _ _).trans (queue_setQueue_same _ _ _)
    exact ⟨fun closed => becomes_of _ (if_pos closed), fun notClosed => becomes_of _ (if_neg notClosed), empty,
      queue_linkLost_of_empty empty⟩
  case record =>
    intro up lost
    have counts : ∀ m, s.upAtNotices m = true ↔ up m := upAtNotices_iff s
    refine ⟨fun nowhere => ?_, fun m onward other isUp => ⟨fun none => ?_, fun before w after split same first => ?_⟩⟩
    · exact dealWith_of_nowhere fun m mem => (nowhere m mem).imp_right (mt (counts m).mp)
    · exact dealWith_of_redirected onward other ((counts m).mpr isUp) none
    · exact dealWith_of_merged onward other ((counts m).mpr isUp) split same first
  case none =>
    exact ⟨noticeShare_of_none x none, fun runs => by rw [exec_noticeUnitSessionEnd n x runs, noticeShare_of_none x none]⟩

end Sys2Proof.Machine

/-!
PROOF. OPEN on a link with a session: the last session ends with every consequence of it, and the new one starts with nothing
of it left (R140, R154, R155, R159).
-/

namespace Sys2Proof.Machine

/-! ### The consequences, in either order -/

theorem channel_eq_authority_iff (c : Creation) : c.channel = .authority ↔ c.key.source = .authority := by
  unfold Creation.channel Source.channel
  cases c.key.source <;> simp

/-- The authority's channel carries the authority's notices. -/
theorem drainChannel_authority_eq (s : State) :
    drainChannel .authority s =
      (s.transit.creations.filter fun c => c.key.source = .authority).foldl (fun v c => takeCreation c .whole v)
        (s.setTransit { s.transit with creations := s.transit.creations.filter fun c => c.key.source ≠ .authority }) := by
  simp only [drainChannel, channel_eq_authority_iff, ne_eq]

theorem settleEnds_of_waiting {n : Link} {s : State}
    (waits : (∃ e ∈ s.transit.noticeEnds, e.link = n) ∨ n ∈ s.transit.authorityEnds) :
    settleEnds n s =
      if Config.authorityShareFirst s.choices then
        noticeShare n .whole (drainChannel .authority (authorityShare n { s with choices := s.choices + 1 }))
      else authorityShare n (noticeShare n .whole { s with choices := s.choices + 1 }) := by
  refine if_pos ?_
  simp only [Bool.or_eq_true, List.any_eq_true, decide_eq_true_eq]
  exact waits.imp_right fun mem => ⟨n, mem, rfl⟩

/-! ### What is left of the last session -/

/-- The notice unit's share of an end that waits leaves nothing unsent on its link (R78). -/
theorem queue_noticeShare {n : Link} {s : State} (waits : ∃ e ∈ s.transit.noticeEnds, e.link = n) :
    (noticeShare n .whole s).queue n = [] := by
  obtain ⟨e, mem, own⟩ := waits
  rcases takeFirst_cases (fun e => decide (e.link = n)) s.transit.noticeEnds with ⟨_, none⟩ | ⟨pre, d, post, ends, first, this, _⟩
  · exact absurd own (by simpa using none e mem)
  · obtain rfl : d.link = n := by simpa using this
    rw [noticeShare_of_split .whole ends fun x mem => by simpa using first x mem]
    have empty : ((d.handed ++ s.queue d.link).foldl (dealWith d.link)
        ((s.setTransit { s.transit with noticeEnds := pre ++ post }).setQueue d.link [])).queue d.link = [] :=
      (queue_dealWithAll_same d.link _ _).trans (queue_setQueue_same _ _ _)
    unfold takeNoticeEnd
    simp only
    split
    · exact empty
    · exact queue_linkLost_of_empty empty

/-- Once an end of link `n` that waits at the notice unit is settled, nothing is unsent on the link. -/
theorem queue_settleEnds_of_waiting {n : Link} {s : State} (waits : ∃ e ∈ s.transit.noticeEnds, e.link = n) :
    (settleEnds n s).queue n = [] := by
  rw [settleEnds_of_waiting (.inl waits)]
  split
  · refine queue_noticeShare ?_
    have same : (drainChannel .authority (authorityShare n { s with choices := s.choices + 1 })).transit.noticeEnds =
        s.transit.noticeEnds := by
      rw [onlyNotices_drainChannel, authorityShare]
      split
      · rfl
      · rw [onlyAuthority_takeAuthorityEnd]; rfl
    rwa [same]
  · have kept : ∀ u : State, (authorityShare n u).queue n = u.queue n := fun u => by
      rw [authorityShare]
      split
      · rfl
      · rw [onlyAuthority_takeAuthorityEnd]; rfl
    rw [kept]
    exact queue_noticeShare waits

/-- A session that ends hands its end to the notice unit. -/
theorem waits_endSession {n : Link} {s : State} (why : EndReason) (up : s.isUp n = true) :
    ∃ e ∈ (endSession n why s).transit.noticeEnds, e.link = n := by
  rw [endSession_of_up n why s up]
  exact ⟨_, List.mem_append_right _ (List.mem_singleton_self _), rfl⟩

/-- Settled, a link that takes a new session has nothing unsent of the last. -/
theorem queue_reopened {n : Link} {s : State} (law : s.silentQueueLaw) (prompt : s.transit.authorityEnds = []) :
    (settleEnds n (endSession n .reopened (s.heard n))).queue n = [] := by
  by_cases waits : ∃ e ∈ (endSession n .reopened (s.heard n)).transit.noticeEnds, e.link = n
  · exact queue_settleEnds_of_waiting waits
  · have down : s.isUp n = false := by
      rw [← isUp_heard s n n]
      exact Bool.eq_false_iff.mpr fun up => waits (waits_endSession .reopened up)
    rw [endSession_of_not_up n _ _ (by rwa [isUp_heard]), transit_heard] at waits
    have none : ∀ e ∈ s.transit.noticeEnds, e.link ≠ n := fun e mem own => waits ⟨e, mem, own⟩
    rw [endSession_of_not_up n _ _ (by rwa [isUp_heard]),
      settleEnds_of_none (by rwa [transit_heard]) (by rw [transit_heard, prompt]; exact List.not_mem_nil), queue_heard]
    exact law n down none

/-- An ended session has nothing in flight, and a link without a session has nothing in flight either. -/
theorem inFlight_reopened {n : Link} {s : State} (law : s.windowLaw) :
    ((settleEnds n (endSession n .reopened (s.heard n))).delivery n).inFlight = [] := by
  have kept : ∀ u : State, (settleEnds n u).delivery n = u.delivery n := fun u => by rw [onlyShares_settleEnds n u]; rfl
  rw [kept]
  cases up : (s.heard n).isUp n with
  | true => rw [endSession_of_up n _ _ up]; simp
  | false =>
    rw [endSession_of_not_up n _ _ up, delivery_heard]
    obtain ⟨-, -, -, -, empty⟩ := law n
    exact empty (by rwa [isUp_heard] at up)

/-- Settled, the link neither holds the authority nor is offered it nor waits for it: a link without a session cannot. -/
theorem authority_reopened {n : Link} {s : State} (laws : s.authorityLaws) (prompt : s.transit.authorityEnds = []) :
    let u := settleEnds n (endSession n .reopened (s.heard n))
    u.authority.mode.holder ≠ some n ∧ u.authority.mode.offered ≠ some n ∧ n ∉ u.authority.claimList := by
  intro u
  have heard : (s.heard n).authorityLaws := authorityLaws_of_eq laws (authority_heard s n) (by rw [transit_heard])
    (by rw [transit_heard]) fun m => isUp_heard s n m
  have heardPrompt : (s.heard n).transit.authorityEnds = [] := by rw [transit_heard, prompt]
  have alone : ∀ m ∈ (endSession n .reopened (s.heard n)).transit.authorityEnds, m = n := by
    intro m mem
    cases up : (s.heard n).isUp n with
    | true =>
      rw [endSession_of_up n _ _ up] at mem
      change m ∈ (s.heard n).transit.authorityEnds ++ [n] at mem
      rw [heardPrompt] at mem
      exact List.mem_singleton.mp mem
    | false =>
      rw [endSession_of_not_up n _ _ up, heardPrompt] at mem
      cases mem
  obtain ⟨settled, settledPrompt, -⟩ := authorityLaws_settleEnds n alone (authorityLaws_endSession n .reopened heardPrompt heard)
  have down : u.isUp n = false := by
    have same : u.isUp n = (endSession n .reopened (s.heard n)).isUp n :=
      isUp_congr (congrArg LinkRec.state (link_settleEnds n n _))
    rw [same, isUp_endSession, if_pos rfl]
  have absent : ¬ u.present n := fun present =>
    absurd ((present_of_prompt settledPrompt n).mp present) (by rw [down]; decide)
  have sound := (authorityLaw_iff u).mp settled.1
  exact ⟨fun holder => absent (sound.holder n holder).1, fun offered => absent (sound.offered n offered).1,
    fun waiting => absent (sound.waiting n waiting)⟩

/-! ### The new session -/

section
variable (n : Link) (o : OpenItems) (tag : Byte) (items : List Byte) (u : State)

theorem watches_opened : ((openSession n o u).replied n tag .ok items).watches = u.watches := rfl

theorem uptime_opened : ((openSession n o u).replied n tag .ok items).uptime = u.uptime := rfl

theorem queue_opened (m : Link) : ((openSession n o u).replied n tag .ok items).queue m = u.queue m := rfl

theorem authority_opened : ((openSession n o u).replied n tag .ok items).authority = u.authority := rfl

theorem link_opened_same :
    ((openSession n o u).replied n tag .ok items).link n =
      { (openSession n o u).link n with
        replies := ((openSession n o u).link n).replies ++ [⟨tag, .ok, items, .nothing⟩] } := link_setLink_same _ _ _

theorem link_opened_other {m : Link} (other : m ≠ n) :
    ((openSession n o u).replied n tag .ok items).link m = u.link m :=
  (link_setLink_other _ _ _ _ other).trans (link_setLink_other _ _ _ _ other)

theorem inFlight_opened : (((openSession n o u).replied n tag .ok items).delivery n).inFlight = (u.delivery n).inFlight := by
  rw [State.replied, State.queueReply, delivery_setLink, openSession, delivery_setDelivery_same]
  rfl

/-- The link's record once a session has opened on it and its reply is queued. -/
theorem record_opened :
    let l := ((openSession n o u).replied n tag .ok items).link n
    l.state = .up ∧ l.session = (u.link n).session + 1 ∧ l.client = o.client
      ∧ l.replies.length = (u.link n).replies.length + 1 := by
  intro l
  have opened : l = _ := link_opened_same n o tag items u
  rw [link_openSession_same] at opened
  rw [opened]
  exact ⟨rfl, rfl, rfl, List.length_append⟩

/-- What the OPEN reply tells (Table 10-4). -/
theorem openReplyItems_opened :
    openReplyItems n (openSession n o u) =
      [(u.link n).session + 1, u.resetCause.code, 1, 64, 32, 16] ++ uptimeBytes u.uptime := by
  rw [openReplyItems, link_openSession_same]
  rfl

end

/-- The state an OPEN finds once the last session's end is settled. -/
def reopened (n : Link) (s : State) : State := settleEnds n (endSession n .reopened (s.heard n))

theorem link_reopened_same (n : Link) (s : State) :
    ((reopened n s).link n).session = (s.link n).session
    ∧ ((reopened n s).link n).replies.length = (s.link n).replies.length := by
  rw [reopened, link_settleEnds]
  constructor
  · rw [link_endSession]
    split <;> rw [link_heard_same, session_heardRec]
  · rw [replies_endSession_length, link_heard_same, replies_heardRec]

theorem link_reopened_other (n : Link) (s : State) {m : Link} (other : m ≠ n) : (reopened n s).link m = s.link m := by
  rw [reopened, link_settleEnds, link_endSession, if_neg (fun h => other h.1), link_heard_other s n m other]

/-- The other blocks keep what they have. -/
theorem others_reopened (n : Link) (s : State) :
    (reopened n s).watches = s.watches ∧ (reopened n s).uptime = s.uptime ∧ (reopened n s).resetCause = s.resetCause := by
  have shares := onlyShares_settleEnds n (endSession n .reopened (s.heard n))
  have ends := onlyEnds_endSession n .reopened (s.heard n)
  rw [reopened, shares, ends]
  exact ⟨watches_heard s n, uptime_heard s n, resetCause_heard s n⟩

/-- Settles O10: the state an OPEN leaves, what is left in it of the last session, and the two orders of the shares. -/
theorem reopeningGivesEverythingUp : Obligations.ReopeningGivesEverythingUp := by
  refine ⟨fun s n tag p f answers inRange floor => ?opens, fun s n => ?orders, fun s n runs => ?commands⟩
  case opens =>
    have prompt := (prompt_and_ears_of_answers answers).1
    obtain ⟨watches, uptime, cause⟩ := others_reopened n s
    obtain ⟨session, replies⟩ := link_reopened_same n s
    have items := openReplyItems_opened n ⟨byteAt p 0, (byteAt p 1).toNat, (byteAt p 2).toNat, halfAt p 3, f⟩ (reopened n s)
    rw [session, cause, uptime] at items
    have body := openBody_of_read (n := n) (s := s.heard n) inRange.1 (readOpen_of_inRange inRange floor)
    obtain ⟨t, left⟩ : ∃ t, t = (openSession n ⟨byteAt p 0, (byteAt p 1).toNat, (byteAt p 2).toNat, halfAt p 3, f⟩
        (reopened n s)).replied n tag .ok
          ([(s.link n).session + 1, s.resetCause.code, 1, 64, 32, 16] ++ uptimeBytes s.uptime) := ⟨_, rfl⟩
    obtain ⟨isUp, number, client, queued⟩ := record_opened n ⟨byteAt p 0, (byteAt p 1).toNat, (byteAt p 2).toNat, halfAt p 3, f⟩
      tag ([(s.link n).session + 1, s.resetCause.code, 1, 64, 32, 16] ++ uptimeBytes s.uptime) (reopened n s)
    rw [← left] at isUp number client queued
    refine ⟨t, ?_, left, isUp, by rw [number, session], client, by rw [queued, replies],
      by rw [left, watches_opened, watches], by rw [left, uptime_opened, uptime],
      fun m other => by rw [left, link_opened_other _ _ _ _ _ other, link_reopened_other n s other],
      fun ends authority silent window => ?_⟩
    · rw [left]
      exact exec_of_accept _ n tag _ s _ _ rfl answers (body.trans (congrArg (accept · _) items))
    · obtain ⟨holder, offered, waiting⟩ := authority_reopened ⟨authority, ends⟩ prompt
      rw [left, inFlight_opened, queue_opened, authority_opened]
      exact ⟨inFlight_reopened window, queue_reopened silent prompt, holder, offered, waiting⟩
  case orders =>
    intro waits t noticesTaken
    have taken : ∀ u, noticesTaken u = drainChannel .authority u := fun u => (drainChannel_authority_eq u).symm
    refine ⟨fun none => ?_, fun some => ?_⟩
    · exact settleEnds_of_none (fun e mem own => none (.inl ⟨e, mem, own⟩)) fun mem => none (.inr mem)
    · rw [settleEnds_of_waiting some, taken]
  case commands =>
    exact ⟨fun x => exec_noticeUnitSessionEnd n x runs, fun ends => exec_authoritySessionEnd n runs.1⟩

end Sys2Proof.Machine

/-!
PROOF. The resets: a power-on and a held RESET, the release of RESET, and the command restart at every block (R18 to R20, R85,
R103, R106, R117, R130, R145, R146, R160, R161).
-/

namespace Sys2Proof.Machine

/-! ### Power-on and pin reset -/

/-- The straps choose the rate (Table 9-1). -/
theorem rateOf_eq (straps : Straps) :
    rateOf straps = if straps = 0 then .baud57600 else if straps = 1 then .baud115200 else if straps = 2 then .baud460800
      else .baud921600 := by
  revert straps
  decide

theorem endReset_eq (pins : Half) (straps : Straps) (u : State) :
    endReset pins straps u =
      { u with
        evPins := pins
        rate := if straps = 0 then .baud57600 else if straps = 1 then .baud115200 else if straps = 2 then .baud460800
          else .baud921600
        lines := Vector.ofFn fun l =>
          { u.line l with
            accepted := pins.getLsbD l, pinLevel := pins.getLsbD l, disagreement := 0, pending := false
            overrun := 0, dueSample := none } } := by
  rw [← rateOf_eq]
  rfl

theorem line_reinitialise (cause : ResetCause) (s : State) (l : LineIx) :
    (reinitialise cause s).line l = LineRec.atReset false := (line_reset l).trans rfl

theorem exec_powerOnReset (pins : Half) (straps : Straps) (s : State) :
    exec (.powerOnReset pins straps) s = .next (endReset pins straps (reinitialise .power s)) := rfl

theorem exec_resetReleased_of_held (pins : Half) (straps : Straps) {s : State} (held : s.resetIsHeld = true) :
    exec (.resetReleased pins straps) s =
      .next { endReset pins straps s with resetIsHeld := false, resetCause := .pin } :=
  congrArg Host.Outcome.next (if_pos held)

theorem exec_resetReleased_of_runs (pins : Half) (straps : Straps) {s : State} (runs : s.runs) :
    exec (.resetReleased pins straps) s = .next s := by
  have settled : exec (.resetReleased pins straps) s = .next (settleAuthority s) :=
    congrArg Host.Outcome.next (if_neg (Bool.eq_false_iff.mp runs.1))
  rw [settled, settleAuthority_of_prompt s runs.2]

/-- Nothing but a reset reaches a part in RESET. -/
theorem exec_of_held {c : Instr} {s : State} (held : s.resetIsHeld = true) (notReset : c.resets = false)
    (notRelease : ∀ pins straps, c ≠ .resetReleased pins straps) : exec c s = .next s := by
  have event : ∀ f : State → State, Host.Outcome.next (unlessReset f s) = (.next s : Host.Outcome State Fault Refusal) :=
    fun f => congrArg _ (unlessReset_of_held f s held)
  cases c
  case powerOnReset => cases notReset
  case resetHeld => cases notReset
  case resetReleased pins straps => exact absurd rfl (notRelease pins straps)
  case authoritySessionEnd n => exact congrArg Host.Outcome.next (if_pos held)
  all_goals exact event _

/-- Settles O48: the two resets, the release, and every other command while RESET is held. -/
theorem resetsStartAfresh : Obligations.ResetsStartAfresh := by
  refine ⟨fun s pins straps => ?resets, fun s c held notReset notRelease => exec_of_held held notReset notRelease⟩
  case resets =>
    intro started sampled chosen
    refine ⟨?_, rfl, fun held => ?_, exec_resetReleased_of_runs pins straps⟩
    · have lines : (Vector.ofFn fun l : LineIx => { (reinitialise .power s).line l with
          accepted := pins.getLsbD l, pinLevel := pins.getLsbD l, disagreement := 0, pending := false
          overrun := 0, dueSample := none }) = sampled := by
        refine congrArg Vector.ofFn (funext fun l => ?_)
        rw [line_reinitialise]
        rfl
      rw [exec_powerOnReset, endReset_eq, lines]
      rfl
    · rw [exec_resetReleased_of_held pins straps held, endReset_eq]

/-! ### The command restart -/

section
variable (u : State)

theorem watch_commandRestart (i : WatchIx) : (commandRestart u).watch i = (u.watch i).restarted := by
  simp only [commandRestart, State.watch, Fin.getElem_fin, get_remap]

theorem line_commandRestart (l : LineIx) : (commandRestart u).line l = (u.line l).restarted (pinOf u.evPins l) := by
  simp only [commandRestart, State.line, Fin.getElem_fin, get_remap]

theorem claimSet_commandRestart (o : OutputIx) : (commandRestart u).claimSet o = restartedClaims u (u.claimSet o) := by
  simp only [commandRestart, State.claimSet, Fin.getElem_fin, get_remap]

theorem link_commandRestart (m : Link) :
    (commandRestart u).link m = (u.link m).restarted ((commandRestart u).asserted (crstOf m)) := by
  rw [State.asserted, claimSet_commandRestart]
  simp only [commandRestart, State.link, State.claimSet, Fin.getElem_fin, get_remap]

theorem transmitter_commandRestart (m : Link) :
    (commandRestart u).transmitter m = (u.transmitter m).map fun f => { f with carried := f.carried.plain } := by
  simp only [commandRestart, State.transmitter, Fin.getElem_fin, get_remap]

theorem reset_commandRestart (m : Link) :
    (commandRestart u).receiver m = .hunting ∧ (commandRestart u).delivery m = .atReset
      ∧ (commandRestart u).queue m = [] ∧ (commandRestart u).loss m = 0 := by
  simp [commandRestart, State.receiver, State.delivery, State.queue, State.loss]

/-- The uptime, the ticks owed and due, the rate and the model's own counters go on (R145). -/
theorem commandRestart_leaves :
    commandRestart u = { u with
      resetCause := (commandRestart u).resetCause, watches := (commandRestart u).watches
      lines := (commandRestart u).lines, claims := (commandRestart u).claims
      authority := (commandRestart u).authority, links := (commandRestart u).links
      receivers := (commandRestart u).receivers, transmitters := (commandRestart u).transmitters
      deliveries := (commandRestart u).deliveries, queues := (commandRestart u).queues
      losses := (commandRestart u).losses, transit := (commandRestart u).transit } := rfl

end

/-- What outlives a command restart on its way to the output unit (R130). -/
theorem survives_eq (s : State) (w : OutputWord) :
    w.survives s = match w.claimant with
      | .watch i => (s.watch i).frozen
      | .manual => false := by
  unfold OutputWord.survives
  cases w.claimant <;> rfl

theorem plain_eq (f : TxFrame) :
    { f with carried := f.carried.plain } = { f with carried :=
      match f.carried with
      | .reply _ => .reply .nothing
      | .notice k => .notice k } := by
  obtain ⟨bytes, carried⟩ := f
  cases carried <;> rfl

/-- The last byte of the reply to a pending RESTART is the restart (R144). -/
theorem exec_lastByteSent_of_restart {s : State} {n : Link} (pins : Half) {bytes : List Byte} (runs : s.runs)
    (frame : s.transmitter n = some ⟨bytes, .reply .restart⟩) (pending : (s.link n).closing = .restart) :
    exec (.lastByteSent n pins) s = .next (commandRestart ((s.setPins pins).setTransmitter n none)) :=
  ((exec_lastByteSent n pins runs).trans (congrArg _ (finishFrame_of_frame (s := s.setPins pins) frame))).trans
    (congrArg _ (if_pos pending))

/-- Settles O47: the restart block by block. -/
theorem theCommandRestart : Obligations.TheCommandRestart := by
  intro s n pins bytes runs frame pending
  obtain ⟨u, restarts⟩ : ∃ u, u = (s.setPins pins).setTransmitter n none := ⟨_, rfl⟩
  have watch : ∀ i, u.watch i = s.watch i := fun i => by rw [restarts]; rfl
  have set : ∀ o, u.claimSet o = s.claimSet o := fun o => by rw [restarts]; rfl
  refine ⟨commandRestart u, by rw [restarts]; exact exec_lastByteSent_of_restart pins runs frame pending, fun i => ?_,
    fun l => ?_, fun o i => ?_, fun o => ?_, rfl, fun m => ?_, reset_commandRestart u, ?_, fun m other => ?_, ?_, rfl, ?_⟩
  · rw [watch_commandRestart, Watch.restarted, watch]
  · rw [line_commandRestart, LineRec.restarted, restarts]
    rfl
  · rw [claimSet_commandRestart, claimOf_restartedClaims, watch, set]
  · rw [claimSet_commandRestart, claimOf_restartedClaims_manual]
  · rw [link_commandRestart, LinkRec.restarted, show u.link m = s.link m by rw [restarts]; rfl]
  · rw [transmitter_commandRestart, restarts, transmitter_setTransmitter_same]
    rfl
  · rw [transmitter_commandRestart, restarts, transmitter_setTransmitter_other _ _ _ _ other]
    exact congrArg (Option.map · (s.transmitter m)) (funext plain_eq)
  · change ({ Transit.empty with outputWords := u.transit.outputWords.filter (OutputWord.survives u) } : Transit) = _
    have same : OutputWord.survives u = fun w => match w.claimant with
        | .watch i => (s.watch i).frozen
        | .manual => false := funext fun w => by
      rw [survives_eq]
      simp only [watch]
    have words : u.transit.outputWords = s.transit.outputWords := by rw [restarts]; rfl
    exact congrArg₂ (fun keep ws => ({ Transit.empty with outputWords := ws.filter keep } : Transit)) same words
  · refine (commandRestart_leaves u).trans ?_
    generalize commandRestart u = t
    subst restarts
    rfl

end Sys2Proof.Machine


/-!
PROOF. What a tick delivered to one block does there (O30).
-/

namespace Sys2Proof.Machine

/-! ### The TICK command -/

/-- Of the ticks owed, each at most once, a command reaches the one it is for. -/
theorem filter_contains_singleton {p : TickPort} {ps : List TickPort} (once : ps.Nodup) (mem : p ∈ ps) :
    ps.filter [p].contains = [p] := by
  have same : ps.filter [p].contains = ps.filter (· == p) := List.filter_congr fun q _ => by
    rw [Bool.eq_iff_iff, List.contains_iff_mem, List.mem_singleton, beq_iff_eq]
  rw [same, List.filter_beq, List.count_eq_one_of_mem once mem, List.replicate_one]

/-- One owed tick is delivered to its block and no longer owed. -/
theorem deliverTicks_singleton {p : TickPort} {s : State} (once : s.owedTicks.Nodup) (owed : p ∈ s.owedTicks) :
    deliverTicks [p] s = deliverTick (s.setOwedTicks (s.owedTicks.filter (· ≠ p))) p := by
  have others : (s.owedTicks.filter fun q => !List.contains [p] q) = s.owedTicks.filter (· ≠ p) :=
    List.filter_congr fun q _ => by
      simp
  rw [deliverTicks, filter_contains_singleton once owed, others]
  rfl

theorem exec_tick_of_runs (b : Base) (r : TickReach) (pins : Half) {s : State} (runs : s.runs) :
    exec (.tick b r pins) s = .next (timeTick b r pins s) :=
  congrArg Host.Outcome.next (unlessReset_of_runs _ runs)

theorem timeTick_of_owed {b : Base} {r : TickReach} (pins : Half) {s : State} (owed : ∃ p ∈ s.owedTicks, p ∈ portsOf b r) :
    timeTick b r pins s = deliverTicks (portsOf b r) (s.setPins pins) := by
  obtain ⟨p, mem, port⟩ := owed
  exact if_pos (List.any_eq_true.mpr ⟨p, mem, List.contains_iff_mem.mpr port⟩)

/-- A TICK command owed at one place delivers it there (R21). -/
theorem exec_tick_of_port {b : Base} {r : TickReach} {p : TickPort} (pins : Half) {s : State} (runs : s.runs)
    (once : s.owedTicks.Nodup) (port : portsOf b r = [p]) (owed : p ∈ s.owedTicks) :
    exec (.tick b r pins) s =
      .next (deliverTick ((s.setPins pins).setOwedTicks (s.owedTicks.filter (· ≠ p))) p) := by
  rw [exec_tick_of_runs b r pins runs, timeTick_of_owed pins ⟨p, owed, by rw [port]; exact List.mem_singleton_self p⟩, port]
  exact congrArg Host.Outcome.next (deliverTicks_singleton (s := s.setPins pins) once owed)

/-! ### What the tick does at each block -/

theorem watch_tickWatches (b : Base) (u : State) (i : WatchIx) :
    (tickWatches b u).watch i = (u.watch i).tick b := by
  simp only [State.watch, tickWatches, Fin.getElem_fin, get_remap]

theorem watchTickDue_tickWatches (b : Base) (u : State) (i : WatchIx) :
    (tickWatches b u).watchTickDue i =
      if (u.watch i).base = b && (u.watch i).atLastTick then some b else u.watchTickDue i := by
  simp only [State.watch, State.watchTickDue, tickWatches, Fin.getElem_fin, get_remap]

theorem line_tickLines (u : State) (l : LineIx) : (tickLines u).line l = (u.line l).tick (pinOf u.evPins l) := by
  simp only [State.line, tickLines, Fin.getElem_fin, get_remap]

theorem delivery_tickAckTimers (u : State) (n : Link) :
    (tickAckTimers u).delivery n = { u.delivery n with inFlight := (u.delivery n).inFlight.map InFlight.tick } := by
  simp only [State.delivery, tickAckTimers, Fin.getElem_fin, get_remap]

theorem link_tickInactivity (u : State) (n : Link) : (tickInactivity u).link n = (u.link n).tick := by
  simp only [State.link, tickInactivity, Fin.getElem_fin, get_remap]

theorem receiver_tickGaps (u : State) (n : Link) : (tickGaps u).receiver n = (u.receiver n).tick := by
  simp only [State.receiver, tickGaps, Fin.getElem_fin, get_remap]

/-- A tick at the output unit that would remove a claim is due there (R121). -/
theorem tickClaims_of_runsOut {u : State} (runsOut : u.claimRunsOut = true) : tickClaims u = { u with claimTickDue := true } := by
  rw [tickClaims_eq, if_pos runsOut]

/-- A tick at the output unit that removes no claim counts at each (R121). -/
theorem tickClaims_of_lasting {u : State} (lasting : ¬ u.claimRunsOut = true) :
    tickClaims u = { u with claims := remap u.claims fun _ set => ClaimSet.counted set } := by
  rw [tickClaims_eq, if_neg lasting]

/-- A 1 ms tick removes a claim where one millisecond or less is left of one (R121). -/
theorem claimRunsOut_iff (s : State) :
    s.claimRunsOut = true ↔ ∃ o c, ∃ k ≤ 1, claimOf (s.claimSet o) c = some (.timed k) := by
  rw [← Bool.not_eq_false, claimRunsOut_eq_false_iff]
  constructor
  · intro h
    by_contra none
    refine h fun o c x mem => Bool.eq_false_iff.mpr fun last => none ?_
    obtain ⟨k, few, e⟩ := (any_atLastTick_iff (some x)).mp last
    exact ⟨o, c, k, few, (Option.mem_def.mp mem).trans e⟩
  · rintro ⟨o, c, k, few, e⟩ lasting
    have left := lasting o c _ (Option.mem_def.mpr e)
    rw [Claim.atLastTick, decide_eq_false_iff_not] at left
    exact left few

/-- A claim that lasts loses a millisecond if it is timed (R121). -/
theorem counted_of_lasting {x : Option Claim} (lasting : ∀ k ≤ 1, x ≠ some (.timed k)) :
    x.bind Claim.counted = x.map fun
      | .timed k => .timed (k - 1)
      | .held => .held := by
  rcases x with _ | k | _
  · rfl
  · exact (counted_bind _).trans (if_neg fun few => lasting k few rfl)
  · rfl

/-- A tick at the offer timer counts, or is due at its last millisecond (R137). -/
theorem tickOffer_of_offering {u : State} {o : Link} {k : Nat} (offering : u.authority.mode = .offering o k) :
    tickOffer u = u.setAuthority (if k ≤ 1 then { u.authority with offerDue := true }
      else { u.authority with mode := .offering o (k - 1) }) := by
  rw [tickOffer, offering]
  exact (apply_ite u.setAuthority _ _ _).symm

theorem tickOffer_of_noOffer {u : State} (noOffer : ∀ o k, u.authority.mode ≠ .offering o k) : tickOffer u = u := by
  unfold tickOffer
  split
  next o k offering => exact absurd offering (noOffer o k)
  all_goals rfl

/-- A tick at one line: the sample is taken, unless it would be accepted (R105). -/
theorem tick_line (r : LineRec) (v : Bool) :
    r.tick v =
      if v = r.accepted then { r with disagreement := 0, pinLevel := v }
      else if r.disagreement = r.filter then { r with dueSample := some v }
      else { r with disagreement := r.disagreement + 1, pinLevel := v } := by
  have accepts := wouldAccept_iff r v
  by_cases same : v = r.accepted
  · rw [if_pos same, LineRec.tick, if_neg fun h => (accepts.mp h).1 same, sampled_of_accepted same]
  · rw [if_neg same]
    by_cases complete : r.disagreement = r.filter
    · rw [if_pos complete, LineRec.tick, if_pos (accepts.mpr ⟨same, complete⟩)]
    · rw [if_neg complete, LineRec.tick, if_neg fun h => complete (accepts.mp h).2, sampled_of_short same complete]

theorem tick_receiver (r : Receiver) :
    r.tick = if r.collected = none then r
      else if r.gap ≤ 1 then { r with gapDue := true }
      else { r with gap := r.gap - 1 } := by
  rw [Receiver.tick]
  cases r.collected <;> rfl

/-- Where a tick of base `b` finds a watch counting in it, it is counted, or due at the last tick (R22). -/
theorem watchTick_iff (w : Watch) (b : Base) :
    ((w.base = b && w.atLastTick) = true) ↔ (w.base = b ∧ (w.state = .running ∨ w.state = .overdue)) ∧ w.count ≤ 1 := by
  simp [Watch.atLastTick, and_assoc]

/-- Settles O30: a TICK command owed to one block, block by block. -/
theorem aTickReachesOneBlock : Obligations.ATickReachesOneBlock := by
  intro s pins runs once owing
  have reaches {b : Base} {k : TickBlock} (p : TickPort) (port : portOf b k = [p]) (owed : p ∈ s.owedTicks) :=
    exec_tick_of_port (r := .only k) pins runs once port owed
  refine ⟨fun b owed => ?watches, fun owed => ?lines, fun owed => ?outputs, fun owed => ?acks, fun owed => ?silences,
    fun owed => ?offer, fun owed => ?gaps⟩
  case watches =>
    refine ⟨_, reaches (.watches b) (by cases b <;> rfl) owed, rfl, fun i => ?_⟩
    intro w counts
    refine ⟨(watch_tickWatches b _ i).trans (if_congr and_assoc.symm rfl rfl), ?_⟩
    exact (watchTickDue_tickWatches b _ i).trans (if_congr (watchTick_iff w b) rfl rfl)
  case lines =>
    refine ⟨_, reaches .lines rfl owed, rfl, fun l => ?_⟩
    intro r v
    exact (line_tickLines _ l).trans (tick_line r v)
  case outputs =>
    refine ⟨_, reaches .outputs rfl owed, ?_⟩
    obtain ⟨u, hu⟩ : ∃ u, u = (s.setPins pins).setOwedTicks (s.owedTicks.filter (· ≠ .outputs)) := ⟨_, rfl⟩
    have sets : ∀ o, u.claimSet o = s.claimSet o := fun o => by rw [hu]; rfl
    have runsOut := claimRunsOut_iff u
    simp only [sets] at runsOut
    have ticked : deliverTick ((s.setPins pins).setOwedTicks (s.owedTicks.filter (· ≠ .outputs))) .outputs = tickClaims u := by
      rw [hu]; rfl
    rw [ticked]
    by_cases last : u.claimRunsOut = true
    · rw [tickClaims_of_runsOut last]
      subst hu
      exact ⟨rfl, fun _ => ⟨rfl, rfl⟩, fun lasting => absurd (runsOut.mp last) lasting⟩
    · have lasting := fun h => last (runsOut.mpr h)
      rw [tickClaims_of_lasting last]
      have counted : ∀ o, State.claimSet { u with claims := remap u.claims fun _ set => ClaimSet.counted set } o
          = ClaimSet.counted (s.claimSet o) := fun o => (get_remap _ _ o).trans (congrArg ClaimSet.counted (sets o))
      refine ⟨by rw [hu]; rfl, fun h => absurd h lasting, fun _ => ⟨by rw [hu]; rfl, fun o c => ?_⟩⟩
      rw [counted, claimOf_counted]
      exact counted_of_lasting fun k few e => lasting ⟨o, c, k, few, e⟩
  case acks =>
    refine ⟨_, reaches .ackTimers rfl owed, rfl, fun n => (delivery_tickAckTimers _ n).trans ?_⟩
    refine congrArg (fun fs => { s.delivery n with inFlight := fs }) (List.map_congr_left fun _ _ => rfl)
  case silences =>
    refine ⟨_, reaches .inactivityTimers rfl owed, rfl, fun n => (link_tickInactivity _ n).trans rfl⟩
  case offer =>
    refine (reaches .offerTimer rfl owed).trans (congrArg Host.Outcome.next ?_)
    let u := (s.setPins pins).setOwedTicks (owing .offerTimer)
    cases mode : s.authority.mode with
    | offering o k => exact (tickOffer_of_offering (u := u) mode).trans rfl
    | free => exact tickOffer_of_noOffer (u := u) fun o k e => nomatch mode.symm.trans e
    | held o => exact tickOffer_of_noOffer (u := u) fun o k e => nomatch mode.symm.trans e
  case gaps =>
    exact ⟨_, reaches .gapTimers rfl owed, rfl, fun n => (receiver_tickGaps _ n).trans (tick_receiver (s.receiver n))⟩

end Sys2Proof.Machine


/-!
PROOF. The uptime and the ticks of a millisecond: the TICK command, the delivery of the ticks owed one by one, and the end
of a millisecond as a run of commands (parts of O31).
-/

namespace Sys2Proof.Machine

/-! ### The TICK command -/

theorem fallsAt_eq_true_iff (b : Base) (u : Uptime) : fallsAt b u = true ↔ u.toNat % period b = 0 := decide_eq_true_iff

theorem timeTick_of_noneOwed {b : Base} {r : TickReach} (pins : Half) {s : State}
    (noneOwed : ∀ p ∈ s.owedTicks, p ∉ portsOf b r) :
    timeTick b r pins s =
      if fallsAt b (s.uptime + 1) && !(portsOf b r).isEmpty then
        deliverTicks (portsOf b r) ((advanceUptime (finishMillisecond s)).setPins pins)
      else s := by
  refine if_neg fun owed => ?_
  obtain ⟨p, mem, port⟩ := List.any_eq_true.mp owed
  exact noneOwed p mem (List.contains_iff_mem.mp port)

/-- A TICK to a block that does not count in its base changes nothing (log 9). -/
theorem timeTick_of_noPort {b : Base} {r : TickReach} (pins : Half) {s : State} (noPort : portsOf b r = []) :
    timeTick b r pins s = s := by
  rw [timeTick_of_noneOwed pins fun p _ => by rw [noPort]; exact List.not_mem_nil, noPort]
  exact if_neg (by simp)

/-- A TICK of a base that does not fall at the next uptime changes nothing (log 9). -/
theorem timeTick_of_notFalling {b : Base} {r : TickReach} (pins : Half) {s : State}
    (noneOwed : ∀ p ∈ s.owedTicks, p ∉ portsOf b r) (notFalling : (s.uptime + 1).toNat % period b ≠ 0) :
    timeTick b r pins s = s := by
  rw [timeTick_of_noneOwed pins noneOwed]
  refine if_neg fun falls => ?_
  rw [Bool.and_eq_true, fallsAt_eq_true_iff] at falls
  exact notFalling falls.1

/-- A TICK of a base that falls at the next uptime increases the uptime first (R20, R21). -/
theorem timeTick_of_falling {b : Base} {r : TickReach} (pins : Half) {s : State}
    (noneOwed : ∀ p ∈ s.owedTicks, p ∉ portsOf b r) (falls : (s.uptime + 1).toNat % period b = 0)
    (ports : portsOf b r ≠ []) :
    timeTick b r pins s =
      deliverTicks (portsOf b r) ((advanceUptime (finishMillisecond s)).setPins pins) := by
  rw [timeTick_of_noneOwed pins noneOwed]
  refine if_pos ?_
  rw [Bool.and_eq_true, fallsAt_eq_true_iff]
  exact ⟨falls, by simpa using ports⟩

/-! ### The ticks owed, one by one -/

/-- A tick that reaches a block neither reads nor moves the ticks owed. -/
theorem deliverTick_setOwedTicks (u : State) (p : TickPort) (owed : List TickPort) :
    deliverTick (u.setOwedTicks owed) p = (deliverTick u p).setOwedTicks owed := by
  cases p with
  | outputs =>
    change tickClaims _ = (tickClaims u).setOwedTicks owed
    by_cases last : u.claimRunsOut = true
    · rw [tickClaims_of_runsOut last, tickClaims_of_runsOut (u := u.setOwedTicks owed) last]; rfl
    · rw [tickClaims_of_lasting last, tickClaims_of_lasting (u := u.setOwedTicks owed) last]; rfl
  | offerTimer =>
    change tickOffer _ = (tickOffer u).setOwedTicks owed
    cases mode : u.authority.mode with
    | offering o k =>
      rw [tickOffer_of_offering mode, tickOffer_of_offering (u := u.setOwedTicks owed) mode]; rfl
    | free =>
      have noOffer : ∀ o k, u.authority.mode ≠ .offering o k := fun o k e => nomatch mode.symm.trans e
      rw [tickOffer_of_noOffer noOffer, tickOffer_of_noOffer (u := u.setOwedTicks owed) noOffer]
    | held h =>
      have noOffer : ∀ o k, u.authority.mode ≠ .offering o k := fun o k e => nomatch mode.symm.trans e
      rw [tickOffer_of_noOffer noOffer, tickOffer_of_noOffer (u := u.setOwedTicks owed) noOffer]
  | watches b => rfl
  | lines => rfl
  | ackTimers => rfl
  | inactivityTimers => rfl
  | gapTimers => rfl

theorem filter_ne_of_nodup {keep ps : List TickPort} {p : TickPort} (once : (keep ++ p :: ps).Nodup) :
    (keep ++ p :: ps).filter (· ≠ p) = keep ++ ps := by
  obtain ⟨notMem, _⟩ := List.nodup_cons.mp (List.nodup_middle.mp once)
  rw [List.filter_append, List.filter_cons_of_neg (by simp), ← List.filter_append, List.filter_eq_self]
  intro q mem
  rw [decide_eq_true_iff]
  rintro rfl
  exact notMem mem

/-- Delivering owed ticks together is delivering each on its own, in the order they are owed. -/
theorem foldl_deliverTick (keep ps : List TickPort) (u : State) (once : (keep ++ ps).Nodup) :
    ps.foldl deliverTick (u.setOwedTicks keep) =
      ps.foldl (fun t p => deliverTicks [p] t) (u.setOwedTicks (keep ++ ps)) := by
  induction ps generalizing u with
  | nil => rw [List.append_nil]; rfl
  | cons p ps ih =>
    have first : deliverTicks [p] (u.setOwedTicks (keep ++ p :: ps)) = (deliverTick u p).setOwedTicks (keep ++ ps) := by
      rw [deliverTicks_singleton once (by simp [State.setOwedTicks]), ← deliverTick_setOwedTicks]
      exact congrArg (fun owed => deliverTick (u.setOwedTicks owed) p) (filter_ne_of_nodup once)
    rw [List.foldl_cons, List.foldl_cons, first, deliverTick_setOwedTicks]
    exact ih _ (List.nodup_cons.mp (List.nodup_middle.mp once)).2

theorem deliverTicks_oneByOne (ports : List TickPort) {s : State} (once : s.owedTicks.Nodup) :
    deliverTicks ports s = (s.owedTicks.filter ports.contains).foldl (fun t p => deliverTicks [p] t)
      (s.setOwedTicks ((s.owedTicks.filter fun p => !ports.contains p) ++ s.owedTicks.filter ports.contains)) := by
  refine foldl_deliverTick _ _ s ?_
  refine (List.Perm.nodup_iff ?_).mpr once
  exact List.perm_append_comm.trans (List.filter_append_perm ports.contains s.owedTicks)

/-! ### Where the ticks of an uptime go -/

theorem portsOf_allBlocks_of_ne {b : Base} (other : b ≠ .ms1) : portsOf b .allBlocks = [.watches b] := by
  cases b with
  | ms1 => exact absurd rfl other
  | ms10 => rfl
  | ms100 => rfl
  | s1 => rfl

theorem watches_mem_portsOf (b b' : Base) : TickPort.watches b ∈ portsOf b' .allBlocks ↔ b = b' := by
  cases b' <;> simp [portsOf, tickBlocks, portOf]

/-- The ticks of two bases go to different places. -/
theorem portsOf_disjoint {b b' : Base} (other : b ≠ b') :
    List.Disjoint (portsOf b .allBlocks) (portsOf b' .allBlocks) := by
  have meets : ∀ {c c' : Base}, c' ≠ .ms1 → c ≠ c' → ∀ p ∈ portsOf c .allBlocks, p ∉ portsOf c' .allBlocks := by
    intro c c' late differ p mem mem'
    rw [portsOf_allBlocks_of_ne late, List.mem_singleton] at mem'
    subst mem'
    exact differ.symm ((watches_mem_portsOf c' c).mp mem)
  intro p mem mem'
  by_cases first : b' = .ms1
  · exact meets (first ▸ other) other.symm p mem' mem
  · exact meets first other p mem mem'

theorem mem_portsAt (u : Uptime) (p : TickPort) :
    p ∈ portsAt u ↔ ∃ b, u.toNat % period b = 0 ∧ p ∈ portsOf b .allBlocks := by
  have bases : ∀ b : Base, b ∈ [Base.ms1, .ms10, .ms100, .s1] := by
    intro b
    cases b <;> decide
  simp only [portsAt, List.mem_flatMap, List.mem_filter, bases, true_and, fallsAt_eq_true_iff]

theorem nodup_portsAt (u : Uptime) : (portsAt u).Nodup := by
  refine List.nodup_flatMap.mpr ⟨fun b _ => ?_, ?_⟩
  · cases b <;> decide
  · have bases : [Base.ms1, .ms10, .ms100, .s1].Nodup := by decide
    exact (bases.imp fun other => portsOf_disjoint other).filter _

theorem watches_mem_portsAt (u : Uptime) (b : Base) : TickPort.watches b ∈ portsAt u ↔ u.toNat % period b = 0 := by
  rw [mem_portsAt]
  constructor
  · rintro ⟨b', falls, mem⟩
    rwa [(watches_mem_portsOf b b').mp mem]
  · exact fun falls => ⟨b, falls, (watches_mem_portsOf b b).mpr rfl⟩

/-- Every block but the watch table counts in 1 ms alone, which falls at every uptime (R21). -/
theorem mem_portsAt_of_notWatches (u : Uptime) {p : TickPort} (notWatches : ∀ b, p ≠ .watches b) : p ∈ portsAt u := by
  refine (mem_portsAt u p).mpr ⟨.ms1, Nat.mod_one _, ?_⟩
  cases p with
  | watches b => exact absurd rfl (notWatches b)
  | lines => decide
  | outputs => decide
  | ackTimers => decide
  | inactivityTimers => decide
  | offerTimer => decide
  | gapTimers => decide

/-! ### The end of a millisecond as a run of commands -/

/-- Two operations that agree on every state a run meets give the same run. -/
theorem foldl_congr_of_invariant {α : Type} (kept : State → Prop) {f g : State → α → State}
    (agree : ∀ t a, kept t → f t a = g t a) (keeps : ∀ t a, kept t → kept (f t a)) (l : List α) {s : State}
    (start : kept s) : l.foldl f s = l.foldl g s := by
  induction l generalizing s with
  | nil => rfl
  | cons a l ih => rw [List.foldl_cons, List.foldl_cons, ← agree s a start]; exact ih (keeps s a start)

theorem invariant_foldl {α : Type} (kept : State → Prop) {f : State → α → State} (keeps : ∀ t a, kept t → kept (f t a))
    (l : List α) {s : State} (start : kept s) : kept (l.foldl f s) := by
  induction l generalizing s with
  | nil => exact start
  | cons a l ih => exact ih (keeps s a start)

/-- RESET not held, a command that takes a due tick is the tick taken with the authority unit settled. -/
theorem after_eq_taking {c : Instr} {f : State → State} {t : State}
    (exec_eq : exec c t = .next (unlessReset f t)) (released : t.resetIsHeld = false) : t.after c = taking f t := by
  rw [State.after, exec_eq]
  exact unlessReset_of_running f t released

/-- The watches' part of the end of a millisecond. -/
def takeWatchTicks (s : State) : State := (List.finRange 32).foldl (fun t i => taking (takeWatchTick i) t) s

/-- The lines' part. -/
def takeSamples (s : State) : State := (List.finRange 16).foldl (fun t l => taking (takeSample l) t) s

/-- One link's ack timers. -/
def takeAckTicksOf (n : Link) (s : State) : State :=
  ((s.delivery n).inFlight.map (·.number)).foldl (fun t k => taking (takeAckTick n k) t) s

/-- The ack timers' part. -/
def takeAckTicks (s : State) : State := (List.finRange 4).foldl (fun t n => takeAckTicksOf n t) s

/-- The inactivity timers' part. -/
def takeInactivityTicks (s : State) : State := (List.finRange 4).foldl (fun t n => taking (takeInactivityTick n) t) s

/-- The gap timers' part. -/
def takeGapTicks (s : State) : State := (List.finRange 4).foldl (fun t n => taking (takeGapTick n) t) s

theorem takeDueTicks_eq (s : State) :
    takeDueTicks s = takeGapTicks (taking takeOfferTick (takeInactivityTicks (takeAckTicks (taking takeClaimTick
      (takeSamples (takeWatchTicks s)))))) := rfl

/-! RESET stays as it is all through it. -/

/-- RESET is not held. -/
def State.released (s : State) : Prop := s.resetIsHeld = false

theorem released_taking {f : State → State} (keeps : ∀ t, (f t).resetIsHeld = t.resetIsHeld) {t : State}
    (released : t.released) : (taking f t).released :=
  (keeps _).trans ((resetIsHeld_settleAuthority t).trans released)

theorem resetIsHeld_takeWatchTick (i : WatchIx) (t : State) : (takeWatchTick i t).resetIsHeld = t.resetIsHeld := by
  rw [onlyWatches_takeWatchTick]

theorem resetIsHeld_takeSample (l : LineIx) (t : State) : (takeSample l t).resetIsHeld = t.resetIsHeld := by
  rw [onlyLines_takeSample]

theorem resetIsHeld_takeAckTick (n : Link) (k : Byte) (t : State) : (takeAckTick n k t).resetIsHeld = t.resetIsHeld := by
  rw [onlyEnds_takeAckTick]

theorem resetIsHeld_takeInactivityTick (n : Link) (t : State) : (takeInactivityTick n t).resetIsHeld = t.resetIsHeld := by
  obtain ⟨_, _, _, e⟩ := takeInactivityTick_leaves n t
  exact e

theorem resetIsHeld_takeClaimTick (t : State) : (takeClaimTick t).resetIsHeld = t.resetIsHeld := by
  obtain ⟨_, _, e⟩ := takeClaimTick_leaves t
  exact e

theorem resetIsHeld_takeOfferTick (t : State) : (takeOfferTick t).resetIsHeld = t.resetIsHeld := by
  obtain ⟨_, _, _, e⟩ := takeOfferTick_leaves t
  exact e

theorem resetIsHeld_takeGapTick (n : Link) (t : State) : (takeGapTick n t).resetIsHeld = t.resetIsHeld := by
  obtain ⟨_, _, _, e⟩ := takeGapTick_leaves n t
  exact e

theorem watchTickDue_applyStep (i j : WatchIx) (r : WatchStep) (s : State) :
    (applyStep i r s).watchTickDue j = s.watchTickDue j := rfl

/-- A watch's due tick is cleared by being taken, and no other. -/
theorem watchTickDue_takeWatchTick (i j : WatchIx) (t : State) :
    (takeWatchTick i t).watchTickDue j = if j = i then none else t.watchTickDue j := by
  cases due : t.watchTickDue i with
  | none =>
    rw [takeWatchTick_of_notDue due]
    split
    next same => rw [same, due]
    next => rfl
  | some b =>
    rw [← watchTickDue_setWatchTickDue]
    by_cases base : b = (t.watch i).base
    · rw [takeWatchTick_of_due (base ▸ due), watchTickDue_applyStep]
    · rw [takeWatchTick_of_otherBase due base]

theorem watchTickDue_takeWatchTick_same (i : WatchIx) (t : State) : (takeWatchTick i t).watchTickDue i = none := by
  rw [watchTickDue_takeWatchTick, if_pos rfl]

theorem setWatchTickDue_of_notDue {i : WatchIx} {t : State} (notDue : t.watchTickDue i = none) :
    t.setWatchTickDue i none = t := by
  rw [← notDue, setWatchTickDue_self]

theorem countDown_of_idle (i : WatchIx) {w : Watch} (notRunning : w.state ≠ .running) (notOverdue : w.state ≠ .overdue) :
    countDown i w = .quiet w := by
  unfold countDown
  split
  next running => exact absurd running notRunning
  next overdue => exact absurd overdue notOverdue
  all_goals rfl

/-- The tick due at a watch that is neither RUNNING nor OVERDUE is only cleared. -/
theorem takeWatchTick_of_idle {i : WatchIx} {t : State} (notRunning : (t.watch i).state ≠ .running)
    (notOverdue : (t.watch i).state ≠ .overdue) : takeWatchTick i t = t.setWatchTickDue i none := by
  cases due : t.watchTickDue i with
  | none => rw [takeWatchTick_of_notDue due, setWatchTickDue_of_notDue due]
  | some b =>
    by_cases base : b = (t.watch i).base
    · have entry : (t.setWatchTickDue i none).setWatch i (t.watch i) = t.setWatchTickDue i none :=
        setWatch_self (t.setWatchTickDue i none) i
      rw [takeWatchTick_of_due (base ▸ due), countDown_of_idle i notRunning notOverdue, applyStep_quiet, entry]
    · exact takeWatchTick_of_otherBase due base

/-- The two commands of a watch and its tick cleared are its due tick taken. -/
theorem taking_takeWatchTick_eq_commands (i : WatchIx) {t : State} (released : t.released) :
    taking (takeWatchTick i) t = ((t.after (.watchExpiry i)).after (.graceRunsOut i)).setWatchTickDue i none := by
  obtain ⟨u, settled⟩ : ∃ u, u = settleAuthority t := ⟨_, rfl⟩
  have runs : u.runs := settled ▸ ⟨(resetIsHeld_settleAuthority t).trans released, authorityEnds_settleAuthority t⟩
  have expiry : t.after (.watchExpiry i) = if (u.watch i).state = .running then takeWatchTick i u else u := by
    rw [after_eq_taking rfl released, taking, ← settled]
  have grace {v : State} (runs : v.runs) :
      v.after (.graceRunsOut i) = if (v.watch i).state = .overdue then takeWatchTick i v else v := by
    rw [after_eq_taking rfl runs.1, taking_of_prompt _ v runs.2]
  rw [taking, ← settled, expiry]
  have cleared := setWatchTickDue_of_notDue (watchTickDue_takeWatchTick_same i u)
  by_cases running : (u.watch i).state = .running
  · have stillRuns : (takeWatchTick i u).runs := by
      rw [onlyWatches_takeWatchTick i u]
      exact runs
    rw [if_pos running, grace stillRuns, takeWatchTick_of_notDue (watchTickDue_takeWatchTick_same i u), ite_self, cleared]
  · rw [if_neg running, grace runs]
    by_cases overdue : (u.watch i).state = .overdue
    · rw [if_pos overdue, cleared]
    · rw [if_neg overdue, takeWatchTick_of_idle running overdue]

theorem takeAckTicksOf_eq_commands (n : Link) {t : State} (released : t.released) :
    takeAckTicksOf n t = ((t.delivery n).inFlight.map (·.number)).foldl (fun t k => t.after (.ackTimerRunsOut n k)) t :=
  foldl_congr_of_invariant State.released (fun _ _ h => (after_eq_taking rfl h).symm)
    (fun _ k => released_taking (resetIsHeld_takeAckTick n k)) _ released

theorem released_takeAckTicksOf (n : Link) {t : State} (released : t.released) : (takeAckTicksOf n t).released :=
  invariant_foldl State.released (fun _ k => released_taking (resetIsHeld_takeAckTick n k)) _ released

/-- RESET not held, the end of a millisecond is a run of the commands that take its ticks. -/
theorem finishMillisecond_eq_commands {s : State} (released : s.resetIsHeld = false) :
    let delivered := deliverTicks s.owedTicks s
    let watches := (List.finRange 32).foldl
      (fun t i => ((t.after (.watchExpiry i)).after (.graceRunsOut i)).setWatchTickDue i none) delivered
    let lines := (List.finRange 16).foldl (fun t l => t.after (.acceptedChange l)) watches
    let outputs := takeClaimTick (settleAuthority lines)
    let acks := (List.finRange 4).foldl
      (fun t n => ((t.delivery n).inFlight.map (·.number)).foldl
        (fun t k => t.after (.ackTimerRunsOut n k)) t) outputs
    let silences := (List.finRange 4).foldl (fun t n => t.after (.inactivityTimeout n)) acks
    let offers := silences.after .offerTimerRunsOut
    finishMillisecond s = (List.finRange 4).foldl (fun t n => t.after (.gapTimerExpiry n)) offers := by
  intro delivered watches lines outputs acks silences offers
  have start : delivered.released := by
    obtain ⟨_, _, _, e, _⟩ := deliverTicks_leaves s.owedTicks s
    exact e.trans released
  have watchTaken (t : State) (i : WatchIx) : t.released → (taking (takeWatchTick i) t).released :=
    released_taking (resetIsHeld_takeWatchTick i)
  have sampleTaken (t : State) (l : LineIx) : t.released → (taking (takeSample l) t).released :=
    released_taking (resetIsHeld_takeSample l)
  have silenceTaken (t : State) (n : Link) : t.released → (taking (takeInactivityTick n) t).released :=
    released_taking (resetIsHeld_takeInactivityTick n)
  have gapTaken (t : State) (n : Link) : t.released → (taking (takeGapTick n) t).released :=
    released_taking (resetIsHeld_takeGapTick n)
  have watchesEq : takeWatchTicks delivered = watches :=
    foldl_congr_of_invariant State.released (fun _ i => taking_takeWatchTick_eq_commands i) watchTaken _ start
  have watchesReleased : watches.released := watchesEq ▸ invariant_foldl State.released watchTaken _ start
  have linesEq : takeSamples watches = lines :=
    foldl_congr_of_invariant State.released (fun _ l h => (after_eq_taking rfl h).symm) sampleTaken _ watchesReleased
  have linesReleased : lines.released := linesEq ▸ invariant_foldl State.released sampleTaken _ watchesReleased
  have outputsReleased : outputs.released :=
    released_taking resetIsHeld_takeClaimTick linesReleased
  have acksEq : takeAckTicks outputs = acks :=
    foldl_congr_of_invariant State.released (fun _ n => takeAckTicksOf_eq_commands n)
      (fun _ n => released_takeAckTicksOf n) _ outputsReleased
  have acksReleased : acks.released :=
    acksEq ▸ invariant_foldl State.released (fun _ n => released_takeAckTicksOf n) _ outputsReleased
  have silencesEq : takeInactivityTicks acks = silences :=
    foldl_congr_of_invariant State.released (fun _ n h => (after_eq_taking rfl h).symm) silenceTaken _ acksReleased
  have silencesReleased : silences.released := silencesEq ▸ invariant_foldl State.released silenceTaken _ acksReleased
  have offersEq : taking takeOfferTick silences = offers := (after_eq_taking rfl silencesReleased).symm
  have offersReleased : offers.released :=
    offersEq ▸ released_taking resetIsHeld_takeOfferTick silencesReleased
  have gapsEq : takeGapTicks offers = (List.finRange 4).foldl (fun t n => t.after (.gapTimerExpiry n)) offers :=
    foldl_congr_of_invariant State.released (fun _ n h => (after_eq_taking rfl h).symm) gapTaken _ offersReleased
  calc finishMillisecond s
      = takeGapTicks (taking takeOfferTick (takeInactivityTicks (takeAckTicks (taking takeClaimTick
          (takeSamples (takeWatchTicks delivered)))))) := takeDueTicks_eq delivered
    _ = takeGapTicks (taking takeOfferTick (takeInactivityTicks (takeAckTicks outputs))) := by rw [watchesEq, linesEq]; rfl
    _ = takeGapTicks offers := by rw [acksEq, silencesEq, offersEq]
    _ = _ := gapsEq

end Sys2Proof.Machine


/-!
PROOF. The end of a millisecond leaves no tick owed or due, and the uptime and its ticks (O31).
-/

namespace Sys2Proof.Machine

/-! ### Runs that clear one thing after another -/

/-- In a run over a list, where each operation establishes its own fact and the later ones keep it, every fact holds at the
end. -/
theorem foldl_establishes {α : Type} {f : State → α → State} (kept : State → Prop) (fact : State → α → Prop)
    (keeps : ∀ t a, kept t → kept (f t a)) (establishes : ∀ t a, kept t → fact (f t a) a)
    (preserves : ∀ t a b, kept t → fact t b → fact (f t a) b) (l : List α) {s : State} (start : kept s) :
    ∀ a ∈ l, fact (l.foldl f s) a := by
  induction l generalizing s with
  | nil => intro a mem; cases mem
  | cons b l ih =>
    intro a mem
    have next := keeps s b start
    rcases List.mem_cons.mp mem with rfl | later
    · exact (invariant_foldl (fun t => kept t ∧ fact t a)
        (fun t c both => ⟨keeps t c both.1, preserves t c a both.1 both.2⟩) l ⟨next, establishes s a start⟩).2
    · exact ih next a later

/-- The same for facts an operation clears whatever the state. -/
theorem foldl_clears {α : Type} {f : State → α → State} (fact : State → α → Prop)
    (establishes : ∀ t a, fact (f t a) a) (preserves : ∀ t a b, fact t b → fact (f t a) b) (l : List α) (s : State) :
    ∀ a ∈ l, fact (l.foldl f s) a :=
  foldl_establishes (fun _ => True) fact (fun _ _ _ => trivial) (fun t a _ => establishes t a)
    (fun t a b _ => preserves t a b) l trivial

/-! ### What each taken tick does to what is due -/

theorem watchTicksDue_notifyTrigger (l : LineIx) (level : Bool) (s : State) :
    (notifyTrigger l level s).watchTicksDue = s.watchTicksDue := by
  have drained : (drainChannel (.line l) s).watchTicksDue = s.watchTicksDue := by rw [onlyNotices_drainChannel]
  unfold notifyTrigger
  split
  · dsimp only
    split
    · exact drained
    · exact drained
  · rfl

theorem watchTicksDue_takeSample (l : LineIx) (s : State) : (takeSample l s).watchTicksDue = s.watchTicksDue := by
  unfold takeSample
  split
  · rfl
  · dsimp only
    split
    · rw [trigger, watchTicksDue_notifyTrigger, onlyEntries_triggerWatches]
      rfl
    · rfl

theorem dueSample_notifyTrigger (l k : LineIx) (level : Bool) (s : State) :
    ((notifyTrigger l level s).line k).dueSample = (s.line k).dueSample := by
  have drained (j : LineIx) : ((drainChannel (.line l) s).line j).dueSample = (s.line j).dueSample := by
    rcases line_drainChannel (.line l) s j with e | e <;> rw [e]
  unfold notifyTrigger
  split
  · dsimp only
    split
    · rw [line_setLine]
      split
      next same => rw [same]; exact drained l
      next => exact drained k
    · exact drained k
  · rfl

/-- A line's due sample is cleared by being taken, and no other. -/
theorem dueSample_takeSample (l k : LineIx) (s : State) :
    ((takeSample l s).line k).dueSample = if k = l then none else (s.line k).dueSample := by
  have cleared (r : LineRec) : ((s.setLine l { r with dueSample := none }).line k).dueSample =
      if k = l then none else (s.line k).dueSample := by
    rw [line_setLine]
    split <;> rfl
  unfold takeSample
  split
  next notDue =>
    split
    next same => rw [same, notDue]
    next => rfl
  next v due =>
    dsimp only
    split
    · rw [trigger, dueSample_notifyTrigger, line_triggerWatches]
      exact cleared _
    · exact cleared _

theorem inactivityDue_endSession (n m : Link) (why : EndReason) (s : State) :
    ((endSession n why s).link m).inactivityDue = (s.link m).inactivityDue := by
  rw [link_endSession]
  split
  next ended => rw [ended.1]
  next => rfl

/-- The end of a session leaves no record in flight that was not. -/
theorem inFlight_endSession {n m : Link} {why : EndReason} {s : State} :
    ((endSession n why s).delivery m).inFlight = (s.delivery m).inFlight
      ∨ m = n ∧ ((endSession n why s).delivery m).inFlight = [] := by
  cases up : s.isUp n with
  | false => rw [endSession_of_not_up n why s up]; exact .inl rfl
  | true =>
    by_cases same : m = n
    · subst same
      refine .inr ⟨rfl, ?_⟩
      rw [endSession_of_up m why s up, delivery_setTransit, delivery_setDelivery_same]
    · refine .inl ?_
      rw [endSession_of_up n why s up, delivery_setTransit, delivery_setDelivery_other _ _ _ _ same]
      rfl

/-- A link's due inactivity tick is cleared by being taken, and no other. -/
theorem inactivityDue_takeInactivityTick (n m : Link) (s : State) :
    ((takeInactivityTick n s).link m).inactivityDue = if m = n then false else (s.link m).inactivityDue := by
  have cleared (u : State) (l : LinkRec) (notDue : l.inactivityDue = false)
      (others : ∀ j, j ≠ n → (u.link j).inactivityDue = (s.link j).inactivityDue) :
      ((u.setLink n l).link m).inactivityDue = if m = n then false else (s.link m).inactivityDue := by
    rw [link_setLink]
    split
    next => exact notDue
    next other => exact others m other
  unfold takeInactivityTick
  dsimp only
  split
  · split
    · split
      · rw [inactivityDue_endSession]
        exact cleared s _ rfl fun _ _ => rfl
      · exact cleared _ _ rfl fun j other => by rw [link_setLink_other _ _ _ _ other]
    · exact cleared s _ rfl fun _ _ => rfl
  next notDue =>
    split
    next same => rw [same]; simpa using notDue
    next => rfl

theorem inFlight_takeInactivityTick (n m : Link) (s : State) :
    ((takeInactivityTick n s).delivery m).inFlight = (s.delivery m).inFlight
      ∨ ((takeInactivityTick n s).delivery m).inFlight = [] := by
  unfold takeInactivityTick
  dsimp only
  split
  · split
    · split
      · exact inFlight_endSession.imp_right fun ended => ended.2
      · exact .inl rfl
    · exact .inl rfl
  · exact .inl rfl

theorem offerDue_passOn (ended : Option Link) (s : State) :
    (passOn ended s).authority.offerDue = s.authority.offerDue := by
  unfold passOn
  split <;> rfl

theorem offerDue_takeOfferTick (s : State) : (takeOfferTick s).authority.offerDue = false := by
  unfold takeOfferTick
  dsimp only
  split
  · split
    · split
      · exact offerDue_passOn _ _
      · rfl
    · rfl
    · rfl
  next notDue => simpa using notDue

/-- What a gap timer's tick taken may change. -/
theorem onlyReceivers_takeGapTick (n : Link) (s : State) :
    takeGapTick n s = { s with receivers := (takeGapTick n s).receivers, links := (takeGapTick n s).links } := by
  unfold takeGapTick
  dsimp only
  split
  · split
    · split <;> rfl
    · rfl
  · rfl

theorem inactivityDue_takeGapTick (n m : Link) (s : State) :
    ((takeGapTick n s).link m).inactivityDue = (s.link m).inactivityDue := by
  unfold takeGapTick
  dsimp only
  split
  · split
    · split
      · rw [link_setLink]
        split
        next same => rw [same]
        next => rfl
      · rfl
    · rfl
  · rfl

/-- A receiver's due gap tick is cleared by being taken, and no other. -/
theorem gapDue_takeGapTick (n m : Link) (s : State) :
    ((takeGapTick n s).receiver m).gapDue = if m = n then false else (s.receiver m).gapDue := by
  have cleared (r : Receiver) (notDue : r.gapDue = false) :
      ((s.setReceiver n r).receiver m).gapDue = if m = n then false else (s.receiver m).gapDue := by
    rw [receiver_setReceiver]
    split
    next => exact notDue
    next => rfl
  unfold takeGapTick
  dsimp only
  split
  · split
    · split
      · exact cleared _ rfl
      · exact cleared _ rfl
    · exact cleared _ rfl
  next notDue =>
    split
    next same => rw [same]; simpa using notDue
    next => rfl

/-! ### The ack timers -/

/-- No two records in flight on a link carry one number, and a tick is due only at a timer that runs. -/
def State.ackTimersSound (s : State) : Prop :=
  ∀ n, ((s.delivery n).inFlight.map (·.number)).Nodup
    ∧ ∀ f ∈ (s.delivery n).inFlight, f.timerDue = true → f.timer ≠ none

/-- What taking the tick due at number `k` of link `n` leaves: no record is new, and a tick is due only where it was and not
at that number. -/
def AckTickTaken (n : Link) (k : Byte) (s t : State) : Prop :=
  ∀ m, List.Sublist ((t.delivery m).inFlight.map (·.number)) ((s.delivery m).inFlight.map (·.number))
    ∧ ∀ f ∈ (t.delivery m).inFlight, f.timerDue = true → f ∈ (s.delivery m).inFlight ∧ (m = n → f.number ≠ k)

/-- A number that finds no due record leaves everything as it is. -/
theorem ackTickTaken_of_notDue {n : Link} {k : Byte} {s : State}
    (notDue : ∀ f ∈ (s.delivery n).inFlight, f.number = k → f.timerDue = false) : AckTickTaken n k s s := by
  refine fun m => ⟨List.Sublist.refl _, fun f mem due => ⟨mem, ?_⟩⟩
  rintro rfl number
  exact absurd (notDue f mem number) (by rw [due]; simp)

/-- A record revised to have no tick due. -/
theorem ackTickTaken_of_revised {n : Link} {k : Byte} {s : State} {d : Delivery} {g : InFlight → InFlight}
    (sameNumber : ∀ f, (g f).number = f.number) (notDue : ∀ f, (g f).timerDue = false)
    (revised : d.inFlight = reviseFlight (s.delivery n).inFlight k g) : AckTickTaken n k s (s.setDelivery n d) := by
  intro m
  by_cases same : m = n
  · subst same
    rw [delivery_setDelivery_same, revised, numbers_reviseFlight _ _ _ sameNumber]
    refine ⟨List.Sublist.refl _, fun f mem due => ?_⟩
    obtain ⟨f', mem', e⟩ := mem_reviseFlight.mp mem
    by_cases number : f'.number = k
    · rw [if_pos number] at e
      rw [← e, notDue] at due
      cases due
    · rw [if_neg number] at e
      exact e ▸ ⟨mem', fun _ => number⟩
  · rw [delivery_setDelivery_other _ _ _ _ same]
    exact ⟨List.Sublist.refl _, fun f mem _ => ⟨mem, fun e => absurd e same⟩⟩

theorem AckTickTaken.endSession {n : Link} {k : Byte} {s t : State} (taken : AckTickTaken n k s t) (why : EndReason) :
    AckTickTaken n k s (endSession n why t) := by
  intro m
  rcases inFlight_endSession (n := n) (m := m) (why := why) (s := t) with e | ⟨_, e⟩
  · rw [e]; exact taken m
  · rw [e]; exact ⟨List.nil_sublist _, fun f mem => nomatch mem⟩

theorem number_unique {set : List InFlight} (unique : (set.map (·.number)).Nodup) {f g : InFlight} (hf : f ∈ set)
    (hg : g ∈ set) (same : f.number = g.number) : f = g :=
  List.inj_on_of_nodup_map unique hf hg same

theorem ackTickTaken_takeAckTick (n : Link) (k : Byte) {s : State} (sound : s.ackTimersSound) :
    AckTickTaken n k s (takeAckTick n k s) := by
  obtain ⟨unique, running⟩ := sound n
  unfold takeAckTick
  dsimp only
  split
  next f found =>
    obtain ⟨mem, number⟩ := flightOf_eq_some _ _ _ found
    split
    next t _ _ _ =>
      have stopped (d : Delivery) {x : Option Nat}
          (e : d.inFlight = reviseFlight (s.delivery n).inFlight k fun f => { f with timer := x, timerDue := false }) :=
        ackTickTaken_of_revised (g := fun f => { f with timer := x, timerDue := false }) (fun _ => rfl) (fun _ => rfl) e
      split
      · exact stopped _ rfl
      · split
        · exact stopped _ rfl
        · exact (stopped _ rfl).endSession .noAck
    next idle =>
      refine ackTickTaken_of_notDue fun g mem' number' => ?_
      rw [number_unique unique mem' mem (number'.trans number.symm), Bool.eq_false_iff]
      intro due
      obtain ⟨t, runs⟩ := Option.ne_none_iff_exists'.mp (running f mem due)
      exact idle t runs due
  next none =>
    refine ackTickTaken_of_notDue fun g mem number => ?_
    have other := List.find?_eq_none.mp none g mem
    simp [number] at other

theorem AckTickTaken.sound {n : Link} {k : Byte} {s t : State} (taken : AckTickTaken n k s t) (sound : s.ackTimersSound) :
    t.ackTimersSound := by
  intro m
  obtain ⟨fewer, due⟩ := taken m
  obtain ⟨unique, running⟩ := sound m
  exact ⟨unique.sublist fewer, fun f mem isDue => running f (due f mem isDue).1 isDue⟩

theorem delivery_settleAuthority (s : State) (m : Link) : (settleAuthority s).delivery m = s.delivery m := by
  rw [settleAuthority_leaves]; rfl

theorem ackTickTaken_taking (n : Link) (k : Byte) {s : State} (sound : s.ackTimersSound) :
    AckTickTaken n k s (taking (takeAckTick n k) s) := by
  have settled : (settleAuthority s).ackTimersSound := fun m => by rw [delivery_settleAuthority]; exact sound m
  have taken := ackTickTaken_takeAckTick n k settled
  intro m
  have taken := taken m
  rwa [delivery_settleAuthority] at taken

/-- No ack timer of a link has a tick due. -/
def State.noAckDue (s : State) (n : Link) : Prop := ∀ f ∈ (s.delivery n).inFlight, f.timerDue = false

theorem AckTickTaken.noAckDue {n m : Link} {k : Byte} {s t : State} (taken : AckTickTaken n k s t) (none : s.noAckDue m) :
    t.noAckDue m := by
  intro f mem
  rw [Bool.eq_false_iff]
  intro due
  rw [none f ((taken m).2 f mem due).1] at due
  cases due

theorem ackTimersSound_takeAckTicksOf (n : Link) {s : State} (sound : s.ackTimersSound) :
    (takeAckTicksOf n s).ackTimersSound :=
  invariant_foldl State.ackTimersSound (fun _ k h => (ackTickTaken_taking n k h).sound h) _ sound

theorem noAckDue_takeAckTicksOf_other (n m : Link) {s : State} (sound : s.ackTimersSound) (none : s.noAckDue m) :
    (takeAckTicksOf n s).noAckDue m :=
  (invariant_foldl (fun t => t.ackTimersSound ∧ t.noAckDue m)
    (fun _ k h => ⟨(ackTickTaken_taking n k h.1).sound h.1, (ackTickTaken_taking n k h.1).noAckDue h.2⟩) _
    ⟨sound, none⟩).2

/-- Every number of a link taken in turn leaves no tick due at its ack timers. -/
theorem noAckDue_takeAckTicksOf (n : Link) {s : State} (sound : s.ackTimersSound) : (takeAckTicksOf n s).noAckDue n := by
  have fewer : List.Sublist (((takeAckTicksOf n s).delivery n).inFlight.map (·.number)) ((s.delivery n).inFlight.map (·.number)) :=
    (invariant_foldl (fun t => t.ackTimersSound ∧
        List.Sublist ((t.delivery n).inFlight.map (·.number)) ((s.delivery n).inFlight.map (·.number)))
      (fun _ k h => ⟨(ackTickTaken_taking n k h.1).sound h.1, (ackTickTaken_taking n k h.1 n).1.trans h.2⟩) _
      ⟨sound, List.Sublist.refl _⟩).2
  have cleared := foldl_establishes State.ackTimersSound
    (fun t k => ∀ f ∈ (t.delivery n).inFlight, f.timerDue = true → f.number ≠ k)
    (fun _ k h => (ackTickTaken_taking n k h).sound h)
    (fun _ k h f mem due => ((ackTickTaken_taking n k h n).2 f mem due).2 rfl)
    (fun _ k _ h before f mem due => before f ((ackTickTaken_taking n k h n).2 f mem due).1 due)
    ((s.delivery n).inFlight.map (·.number)) sound
  intro f mem
  rw [Bool.eq_false_iff]
  intro due
  exact cleared f.number (fewer.subset (List.mem_map_of_mem mem)) f mem due rfl

/-! ### No stage undoes an earlier one -/

/-- Where the watch table, the line unit and the output unit say what is due there. -/
def State.unitTicks (s : State) : Vector (Option Base) 32 × Vector LineRec 16 × Bool :=
  (s.watchTicksDue, s.lines, s.claimTickDue)

theorem unitTicks_settleAuthority (s : State) : (settleAuthority s).unitTicks = s.unitTicks := by
  rw [settleAuthority_leaves]; rfl

theorem unitTicks_takeAckTicks (s : State) : (takeAckTicks s).unitTicks = s.unitTicks :=
  foldl_leaves State.unitTicks _ _ _ fun t n => foldl_leaves State.unitTicks _ _ _ fun t k => by
    rw [taking, onlyEnds_takeAckTick]
    exact unitTicks_settleAuthority t

theorem unitTicks_takeInactivityTicks (s : State) : (takeInactivityTicks s).unitTicks = s.unitTicks :=
  foldl_leaves State.unitTicks _ _ _ fun t n => by
    rw [taking, onlyEnds_takeInactivityTick]
    exact unitTicks_settleAuthority t

theorem unitTicks_takeOfferTick (s : State) : (taking takeOfferTick s).unitTicks = s.unitTicks := by
  rw [taking, onlyAuthority_takeOfferTick]
  exact unitTicks_settleAuthority s

theorem unitTicks_takeGapTicks (s : State) : (takeGapTicks s).unitTicks = s.unitTicks :=
  foldl_leaves State.unitTicks _ _ _ fun t n => by
    rw [taking, onlyReceivers_takeGapTick]
    exact unitTicks_settleAuthority t

theorem watchTicksDue_takeSamples (s : State) : (takeSamples s).watchTicksDue = s.watchTicksDue :=
  foldl_leaves State.watchTicksDue _ _ _ fun t l => by
    rw [taking, watchTicksDue_takeSample, settleAuthority_leaves]

theorem watchTicksDue_takeClaimTick (s : State) :
    (taking takeClaimTick s).watchTicksDue = s.watchTicksDue ∧ (taking takeClaimTick s).lines = s.lines := by
  unfold taking
  rw [onlyClaims_takeClaimTick, settleAuthority_leaves]
  exact ⟨rfl, rfl⟩

/-! ### Each stage clears its own ticks -/

theorem watchTickDue_takeWatchTicks (s : State) (i : WatchIx) : (takeWatchTicks s).watchTickDue i = none := by
  have settled (t : State) (j : WatchIx) : (settleAuthority t).watchTickDue j = t.watchTickDue j := by
    rw [settleAuthority_leaves]; rfl
  refine foldl_clears (fun t j => t.watchTickDue j = none) (fun t j => watchTickDue_takeWatchTick_same j _)
    (fun t j k none => (watchTickDue_takeWatchTick j k _).trans ?_) _ s i (List.mem_finRange i)
  rw [settled, none, ite_self]

theorem dueSample_takeSamples (s : State) (l : LineIx) : ((takeSamples s).line l).dueSample = none := by
  have settled (t : State) (j : LineIx) : (settleAuthority t).line j = t.line j := by
    rw [settleAuthority_leaves]; rfl
  refine foldl_clears (fun t j => (t.line j).dueSample = none) (fun t j => ?_) (fun t j k none => ?_) _ s l
    (List.mem_finRange l)
  · rw [taking, dueSample_takeSample, if_pos rfl]
  · rw [taking, dueSample_takeSample, settled, none, ite_self]

theorem noAckDue_takeAckTicks {s : State} (sound : s.ackTimersSound) (n : Link) : (takeAckTicks s).noAckDue n :=
  foldl_establishes State.ackTimersSound State.noAckDue (fun _ m h => ackTimersSound_takeAckTicksOf m h)
    (fun _ m h => noAckDue_takeAckTicksOf m h) (fun _ m k h none => noAckDue_takeAckTicksOf_other m k h none) _ sound n
    (List.mem_finRange n)

theorem noAckDue_takeInactivityTicks {s : State} {n : Link} (none : s.noAckDue n) : (takeInactivityTicks s).noAckDue n := by
  refine invariant_foldl (fun t => t.noAckDue n) (fun t m none => ?_) _ none
  intro f mem
  rcases inFlight_takeInactivityTick m n (settleAuthority t) with e | e
  · rw [delivery_settleAuthority] at e
    exact none f (e ▸ mem)
  · exact absurd (e ▸ mem : f ∈ []) List.not_mem_nil

theorem inactivityDue_takeInactivityTicks (s : State) (n : Link) :
    ((takeInactivityTicks s).link n).inactivityDue = false := by
  refine foldl_clears (fun t m => (t.link m).inactivityDue = false) (fun t m => ?_) (fun t m k none => ?_) _ s n
    (List.mem_finRange n)
  · rw [taking, inactivityDue_takeInactivityTick, if_pos rfl]
  · rw [taking, inactivityDue_takeInactivityTick, link_settleAuthority, none, ite_self]

/-- The offer timer's part leaves the deliveries and the links, and no end waiting at the authority unit. -/
theorem takeOfferTick_keeps (s : State) :
    (taking takeOfferTick s).deliveries = s.deliveries ∧ (taking takeOfferTick s).links = s.links
      ∧ (taking takeOfferTick s).transit.authorityEnds = [] := by
  rw [taking, onlyAuthority_takeOfferTick]
  refine ⟨?_, ?_, authorityEnds_settleAuthority s⟩ <;> rw [settleAuthority_leaves]

/-- With no end waiting, the gap timers' part moves neither the deliveries, the authority nor what is in transit. -/
theorem takeGapTicks_keeps {s : State} (prompt : s.transit.authorityEnds = []) :
    (takeGapTicks s).deliveries = s.deliveries ∧ (takeGapTicks s).authority = s.authority
      ∧ (takeGapTicks s).transit = s.transit := by
  refine invariant_foldl (fun t => t.deliveries = s.deliveries ∧ t.authority = s.authority ∧ t.transit = s.transit)
    (fun t n same => ?_) _ ⟨rfl, rfl, rfl⟩
  rw [taking_of_prompt _ t (by rw [same.2.2, prompt]), onlyReceivers_takeGapTick]
  exact same

theorem inactivityDue_takeGapTicks {s : State} {n : Link} (none : (s.link n).inactivityDue = false) :
    ((takeGapTicks s).link n).inactivityDue = false := by
  refine invariant_foldl (fun t => (t.link n).inactivityDue = false) (fun t m none => ?_) _ none
  rw [taking, inactivityDue_takeGapTick, link_settleAuthority]
  exact none

theorem gapDue_takeGapTicks (s : State) (n : Link) : ((takeGapTicks s).receiver n).gapDue = false := by
  refine foldl_clears (fun t m => (t.receiver m).gapDue = false) (fun t m => ?_) (fun t m k none => ?_) _ s n
    (List.mem_finRange n)
  · rw [taking, gapDue_takeGapTick, if_pos rfl]
  · rw [taking, gapDue_takeGapTick, receiver_settleAuthority, none, ite_self]

/-! ### The end of a millisecond -/

/-- Only the tick at the ack timers reaches the records in flight. -/
theorem delivery_deliverTick {p : TickPort} (other : p ≠ .ackTimers) (s : State) (n : Link) :
    (deliverTick s p).delivery n = s.delivery n := by
  cases p with
  | ackTimers => exact absurd rfl other
  | outputs =>
    change (tickClaims s).delivery n = _
    rw [tickClaims_eq]
    split <;> rfl
  | offerTimer =>
    change (tickOffer s).delivery n = _
    unfold tickOffer
    split
    · split <;> rfl
    · rfl
    · rfl
  | watches b => simp only [deliverTick, tickWatches, State.delivery]
  | lines => simp only [deliverTick, tickLines, State.delivery]
  | inactivityTimers => simp only [deliverTick, tickInactivity, State.delivery]
  | gapTimers => simp only [deliverTick, tickGaps, State.delivery]

theorem number_inFlight_tick (f : InFlight) : f.tick.number = f.number := by
  unfold InFlight.tick
  split
  · split <;> rfl
  · rfl

theorem timer_inFlight_tick {f : InFlight} (running : f.timerDue = true → f.timer ≠ none) (due : f.tick.timerDue = true) :
    f.tick.timer ≠ none := by
  unfold InFlight.tick at due ⊢
  split at due
  next t runs =>
    rw [runs]
    split
    · exact Option.some_ne_none _
    · exact Option.some_ne_none _
  next none => exact absurd none (running due)

theorem ackTimersSound_deliverTick (p : TickPort) {s : State} (sound : s.ackTimersSound) :
    (deliverTick s p).ackTimersSound := by
  intro n
  obtain ⟨unique, running⟩ := sound n
  by_cases acks : p = .ackTimers
  · subst acks
    change (((tickAckTimers s).delivery n).inFlight.map _).Nodup ∧ ∀ f ∈ ((tickAckTimers s).delivery n).inFlight, _
    rw [delivery_tickAckTimers, List.map_map, show (·.number) ∘ InFlight.tick = (·.number) from funext number_inFlight_tick]
    refine ⟨unique, fun f mem due => ?_⟩
    obtain ⟨g, mem', rfl⟩ := List.mem_map.mp mem
    exact timer_inFlight_tick (running g mem') due
  · rw [delivery_deliverTick acks]
    exact ⟨unique, running⟩

theorem ackTimersSound_deliverTicks (ports : List TickPort) {s : State} (sound : s.ackTimersSound) :
    (deliverTicks ports s).ackTimersSound :=
  invariant_foldl State.ackTimersSound (fun _ p => ackTimersSound_deliverTick p) _ sound

/-- The watch table, the line unit and the output unit have taken their ticks, and no record in flight has moved. -/
theorem unitsTaken (s : State) :
    let u := taking takeClaimTick (takeSamples (takeWatchTicks s))
    (∀ i, u.watchTickDue i = none) ∧ (∀ l, (u.line l).dueSample = none) ∧ u.claimTickDue = false
      ∧ u.deliveries = s.deliveries := by
  intro u
  obtain ⟨watchesKept, linesKept⟩ := watchTicksDue_takeClaimTick (takeSamples (takeWatchTicks s))
  have watches : u.watchTicksDue = (takeWatchTicks s).watchTicksDue := watchesKept.trans (watchTicksDue_takeSamples _)
  refine ⟨fun i => ?_, fun l => ?_, claimTickDue_takeClaimTick _, ?_⟩
  · rw [State.watchTickDue, watches]
    exact watchTickDue_takeWatchTicks s i
  · rw [State.line, linesKept]
    exact dueSample_takeSamples _ l
  · have settled (t : State) : (settleAuthority t).deliveries = t.deliveries := by rw [settleAuthority_leaves]
    have claims (t : State) : (taking takeClaimTick t).deliveries = t.deliveries := by
      unfold taking
      rw [onlyClaims_takeClaimTick]
      exact settled t
    have samples (t : State) : (takeSamples t).deliveries = t.deliveries :=
      foldl_leaves State.deliveries _ _ _ fun v l => by
        rw [taking, onlyLines_takeSample]
        exact settled v
    have entries (t : State) : (takeWatchTicks t).deliveries = t.deliveries :=
      foldl_leaves State.deliveries _ _ _ fun v i => by
        rw [taking, onlyWatches_takeWatchTick]
        exact settled v
    exact (claims _).trans ((samples _).trans (entries s))

/-- Then the timers take theirs. -/
theorem timersTaken {u : State} (sound : u.ackTimersSound) :
    let t := takeGapTicks (taking takeOfferTick (takeInactivityTicks (takeAckTicks u)))
    t.unitTicks = u.unitTicks ∧ (∀ n, t.noAckDue n) ∧ (∀ n, (t.link n).inactivityDue = false)
      ∧ t.authority.offerDue = false ∧ (∀ n, (t.receiver n).gapDue = false) ∧ t.transit.authorityEnds = [] := by
  intro t
  obtain ⟨silences, silencesEq⟩ : ∃ v, v = takeInactivityTicks (takeAckTicks u) := ⟨_, rfl⟩
  obtain ⟨offers, offersEq⟩ : ∃ v, v = taking takeOfferTick silences := ⟨_, rfl⟩
  have last : t = takeGapTicks offers := by rw [offersEq, silencesEq]
  have offer : offers.authority.offerDue = false := offersEq ▸ offerDue_takeOfferTick _
  obtain ⟨deliveries, links, prompt⟩ := takeOfferTick_keeps silences
  rw [← offersEq] at deliveries links prompt
  obtain ⟨deliveriesKept, authorityKept, transitKept⟩ := takeGapTicks_keeps prompt
  rw [last]
  refine ⟨?_, fun n => ?_, fun n => inactivityDue_takeGapTicks ?_, by rw [authorityKept, offer], gapDue_takeGapTicks offers,
    by rw [transitKept, prompt]⟩
  · rw [unitTicks_takeGapTicks, offersEq, unitTicks_takeOfferTick, silencesEq, unitTicks_takeInactivityTicks,
      unitTicks_takeAckTicks]
  · have none : silences.noAckDue n := silencesEq ▸ noAckDue_takeInactivityTicks (noAckDue_takeAckTicks sound n)
    rw [State.noAckDue, State.delivery, deliveriesKept, deliveries]
    exact none
  · rw [State.link, links, silencesEq]
    exact inactivityDue_takeInactivityTicks _ n

/-- Every due tick taken, none is due and no session end waits at the authority unit (log 3). -/
theorem noneDue_takeDueTicks {s : State} (sound : s.ackTimersSound) :
    (takeDueTicks s).noneDue ∧ (takeDueTicks s).transit.authorityEnds = [] := by
  rw [takeDueTicks_eq]
  obtain ⟨u, units⟩ : ∃ u, u = taking takeClaimTick (takeSamples (takeWatchTicks s)) := ⟨_, rfl⟩
  obtain ⟨watches, lines, outputs, deliveries⟩ := unitsTaken s
  rw [← units] at watches lines outputs deliveries ⊢
  have soundThen : u.ackTimersSound := by
    intro n
    rw [State.delivery, deliveries]
    exact sound n
  obtain ⟨kept, acks, silences, offer, gaps, prompt⟩ := timersTaken soundThen
  obtain ⟨watchesKept, both⟩ := Prod.mk.inj kept
  obtain ⟨linesKept, outputsKept⟩ := Prod.mk.inj both
  refine ⟨⟨fun i => ?_, fun l => ?_, outputsKept.trans outputs, acks, silences, offer, gaps⟩, prompt⟩
  · rw [State.watchTickDue, watchesKept]
    exact watches i
  · rw [State.line, linesKept]
    exact lines l

theorem noneDue_finishMillisecond {s : State} (sound : s.ackTimersSound) :
    (finishMillisecond s).noneDue ∧ (finishMillisecond s).transit.authorityEnds = [] := by
  unfold finishMillisecond
  exact noneDue_takeDueTicks (ackTimersSound_deliverTicks _ sound)

theorem uptime_finishMillisecond (s : State) : (finishMillisecond s).uptime = s.uptime := by
  obtain ⟨_, e, _⟩ := finishMillisecond_leaves s
  exact e

theorem uptime_deliverTicks (ports : List TickPort) (s : State) : (deliverTicks ports s).uptime = s.uptime := by
  obtain ⟨_, e, _⟩ := deliverTicks_leaves ports s
  exact e

theorem owedTicks_deliverTicks (ports : List TickPort) (s : State) :
    (deliverTicks ports s).owedTicks = s.owedTicks.filter fun p => !ports.contains p := by
  obtain ⟨_, _, e, _⟩ := deliverTicks_leaves ports s
  exact e

/-- Taking the due ticks owes none, so a millisecond that is over owes none. -/
theorem owedTicks_finishMillisecond (s : State) : (finishMillisecond s).owedTicks = [] := by
  have delivered : (deliverTicks s.owedTicks s).owedTicks = [] := by
    rw [owedTicks_deliverTicks, List.filter_eq_nil_iff]
    intro p mem
    simp [mem]
  refine Eq.trans ?_ delivered
  refine takeDueTicks_leaves State.owedTicks _ (fun t => ?_) (fun t i => ?_) (fun t l => ?_) (fun t => ?_)
    (fun t n k => ?_) (fun t n => ?_) (fun t => ?_) (fun t n => ?_)
  · rw [settleAuthority_leaves]
  · rw [onlyWatches_takeWatchTick]
  · rw [onlyLines_takeSample]
  · rw [onlyClaims_takeClaimTick]; rfl
  · rw [onlyEnds_takeAckTick]
  · rw [onlyEnds_takeInactivityTick]
  · rw [onlyAuthority_takeOfferTick]
  · rw [onlyReceivers_takeGapTick]

theorem setPins_advanceUptime (pins : Half) (t : State) :
    (advanceUptime t).setPins pins =
      { t with uptime := t.uptime + 1, owedTicks := portsAt (t.uptime + 1), evPins := pins } := rfl

/-- Settles O31: the TICK command, the end of a millisecond, the delivery of owed ticks, and where the ticks fall. -/
theorem theUptimeAndItsTicks : Obligations.TheUptimeAndItsTicks := by
  refine ⟨fun s b r pins => ⟨fun held => congrArg Host.Outcome.next (unlessReset_of_held _ s held), fun runs => ?tick⟩,
    fun s => ⟨uptime_finishMillisecond s, finishMillisecond_of_noneDue s, finishMillisecond_eq_commands,
      fun sound => ?finished⟩,
    fun ports s => ⟨uptime_deliverTicks ports s, owedTicks_deliverTicks ports s, deliverTicks_oneByOne ports⟩,
    ⟨rfl, rfl, rfl, rfl⟩,
    fun u => ⟨nodup_portsAt u, watches_mem_portsAt u, fun p => mem_portsAt_of_notWatches u⟩, rfl,
    fun b => portsOf_allBlocks_of_ne⟩
  case tick =>
    rw [exec_tick_of_runs b r pins runs]
    refine ⟨fun noPort => by rw [timeTick_of_noPort pins noPort], fun owed => by rw [timeTick_of_owed pins owed],
      fun noneOwed => ⟨fun falls ports => ?_, fun notFalling => by rw [timeTick_of_notFalling pins noneOwed notFalling]⟩⟩
    rw [timeTick_of_falling pins noneOwed falls ports, setPins_advanceUptime]
  case finished =>
    exact ⟨owedTicks_finishMillisecond s, noneDue_finishMillisecond sound⟩

end Sys2Proof.Machine


/-!
PROOF. The codes, and the layouts of the QUERY and STATUS replies and of the NOTICE payload (O12).
-/

namespace Sys2Proof.Machine

/-! ### Reading bytes back -/

theorem toNat_byteOf_of_le {k : Nat} (fits : k ≤ 255) : (byteOf k).toNat = k := by
  rw [toNat_byteOf, Nat.mod_eq_of_lt (by omega)]

theorem toNat_byteOf_fin {k : Nat} (small : k ≤ 256) (i : Fin k) : (byteOf i).toNat = i.val :=
  toNat_byteOf_of_le (by omega)

/-- Two bytes written with the least significant first read back as the number. -/
theorem halfAt_of_bytes {p : List Byte} {k v : Nat} (low : byteAt p k = byteOf v) (high : byteAt p (k + 1) = byteOf (v / 256))
    (fits : v ≤ 65535) : halfAt p k = v := by
  rw [halfAt, low, high, toNat_byteOf, toNat_byteOf]
  omega

/-- A set of lines reads back as itself. -/
theorem halfAt_of_lineSet {p : List Byte} {k : Nat} {m : Half} (low : byteAt p k = m.setWidth 8)
    (high : byteAt p (k + 1) = (m >>> 8).setWidth 8) : halfAt p k = m.toNat := by
  have bound := m.isLt
  rw [halfAt, low, high, BitVec.toNat_setWidth, BitVec.toNat_setWidth, BitVec.toNat_ushiftRight, Nat.shiftRight_eq_div_pow]
  omega

theorem byteAt_append_right (pre q : List Byte) (k : Nat) : byteAt (pre ++ q) (pre.length + k) = byteAt q k := by
  rw [byteAt, byteAt, List.getD_append_right _ _ _ _ (by omega), Nat.add_sub_cancel_left]

theorem byteAt_append_left {pre q : List Byte} {k : Nat} (inside : k < pre.length) : byteAt (pre ++ q) k = byteAt pre k :=
  List.getD_append _ _ _ _ inside

/-- Records of one size written one after another: a byte of the record at a place. -/
theorem byteAt_record {α : Type} {f : α → List Byte} {size : Nat} (sized : ∀ a, (f a).length = size) {l : List α} {k : Nat}
    {a : α} (place : l[k]? = some a) {j : Nat} (inside : j < size) (post : List Byte) :
    byteAt (l.flatMap f ++ post) (size * k + j) = byteAt (f a) j := by
  induction l generalizing k with
  | nil => cases place
  | cons b l ih =>
    rw [List.flatMap_cons, List.append_assoc]
    cases k with
    | zero =>
      obtain rfl : b = a := Option.some.inj place
      rw [Nat.mul_zero, Nat.zero_add, byteAt_append_left (by rw [sized]; exact inside)]
    | succ k =>
      rw [show size * (k + 1) + j = (f b).length + (size * k + j) by rw [sized, Nat.mul_succ]; omega,
        byteAt_append_right]
      exact ih place

theorem length_records {α : Type} {f : α → List Byte} {size : Nat} (sized : ∀ a, (f a).length = size) (l : List α) :
    (l.flatMap f).length = size * l.length := by
  rw [List.length_flatMap, List.map_congr_left fun a _ => sized a, List.map_const', List.sum_replicate, smul_eq_mul,
    Nat.mul_comm]

theorem toNat_uptimeBytes (u : Uptime) {k : Nat} (inside : k < 4) :
    (byteAt (uptimeBytes u) k).toNat = u.toNat / 256 ^ k % 256 := by
  have shifted (j : Nat) : ((u >>> (8 * j)).setWidth 8).toNat = u.toNat / 256 ^ j % 256 := by
    rw [BitVec.toNat_setWidth, BitVec.toNat_ushiftRight, Nat.shiftRight_eq_div_pow, Nat.pow_mul]
  match k, inside with
  | 0, _ => exact (BitVec.toNat_setWidth 8 u).trans (by rw [Nat.pow_zero, Nat.div_one])
  | 1, _ => exact shifted 1
  | 2, _ => exact shifted 2
  | 3, _ => exact shifted 3

/-! ### The QUERY reply -/

theorem length_stageBytes (r : StageRec) : (stageBytes r).length = 7 := rfl

theorem length_queryItems (w : Watch) : (queryItems w).length = 22 + 7 * w.ladder.length := by
  rw [queryItems, List.length_append, length_records length_stageBytes]
  rfl

theorem byteAt_queryItems_stage {w : Watch} {k j : Nat} {r : StageRec} (place : w.ladder[k]? = some r) (inside : j < 7) :
    byteAt (queryItems w) (22 + 7 * k + j) = byteAt (stageBytes r) j := by
  have e : byteAt (queryItems w) (22 + (7 * k + j)) = byteAt (w.ladder.flatMap stageBytes) (7 * k + j) :=
    byteAt_append_right _ _ (7 * k + j)
  rw [Nat.add_assoc, e, ← List.append_nil (w.ladder.flatMap stageBytes)]
  exact byteAt_record length_stageBytes place inside []

theorem grace_le_of_lawful {r : StageRec} (law : r.lawful) : r.grace ≤ 65535 := by
  obtain ⟨grace, _⟩ := law
  split at grace <;> omega

theorem duration_le_of_lawful {r : StageRec} (law : r.lawful) : r.duration ≤ 65535 := by
  obtain ⟨_, duration, _⟩ := law
  split at duration <;> omega

/-- The count of a watch fits two bytes (R22, R46). -/
theorem count_le_of_lawful {w : Watch} (law : w.lawful) : w.count ≤ 65535 := by
  obtain ⟨_, _, stages, _, ⟨counts, overdue, idle⟩, _, _, reload, _⟩ := law
  cases state : w.state with
  | free => rw [idle (by simp [state])]; omega
  | stopped => rw [idle (by simp [state])]; omega
  | quiet => rw [idle (by simp [state])]; omega
  | latched => rw [idle (by simp [state])]; omega
  | running => exact (counts (by simp [state])).2.trans reload
  | paused => exact (counts (by simp [state])).2.trans reload
  | overdue => exact (overdue state).2.trans (grace_le_of_lawful (lawful_stageRec stages w.stage))

theorem stage_le_of_lawful {w : Watch} (law : w.lawful) : w.stage ≤ 4 := by
  obtain ⟨_, _, ⟨stages, _⟩, stage, _⟩ := law
  rw [Watch.stageLaw] at stage
  split at stage <;> omega

/-! ### The STATUS reply -/

/-- The reply as the tables cut it: what stands before the links, the links, what stands after them. -/
theorem statusItems_eq (s : State) :
    statusItems s = (uptimeBytes s.uptime ++ [byteOf s.poolInUse]) ++ ((List.finRange 4).flatMap (linkStatusItems s)
      ++ ([s.authority.mode.code, s.authority.mode.linkByte] ++ claimListBytes s.authority.claimList
        ++ [outputsByte s, s.resetCause.code])) := rfl

theorem length_linkStatusItems (s : State) (n : Link) : (linkStatusItems s n).length = 9 := rfl

theorem byteAt_statusItems_link (s : State) (n : Link) {j : Nat} (inside : j < 9) :
    byteAt (statusItems s) (5 + 9 * n.val + j) = byteAt (linkStatusItems s n) j := by
  have place : (List.finRange 4)[n.val]? = some n := by
    rw [List.getElem?_eq_getElem (by simp), List.getElem_finRange]
    rfl
  rw [statusItems_eq, Nat.add_assoc]
  exact (byteAt_append_right _ _ (9 * n.val + j)).trans (byteAt_record (length_linkStatusItems s) place inside _)

theorem linkByte_eq (m : AuthorityMode) : m.linkByte = linkOrNone (m.holder <|> m.offered) := by
  cases m <;> rfl

/-- Five flags of weights 1, 2, 4, 8 and 16 stand in the five low bits. -/
theorem flags_spec (a b c d e : Bool) :
    let x : Byte := (if a then 1 else 0) ||| (if b then 2 else 0) ||| (if c then 4 else 0) ||| (if d then 8 else 0)
      ||| (if e then 16 else 0)
    x.getLsbD 0 = a ∧ x.getLsbD 1 = b ∧ x.getLsbD 2 = c ∧ x.getLsbD 3 = d ∧ x.getLsbD 4 = e ∧ x.toNat < 32 := by
  revert a b c d e
  decide

/-- Each output has its own bit (log 18). -/
theorem outputsByte_spec (s : State) :
    (∀ o : OutputIx, (outputsByte s).getLsbD o.val = s.asserted o) ∧ (outputsByte s).toNat < 32 := by
  obtain ⟨bit0, bit1, bit2, bit3, bit4, small⟩ :=
    flags_spec (s.asserted 0) (s.asserted 1) (s.asserted 2) (s.asserted 3) (s.asserted 4)
  refine ⟨fun o => ?_, small⟩
  match o with
  | 0 => exact bit0
  | 1 => exact bit1
  | 2 => exact bit2
  | 3 => exact bit3
  | 4 => exact bit4

/-! ### The NOTICE payload -/

theorem lowFlags_spec (a b c d : Bool) :
    let x : Byte := (if a then 1 else 0) ||| (if b then 2 else 0) ||| (if c then 4 else 0) ||| (if d then 8 else 0)
    x.getLsbD 0 = a ∧ x.getLsbD 1 = b ∧ x.getLsbD 2 = c ∧ x.getLsbD 3 = d ∧ x.toNat < 16 := by
  revert a b c d
  decide

/-- Each flag of a NOTICE has its own bit (R168, log 18). -/
theorem noticeFlags_spec (f : InFlight) :
    (noticeFlags f).getLsbD 0 = f.notice.key.generation.isSome ∧ (noticeFlags f).getLsbD 1 = f.notice.key.stage.isSome
      ∧ (noticeFlags f).getLsbD 2 = f.notice.origin.isSome ∧ (noticeFlags f).getLsbD 3 = decide (1 < f.attempt)
      ∧ (noticeFlags f).toNat < 16 := by
  have bits := lowFlags_spec f.notice.key.generation.isSome f.notice.key.stage.isSome f.notice.origin.isSome
    (decide (1 < f.attempt))
  simp only [decide_eq_true_eq] at bits
  exact bits

theorem length_noticePayload (f : InFlight) : (noticePayload f).length = 15 + f.notice.detail.length := by
  rw [noticePayload, List.length_append]
  rfl

/-! ### All of them -/

/-- Settles O12: the codes, the QUERY reply, the STATUS reply, the NOTICE payload. -/
theorem replyAndNoticeLayouts : Obligations.ReplyAndNoticeLayouts := by
  refine ⟨⟨rfl, rfl, rfl, rfl, rfl, rfl, rfl, ⟨rfl, fun _ _ => ⟨rfl, rfl⟩⟩, rfl, ⟨rfl, fun _ => rfl⟩, rfl, rfl,
      fun i => ⟨rfl, toNat_byteOf_fin (by decide) i⟩, fun l => ⟨rfl, toNat_byteOf_fin (by decide) l⟩,
      fun n => ⟨rfl, toNat_byteOf_fin (by decide) n⟩, ⟨rfl, rfl⟩, fun o => ⟨rfl, toNat_byteOf_fin (by decide) o⟩,
      ⟨rfl, rfl⟩, rfl, fun n => toNat_byteOf_fin (by decide) n, fun u k => toNat_uptimeBytes u⟩,
    ⟨fun w law => ?query, fun s counters pool => ?status⟩, fun f repeats loss detail stage => ?notice⟩
  case query =>
    intro q
    obtain ⟨_, _, ⟨stages, ladder, _⟩, _, _, strikeLimit, strikes, reload, _⟩ := id law
    have stage := stage_le_of_lawful law
    refine ⟨length_queryItems w, rfl, rfl, rfl, toNat_byteOf_fin (by decide) w.owner, rfl,
      halfAt_of_bytes rfl rfl reload, halfAt_of_bytes rfl rfl (count_le_of_lawful law), rfl, rfl, rfl,
      toNat_byteOf_of_le (by omega), toNat_byteOf_of_le strikes, halfAt_of_lineSet rfl rfl,
      toNat_byteOf_fin (by decide) w.primary, rfl, toNat_byteOf_fin (by decide) w.activityLevel,
      toNat_byteOf_of_le (by omega), rfl, toNat_byteOf_of_le (by omega), fun k r place => ?_⟩
    have stageLaw := ladder r (List.mem_of_getElem? place)
    have byte {j : Nat} (inside : j < 7) : byteAt q (22 + 7 * k + j) = byteAt (stageBytes r) j :=
      byteAt_queryItems_stage place inside
    exact ⟨byte (j := 0) (by omega), (congrArg BitVec.toNat (byte (j := 1) (by omega))).trans (toNat_byteOf_fin (by decide) r.target),
      halfAt_of_bytes (byte (j := 2) (by omega)) (byte (j := 3) (by omega)) (duration_le_of_lawful stageLaw),
      halfAt_of_bytes (byte (j := 4) (by omega)) (byte (j := 5) (by omega)) (grace_le_of_lawful stageLaw),
      (congrArg BitVec.toNat (byte (j := 6) (by omega))).trans (toNat_byteOf_fin (by decide) r.level)⟩
  case status =>
    intro q
    obtain ⟨inUse, _⟩ := pool
    obtain ⟨outputs, fewOutputs⟩ := outputsByte_spec s
    refine ⟨rfl, rfl, toNat_byteOf_of_le (by omega), fun n => ?_, rfl, linkByte_eq s.authority.mode, fun k few => ?_,
      outputs, fewOutputs, rfl⟩
    · obtain ⟨_, framingErrors, checkErrors, strayAcks, loss⟩ := counters n
      have byte {j : Nat} (inside : j < 9) : byteAt q (5 + 9 * n.val + j) = byteAt (linkStatusItems s n) j :=
        byteAt_statusItems_link s n inside
      exact ⟨byte (j := 0) (by omega), byte (j := 1) (by omega),
        (congrArg BitVec.toNat (byte (j := 2) (by omega))).trans (toNat_byteOf_of_le loss),
        halfAt_of_bytes (byte (j := 3) (by omega)) (byte (j := 4) (by omega)) framingErrors,
        halfAt_of_bytes (byte (j := 5) (by omega)) (byte (j := 6) (by omega)) checkErrors,
        halfAt_of_bytes (byte (j := 7) (by omega)) (byte (j := 8) (by omega)) strayAcks⟩
    · match k, few with
      | 0, _ => rfl
      | 1, _ => rfl
      | 2, _ => rfl
  case notice =>
    intro p r
    obtain ⟨generationBit, stageBit, originBit, resentBit, fewFlags⟩ := noticeFlags_spec f
    have fits : r.key.stage.getD 0 ≤ 255 := by
      cases e : r.key.stage with
      | none => exact Nat.zero_le _
      | some k => exact stage k e
    have origin : ((r.origin.map fun n => byteOf n.val).getD 0).toNat = (r.origin.map Fin.val).getD 0 := by
      cases r.origin with
      | none => rfl
      | some n => exact toNat_byteOf_fin (by decide) n
    exact ⟨length_noticePayload f, rfl, rfl, rfl, toNat_byteOf_fin (by decide) r.level, generationBit, stageBit, originBit,
      resentBit, fewFlags, rfl, toNat_byteOf_of_le fits, origin, toNat_byteOf_of_le repeats, rfl, toNat_byteOf_of_le loss,
      toNat_byteOf_of_le (by omega), rfl⟩

end Sys2Proof.Machine
